-- ==== Sys2Proof/Word.lean ====
section
/-! DEFINITION. The machine's word types (00_scope.md R10, R11): a byte of BS and QM, and the 32-bit pattern that a register, a
coefficient and a command word are. Everything a rule computes with them is in Decode.lean and Machine/. -/

namespace Sys2Proof

/-- `u8`: one byte of BS or one entry of QM (00_scope.md R11). -/
abbrev Byte := BitVec 8

/-- A 32-bit pattern: a register, a coefficient, a command word; a rule says whether it reads it as `u32` or `i32` (R11). -/
abbrev Word := BitVec 32

end Sys2Proof
end

