-- ==== Sys2Proof/Syntax.lean ====
section
/-! DEFINITION. The 31 commands of VLEC, one constructor for each row of spec/opcode_table.json (30_encoding.md R101 to R103),
with the operands a command word carries. All other operands are registers named by the command's rule (R102). -/

namespace Sys2Proof

/-- The operand `p` (30_encoding.md R102): which of the two matrices, luma (0) or chroma (1). -/
inductive QMatrix where
  | luma
  | chroma
  deriving DecidableEq, Repr

/-- The operand `class` (R102): the symbol class of a codebook. -/
inductive SymClass where
  | firstDC
  | dcDelta
  | acRun
  | acLevel
  deriving DecidableEq, Repr

/-- The commands. The operand `k` of SELPL keeps its two bits, since the value 3 is reserved (R102, R104): `WellFormed` refuses it. -/
inductive Instr where
  -- system (45_system_ops.md)
  | nop
  | srst
  | clrf
  -- codebook table (40_codebook_table.md)
  | ldcb (cls : SymClass) (ctx : BitVec 8)
  -- entropy coder (41_entropy_coder.md)
  | rdcw
  | wrcw
  | zzdec
  | zzenc
  | alignw
  -- header codec (42_header_codec.md)
  | probe
  | pfrm
  | ppic
  | nxsl
  | pslc
  | selpl (k : BitVec 2)
  | wfrm
  | wpic
  | wslc
  -- coefficient coder (43_coefficient_coder.md)
  | dcinit
  | dcsym (p : QMatrix)
  | rddc (p : QMatrix)
  | acinit
  | acsym (p : QMatrix)
  | rdac (p : QMatrix)
  | wrdc
  | wrac
  -- quantizer (44_quantizer.md)
  | foldq
  | scaleq
  | deq (p : QMatrix) (idx : BitVec 6)
  | qnt (p : QMatrix) (idx : BitVec 6)
  | qntp (p : QMatrix)
  deriving DecidableEq, Repr

end Sys2Proof
end

