-- ==== Sys2Proof/WellFormed.lean ====
section
/-! DEFINITION. Which instructions have an encoding: every operand's type already admits only its legal values (30_encoding.md R102),
but for the plane of SELPL, whose value 3 is reserved (R104). -/

namespace Sys2Proof

/-- The plane operand `k` is 0, 1 or 2 (30_encoding.md R102, R104). -/
def planeLegal (k : BitVec 2) : Bool := k != 3

/-- An instruction whose operands are all legal (30_encoding.md R102). -/
def WellFormed : Instr → Bool
  | .selpl k => planeLegal k
  | .nop | .srst | .clrf | .ldcb _ _ | .rdcw | .wrcw | .zzdec | .zzenc | .alignw
  | .probe | .pfrm | .ppic | .nxsl | .pslc | .wfrm | .wpic | .wslc
  | .dcinit | .dcsym _ | .rddc _ | .acinit | .acsym _ | .rdac _ | .wrdc | .wrac
  | .foldq | .scaleq | .deq _ _ | .qnt _ _ | .qntp _ => true

end Sys2Proof
end

