-- ==== Sys2Proof/Decode.lean ====
section
/-! DEFINITION. Decoding a command word (30_encoding.md R100 to R104), total on every 32-bit word and refusing by name, then the
encoder, written from the same tables, and the opcode map of R103 as data. -/

namespace Sys2Proof

/-- Why a word is not a command (30_encoding.md R104). Every one of them is `IllegalCommand(BAD_WORD)`. -/
inductive BadWord where
  /-- The opcode is not in the table of R103. -/
  | reservedOpcode
  /-- A reserved bit of the word's format is 1. -/
  | reservedBits
  /-- SELPL with `k = 3`. -/
  | reservedPlane
  deriving DecidableEq, Repr

/-- Bits 31:24 of a word, the opcode in every format (R100). -/
def opcodeField (w : Word) : BitVec 8 := w.extractLsb' 24 8

/-- The matrix operand `p` from its bit (R102). -/
def QMatrix.ofBit (b : Bool) : QMatrix := if b then .chroma else .luma

/-- The bit that stands for a matrix (R102). -/
def QMatrix.bit : QMatrix → BitVec 1
  | .luma => 0
  | .chroma => 1

/-- The symbol class from its two bits (R102). -/
def SymClass.ofBits (c : BitVec 2) : SymClass :=
  if c = 0 then .firstDC else if c = 1 then .dcDelta else if c = 2 then .acRun else .acLevel

/-- The two bits that stand for a symbol class (R102). -/
def SymClass.bits : SymClass → BitVec 2
  | .firstDC => 0
  | .dcDelta => 1
  | .acRun => 2
  | .acLevel => 3

/-- Format N (R101): bits 23:0 are reserved. -/
def formatN (w : Word) (i : Instr) : Except BadWord Instr :=
  if w.extractLsb' 0 24 = 0 then .ok i else .error .reservedBits

/-- Format P (R101): `p` in bit 0, bits 23:1 reserved. -/
def formatP (w : Word) (i : QMatrix → Instr) : Except BadWord Instr :=
  if w.extractLsb' 1 23 = 0 then .ok (i (QMatrix.ofBit (w.getLsbD 0))) else .error .reservedBits

/-- Format K (R101): `k` in bits 1:0, bits 23:2 reserved; `k = 3` is refused (R104). -/
def formatK (w : Word) (i : BitVec 2 → Instr) : Except BadWord Instr :=
  if w.extractLsb' 2 22 = 0 then
    if planeLegal (w.extractLsb' 0 2) then .ok (i (w.extractLsb' 0 2)) else .error .reservedPlane
  else .error .reservedBits

/-- Format C (R101): `class` in bits 9:8, `ctx` in bits 7:0, bits 23:10 reserved. -/
def formatC (w : Word) (i : SymClass → BitVec 8 → Instr) : Except BadWord Instr :=
  if w.extractLsb' 10 14 = 0 then .ok (i (SymClass.ofBits (w.extractLsb' 8 2)) (w.extractLsb' 0 8))
  else .error .reservedBits

/-- Format I (R101): `idx` in bits 13:8, `p` in bit 0, bits 23:14 and 7:1 reserved. -/
def formatI (w : Word) (i : QMatrix → BitVec 6 → Instr) : Except BadWord Instr :=
  if w.extractLsb' 14 10 = 0 ∧ w.extractLsb' 1 7 = 0 then
    .ok (i (QMatrix.ofBit (w.getLsbD 0)) (w.extractLsb' 8 6))
  else .error .reservedBits

/-- Decode a command word (R103, R104). -/
def decode (w : Word) : Except BadWord Instr :=
  match (opcodeField w).toNat with
  | 0x00 => formatN w .nop
  | 0x01 => formatN w .srst
  | 0x02 => formatN w .clrf
  | 0x10 => formatC w .ldcb
  | 0x11 => formatN w .rdcw
  | 0x12 => formatN w .wrcw
  | 0x13 => formatN w .zzdec
  | 0x14 => formatN w .zzenc
  | 0x15 => formatN w .alignw
  | 0x20 => formatN w .probe
  | 0x21 => formatN w .pfrm
  | 0x22 => formatN w .ppic
  | 0x23 => formatN w .nxsl
  | 0x24 => formatN w .pslc
  | 0x25 => formatK w .selpl
  | 0x28 => formatN w .wfrm
  | 0x29 => formatN w .wpic
  | 0x2A => formatN w .wslc
  | 0x30 => formatN w .dcinit
  | 0x31 => formatP w .dcsym
  | 0x32 => formatP w .rddc
  | 0x33 => formatN w .acinit
  | 0x34 => formatP w .acsym
  | 0x35 => formatP w .rdac
  | 0x38 => formatN w .wrdc
  | 0x39 => formatN w .wrac
  | 0x40 => formatN w .foldq
  | 0x41 => formatN w .scaleq
  | 0x42 => formatI w .deq
  | 0x43 => formatI w .qnt
  | 0x44 => formatP w .qntp
  | _ => .error .reservedOpcode

/-- The opcode of each command (R103). It is also what a fault record names the command by (60_exceptions.md R270, R272). -/
def Instr.opcode : Instr → BitVec 8
  | .nop => 0x00
  | .srst => 0x01
  | .clrf => 0x02
  | .ldcb _ _ => 0x10
  | .rdcw => 0x11
  | .wrcw => 0x12
  | .zzdec => 0x13
  | .zzenc => 0x14
  | .alignw => 0x15
  | .probe => 0x20
  | .pfrm => 0x21
  | .ppic => 0x22
  | .nxsl => 0x23
  | .pslc => 0x24
  | .selpl _ => 0x25
  | .wfrm => 0x28
  | .wpic => 0x29
  | .wslc => 0x2A
  | .dcinit => 0x30
  | .dcsym _ => 0x31
  | .rddc _ => 0x32
  | .acinit => 0x33
  | .acsym _ => 0x34
  | .rdac _ => 0x35
  | .wrdc => 0x38
  | .wrac => 0x39
  | .foldq => 0x40
  | .scaleq => 0x41
  | .deq _ _ => 0x42
  | .qnt _ _ => 0x43
  | .qntp _ => 0x44

/-- Bits 23:0 of a command's word: its operands in the places of its format, every reserved bit 0 (R101). -/
def Instr.operandBits : Instr → BitVec 24
  | .ldcb c x => (0 : BitVec 14) ++ c.bits ++ x
  | .selpl k => (0 : BitVec 22) ++ k
  | .dcsym p | .rddc p | .acsym p | .rdac p | .qntp p => (0 : BitVec 23) ++ p.bit
  | .deq p x | .qnt p x => (0 : BitVec 10) ++ x ++ (0 : BitVec 7) ++ p.bit
  | .nop | .srst | .clrf | .rdcw | .wrcw | .zzdec | .zzenc | .alignw | .probe | .pfrm | .ppic | .nxsl | .pslc
  | .wfrm | .wpic | .wslc | .dcinit | .acinit | .wrdc | .wrac | .foldq | .scaleq => 0

/-- The word of an instruction (R101, R105). -/
def encode (i : Instr) : Word := i.opcode ++ i.operandBits

/-- One row of the opcode map of R103: a word `w` is the row's command when `w AND mask = pattern`. -/
structure OpcodeRow where
  mnemonic : String
  pattern : Word
  mask : Word
  deriving DecidableEq, Repr

/-- Whether a word matches a row (R103). -/
def OpcodeRow.matches (r : OpcodeRow) (w : Word) : Bool := w &&& r.mask = r.pattern

/-- The opcode map of R103, as its table gives it. -/
def opcodeMap : List OpcodeRow := [
  ⟨"NOP", 0x00000000, 0xFFFFFFFF⟩, ⟨"SRST", 0x01000000, 0xFFFFFFFF⟩, ⟨"CLRF", 0x02000000, 0xFFFFFFFF⟩,
  ⟨"LDCB", 0x10000000, 0xFFFFFC00⟩, ⟨"RDCW", 0x11000000, 0xFFFFFFFF⟩, ⟨"WRCW", 0x12000000, 0xFFFFFFFF⟩,
  ⟨"ZZDEC", 0x13000000, 0xFFFFFFFF⟩, ⟨"ZZENC", 0x14000000, 0xFFFFFFFF⟩, ⟨"ALIGNW", 0x15000000, 0xFFFFFFFF⟩,
  ⟨"PROBE", 0x20000000, 0xFFFFFFFF⟩, ⟨"PFRM", 0x21000000, 0xFFFFFFFF⟩, ⟨"PPIC", 0x22000000, 0xFFFFFFFF⟩,
  ⟨"NXSL", 0x23000000, 0xFFFFFFFF⟩, ⟨"PSLC", 0x24000000, 0xFFFFFFFF⟩, ⟨"SELPL", 0x25000000, 0xFFFFFFFC⟩,
  ⟨"WFRM", 0x28000000, 0xFFFFFFFF⟩, ⟨"WPIC", 0x29000000, 0xFFFFFFFF⟩, ⟨"WSLC", 0x2A000000, 0xFFFFFFFF⟩,
  ⟨"DCINIT", 0x30000000, 0xFFFFFFFF⟩, ⟨"DCSYM", 0x31000000, 0xFFFFFFFE⟩, ⟨"RDDC", 0x32000000, 0xFFFFFFFE⟩,
  ⟨"ACINIT", 0x33000000, 0xFFFFFFFF⟩, ⟨"ACSYM", 0x34000000, 0xFFFFFFFE⟩, ⟨"RDAC", 0x35000000, 0xFFFFFFFE⟩,
  ⟨"WRDC", 0x38000000, 0xFFFFFFFF⟩, ⟨"WRAC", 0x39000000, 0xFFFFFFFF⟩, ⟨"FOLDQ", 0x40000000, 0xFFFFFFFF⟩,
  ⟨"SCALEQ", 0x41000000, 0xFFFFFFFF⟩, ⟨"DEQ", 0x42000000, 0xFFFFC0FE⟩, ⟨"QNT", 0x43000000, 0xFFFFC0FE⟩,
  ⟨"QNTP", 0x44000000, 0xFFFFFFFE⟩]

/-- The row of R103 that an instruction's word belongs to: its pattern is the opcode over 24 zeros. -/
def Instr.pattern (i : Instr) : Word := i.opcode ++ (0 : BitVec 24)

/-- The mask of an instruction's format (R101, R103): a 1 at the opcode bits and at every reserved bit. -/
def Instr.mask : Instr → Word
  | .ldcb _ _ => 0xFFFFFC00
  | .selpl _ => 0xFFFFFFFC
  | .dcsym _ | .rddc _ | .acsym _ | .rdac _ | .qntp _ => 0xFFFFFFFE
  | .deq _ _ | .qnt _ _ => 0xFFFFC0FE
  | .nop | .srst | .clrf | .rdcw | .wrcw | .zzdec | .zzenc | .alignw | .probe | .pfrm | .ppic | .nxsl | .pslc
  | .wfrm | .wpic | .wslc | .dcinit | .acinit | .wrdc | .wrac | .foldq | .scaleq => 0xFFFFFFFF

/-- What the decoder reads from an instruction whose `nbits` bits are `w`, every bit above them 0. A VLEC command is one 32-bit
word (R100), so the bits are the word. -/
def decodeTableWord (nbits w : Nat) : Option Instr :=
  match decode (BitVec.ofNat 32 (w % 2 ^ nbits)) with
  | .ok i => some i
  | .error _ => none

end Sys2Proof
end

