-- ==== Sys2Proof/Machine/Memory.lean ====
section
/-! DEFINITION. A memory as plain data: a list of its elements in one canonical form, and every operation on one. Which memories there
are, and what an unlisted element of each reads as, is in Machine/State.lean. -/

namespace Sys2Proof.Machine

/-- A sparse memory of `w`-bit elements: the elements that differ from what an unlisted one reads as, addresses strictly rising. -/
abbrev Memory (w : Nat) := List (Nat × BitVec w)

/-- The canonical form of a memory whose unlisted elements read `d`. -/
abbrev Memory.wf {w : Nat} (d : BitVec w) (m : Memory w) : Prop :=
  m.Pairwise (fun a b => a.1 < b.1) ∧ ∀ c ∈ m, c.2 ≠ d

/-- Every listed element lies below `n`, the memory's size. -/
abbrev Memory.inside {w : Nat} (n : Nat) (m : Memory w) : Prop := ∀ c ∈ m, c.1 < n

/-- Read one element; an unlisted one reads `d`. -/
def Memory.read {w : Nat} (d : BitVec w) : Memory w → Nat → BitVec w
  | [], _ => d
  | (k, v) :: m, a => if k = a then v else Memory.read d m a

/-- Write one element, keeping the canonical form: writing `d` removes the entry. -/
def Memory.write {w : Nat} (d : BitVec w) : Memory w → Nat → BitVec w → Memory w
  | [], a, v => if v = d then [] else [(a, v)]
  | (k, x) :: m, a, v =>
    if a < k then (if v = d then (k, x) :: m else (a, v) :: (k, x) :: m)
    else if a = k then (if v = d then m else (a, v) :: m)
    else (k, x) :: Memory.write d m a v

/-- The listed elements of a memory that holds `f i` at `base + i` for `i` below `n`. -/
def Memory.tabulate {w : Nat} (d : BitVec w) (base n : Nat) (f : Nat → BitVec w) : Memory w :=
  (List.range n).filterMap fun i => if f i = d then none else some (base + i, f i)

/-- Write `f i` at `base + i` for every `i` below `n`: a loop of single writes to `n` consecutive elements, in one operation (log
entry 20). -/
def Memory.writeRange {w : Nat} (d : BitVec w) (m : Memory w) (base n : Nat) (f : Nat → BitVec w) : Memory w :=
  m.filter (fun c => c.1 < base) ++ (Memory.tabulate d base n f ++ m.filter (fun c => base + n ≤ c.1))

/-- The memory of `n` elements that the pairs describe, a later pair for an address replacing an earlier one; a pair at or beyond `n`
describes no element. Every memory in canonical form inside `n` is that of its own list. -/
def Memory.ofPairs {w : Nat} (d : BitVec w) (n : Nat) (l : List (Nat × BitVec w)) : Memory w :=
  (l.filter fun c => c.1 < n).foldl (fun m c => Memory.write d m c.1 c.2) []

end Sys2Proof.Machine
end

