-- ==== Sys2Proof/Config.lean ====
section
/-! DEFINITION. What an implementation fixes (00_scope.md R6, R8): the parameters of the block. A command never writes one. The model
takes them as an argument by holding a `Config` in the state (log entry 2), so a statement about every state is a statement
about every value of them. The recommended defaults are in Machine/Tables.lean. At the end, the free contents of the memories after
reset. -/

namespace Sys2Proof

/-- A codebook: the triple of 40_codebook_table.md R140, each field 0 to 15. -/
structure Codebook where
  riceOrder : BitVec 4
  expOrder : BitVec 4
  switchBits : BitVec 4
  deriving DecidableEq, Repr

/-- CBROM (10_state.md R45): one first-DC, seven DC-delta, sixteen AC-run and ten AC-level codebooks. -/
structure CodebookRom where
  firstDC : Codebook
  dcDelta : Vector Codebook 7
  acRun : Vector Codebook 16
  acLevel : Vector Codebook 10
  deriving DecidableEq, Repr

/-- SCANROM (10_state.md R46): two tables of 64 raster positions, each 0 to 63. -/
structure ScanRom where
  progressive : Vector (BitVec 6) 64
  interlaced : Vector (BitVec 6) 64
  deriving DecidableEq, Repr

/-- `DC_CTX_INIT` (00_scope.md R8, D13): a constant 0 to 6, or the mode `FIRST_CODE`. -/
inductive DcCtxInit where
  | const (c : Fin 7)
  | firstCode
  deriving DecidableEq, Repr

/-- The parameters of 00_scope.md R8 that are not constants of the block. -/
structure Config where
  /-- `BS_BYTES`, the capacity of BS in bytes. -/
  bsBytes : Nat
  /-- `LOG2_MAX_BPS`, log2 of the largest `blocksPerSlice` COEF holds. -/
  log2MaxBps : Nat
  /-- `MAX_SLICES`, the entries of SST. -/
  maxSlices : Nat
  /-- `CBROM`. -/
  cbrom : CodebookRom
  /-- `SCANROM`. -/
  scanrom : ScanRom
  /-- `DC_CTX_INIT`. -/
  dcCtxInit : DcCtxInit
  /-- `RUN_CTX_INIT`, 0 to 15. -/
  runCtxInit : Fin 16
  /-- `LEV_CTX_INIT`, 0 to 9. -/
  levCtxInit : Fin 10
  /-- `REG_BASE`: where the registers sit on the host's bus. No rule reads it (D2). -/
  regBase : Nat
  /-- The register stride on the host's bus. No rule reads it (D2). -/
  regStride : Nat
  deriving DecidableEq, Repr

/-- The constraint on a scan table (10_state.md R46): a permutation of 0 to 63 whose entry 0 is 0. -/
def scanTableLegal (t : Vector (BitVec 6) 64) : Bool := t[0] = 0 ∧ t.toList.Nodup

/-- The constraints every value of the parameters must meet (the open-parameter table of 92_eei_decisions.md). -/
def Config.wf (c : Config) : Bool :=
  1 ≤ c.bsBytes ∧ c.bsBytes ≤ 2 ^ 28 ∧ c.log2MaxBps ≤ 17 ∧ 1 ≤ c.maxSlices ∧ c.maxSlices ≤ 65535 ∧
  scanTableLegal c.scanrom.progressive ∧ scanTableLegal c.scanrom.interlaced

/-! The contents of the memories after hardware reset, which the spec leaves arbitrary (70_reset_and_hazards.md R302;
93_implementation_defined.md U40). They are constants without a body: nothing can be proved of their value, so what is proved of
`State.reset` holds for all of them (log entry 4, safe). -/

/-- The bytes of BS after hardware reset, as (address, byte) pairs. -/
opaque Config.powerOnBs : List (Nat × Byte)

/-- The words of COEF after hardware reset, as (index, word) pairs. -/
opaque Config.powerOnCoef : List (Nat × Word)

/-- The entries of SST after hardware reset, as (index, entry) pairs. -/
opaque Config.powerOnSst : List (Nat × BitVec 16)

end Sys2Proof
end

