-- ==== Sys2Proof/Machine/Tables.lean ====
section
/-! DEFINITION. The constants of the block (00_scope.md R8) and the recommended defaults of its OPEN parameters: CBROM
(40_codebook_table.md R142), SCANROM (10_state.md R46) and the initial contexts. The defaults are marked in the spec as general
knowledge, not in its source: log entries 3, 5, 6, 7, 11. -/

namespace Sys2Proof.Machine

/-- `LOOKAHEAD`: bits searched for the terminating `1` of a codeword (R8). -/
def lookahead : Nat := 16

/-- `ESC_MAX_BITS`: the largest legal escape suffix length (R8). -/
def escMaxBits : Nat := 16

/-- `QM_DEFAULT`: every entry of an absent quantization matrix (R8). -/
def qmDefault : Nat := 4

/-- `QS_MIN`, the low end of the clip range of the raw qScale byte (R8). -/
def qsMin : Nat := 1

/-- `QS_MAX`, the high end of the clip range of the raw qScale byte (R8). -/
def qsMax : Nat := 224

/-- `QS_FOLD`, the fold point of the raw qScale byte (R8). -/
def qsFold : Nat := 128

/-- `DC_CTX_MAX`: the clamp of the DC-delta context (R8). -/
def dcCtxMax : Nat := 6

/-- `RUN_CTX_MAX`: the clamp of the AC-run context (R8). -/
def runCtxMax : Nat := 15

/-- `LEV_CTX_MAX`: the clamp of the AC-level context (R8). -/
def levCtxMax : Nat := 9

/-- A codebook packed in a byte as R142 packs it: `riceOrder = b >> 5`, `expOrder = (b >> 2) AND 7`, `switchBits = b AND 3`. -/
def codebookOfByte (b : Byte) : Codebook where
  riceOrder := (b.extractLsb' 5 3).setWidth 4
  expOrder := (b.extractLsb' 2 3).setWidth 4
  switchBits := (b.extractLsb' 0 2).setWidth 4

/-- The default table of R142. PRESUMED (log entry 5): unsafe for a stream coded under another table. -/
def defaultCbrom : CodebookRom where
  firstDC := codebookOfByte 0xB8
  dcDelta := (#v[0x04, 0x28, 0x28, 0x4D, 0x4D, 0x70, 0x70] : Vector Byte 7).map codebookOfByte
  acRun := (#v[0x06, 0x06, 0x05, 0x05, 0x04, 0x29, 0x29, 0x29, 0x29, 0x28, 0x28, 0x28, 0x28, 0x28, 0x28, 0x4C] : Vector Byte 16).map codebookOfByte
  acLevel := (#v[0x04, 0x0A, 0x05, 0x06, 0x04, 0x28, 0x28, 0x28, 0x28, 0x4C] : Vector Byte 10).map codebookOfByte

/-- The default tables of R46. PRESUMED (log entry 6): unsafe for a stream coded under other tables. -/
def defaultScanrom : ScanRom where
  progressive := #v[
    0, 1, 8, 9, 2, 3, 10, 11, 16, 17, 24, 25, 18, 19, 26, 27,
    4, 5, 12, 20, 13, 6, 7, 14, 21, 28, 29, 22, 15, 23, 30, 31,
    32, 33, 40, 48, 41, 34, 35, 42, 49, 56, 57, 50, 43, 36, 37, 44,
    51, 58, 59, 52, 45, 38, 39, 46, 53, 60, 61, 54, 47, 55, 62, 63]
  interlaced := #v[
    0, 8, 1, 9, 16, 24, 17, 25, 2, 10, 3, 11, 18, 26, 19, 27,
    32, 40, 33, 34, 41, 48, 56, 49, 42, 35, 43, 50, 57, 58, 51, 59,
    4, 12, 5, 6, 13, 20, 28, 21, 14, 7, 15, 22, 29, 36, 44, 37,
    30, 23, 31, 38, 45, 52, 60, 53, 46, 39, 47, 54, 61, 62, 55, 63]

/-- The parameters at `State.reset`: the defaults of R8; the capacity of BS, which has none, is the largest legal one
(DESIGN CHOICE, log entry 3), and the bus placement, which no rule reads, is 0 with stride 4 (DESIGN CHOICE, log entry 11).
Unsafe only for a statement about `State.reset` itself. -/
def defaultConfig : Config where
  bsBytes := 2 ^ 28
  log2MaxBps := 5
  maxSlices := 65535
  cbrom := defaultCbrom
  scanrom := defaultScanrom
  dcCtxInit := .const 5
  runCtxInit := 4
  levCtxInit := 2
  regBase := 0
  regStride := 4

end Sys2Proof.Machine
end

