-- ==== Sys2Proof/Machine/State.lean ====
section
/-! DEFINITION. The state of one VLEC instance as plain data: every register of 10_state.md R20 that is storage, grouped as the spec
groups them, the five memories, the parameters, and the host's actions not yet served. Registers that the spec derives (CBGO,
CBGB, CBRM, FH_FRAMETYPE, FH_CHROMATYPE, FH_TFF, FH_MBW; R29, R34) are views, in Machine/Operands.lean. CMD holds nothing (R28). -/

namespace Sys2Proof.Machine

/-- Why a step of the model stops. No command stops: VLEC's own faults are next states (60_exceptions.md R270, R272). Only the host can
reach one of these, by a write to a location that does not exist. All are safe: the model stops where the spec gives no location. -/
inductive Fault where
  /-- Raised by `hostStep`: the host writes a byte of BS at or beyond `BS_BYTES` (10_state.md R40). Safe. -/
  | bsAddress
  /-- Raised by `hostStep`: the host writes a word of COEF at or beyond `64 * 2^LOG2_MAX_BPS` (10_state.md R41). Safe. -/
  | coefIndex
  /-- Raised by `hostStep`: the host writes an entry of SST at or beyond `MAX_SLICES` (10_state.md R44). Safe. -/
  | sstIndex
  deriving DecidableEq, Repr

/-- Why the model has no meaning for an instruction. -/
inductive Refusal where
  /-- Raised by an arm of `exec` that has no meaning. Safe. No arm raises it: every command has its meaning. -/
  | notModelled (mnemonic : String)
  deriving DecidableEq, Repr

/-- One action of the host between commands (00_scope.md R5, R7; 10_state.md R39; 20_memory.md R89). -/
inductive HostAction where
  /-- A write of `v` to register number `n` (10_state.md R20); number 0 is `CMD` and starts a command (R28). -/
  | writeReg (n : Nat) (v : Word)
  /-- A write of one byte of BS. -/
  | writeBs (addr : Nat) (b : Byte)
  /-- A write of one word of COEF. -/
  | writeCoef (k : Nat) (v : Word)
  /-- A write of one entry of QM. -/
  | writeQm (p : QMatrix) (i : BitVec 6) (b : Byte)
  /-- A write of one entry of SST. -/
  | writeSst (n : Nat) (v : BitVec 16)
  deriving DecidableEq, Repr

/-- `STATUS` (10_state.md R25): seven flags and no reserved bit; the register's value is `Status.word`. -/
structure Status where
  halt : Bool
  corrupt : Bool
  abandon : Bool
  eop : Bool
  eos : Bool
  slok : Bool
  rej : Bool
  deriving DecidableEq, Repr

/-- The fatal fault record and the log of concealed corruptions (10_state.md R27), registers 3 to 8. -/
structure FaultRecord where
  fault : BitVec 24
  faultPos : Word
  log : BitVec 24
  logPos : Word
  logXY : Word
  corruptCnt : Word
  deriving DecidableEq, Repr

/-- The cursors and their bounds (10_state.md R23, R24), registers 21 to 25. -/
structure Cursors where
  bitpos : Word
  bitend : Word
  byteptr : Word
  bsLen : Word
  frameBase : Word
  deriving DecidableEq, Repr

/-- The slice-plane configuration (10_state.md R30 to R32), registers 26 to 28. -/
structure PlaneConfig where
  l2bps : BitVec 5
  maxc : BitVec 7
  scansel : BitVec 1
  deriving DecidableEq, Repr

/-- The stored frame header registers (10_state.md R33, R34), registers 32 to 42. -/
structure FrameHeader where
  framesize : Word
  hdrsize : BitVec 16
  version : BitVec 16
  creator : Word
  width : BitVec 16
  height : BitVec 16
  flags1 : BitVec 8
  colorHi : BitVec 16
  colorLo : Word
  flags2 : BitVec 8
  payload : Word
  deriving DecidableEq, Repr

/-- The picture header registers (10_state.md R35), registers 48 to 54. -/
structure PictureHeader where
  hdrsize : BitVec 5
  reserved : Word
  slicecount : BitVec 16
  l2byte : BitVec 8
  mbh : BitVec 13
  base : Word
  spr : BitVec 16
  deriving DecidableEq, Repr

/-- The state of the slice schedule (10_state.md R36), registers 64 to 68. -/
structure Schedule where
  idx : BitVec 17
  mbx : BitVec 13
  mby : BitVec 13
  cur : BitVec 16
  ptr : Word
  deriving DecidableEq, Repr

/-- The current slice (10_state.md R37), registers 69 to 82. -/
structure Slice where
  base : Word
  size : BitVec 16
  x : BitVec 13
  y : BitVec 13
  mbcount : BitVec 16
  hdrsize : BitVec 5
  qsraw : BitVec 8
  qscale : Word
  ysize : BitVec 16
  usize : BitVec 16
  vsize : BitVec 16
  l2bpsY : BitVec 5
  l2bpsC : BitVec 5
  plane : BitVec 2
  deriving DecidableEq, Repr

/-- The coder context (10_state.md R38), registers 96 to 102. -/
structure CoderContext where
  blk : BitVec 18
  prevcode : Word
  sign : Bool
  prevdc : Word
  pos : Word
  prevrun : Word
  prevlev : Word
  deriving DecidableEq, Repr

/-- What an unlisted byte of BS reads as: a convention of the representation. The contents of BS after hardware reset are no such
choice (see `State.reset`). -/
def bsUnlisted : Byte := 0

/-- What an unlisted word of COEF reads as: a convention of the representation, as `bsUnlisted`. -/
def coefUnlisted : Word := 0

/-- What an unlisted entry of SST reads as: a convention of the representation, as `bsUnlisted`. -/
def sstUnlisted : BitVec 16 := 0

/-- What an unlisted entry of QM reads as: its reset value 4 (10_state.md R42; R301). -/
def qmUnlisted : Byte := 4

/-- What an unlisted entry of QMS reads as: its reset value 4 (10_state.md R43; R301). -/
def qmsUnlisted : Word := 4

/-- The state of one instance. -/
structure State where
  /-- The parameters (00_scope.md R6, R8), which no step changes. The model's own way to take them as an argument (log entry 2). -/
  cfg : Config
  /-- The host's actions not yet served, in its order. The model's own field (log entry 1). -/
  host : List HostAction
  /-- `STATUS` (R25). -/
  status : Status
  /-- `CTRL.STRICT` (R26), the one bit of `CTRL`. -/
  strict : Bool
  /-- `FAULT` to `CORRUPT_CNT` (R27). -/
  record : FaultRecord
  /-- `VAL` (R21). -/
  val : Word
  /-- `CBD` (R29). -/
  cbd : BitVec 12
  /-- `BITPOS` to `FRAME_BASE` (R23, R24). -/
  cur : Cursors
  /-- `L2BPS`, `MAXC`, `SCANSEL` (R30 to R32). -/
  plane : PlaneConfig
  /-- `FH_FRAMESIZE` to `FH_PAYLOAD` (R33, R34). -/
  fh : FrameHeader
  /-- `PH_HDRSIZE` to `PH_SPR` (R35). -/
  ph : PictureHeader
  /-- `SL_IDX` to `SL_PTR` (R36). -/
  sched : Schedule
  /-- `SL_BASE` to `SL_PLANE` (R37). -/
  slice : Slice
  /-- `CTX_BLK` to `CTX_PREVLEV` (R38). -/
  ctx : CoderContext
  /-- BS (R40), by byte address. -/
  bs : Memory 8
  /-- COEF (R41), by word index. -/
  coef : Memory 32
  /-- QM (R42): entry `QM[p][i]` at `64 * p + i`. -/
  qm : Memory 8
  /-- QMS (R43): entry `QMS[p][i]` at `64 * p + i`. -/
  qms : Memory 32
  /-- SST (R44), by slice index. -/
  sst : Memory 16
  deriving DecidableEq, Repr

/-- The machine right after hardware reset: every register at the value of the reset column of 10_state.md R20
(70_reset_and_hazards.md R301); QM and QMS flat 4; BS, COEF and SST hold the arbitrary contents of `Config`, of which nothing can be
proved (R302, log entry 4); no host action pending. -/
def State.reset : State where
  cfg := defaultConfig
  host := []
  status := ⟨false, false, false, false, false, false, false⟩
  strict := false
  record := ⟨0, 0, 0, 0, 0, 0⟩
  val := 0
  cbd := 0
  cur := ⟨0, 0, 0, 0, 0⟩
  plane := { l2bps := 0, maxc := 64, scansel := 0 }
  fh := { framesize := 0, hdrsize := 0, version := 0, creator := 0x61706C30, width := 0, height := 0,
          flags1 := 0, colorHi := 0, colorLo := 0, flags2 := 0, payload := 0 }
  ph := { hdrsize := 8, reserved := 0, slicecount := 0, l2byte := 0, mbh := 0, base := 0, spr := 0 }
  sched := { idx := 0, mbx := 0, mby := 0, cur := 1, ptr := 0 }
  slice := { base := 0, size := 0, x := 0, y := 0, mbcount := 0, hdrsize := 6, qsraw := 1, qscale := 1,
             ysize := 0, usize := 0, vsize := 0, l2bpsY := 0, l2bpsC := 0, plane := 0 }
  ctx := { blk := 0, prevcode := 0, sign := false, prevdc := 0, pos := 0, prevrun := 0, prevlev := 0 }
  bs := Memory.ofPairs bsUnlisted defaultConfig.bsBytes Config.powerOnBs
  coef := Memory.ofPairs coefUnlisted (64 * 2 ^ defaultConfig.log2MaxBps) Config.powerOnCoef
  qm := []
  qms := []
  sst := Memory.ofPairs sstUnlisted defaultConfig.maxSlices Config.powerOnSst

/-! The named updates, one for each field; Laws/State.lean has what each leaves in every field. -/

/-- Replace the host's pending actions. -/
def State.withHost (s : State) (x : List HostAction) : State := { s with host := x }
/-- Replace `STATUS`. -/
def State.withStatus (s : State) (x : Status) : State := { s with status := x }
/-- Replace `CTRL.STRICT`. -/
def State.withStrict (s : State) (x : Bool) : State := { s with strict := x }
/-- Replace the fault record and log. -/
def State.withRecord (s : State) (x : FaultRecord) : State := { s with record := x }
/-- Replace `VAL`. -/
def State.withVal (s : State) (x : Word) : State := { s with val := x }
/-- Replace `CBD`. -/
def State.withCbd (s : State) (x : BitVec 12) : State := { s with cbd := x }
/-- Replace the cursors. -/
def State.withCur (s : State) (x : Cursors) : State := { s with cur := x }
/-- Replace the slice-plane configuration. -/
def State.withPlane (s : State) (x : PlaneConfig) : State := { s with plane := x }
/-- Replace the frame header registers. -/
def State.withFh (s : State) (x : FrameHeader) : State := { s with fh := x }
/-- Replace the picture header registers. -/
def State.withPh (s : State) (x : PictureHeader) : State := { s with ph := x }
/-- Replace the schedule registers. -/
def State.withSched (s : State) (x : Schedule) : State := { s with sched := x }
/-- Replace the current slice's registers. -/
def State.withSlice (s : State) (x : Slice) : State := { s with slice := x }
/-- Replace the coder context. -/
def State.withCtx (s : State) (x : CoderContext) : State := { s with ctx := x }
/-- Replace BS. -/
def State.withBs (s : State) (x : Memory 8) : State := { s with bs := x }
/-- Replace COEF. -/
def State.withCoef (s : State) (x : Memory 32) : State := { s with coef := x }
/-- Replace QM. -/
def State.withQm (s : State) (x : Memory 8) : State := { s with qm := x }
/-- Replace QMS. -/
def State.withQms (s : State) (x : Memory 32) : State := { s with qms := x }
/-- Replace SST. -/
def State.withSst (s : State) (x : Memory 16) : State := { s with sst := x }

end Sys2Proof.Machine
end

