-- ==== Sys2Proof/Machine/Flags.lean ====
section
/-! DEFINITION. The flags of `STATUS` (10_state.md R25): the register's value and every way a command sets or clears a flag. There are
no arithmetic condition codes. -/

namespace Sys2Proof.Machine

/-- The value of `STATUS`: HALT in bit 0, then CORRUPT, ABANDON, EOP, EOS, SLOK, REJ in bit 6 (R25). -/
def Status.word (f : Status) : BitVec 7 :=
  BitVec.ofNat 7 (f.halt.toNat + 2 * f.corrupt.toNat + 4 * f.abandon.toNat + 8 * f.eop.toNat +
    16 * f.eos.toNat + 32 * f.slok.toNat + 64 * f.rej.toNat)

/-- `STATUS.HALT <- 1` (60_exceptions.md R270). -/
def State.setHalt (s : State) : State := s.withStatus { s.status with halt := true }

/-- `STATUS.REJ <- 1` (R271): what a command other than SRST and CLRF does while halted. -/
def State.setRej (s : State) : State := s.withStatus { s.status with rej := true }

/-- `STATUS.CORRUPT <- 1`, and `STATUS.ABANDON <- 1` when the command is one that abandons its plane (R272). -/
def State.setCorrupt (s : State) (abandons : Bool) : State :=
  s.withStatus { s.status with corrupt := true, abandon := s.status.abandon || abandons }

/-- `STATUS.EOP <- 1` (43_coefficient_coder.md R203, R206). -/
def State.setEop (s : State) : State := s.withStatus { s.status with eop := true }

/-- `STATUS.EOP <- 0` (R205). -/
def State.clearEop (s : State) : State := s.withStatus { s.status with eop := false }

/-- `STATUS.ABANDON <- 0; STATUS.EOP <- 0` (R202). -/
def State.clearPlaneFlags (s : State) : State := s.withStatus { s.status with abandon := false, eop := false }

/-- `STATUS.EOS <- 1` (42_header_codec.md R176). -/
def State.setEos (s : State) : State := s.withStatus { s.status with eos := true }

/-- `STATUS.EOS <- 0; STATUS.SLOK <- 0` (R174, R180). -/
def State.clearPictureFlags (s : State) : State := s.withStatus { s.status with eos := false, slok := false }

/-- `STATUS.SLOK <- 1` (R177). -/
def State.setSlok (s : State) : State := s.withStatus { s.status with slok := true }

/-- `STATUS.SLOK <- 0` (R176, R177). -/
def State.clearSlok (s : State) : State := s.withStatus { s.status with slok := false }

/-- `STATUS.HALT <- 0; STATUS.CORRUPT <- 0; STATUS.REJ <- 0` (45_system_ops.md R252). -/
def State.clearFaultFlags (s : State) : State :=
  s.withStatus { s.status with halt := false, corrupt := false, rej := false }

end Sys2Proof.Machine
end

