-- ==== Sys2Proof/Machine/Ops.lean ====
section
/-! DEFINITION. The named operations every command is built from: the memories, the byte and bit primitives of BS (20_memory.md R71 to
R78), raising a fault (00_scope.md R15) and TAKING IT, fatal or concealed (60_exceptions.md R269 to R273), and the return from a
fatal fault (R275). -/

namespace Sys2Proof.Machine

/-! ### Memories -/

/-- Byte `a` of BS (10_state.md R40). -/
def bsByte (bs : Memory 8) (a : Nat) : Byte := Memory.read bsUnlisted bs a

/-- BS with byte `a` replaced. -/
def bsSetByte (bs : Memory 8) (a : Nat) (b : Byte) : Memory 8 := Memory.write bsUnlisted bs a b

/-- Word `k` of COEF (R41). -/
def State.coefAt (s : State) (k : Nat) : Word := Memory.read coefUnlisted s.coef k

/-- `COEF[k] <- v`. -/
def State.setCoef (s : State) (k : Nat) (v : Word) : State := s.withCoef (Memory.write coefUnlisted s.coef k v)

/-- Entry `n` of SST (R44). -/
def State.sstAt (s : State) (n : Nat) : BitVec 16 := Memory.read sstUnlisted s.sst n

/-- `SST[n] <- v`. -/
def State.setSst (s : State) (n : Nat) (v : BitVec 16) : State := s.withSst (Memory.write sstUnlisted s.sst n v)

/-- The number of a matrix in the notation `QM[p][i]`: 0 luma, 1 chroma (30_encoding.md R102). -/
def QMatrix.number : QMatrix → Nat
  | .luma => 0
  | .chroma => 1

/-- Where entry `i` of matrix `p` stands in QM and in QMS. -/
def matrixIndex (p : QMatrix) (i : Nat) : Nat := 64 * QMatrix.number p + i

/-- `QM[p][i]` (R42). -/
def State.qmAt (s : State) (p : QMatrix) (i : Nat) : Byte := Memory.read qmUnlisted s.qm (matrixIndex p i)

/-- `QMS[p][i]` (R43). -/
def State.qmsAt (s : State) (p : QMatrix) (i : Nat) : Word := Memory.read qmsUnlisted s.qms (matrixIndex p i)

/-- `QM[p][i] <- f i` for `i` in 0 to 63. -/
def State.setQm (s : State) (p : QMatrix) (f : Nat → Byte) : State :=
  s.withQm (Memory.writeRange qmUnlisted s.qm (matrixIndex p 0) 64 f)

/-! ### Faults raised by a command's pseudocode -/

/-- The subcodes of `MalformedHeader` (60_exceptions.md R262, R264). -/
inductive MalformedSub where
  | truncated | badSignature | badDimension | reservedValue | badHdrsize | badFramesize | badTiling
  deriving DecidableEq, Repr

/-- The subcodes of `CorruptSliceData` (R262, R265). `negative` is reserved and nothing raises it (R267). -/
inductive CorruptSub where
  | escOverflow | noTerminator | pastEnd | runOverrun | sliceHdr | negative
  deriving DecidableEq, Repr

/-- The subcodes of `BufferTooSmall` (R262, R263). -/
inductive BufferSub where
  | header | stream | sst
  deriving DecidableEq, Repr

/-- The subcodes of `NotRepresentable` (R262). -/
inductive RepresentSub where
  | negative | tooLarge
  deriving DecidableEq, Repr

/-- The subcodes of `BadOperand` (R262, R266). -/
inductive OperandSub where
  | cursor | bps | maxc | noSlice | hdrsize | field | tiling
  deriving DecidableEq, Repr

/-- A fault as a command's pseudocode raises it, with its subcode (R261, R262). -/
inductive Raise where
  | malformedHeader (sub : MalformedSub)
  | corruptSliceData (sub : CorruptSub)
  | bufferTooSmall (sub : BufferSub)
  | illegalCommand
  | notRepresentable (sub : RepresentSub)
  | divideByZero
  | badOperand (sub : OperandSub)
  deriving DecidableEq, Repr

/-- The fault codes, `FAULT[7:0]` (R261). -/
def Raise.code : Raise → BitVec 8
  | .malformedHeader _ => 1
  | .corruptSliceData _ => 2
  | .bufferTooSmall _ => 3
  | .illegalCommand => 4
  | .notRepresentable _ => 5
  | .divideByZero => 6
  | .badOperand _ => 7

/-- The subcodes, `FAULT[15:8]` or `LOG[7:0]` (R262). -/
def Raise.subcode : Raise → BitVec 8
  | .malformedHeader .truncated => 1
  | .malformedHeader .badSignature => 2
  | .malformedHeader .badDimension => 3
  | .malformedHeader .reservedValue => 4
  | .malformedHeader .badHdrsize => 5
  | .malformedHeader .badFramesize => 6
  | .malformedHeader .badTiling => 7
  | .corruptSliceData .escOverflow => 1
  | .corruptSliceData .noTerminator => 2
  | .corruptSliceData .pastEnd => 3
  | .corruptSliceData .runOverrun => 4
  | .corruptSliceData .sliceHdr => 5
  | .corruptSliceData .negative => 6
  | .bufferTooSmall .header => 1
  | .bufferTooSmall .stream => 2
  | .bufferTooSmall .sst => 3
  | .illegalCommand => 1
  | .notRepresentable .negative => 1
  | .notRepresentable .tooLarge => 2
  | .divideByZero => 1
  | .badOperand .cursor => 1
  | .badOperand .bps => 2
  | .badOperand .maxc => 3
  | .badOperand .noSlice => 4
  | .badOperand .hdrsize => 5
  | .badOperand .field => 6
  | .badOperand .tiling => 7

/-- `CorruptSliceData` is the one fault that conceal mode recovers from (R261, R272). -/
def Raise.recoverable : Raise → Bool
  | .corruptSliceData _ => true
  | .malformedHeader _ | .bufferTooSmall _ | .illegalCommand | .notRepresentable _ | .divideByZero | .badOperand _ => false

/-- The result of a part of a command: a value and the state so far, or a raised fault and the state written before it, which stays
written (00_scope.md R15). -/
inductive Res (α : Type) where
  | ok (a : α) (s : State)
  | raised (r : Raise) (s : State)
  deriving DecidableEq, Repr

/-- Go on with the value, or end the command at the raised fault (R15). -/
def Res.bind {α β : Type} (x : Res α) (f : α → State → Res β) : Res β :=
  match x with
  | .ok a s => f a s
  | .raised r s => .raised r s

/-- A check of a command's rule: raise `r` unless the condition holds, changing nothing. -/
def require (c : Bool) (r : Raise) (s : State) : Res Unit := if c then .ok () s else .raised r s

/-! ### Taking a fault -/

/-- Which cursor a fault record names (60_exceptions.md R270, R272). -/
inductive PosKind where
  /-- RDCW, WRCW, ALIGNW and the coefficient commands: `BITPOS` at the moment of the fault. -/
  | stream
  /-- Header commands: `BYTEPTR` as it was when the command started. -/
  | header
  /-- Every other command: 0. -/
  | none
  deriving DecidableEq, Repr

/-- The cursor of each command's fault record (R270). -/
def Instr.posKind : Instr → PosKind
  | .rdcw | .wrcw | .alignw => .stream
  | .dcinit | .dcsym _ | .rddc _ | .acinit | .acsym _ | .rdac _ | .wrdc | .wrac => .stream
  | .probe | .pfrm | .ppic | .nxsl | .pslc | .selpl _ | .wfrm | .wpic | .wslc => .header
  | .nop | .srst | .clrf | .ldcb _ _ | .zzdec | .zzenc | .foldq | .scaleq | .deq _ _ | .qnt _ _ | .qntp _ => .none

/-- The commands whose concealed corruption abandons the plane (R272). -/
def Instr.abandons : Instr → Bool
  | .dcsym _ | .rddc _ | .acsym _ | .rdac _ => true
  | .nop | .srst | .clrf | .ldcb _ _ | .rdcw | .wrcw | .zzdec | .zzenc | .alignw
  | .probe | .pfrm | .ppic | .nxsl | .pslc | .selpl _ | .wfrm | .wpic | .wslc
  | .dcinit | .acinit | .wrdc | .wrac | .foldq | .scaleq | .deq _ _ | .qnt _ _ | .qntp _ => false

/-- The cursor value of a fault record: `start` is the state at the start of the command, `t` the state at the fault (R270). -/
def faultCursor (k : PosKind) (start t : State) : Word :=
  match k with
  | .stream => t.cur.bitpos
  | .header => start.cur.byteptr
  | .none => 0

/-- `FAULT`: code in bits 7:0, subcode in 15:8, opcode in 23:16 (10_state.md R27; R270). -/
def faultWord (op : BitVec 8) (r : Raise) : BitVec 24 := op ++ r.subcode ++ r.code

/-- `LOG`: subcode in bits 7:0, `SL_PLANE` in 9:8, opcode in 23:16 (10_state.md R27; R272). -/
def logWord (op : BitVec 8) (plane : BitVec 2) (r : Raise) : BitVec 24 := op ++ (0 : BitVec 6) ++ plane ++ r.subcode

/-- `LOG_XY`: `SL_X` in bits 15:0, `SL_Y` in 31:16 (R27, R272). -/
def logXYWord (sl : Slice) : Word := sl.y.setWidth 16 ++ sl.x.setWidth 16

/-- `min(CORRUPT_CNT + 1, 2^32 - 1)` (R272). -/
def countUp (c : Word) : Word := if c = 0xFFFFFFFF then c else c + 1

/-- Fatal fault entry (R270). -/
def enterFatal (op : BitVec 8) (pos : Word) (r : Raise) (t : State) : State :=
  (t.withRecord { t.record with fault := faultWord op r, faultPos := pos }).setHalt

/-- Recoverable fault entry (R272). -/
def enterConcealed (op : BitVec 8) (pos : Word) (abandons : Bool) (r : Raise) (t : State) : State :=
  (t.withRecord { t.record with
    log := logWord op t.slice.plane r
    logPos := pos
    logXY := logXYWord t.slice
    corruptCnt := countUp t.record.corruptCnt }).setCorrupt abandons

/-- Take the fault `r` that command `i`, started in state `start`, raised in state `t`: concealed when it is `CorruptSliceData` and
`CTRL.STRICT = 0`, fatal otherwise (R270, R272, R273). -/
def takeFault (i : Instr) (start : State) (r : Raise) (t : State) : State :=
  if r.recoverable && !t.strict then
    enterConcealed i.opcode (faultCursor (Instr.posKind i) start t) (Instr.abandons i) r t
  else enterFatal i.opcode (faultCursor (Instr.posKind i) start t) r t

/-- Run a command's pseudocode to its end or its fault, unless the block is halted, when the command only sets `REJ` (R269 to R273).
SRST and CLRF do not go through it: they run while halted too. -/
def runCommand (i : Instr) (s : State) (body : State → Res Unit) : Host.Outcome State Fault Refusal :=
  if s.status.halt then .next s.setRej
  else .next (
    match body s with
    | .ok _ t => t
    | .raised r t => takeFault i s r t)

/-- A word that is not a command: rejected while halted, else `IllegalCommand(BAD_WORD)` with the word's own opcode bits and cursor 0
(30_encoding.md R104; R269, R270). -/
def illegalWord (w : Word) (s : State) : State :=
  if s.status.halt then s.setRej else enterFatal (opcodeField w) 0 .illegalCommand s

/-- The return from a fatal fault that keeps all other state, and the clearing of the log (R275; 45_system_ops.md R252). -/
def clearFaults (s : State) : State := (s.withRecord ⟨0, 0, 0, 0, 0, 0⟩).clearFaultFlags

/-- Soft reset: the other return from a fatal fault (R275; 45_system_ops.md R251). Every register, QM and QMS take their reset values;
BS, COEF and SST keep their contents, and the parameters and the host's actions are not the block's to change. -/
def softReset (s : State) : State :=
  { State.reset with cfg := s.cfg, host := s.host, bs := s.bs, coef := s.coef, sst := s.sst }

/-! ### Bytes of BS -/

/-- `MemRead(addr, n)`: `n` bytes from `addr`, the first the most significant (20_memory.md R71, R74). The commands check that the
bytes lie below `BS_LEN` before they read a group of fields (log entry 15). -/
def memRead (bs : Memory 8) (addr : Nat) : Nat → Nat
  | 0 => 0
  | n + 1 => memRead bs addr n * 256 + (bsByte bs (addr + n)).toNat

/-- `MemWrite(addr, n, v)`: the `n` low bytes of `v`, the most significant at `addr` (R71, R75). The commands check the space before
their first write (log entry 15). -/
def memWrite : Nat → Memory 8 → Nat → Nat → Memory 8
  | 0, bs, _, _ => bs
  | n + 1, bs, addr, v => memWrite n (bsSetByte bs addr (BitVec.ofNat 8 (v >>> (8 * n)))) (addr + 1) v

/-! ### Bits of BS -/

/-- `BsBit(a)`: bit `7 - (a AND 7)` of byte `a >> 3` (R72). -/
def bsBit (bs : Memory 8) (a : Nat) : Bool := (bsByte bs (a / 8)).getLsbD (7 - a % 8)

/-- A byte with the bit of stream position `j` (0 the most significant) set to `b`. -/
def byteWithBit (x : Byte) (j : Nat) (b : Bool) : Byte :=
  let mask : Byte := BitVec.twoPow 8 (7 - j)
  if b then x ||| mask else x &&& ~~~mask

/-- BS with bit address `a` set to `b`: no other bit changes (R72, R78). -/
def bsSetBit (bs : Memory 8) (a : Nat) (b : Bool) : Memory 8 :=
  bsSetByte bs (a / 8) (byteWithBit (bsByte bs (a / 8)) (a % 8) b)

/-- The unsigned value of the `n` bits from bit address `a`, the first the most significant (R72, R77). -/
def bitsValue (bs : Memory 8) (a : Nat) : Nat → Nat
  | 0 => 0
  | n + 1 => 2 * bitsValue bs a n + (bsBit bs (a + n)).toNat

/-- BS with the `n` low bits of `v` stored from bit address `a`, the most significant first (R78). -/
def bsWriteBits : Nat → Memory 8 → Nat → Nat → Memory 8
  | 0, bs, _, _ => bs
  | n + 1, bs, a, v => bsWriteBits n (bsSetBit bs a (v.testBit n)) (a + 1) v

/-- The number of `0` bits before the first `1` among the `w` bits from bit address `a`; `w` when there is no `1`
(41_entropy_coder.md R151 step 3). -/
def zeroRun (bs : Memory 8) : Nat → Nat → Nat
  | _, 0 => 0
  | a, w + 1 => if bsBit bs a then 0 else zeroRun bs (a + 1) w + 1

/-- Whether none of the `n` bits from bit address `a` is `1` (43_coefficient_coder.md R206 step 2). -/
def allZero (bs : Memory 8) : Nat → Nat → Bool
  | _, 0 => true
  | a, n + 1 => if bsBit bs a then false else allZero bs (a + 1) n

/-- `BITPOS <- v`. -/
def State.withBitpos (s : State) (v : Nat) : State := s.withCur { s.cur with bitpos := BitVec.ofNat 32 v }

/-- `BITPOS <- BITPOS + n`. -/
def State.advance (s : State) (n : Nat) : State := s.withBitpos (s.cur.bitpos.toNat + n)

/-- `BYTEPTR <- v`. -/
def State.withByteptr (s : State) (v : Nat) : State := s.withCur { s.cur with byteptr := BitVec.ofNat 32 v }

/-- `ReadBits(n)` (R77). -/
def readBits (n : Nat) (s : State) : Res Nat :=
  if s.cur.bitpos.toNat + n > s.cur.bitend.toNat then .raised (.corruptSliceData .pastEnd) s
  else .ok (bitsValue s.bs s.cur.bitpos.toNat n) (s.advance n)

/-- `WriteBits(n, v)` (R78). -/
def writeBits (n v : Nat) (s : State) : State := (s.withBs (bsWriteBits n s.bs s.cur.bitpos.toNat v)).advance n

/-- The first check of a header command: `BS_LEN <= BS_BYTES` (42_header_codec.md R170). -/
def checkBuffer (s : State) : Res Unit :=
  require (s.cur.bsLen.toNat ≤ s.cfg.bsBytes) (.badOperand .cursor) s

/-- The cursor check of a stream command (10_state.md R23; 41_entropy_coder.md R150; 43_coefficient_coder.md R211). -/
def checkCursors (s : State) : Res Unit :=
  require (s.cur.bsLen.toNat ≤ s.cfg.bsBytes ∧ s.cur.bitend.toNat ≤ 8 * s.cur.bsLen.toNat ∧
    s.cur.bitpos.toNat ≤ s.cur.bitend.toNat) (.badOperand .cursor) s

/-- The check of `L2BPS` (10_state.md R30; 43_coefficient_coder.md R211). -/
def checkBps (s : State) : Res Unit :=
  require (s.plane.l2bps.toNat ≤ s.cfg.log2MaxBps) (.badOperand .bps) s

/-- The check of `MAXC` (10_state.md R31; 43_coefficient_coder.md R211). -/
def checkMaxc (s : State) : Res Unit :=
  require (1 ≤ s.plane.maxc.toNat ∧ s.plane.maxc.toNat ≤ 64) (.badOperand .maxc) s

end Sys2Proof.Machine
end

