-- ==== Sys2Proof/Machine/Operands.lean ====
section
/-! DEFINITION. The operand forms: codebooks and their derived values (40_codebook_table.md), the scan tables, the derived registers
(10_state.md R29, R34), the geometry of slices and planes, and the signed mapping. -/

namespace Sys2Proof.Machine

/-! ### Codebooks -/

/-- `golombOffset(cb) = 2^expOrder - (switchBits + 1) * 2^riceOrder` (40_codebook_table.md R140). -/
def golombOffset (cb : Codebook) : Int :=
  2 ^ cb.expOrder.toNat - ((cb.switchBits.toNat : Int) + 1) * 2 ^ cb.riceOrder.toNat

/-- `golombBits(cb) = expOrder - switchBits - 1` (R140). -/
def golombBits (cb : Codebook) : Int := (cb.expOrder.toNat : Int) - (cb.switchBits.toNat : Int) - 1

/-- `riceMask(cb) = 2^riceOrder - 1` (R140). -/
def riceMask (cb : Codebook) : Nat := 2 ^ cb.riceOrder.toNat - 1

/-- The codebook that `CBD` describes: `riceOrder` in bits 3:0, `expOrder` in 7:4, `switchBits` in 11:8 (10_state.md R29). -/
def codebookOfCbd (cbd : BitVec 12) : Codebook where
  riceOrder := cbd.extractLsb' 0 4
  expOrder := cbd.extractLsb' 4 4
  switchBits := cbd.extractLsb' 8 4

/-- The value of `CBD` that describes a codebook (R29; 40_codebook_table.md R143). -/
def cbdOfCodebook (cb : Codebook) : BitVec 12 := cb.switchBits ++ cb.expOrder ++ cb.riceOrder

/-- `CbIndex(class, ctx)`: 0 for first-DC, the clamped context for the others (R141). -/
def cbIndex (cls : SymClass) (ctx : Nat) : Nat :=
  match cls with
  | .firstDC => 0
  | .dcDelta => min ctx dcCtxMax
  | .acRun => min ctx runCtxMax
  | .acLevel => min ctx levCtxMax

/-- `CBROM[class][CbIndex(class, ctx)]` (R141). The index is below the class's size for every context. -/
def cbromAt (rom : CodebookRom) (cls : SymClass) (ctx : Nat) : Codebook :=
  match cls with
  | .firstDC => rom.firstDC
  | .dcDelta => rom.dcDelta.get (Fin.ofNat 7 (cbIndex .dcDelta ctx))
  | .acRun => rom.acRun.get (Fin.ofNat 16 (cbIndex .acRun ctx))
  | .acLevel => rom.acLevel.get (Fin.ofNat 10 (cbIndex .acLevel ctx))

/-! ### Scan tables -/

/-- `SCANROM[s][j]`, a raster position 0 to 63 (10_state.md R46). -/
def scanromAt (rom : ScanRom) (s : BitVec 1) (j : Nat) : Nat :=
  ((if s = 0 then rom.progressive else rom.interlaced).get (Fin.ofNat 64 j)).toNat

/-- `SCAN[j] = SCANROM[SCANSEL][j]` (R32). -/
def State.scan (s : State) (j : Nat) : Nat := scanromAt s.cfg.scanrom s.plane.scansel j

/-! ### Derived registers -/

/-- `FH_FRAMETYPE = FH_FLAGS1[3:2]` of a `flags1` byte (10_state.md R34; 30_encoding.md R112). -/
def frameType (flags1 : BitVec 8) : Nat := (flags1.extractLsb' 2 2).toNat

/-- `FH_CHROMATYPE = FH_FLAGS1[7:6]` of a `flags1` byte (R34, R112). -/
def chromaType (flags1 : BitVec 8) : Nat := (flags1.extractLsb' 6 2).toNat

/-- `flags2[1] = hasLumaQMat` (30_encoding.md R113). -/
def hasLuma (flags2 : BitVec 8) : Bool := flags2.getLsbD 1

/-- `flags2[0] = hasChromaQMat` (R113). -/
def hasChroma (flags2 : BitVec 8) : Bool := flags2.getLsbD 0

/-- The matrices a `flags2` byte announces, 0 to 2 (42_header_codec.md R172 step 6). -/
def matrixCount (flags2 : BitVec 8) : Nat := (hasLuma flags2).toNat + (hasChroma flags2).toNat

/-- `FH_TFF`: 1 when the frame type is 1, else 0 (R34). -/
def topFieldFirst (flags1 : BitVec 8) : Bool := frameType flags1 = 1

/-- `FH_MBW = (zext(FH_WIDTH[15:0]) + 15) >> 4` (R34; 42_header_codec.md R183). -/
def FrameHeader.mbw (fh : FrameHeader) : Nat := (fh.width.toNat + 15) >>> 4

/-- `log2SliceMbWidth = PH_L2BYTE[7:4]` (R35). -/
def log2SliceMbWidth (l2byte : BitVec 8) : Nat := (l2byte.extractLsb' 4 4).toNat

/-- Macroblock rows of a picture, from the frame type and the height (42_header_codec.md R172 step 11, R179 step 6). -/
def pictureRows (ft ht : Nat) : Nat := if ft = 0 then (ht + 15) >>> 4 else (ht + 31) >>> 5

/-- The scan table a frame type selects: 0 progressive, 1 interlaced (10_state.md R32; R172 step 9). -/
def scanOfFrameType (ft : Nat) : BitVec 1 := if ft = 0 then 0 else 1

/-- A width or height in the range the parser accepts: not 0 and positive as `i16` (R172 step 4). -/
def dimensionLegal (v : Nat) : Bool := v ≠ 0 ∧ v < 0x8000

/-- Frame and chroma types that are not reserved (R172 step 5; 30_encoding.md R112). -/
def typesLegal (flags1 : BitVec 8) : Bool := frameType flags1 ≠ 3 ∧ 2 ≤ chromaType flags1

/-! ### Geometry -/

/-- The number of `1` bits among the low 16 bits of `n`. -/
def popcount16 (n : Nat) : Nat := (List.range 16).countP (fun k => n.testBit k)

/-- `SlicesPerRow(mbw, l2)` (42_header_codec.md R175). -/
def slicesPerRow (mbw l2 : Nat) : Nat := mbw / 2 ^ l2 + popcount16 (mbw % 2 ^ l2)

/-- The halving of a slice width while it is larger than the rest of the row (R176 step 4), at most `fuel` times; sixteen suffice for a
16-bit candidate. -/
def halveToFit : Nat → Nat → Nat → Nat
  | 0, c, _ => c
  | fuel + 1, c, rem => if c > rem then halveToFit fuel (c / 2) rem else c

/-- A power of two in 1 to 32768 (R176 step 3). -/
def scheduleWidth (c : Nat) : Bool := (List.range 16).any fun k => c = 2 ^ k

/-- `blocksPerSlice = 2^L2BPS` (10_state.md R30). -/
def State.bps (s : State) : Nat := 2 ^ s.plane.l2bps.toNat

/-! ### The signed mapping -/

/-- `toSigned(code) = (code >> 1) XOR signExtend(code AND 1)` (41_entropy_coder.md R157). -/
def toSigned (c : Word) : Word := c.sshiftRight 1 ^^^ (if c.getLsbD 0 then BitVec.allOnes 32 else 0)

/-- `toGolomb(v) = (v << 1) XOR (v >> 31)` (R158). -/
def toGolomb (v : Word) : Word := (v <<< 1) ^^^ v.sshiftRight 31

/-- `s32(x)`: the 32-bit pattern of a mathematical integer (00_scope.md R11). -/
def s32 (x : Int) : Word := BitVec.ofInt 32 x

end Sys2Proof.Machine
end

