-- ==== Sys2Proof/Machine/CodebookTable.lean ====
section
/-! DEFINITION. The Codebook Table's command LDCB (40_codebook_table.md). -/

namespace Sys2Proof.Machine

/-- The pseudocode of LDCB (R143). -/
def ldcbBody (cls : SymClass) (ctx : BitVec 8) (t : State) : Res Unit :=
  .ok () (t.withCbd (cbdOfCodebook (cbromAt t.cfg.cbrom cls ctx.toNat)))

/-- `LDCB class, ctx` (R143). -/
def execLdcb (cls : SymClass) (ctx : BitVec 8) (s : State) : Host.Outcome State Fault Refusal :=
  runCommand (.ldcb cls ctx) s (ldcbBody cls ctx)

end Sys2Proof.Machine
end

