-- ==== Sys2Proof/Machine/Entropy.lean ====
section
/-! DEFINITION. The Entropy Coder (41_entropy_coder.md): reading and writing one hybrid Golomb codeword, and the commands RDCW, WRCW,
ZZDEC, ZZENC, ALIGNW. -/

namespace Sys2Proof.Machine

/-- `ReadCodeword(cb)` (R151). The caller has checked `BITPOS <= BITEND`. -/
def readCodeword (cb : Codebook) (s : State) : Res Int :=
  let w := min lookahead (s.cur.bitend.toNat - s.cur.bitpos.toNat)
  let q := zeroRun s.bs s.cur.bitpos.toNat w
  if q = w then
    if w = lookahead then .raised (.corruptSliceData .noTerminator) s else .raised (.corruptSliceData .pastEnd) s
  else
    let t := s.advance (q + 1)
    if q > cb.switchBits.toNat then
      let n := (golombBits cb + q).toNat
      if n > escMaxBits then .raised (.corruptSliceData .escOverflow) t
      else (readBits n t).bind fun x u => .ok ((2 ^ n + x : Nat) - golombOffset cb) u
    else if cb.riceOrder.toNat > 0 then
      (readBits cb.riceOrder.toNat t).bind fun x u => .ok (q * 2 ^ cb.riceOrder.toNat + x : Nat) u
    else .ok q t

/-- The three parts of a codeword (30_encoding.md R110): `zeros` bits `0`, one bit `1`, then the `bits` bits of `suffix`. -/
structure Codeword where
  zeros : Nat
  bits : Nat
  suffix : Nat
  deriving DecidableEq, Repr

/-- The codeword of a value under a codebook, or why it has none (R153 steps 1 to 3). -/
def codewordOf (cb : Codebook) (v : Int) : Except RepresentSub Codeword :=
  if v < 0 then .error .negative
  else if v < ((cb.switchBits.toNat + 1) * 2 ^ cb.riceOrder.toNat : Nat) then
    .ok ⟨v.toNat / 2 ^ cb.riceOrder.toNat, cb.riceOrder.toNat, v.toNat &&& riceMask cb⟩
  else
    let w := (v + golombOffset cb).toNat
    let n := Nat.log2 w
    let q := (n - golombBits cb).toNat
    if n > escMaxBits ∨ q > lookahead - 1 then .error .tooLarge else .ok ⟨q, n, w - 2 ^ n⟩

/-- `WriteCodeword(cb, v)` (R153). -/
def writeCodeword (cb : Codebook) (v : Int) (s : State) : Res Unit :=
  match codewordOf cb v with
  | .error e => .raised (.notRepresentable e) s
  | .ok c =>
    if s.cur.bitpos.toNat + c.zeros + 1 + c.bits > s.cur.bitend.toNat then .raised (.bufferTooSmall .stream) s
    else .ok () (writeBits c.bits c.suffix (writeBits 1 1 (writeBits c.zeros 0 s)))

/-- The pseudocode of RDCW (R152). -/
def rdcwBody (s : State) : Res Unit :=
  (checkCursors s).bind fun _ s =>
  (readCodeword (codebookOfCbd s.cbd) s).bind fun v s =>
  .ok () (s.withVal (s32 v))

/-- `RDCW` (R152). -/
def execRdcw (s : State) : Host.Outcome State Fault Refusal := runCommand .rdcw s rdcwBody

/-- The pseudocode of WRCW (R154). -/
def wrcwBody (s : State) : Res Unit :=
  (checkCursors s).bind fun _ s =>
  writeCodeword (codebookOfCbd s.cbd) s.val.toInt s

/-- `WRCW` (R154). -/
def execWrcw (s : State) : Host.Outcome State Fault Refusal := runCommand .wrcw s wrcwBody

/-- The pseudocode of ZZDEC (R157). -/
def zzdecBody (s : State) : Res Unit :=
  .ok () (s.withVal (toSigned s.val))

/-- `ZZDEC` (R157). -/
def execZzdec (s : State) : Host.Outcome State Fault Refusal := runCommand .zzdec s zzdecBody

/-- The pseudocode of ZZENC (R158). -/
def zzencBody (s : State) : Res Unit :=
  .ok () (s.withVal (toGolomb s.val))

/-- `ZZENC` (R158). -/
def execZzenc (s : State) : Host.Outcome State Fault Refusal := runCommand .zzenc s zzencBody

/-- The bits from a bit address to the next byte boundary, 0 to 7 (R159). -/
def paddingBits (a : Nat) : Nat := (8 - a % 8) % 8

/-- The pseudocode of ALIGNW (R159). -/
def alignwBody (s : State) : Res Unit :=
  (checkCursors s).bind fun _ s =>
  if s.cur.bitpos.toNat + paddingBits s.cur.bitpos.toNat > s.cur.bitend.toNat then
    .raised (.bufferTooSmall .stream) s
  else .ok () (writeBits (paddingBits s.cur.bitpos.toNat) 0 s)

/-- `ALIGNW` (R159). -/
def execAlignw (s : State) : Host.Outcome State Fault Refusal := runCommand .alignw s alignwBody

end Sys2Proof.Machine
end

