-- ==== Sys2Proof/Machine/Quantizer.lean ====
section
/-! DEFINITION. The Quantizer/Scaler (44_quantizer.md): the fold of the scale, dequantization and quantization, and the commands FOLDQ,
SCALEQ, DEQ, QNT, QNTP. -/

namespace Sys2Proof.Machine

/-- `Fold(raw)` (R231): clip the raw byte to 1..224, then fold above 128. -/
def foldScale (raw : BitVec 8) : Nat :=
  let q := min (max raw.toNat qsMin) qsMax
  if q > qsFold then (q - 96) <<< 2 else q

/-- `Dequant(p, ci, c) = (c * QMS[p][ci]) >> 2` (R232): the product wraps, the shift is arithmetic. -/
def dequant (s : State) (p : QMatrix) (ci : Nat) (c : Word) : Word := (c * s.qmsAt p ci).sshiftRight 2

/-- `s32(c tdiv m)`: division rounded toward zero (R235; 00_scope.md R12). -/
def quotient (c m : Word) : Word := s32 (Int.tdiv c.toInt m.toInt)

/-- The pseudocode of FOLDQ (R231). -/
def foldqBody (s : State) : Res Unit :=
  .ok () (s.withSlice { s.slice with qscale := BitVec.ofNat 32 (foldScale s.slice.qsraw) })

/-- `FOLDQ` (R231). -/
def execFoldq (s : State) : Host.Outcome State Fault Refusal := runCommand .foldq s foldqBody

/-- `QMS[p][i] <- QM[p][i] * QSCALE` for both matrices (R233). -/
def scaleMatrices (s : State) : State :=
  s.withQms (Memory.writeRange qmsUnlisted s.qms 0 128 fun k =>
    (Memory.read qmUnlisted s.qm k).setWidth 32 * s.slice.qscale)

/-- The pseudocode of SCALEQ (R233). -/
def scaleqBody (s : State) : Res Unit :=
  .ok () (scaleMatrices s)

/-- `SCALEQ` (R233). -/
def execScaleq (s : State) : Host.Outcome State Fault Refusal := runCommand .scaleq s scaleqBody

/-- The pseudocode of DEQ (R234). -/
def deqBody (p : QMatrix) (idx : BitVec 6) (s : State) : Res Unit :=
  .ok () (s.withVal (dequant s p idx.toNat s.val))

/-- `DEQ p, idx` (R234). -/
def execDeq (p : QMatrix) (idx : BitVec 6) (s : State) : Host.Outcome State Fault Refusal :=
  runCommand (.deq p idx) s (deqBody p idx)

/-- The pseudocode of QNT (R235). -/
def qntBody (p : QMatrix) (idx : BitVec 6) (s : State) : Res Unit :=
  if s.qmsAt p idx.toNat = 0 then .raised .divideByZero s
  else .ok () (s.withVal (quotient s.val (s.qmsAt p idx.toNat)))

/-- `QNT p, idx` (R235). -/
def execQnt (p : QMatrix) (idx : BitVec 6) (s : State) : Host.Outcome State Fault Refusal :=
  runCommand (.qnt p idx) s (qntBody p idx)

/-- `QMS[p][i] = 0` for some `i` in 0 to 63 (R236). -/
def hasZeroDivisor (s : State) (p : QMatrix) : Bool := (List.range 64).any fun i => s.qmsAt p i = 0

/-- The plane in COEF divided in place (R236). -/
def quantizePlane (p : QMatrix) (s : State) : State :=
  s.withCoef (Memory.writeRange coefUnlisted s.coef 0 (64 * s.bps) fun k =>
    quotient (s.coefAt k) (s.qmsAt p (k % 64)))

/-- The pseudocode of QNTP (R236). -/
def qntpBody (p : QMatrix) (s : State) : Res Unit :=
  (checkBps s).bind fun _ s =>
  if hasZeroDivisor s p then .raised .divideByZero s
  else .ok () (quantizePlane p s)

/-- `QNTP p` (R236). -/
def execQntp (p : QMatrix) (s : State) : Host.Outcome State Fault Refusal := runCommand (.qntp p) s (qntpBody p)

end Sys2Proof.Machine
end

