-- ==== Sys2Proof/Machine/Coefficient.lean ====
section
/-! DEFINITION. The Coefficient Coder (43_coefficient_coder.md): DCINIT, DCSYM, RDDC, ACINIT, ACSYM, RDAC, WRDC, WRAC. The operand `p`
chooses the scaled matrix, `2^L2BPS` is `blocksPerSlice`, COEF the coefficients and the `CTX_` registers the context (R200). -/

namespace Sys2Proof.Machine

/-! ### Positions -/

/-- The COEF word of a position of the plane's virtual index space: block `pos AND (bps - 1)`, raster index `SCAN[pos >> L2BPS]`
(R200). -/
def coefIndexOf (s : State) (pos : Nat) : Nat := 64 * (pos % s.bps) + s.scan (pos / s.bps)

/-! ### DC decode -/

/-- `CTX_PREVCODE` at the start of a plane (R202). -/
def dcCtxAtStart (c : DcCtxInit) : Word :=
  match c with
  | .const n => BitVec.ofNat 32 n.val
  | .firstCode => 0

/-- The effect of DCINIT after its check (R202): the plane cleared, the DC context and the plane flags at their start. -/
def dcInit (s : State) : State :=
  let t := s.withCoef (Memory.writeRange coefUnlisted s.coef 0 (64 * s.bps) fun _ => 0)
  let t := t.withCtx { s.ctx with blk := 0, sign := false, prevdc := 0, prevcode := dcCtxAtStart s.cfg.dcCtxInit }
  t.clearPlaneFlags

/-- The pseudocode of DCINIT (R202). -/
def dcinitBody (s : State) : Res Unit :=
  (checkBps s).bind fun _ s =>
  .ok () (dcInit s)

/-- `DCINIT` (R202). -/
def execDcinit (s : State) : Host.Outcome State Fault Refusal := runCommand .dcinit s dcinitBody

/-- Store a decoded DC term and go to the next block (R203 steps 4 to 7). -/
def storeDc (p : QMatrix) (dc : Word) (s : State) : State :=
  let t := s.setCoef (64 * s.ctx.blk.toNat) (dequant s p 0 dc)
  let t := t.withCtx { s.ctx with prevdc := dc, blk := s.ctx.blk + 1 }
  if s.ctx.blk.toNat + 1 = s.bps then t.setEop else t

/-- The first block's DC term (R203 step 3, `CTX_BLK = 0`). -/
def firstDc (p : QMatrix) (s : State) : Res Unit :=
  (readCodeword (cbromAt s.cfg.cbrom .firstDC 0) s).bind fun code s =>
    let s := match s.cfg.dcCtxInit with
      | .const _ => s
      | .firstCode => s.withCtx { s.ctx with prevcode := s32 code }
    .ok () (storeDc p (toSigned (s32 code)) s)

/-- The running sign after a delta's code (R203 step 3): flipped by an odd code, kept by an even one, cleared by 0. -/
def nextSign (sign : Bool) (code : Int) : Bool := if code = 0 then false else (sign ^^ (code % 2 = 1))

/-- A later block's DC term (R203 step 3, `CTX_BLK > 0`). -/
def deltaDc (p : QMatrix) (s : State) : Res Unit :=
  (readCodeword (cbromAt s.cfg.cbrom .dcDelta s.ctx.prevcode.toNat) s).bind fun code s =>
    let sg := nextSign s.ctx.sign code
    let mag := (code + 1) / 2
    let dc := s.ctx.prevdc + s32 (if sg then -mag else mag)
    .ok () (storeDc p dc (s.withCtx { s.ctx with sign := sg, prevcode := s32 code }))

/-- Steps 1 to 7 of DCSYM (R203). -/
def dcStep (p : QMatrix) (s : State) : Res Unit :=
  if s.status.abandon || s.status.eop then .ok () s
  else if s.ctx.blk.toNat ≥ s.bps then .ok () s.setEop
  else if s.ctx.blk = 0 then firstDc p s
  else deltaDc p s

/-- The pseudocode of DCSYM (R203). -/
def dcsymBody (p : QMatrix) (s : State) : Res Unit :=
  (checkCursors s).bind fun _ s =>
  (checkBps s).bind fun _ s =>
  dcStep p s

/-- `DCSYM p` (R203). -/
def execDcsym (p : QMatrix) (s : State) : Host.Outcome State Fault Refusal := runCommand (.dcsym p) s (dcsymBody p)

/-- The loop of RDDC, at most `n` times (R204). -/
def dcLoop (p : QMatrix) : Nat → State → Res Unit
  | 0, s => .ok () s
  | n + 1, s => (dcStep p s).bind fun _ t => if t.status.eop || t.status.abandon then .ok () t else dcLoop p n t

/-- The pseudocode of RDDC (R204). -/
def rddcBody (p : QMatrix) (s : State) : Res Unit :=
  (checkCursors s).bind fun _ s =>
  (checkBps s).bind fun _ s =>
  dcLoop p s.bps (dcInit s)

/-- `RDDC p` (R204): the loop runs at most `bps` times. -/
def execRddc (p : QMatrix) (s : State) : Host.Outcome State Fault Refusal := runCommand (.rddc p) s (rddcBody p)

/-! ### AC decode -/

/-- The AC context at the start of a plane (R205, R209). -/
def acContextAtStart (s : State) : State :=
  s.withCtx { s.ctx with
    pos := BitVec.ofNat 32 (s.bps - 1)
    prevrun := BitVec.ofNat 32 s.cfg.runCtxInit.val
    prevlev := BitVec.ofNat 32 s.cfg.levCtxInit.val }

/-- The effect of ACINIT after its check (R205). -/
def acInit (s : State) : State := (acContextAtStart s).clearEop

/-- The pseudocode of ACINIT (R205). -/
def acinitBody (s : State) : Res Unit :=
  (checkBps s).bind fun _ s =>
  .ok () (acInit s)

/-- `ACINIT` (R205). -/
def execAcinit (s : State) : Host.Outcome State Fault Refusal := runCommand .acinit s acinitBody

/-- The end of the payload: no `1` bit from `BITPOS` to `BITEND` (R206 step 2). -/
def payloadEnded (s : State) : Bool := allZero s.bs s.cur.bitpos.toNat (s.cur.bitend.toNat - s.cur.bitpos.toNat)

/-- Store a decoded AC term at position `np` (R206 steps 10 and 11). -/
def storeAc (p : QMatrix) (np : Nat) (run lv : Int) (negative : Bool) (s : State) : State :=
  let t := s.setCoef (coefIndexOf s np) (dequant s p (s.scan (np / s.bps)) (s32 (if negative then -lv else lv)))
  t.withCtx { s.ctx with pos := BitVec.ofNat 32 np, prevrun := s32 run, prevlev := s32 lv }

/-- Level and sign of a triple whose run is read (R206 steps 7 to 11). -/
def acLevelSign (p : QMatrix) (np : Nat) (run : Int) (s : State) : Res Unit :=
  (readCodeword (cbromAt s.cfg.cbrom .acLevel s.ctx.prevlev.toNat) s).bind fun code s =>
  (readBits 1 s).bind fun sg s =>
  .ok () (storeAc p np run (code + 1) (sg = 1) s)

/-- Steps 1 to 11 of ACSYM (R206). -/
def acStep (p : QMatrix) (s : State) : Res Unit :=
  if s.status.abandon || s.status.eop then .ok () s
  else if payloadEnded s then .ok () s.setEop
  else
    (readCodeword (cbromAt s.cfg.cbrom .acRun s.ctx.prevrun.toNat) s).bind fun run s =>
      let np := (s.ctx.pos.toNat + run + 1).toNat
      if np ≥ 64 * s.bps then .raised (.corruptSliceData .runOverrun) s
      else if np / s.bps ≥ s.plane.maxc.toNat then .ok () s.setEop
      else acLevelSign p np run s

/-- The pseudocode of ACSYM (R206). -/
def acsymBody (p : QMatrix) (s : State) : Res Unit :=
  (checkCursors s).bind fun _ s =>
  (checkBps s).bind fun _ s =>
  (checkMaxc s).bind fun _ s =>
  acStep p s

/-- `ACSYM p` (R206). -/
def execAcsym (p : QMatrix) (s : State) : Host.Outcome State Fault Refusal := runCommand (.acsym p) s (acsymBody p)

/-- The loop of RDAC, at most `n` times (R207). -/
def acLoop (p : QMatrix) : Nat → State → Res Unit
  | 0, s => .ok () s
  | n + 1, s => (acStep p s).bind fun _ t => if t.status.eop || t.status.abandon then .ok () t else acLoop p n t

/-- The pseudocode of RDAC (R207). -/
def rdacBody (p : QMatrix) (s : State) : Res Unit :=
  (checkCursors s).bind fun _ s =>
  (checkBps s).bind fun _ s =>
  (checkMaxc s).bind fun _ s =>
  acLoop p (63 * s.bps + 1) (acInit s)

/-- `RDAC p` (R207): the loop runs at most `63 * bps + 1` times. -/
def execRdac (p : QMatrix) (s : State) : Host.Outcome State Fault Refusal := runCommand (.rdac p) s (rdacBody p)

/-! ### Encode -/

/-- The code of a DC delta `d` under a running sign (R208 step 2): 0 for 0, else twice the magnitude, less 1 when the sign flips. -/
def deltaCode (sign : Bool) (d : Word) : Int :=
  if d = 0 then 0 else 2 * (d.toInt.natAbs : Int) - (if sign ^^ d.slt 0 then 1 else 0)

/-- `CTX_PREVCODE` after the first DC term is written (R208 step 1). -/
def dcCtxAfterFirst (c : DcCtxInit) (c0 : Word) : Word :=
  match c with
  | .const n => BitVec.ofNat 32 n.val
  | .firstCode => c0

/-- The loop of WRDC over `n` blocks from block `blk` (R208 step 2). -/
def wrdcLoop : Nat → Nat → State → Res Unit
  | 0, _, s => .ok () s
  | n + 1, blk, s =>
    let d := s.coefAt (64 * blk) - s.ctx.prevdc
    let code := deltaCode s.ctx.sign d
    (writeCodeword (cbromAt s.cfg.cbrom .dcDelta s.ctx.prevcode.toNat) code s).bind fun _ t =>
      wrdcLoop n (blk + 1) (t.withCtx { t.ctx with
        prevcode := s32 code
        sign := d.slt 0
        prevdc := s.coefAt (64 * blk)
        blk := BitVec.ofNat 18 (blk + 1) })

/-- The pseudocode of WRDC (R208). -/
def wrdcBody (s : State) : Res Unit :=
  (checkCursors s).bind fun _ s =>
  (checkBps s).bind fun _ s =>
  let dc0 := s.coefAt 0
  (writeCodeword (cbromAt s.cfg.cbrom .firstDC 0) (toGolomb dc0).toNat s).bind fun _ t =>
    wrdcLoop (s.bps - 1) 1 (t.withCtx { t.ctx with
      prevcode := dcCtxAfterFirst s.cfg.dcCtxInit (toGolomb dc0)
      sign := false
      prevdc := dc0
      blk := 1 })

/-- `WRDC` (R208). -/
def execWrdc (s : State) : Host.Outcome State Fault Refusal := runCommand .wrdc s wrdcBody

/-- Write one (run, level, sign) triple for a nonzero coefficient `c` at position `pos` (R209). -/
def writeTriple (pos run : Nat) (c : Word) (s : State) : Res Unit :=
  (writeCodeword (cbromAt s.cfg.cbrom .acRun s.ctx.prevrun.toNat) run s).bind fun _ s =>
  (writeCodeword (cbromAt s.cfg.cbrom .acLevel s.ctx.prevlev.toNat) ((c.toInt.natAbs : Int) - 1) s).bind fun _ s =>
  if s.cur.bitpos.toNat + 1 > s.cur.bitend.toNat then .raised (.bufferTooSmall .stream) s
  else
    let t := writeBits 1 (c.slt 0).toNat s
    .ok () (t.withCtx { t.ctx with
      prevrun := BitVec.ofNat 32 run
      prevlev := BitVec.ofNat 32 c.toInt.natAbs
      pos := BitVec.ofNat 32 pos })

/-- The loop of WRAC over `n` positions from `pos`, with `run` zero terms since the last triple (R209). -/
def wracLoop : Nat → Nat → Nat → State → Res Unit
  | 0, _, _, s => .ok () s
  | n + 1, pos, run, s =>
    let c := s.coefAt (coefIndexOf s pos)
    if c = 0 then wracLoop n (pos + 1) (run + 1) s
    else (writeTriple pos run c s).bind fun _ t => wracLoop n (pos + 1) 0 t

/-- The pseudocode of WRAC (R209). -/
def wracBody (s : State) : Res Unit :=
  (checkCursors s).bind fun _ s =>
  (checkBps s).bind fun _ s =>
  (checkMaxc s).bind fun _ s =>
  wracLoop ((s.plane.maxc.toNat - 1) * s.bps) s.bps 0 (acContextAtStart s)

/-- `WRAC` (R209): positions `bps` to `MAXC * bps - 1`. -/
def execWrac (s : State) : Host.Outcome State Fault Refusal := runCommand .wrac s wracBody

end Sys2Proof.Machine
end

