-- ==== Sys2Proof/Machine/Header.lean ====
section
/-! DEFINITION. The Header Codec (42_header_codec.md, with the layouts of 30_encoding.md R111 to R119): PROBE, PFRM, PPIC, NXSL, PSLC,
SELPL, WFRM, WPIC, WSLC. Every command is all-or-nothing but for `SLOK`, which PSLC clears first (R170). Sums of addresses and
sizes are natural numbers: none wraps (R170). -/

namespace Sys2Proof.Machine

/-- `"icpf"`, bytes 4 to 7 of a frame (30_encoding.md R111). -/
def frameSignature : Nat := 0x69637066

/-! ### Frame header -/

/-- There is a frame at `b`: bytes 4 to 7 lie below `BS_LEN` and are `"icpf"` (R171). -/
def frameFound (s : State) : Bool :=
  s.cur.frameBase.toNat + 8 ≤ s.cur.bsLen.toNat ∧ memRead s.bs (s.cur.frameBase.toNat + 4) 4 = frameSignature

/-- The pseudocode of PROBE (R171). -/
def probeBody (s : State) : Res Unit :=
  (checkBuffer s).bind fun _ s =>
  .ok () (s.withVal (if frameFound s then 1 else 0))

/-- `PROBE` (R171). -/
def execProbe (s : State) : Host.Outcome State Fault Refusal := runCommand .probe s probeBody

/-- `FH_PAYLOAD = FH_FRAMESIZE - 8 - FH_HDRSIZE` as `u32` (10_state.md R34; R172, R179). -/
def payloadSize (framesize : Word) (hdrsize : BitVec 16) : Word := framesize - 8 - hdrsize.setWidth 32

/-- The frame header fields that stand at byte address `b` (30_encoding.md R111; R172 step 2). -/
def frameHeaderAt (bs : Memory 8) (b : Nat) : FrameHeader where
  framesize := BitVec.ofNat 32 (memRead bs b 4)
  hdrsize := BitVec.ofNat 16 (memRead bs (b + 8) 2)
  version := BitVec.ofNat 16 (memRead bs (b + 10) 2)
  creator := BitVec.ofNat 32 (memRead bs (b + 12) 4)
  width := BitVec.ofNat 16 (memRead bs (b + 16) 2)
  height := BitVec.ofNat 16 (memRead bs (b + 18) 2)
  flags1 := BitVec.ofNat 8 (memRead bs (b + 20) 1)
  colorHi := BitVec.ofNat 16 (memRead bs (b + 21) 2)
  colorLo := BitVec.ofNat 32 (memRead bs (b + 23) 4)
  flags2 := BitVec.ofNat 8 (memRead bs (b + 27) 1)
  payload := payloadSize (BitVec.ofNat 32 (memRead bs b 4)) (BitVec.ofNat 16 (memRead bs (b + 8) 2))

/-- `LoadMatrix(p, off, s)` (R173). -/
def loadMatrix (p : QMatrix) (off : Nat) (sc : BitVec 1) (s : State) : State :=
  s.setQm p fun i => bsByte s.bs (off + scanromAt s.cfg.scanrom sc i)

/-- `StoreMatrix(p, off, s)` (R173). -/
def storeMatrix (p : QMatrix) (off : Nat) (sc : BitVec 1) (s : State) : State :=
  s.withBs ((List.range 64).foldl (fun bs i => bsSetByte bs (off + scanromAt s.cfg.scanrom sc i) (s.qmAt p i)) s.bs)

/-- `QM[p][i] <- 4` for every `i`: an absent matrix (R172 step 10, R179 step 5). -/
def flatMatrix (p : QMatrix) (s : State) : State := s.setQm p fun _ => BitVec.ofNat 8 qmDefault

/-- Where the chroma matrix stands: after the luma matrix when that is present (30_encoding.md R111). -/
def chromaOffset (b : Nat) (flags2 : BitVec 8) : Nat := if hasLuma flags2 then b + 92 else b + 28

/-- The commit of PFRM (R172 steps 8 to 12). -/
def commitFrame (b : Nat) (h : FrameHeader) (s : State) : State :=
  let sc := scanOfFrameType (frameType h.flags1)
  let s := (s.withFh h).withPlane { s.plane with scansel := sc }
  let s := if hasLuma h.flags2 then loadMatrix .luma (b + 28) sc s else flatMatrix .luma s
  let s := if hasChroma h.flags2 then loadMatrix .chroma (chromaOffset b h.flags2) sc s else flatMatrix .chroma s
  let s := s.withPh { s.ph with mbh := BitVec.ofNat 13 (pictureRows (frameType h.flags1) h.height.toNat) }
  s.withByteptr (b + 8 + h.hdrsize.toNat)

/-- The checks of PFRM on a frame header `h` read at `b` (R172 steps 1 to 7). -/
def checkFrame (b : Nat) (h : FrameHeader) (s : State) : Res Unit :=
  if b + 28 > s.cur.bsLen.toNat then .raised (.malformedHeader .truncated) s
  else if memRead s.bs (b + 4) 4 ≠ frameSignature then .raised (.malformedHeader .badSignature) s
  else if !(dimensionLegal h.width.toNat && dimensionLegal h.height.toNat) then .raised (.malformedHeader .badDimension) s
  else if !typesLegal h.flags1 then .raised (.malformedHeader .reservedValue) s
  else if h.hdrsize.toNat < 20 + 64 * matrixCount h.flags2 then .raised (.malformedHeader .badHdrsize) s
  else if h.framesize.toNat < 8 + h.hdrsize.toNat ∨ b + h.framesize.toNat > s.cur.bsLen.toNat then
    .raised (.malformedHeader .badFramesize) s
  else .ok () s

/-- The pseudocode of PFRM (R172). -/
def pfrmBody (s : State) : Res Unit :=
  (checkBuffer s).bind fun _ s =>
  (checkFrame s.cur.frameBase.toNat (frameHeaderAt s.bs s.cur.frameBase.toNat) s).bind fun _ s =>
  .ok () (commitFrame s.cur.frameBase.toNat (frameHeaderAt s.bs s.cur.frameBase.toNat) s)

/-- `PFRM` (R172). -/
def execPfrm (s : State) : Host.Outcome State Fault Refusal := runCommand .pfrm s pfrmBody

/-- The header size WFRM computes: `20 + 64 * nmat` (R179 step 2). -/
def writtenHdrsize (flags2 : BitVec 8) : Nat := 20 + 64 * matrixCount flags2

/-- The 28 fixed bytes of a frame header, stored at `b` from its registers (R179 step 4). -/
def storeFrameHeader (bs : Memory 8) (b : Nat) (h : FrameHeader) : Memory 8 :=
  let bs := memWrite 4 bs b h.framesize.toNat
  let bs := memWrite 4 bs (b + 4) frameSignature
  let bs := memWrite 2 bs (b + 8) h.hdrsize.toNat
  let bs := memWrite 2 bs (b + 10) h.version.toNat
  let bs := memWrite 4 bs (b + 12) h.creator.toNat
  let bs := memWrite 2 bs (b + 16) h.width.toNat
  let bs := memWrite 2 bs (b + 18) h.height.toNat
  let bs := memWrite 1 bs (b + 20) h.flags1.toNat
  let bs := memWrite 2 bs (b + 21) h.colorHi.toNat
  let bs := memWrite 4 bs (b + 23) h.colorLo.toNat
  memWrite 1 bs (b + 27) h.flags2.toNat

/-- The frame header registers after WFRM: the computed header and payload sizes (R179 step 3). -/
def writtenHeader (h : FrameHeader) : FrameHeader :=
  { h with
    hdrsize := BitVec.ofNat 16 (writtenHdrsize h.flags2)
    payload := payloadSize h.framesize (BitVec.ofNat 16 (writtenHdrsize h.flags2)) }

/-- The commit of WFRM (R179 steps 3 to 7). -/
def commitWriteFrame (b : Nat) (s : State) : State :=
  let h := writtenHeader s.fh
  let sc := scanOfFrameType (frameType h.flags1)
  let s := (s.withFh h).withBs (storeFrameHeader s.bs b h)
  let s := s.withPlane { s.plane with scansel := sc }
  let s := if hasLuma h.flags2 then storeMatrix .luma (b + 28) sc s else flatMatrix .luma s
  let s := if hasChroma h.flags2 then storeMatrix .chroma (chromaOffset b h.flags2) sc s else flatMatrix .chroma s
  let s := s.withPh { s.ph with mbh := BitVec.ofNat 13 (pictureRows (frameType h.flags1) h.height.toNat) }
  s.withByteptr (b + 8 + h.hdrsize.toNat)

/-- The pseudocode of WFRM (R179). -/
def wfrmBody (s : State) : Res Unit :=
  (checkBuffer s).bind fun _ s =>
  if !(dimensionLegal s.fh.width.toNat && dimensionLegal s.fh.height.toNat && typesLegal s.fh.flags1) then
    .raised (.badOperand .field) s
  else if s.cur.frameBase.toNat + 8 + writtenHdrsize s.fh.flags2 > s.cur.bsLen.toNat then
    .raised (.bufferTooSmall .header) s
  else .ok () (commitWriteFrame s.cur.frameBase.toNat s)

/-- `WFRM` (R179). -/
def execWfrm (s : State) : Host.Outcome State Fault Refusal := runCommand .wfrm s wfrmBody

/-! ### Picture header and slice schedule -/

/-- What PPIC and WPIC leave behind alike: `PIC_BASE`, `PH_SPR`, the start of the schedule, `BYTEPTR` at the first slice, `EOS` and
`SLOK` clear (R174 steps 6, 8, 9; R180 step 6). -/
def startSchedule (b sc l2 : Nat) (s : State) : State :=
  let s := s.withPh { s.ph with
    base := BitVec.ofNat 32 b
    spr := BitVec.ofNat 16 (slicesPerRow s.fh.mbw l2) }
  let s := s.withSched { idx := 0, mbx := 0, mby := 0, cur := BitVec.ofNat 16 (1 <<< l2), ptr := BitVec.ofNat 32 (b + 8 + 2 * sc) }
  (s.withByteptr (b + 8 + 2 * sc)).clearPictureFlags

/-- The commit of PPIC (R174 steps 6 to 9). -/
def commitPicture (b : Nat) (s : State) : State :=
  let sc := memRead s.bs (b + 5) 2
  let lb : BitVec 8 := BitVec.ofNat 8 (memRead s.bs (b + 7) 1)
  let s := s.withPh { s.ph with
    hdrsize := BitVec.ofNat 5 (memRead s.bs b 1 / 8)
    reserved := BitVec.ofNat 32 (memRead s.bs (b + 1) 4)
    slicecount := BitVec.ofNat 16 sc
    l2byte := lb }
  let s := s.withSst (Memory.writeRange sstUnlisted s.sst 0 sc fun n => BitVec.ofNat 16 (memRead s.bs (b + 8 + 2 * n) 2))
  startSchedule b sc (log2SliceMbWidth lb) s

/-- The checks of PPIC (R174 steps 1 to 5). -/
def checkPicture (b : Nat) (s : State) : Res Unit :=
  let sc := memRead s.bs (b + 5) 2
  let l2 := log2SliceMbWidth (BitVec.ofNat 8 (memRead s.bs (b + 7) 1))
  if b + 8 > s.cur.bsLen.toNat then .raised (.malformedHeader .truncated) s
  else if sc > s.cfg.maxSlices then .raised (.bufferTooSmall .sst) s
  else if b + 8 + 2 * sc > s.cur.bsLen.toNat then .raised (.malformedHeader .truncated) s
  else if sc ≠ slicesPerRow s.fh.mbw l2 * s.ph.mbh.toNat then .raised (.malformedHeader .badTiling) s
  else .ok () s

/-- The pseudocode of PPIC (R174). -/
def ppicBody (s : State) : Res Unit :=
  (checkBuffer s).bind fun _ s =>
  (checkPicture s.cur.byteptr.toNat s).bind fun _ s =>
  .ok () (commitPicture s.cur.byteptr.toNat s)

/-- `PPIC` (R174). -/
def execPpic (s : State) : Host.Outcome State Fault Refusal := runCommand .ppic s ppicBody

/-- The picture header and slice size table, stored at `b` from their registers and SST (R180 step 5). -/
def storePicture (b : Nat) (s : State) : Memory 8 :=
  let bs := memWrite 1 s.bs b 0x40
  let bs := memWrite 4 bs (b + 1) s.ph.reserved.toNat
  let bs := memWrite 2 bs (b + 5) s.ph.slicecount.toNat
  let bs := memWrite 1 bs (b + 7) s.ph.l2byte.toNat
  (List.range s.ph.slicecount.toNat).foldl (fun bs n => memWrite 2 bs (b + 8 + 2 * n) (s.sstAt n).toNat) bs

/-- The checks of WPIC (R180 steps 1 to 4). -/
def checkWritePicture (b : Nat) (s : State) : Res Unit :=
  let sc := s.ph.slicecount.toNat
  if s.ph.hdrsize.toNat ≠ 8 then .raised (.badOperand .hdrsize) s
  else if sc > s.cfg.maxSlices then .raised (.bufferTooSmall .sst) s
  else if sc ≠ slicesPerRow s.fh.mbw (log2SliceMbWidth s.ph.l2byte) * s.ph.mbh.toNat then .raised (.badOperand .tiling) s
  else if b + 8 + 2 * sc > s.cur.bsLen.toNat then .raised (.bufferTooSmall .header) s
  else .ok () s

/-- The pseudocode of WPIC (R180). -/
def wpicBody (s : State) : Res Unit :=
  (checkBuffer s).bind fun _ s =>
  (checkWritePicture s.cur.byteptr.toNat s).bind fun _ s =>
  .ok () (startSchedule s.cur.byteptr.toNat s.ph.slicecount.toNat (log2SliceMbWidth s.ph.l2byte)
    (s.withBs (storePicture s.cur.byteptr.toNat s)))

/-- `WPIC` (R180). -/
def execWpic (s : State) : Host.Outcome State Fault Refusal := runCommand .wpic s wpicBody

/-- The width NXSL delivers: the candidate halved until it fits the rest of the row (R176 step 4). -/
def nextWidth (s : State) : Nat := halveToFit 16 s.sched.cur.toNat (s.fh.mbw - s.sched.mbx.toNat)

/-- The schedule registers after a slice of width `c` and size `size` is delivered (R176 step 6). -/
def nextSchedule (c : Nat) (size : BitVec 16) (s : State) : Schedule :=
  if s.sched.mbx.toNat + c ≥ s.fh.mbw then
    { idx := s.sched.idx + 1
      mbx := 0
      mby := s.sched.mby + 1
      cur := BitVec.ofNat 16 (1 <<< log2SliceMbWidth s.ph.l2byte)
      ptr := s.sched.ptr + size.setWidth 32 }
  else
    { idx := s.sched.idx + 1
      mbx := BitVec.ofNat 13 (s.sched.mbx.toNat + c)
      mby := s.sched.mby
      cur := BitVec.ofNat 16 c
      ptr := s.sched.ptr + size.setWidth 32 }

/-- log2 of the chroma blocks of one macroblock: 2 in 4:4:4, 1 in 4:2:2 (R176 step 5, R182). -/
def chromaBlocksLog2 (flags1 : BitVec 8) : Nat := if chromaType flags1 = 3 then 2 else 1

/-- Deliver a slice of width `c` (R176 steps 5 and 6). -/
def deliverSlice (c : Nat) (s : State) : State :=
  let size := s.sstAt s.sched.idx.toNat
  let t := s.withSlice { s.slice with
    mbcount := BitVec.ofNat 16 c
    x := s.sched.mbx
    y := s.sched.mby
    base := s.sched.ptr
    size := size
    l2bpsY := BitVec.ofNat 5 (Nat.log2 c + 2)
    l2bpsC := BitVec.ofNat 5 (Nat.log2 c + chromaBlocksLog2 s.fh.flags1) }
  ((t.withSched (nextSchedule c size s)).withByteptr s.sched.ptr.toNat).clearSlok

/-- The pseudocode of NXSL (R176). -/
def nxslBody (s : State) : Res Unit :=
  (checkBuffer s).bind fun _ s =>
  if s.sched.idx.toNat ≥ s.ph.slicecount.toNat then .ok () s.setEos
  else if s.sched.idx.toNat ≥ s.cfg.maxSlices then .raised (.bufferTooSmall .sst) s
  else if s.fh.mbw = 0 ∨ s.sched.mbx.toNat ≥ s.fh.mbw ∨ !scheduleWidth s.sched.cur.toNat then
    .raised (.badOperand .tiling) s
  else .ok () (deliverSlice (nextWidth s) s)

/-- `NXSL` (R176). -/
def execNxsl (s : State) : Host.Outcome State Fault Refusal := runCommand .nxsl s nxslBody

/-! ### Slice header -/

/-- The fields of a slice header as PSLC reads them (30_encoding.md R116; R177). -/
structure SliceFields where
  hdrsize : Nat
  qscale : Nat
  ysize : Nat
  usize : Nat
  vsize : Nat
  deriving DecidableEq, Repr

/-- The slice header at `b` of a slice of `sz` bytes: `vDataSize` is explicit when the header has room for it, else what the other
sizes leave (R177 steps 2 and 4; 30_encoding.md R116). -/
def sliceFieldsAt (bs : Memory 8) (b sz : Nat) : SliceFields :=
  let hs := memRead bs b 1 / 8
  let ys := memRead bs (b + 2) 2
  let us := memRead bs (b + 4) 2
  { hdrsize := hs
    qscale := memRead bs (b + 1) 1
    ysize := ys
    usize := us
    vsize := if hs ≥ 8 then memRead bs (b + 6) 2 else sz - hs - ys - us }

/-- The slice header fits the slice: `6 <= hs <= sz`, and the payloads fit, the second chroma payload counted when its size is
explicit (R177 steps 3 and 4). -/
def sliceFits (f : SliceFields) (sz : Nat) : Bool :=
  6 ≤ f.hdrsize ∧ f.hdrsize ≤ sz ∧
  (if f.hdrsize ≥ 8 then f.hdrsize + f.ysize + f.usize + f.vsize ≤ sz else f.hdrsize + f.ysize + f.usize ≤ sz)

/-- The commit of PSLC (R177 step 5). -/
def commitSlice (b : Nat) (f : SliceFields) (s : State) : State :=
  let t := s.withSlice { s.slice with
    hdrsize := BitVec.ofNat 5 f.hdrsize
    qsraw := BitVec.ofNat 8 f.qscale
    qscale := BitVec.ofNat 32 (foldScale (BitVec.ofNat 8 f.qscale))
    ysize := BitVec.ofNat 16 f.ysize
    usize := BitVec.ofNat 16 f.usize
    vsize := BitVec.ofNat 16 f.vsize }
  (t.withByteptr (b + f.hdrsize)).setSlok

/-- The pseudocode of PSLC (R177). -/
def pslcBody (s : State) : Res Unit :=
  (checkBuffer s).bind fun _ s =>
  let t := s.clearSlok
  let b := s.slice.base.toNat
  let sz := s.slice.size.toNat
  if sz < 6 ∨ b + sz > s.cur.bsLen.toNat then .raised (.corruptSliceData .sliceHdr) t
  else if !sliceFits (sliceFieldsAt s.bs b sz) sz then .raised (.corruptSliceData .sliceHdr) t
  else .ok () (commitSlice b (sliceFieldsAt s.bs b sz) t)

/-- `PSLC` (R177). -/
def execPslc (s : State) : Host.Outcome State Fault Refusal := runCommand .pslc s pslcBody

/-- The byte address of plane `k`'s payload (R178; 30_encoding.md R116). -/
def planeOffset (sl : Slice) (k : BitVec 2) : Nat :=
  sl.base.toNat + sl.hdrsize.toNat + (if k.toNat ≥ 1 then sl.ysize.toNat else 0) + (if k = 2 then sl.usize.toNat else 0)

/-- The size in bytes of plane `k`'s payload (R178). -/
def planeSize (sl : Slice) (k : BitVec 2) : Nat :=
  if k = 0 then sl.ysize.toNat else if k = 1 then sl.usize.toNat else sl.vsize.toNat

/-- The commit of SELPL (R178). -/
def commitPlane (k : BitVec 2) (s : State) : State :=
  let off := planeOffset s.slice k
  let t := s.withCur { s.cur with
    bitpos := BitVec.ofNat 32 (8 * off)
    bitend := BitVec.ofNat 32 (8 * (off + planeSize s.slice k)) }
  let t := t.withPlane { s.plane with l2bps := if k = 0 then s.slice.l2bpsY else s.slice.l2bpsC }
  t.withSlice { s.slice with plane := k }

/-- The pseudocode of SELPL (R178). -/
def selplBody (k : BitVec 2) (s : State) : Res Unit :=
  (checkBuffer s).bind fun _ s =>
  if !s.status.slok then .raised (.badOperand .noSlice) s
  else if planeOffset s.slice k + planeSize s.slice k > s.cur.bsLen.toNat then .raised (.badOperand .cursor) s
  else .ok () (commitPlane k s)

/-- `SELPL k` (R178). `k = 3` is no command: `IllegalCommand(BAD_WORD)` (30_encoding.md R104). -/
def execSelpl (k : BitVec 2) (s : State) : Host.Outcome State Fault Refusal :=
  if !planeLegal k then .next (illegalWord (encode (.selpl k)) s)
  else runCommand (.selpl k) s (selplBody k)

/-- The size WSLC gives the slice: header and the three payloads (R181 step 4). -/
def writtenSliceSize (sl : Slice) : Nat := sl.hdrsize.toNat + sl.ysize.toNat + sl.usize.toNat + sl.vsize.toNat

/-- The slice header, stored at `b` from its registers (R181 step 6). -/
def storeSliceHeader (bs : Memory 8) (b : Nat) (sl : Slice) : Memory 8 :=
  let bs := memWrite 1 bs b (sl.hdrsize.toNat * 8)
  let bs := memWrite 1 bs (b + 1) sl.qsraw.toNat
  let bs := memWrite 2 bs (b + 2) sl.ysize.toNat
  let bs := memWrite 2 bs (b + 4) sl.usize.toNat
  if sl.hdrsize.toNat = 8 then memWrite 2 bs (b + 6) sl.vsize.toNat else bs

/-- The checks of WSLC (R181 steps 1 to 5). -/
def checkWriteSlice (s : State) : Res Unit :=
  if s.sched.idx.toNat = 0 then .raised (.badOperand .noSlice) s
  else if s.sched.idx.toNat - 1 ≥ s.cfg.maxSlices then .raised (.bufferTooSmall .sst) s
  else if s.slice.hdrsize.toNat ≠ 6 ∧ s.slice.hdrsize.toNat ≠ 8 then .raised (.badOperand .hdrsize) s
  else if writtenSliceSize s.slice > 65535 then .raised (.badOperand .field) s
  else if s.slice.base.toNat + writtenSliceSize s.slice > s.cur.bsLen.toNat then .raised (.bufferTooSmall .header) s
  else .ok () s

/-- The commit of WSLC (R181 steps 6 and 7). -/
def commitWriteSlice (s : State) : State :=
  let b := s.slice.base.toNat
  let sz := writtenSliceSize s.slice
  let t := s.withBs (storeSliceHeader s.bs b s.slice)
  let t := t.withSlice { s.slice with size := BitVec.ofNat 16 sz }
  let t := t.setSst (s.sched.idx.toNat - 1) (BitVec.ofNat 16 sz)
  let t := t.withSched { s.sched with ptr := BitVec.ofNat 32 (b + sz) }
  t.withByteptr (b + sz)

/-- The pseudocode of WSLC (R181). -/
def wslcBody (s : State) : Res Unit :=
  (checkBuffer s).bind fun _ s =>
  (checkWriteSlice s).bind fun _ s =>
  .ok () (commitWriteSlice s)

/-- `WSLC` (R181). -/
def execWslc (s : State) : Host.Outcome State Fault Refusal := runCommand .wslc s wslcBody

end Sys2Proof.Machine
end

