-- ==== Sys2Proof/Machine/System.lean ====
section
/-! DEFINITION. The system commands NOP, SRST, CLRF (45_system_ops.md). -/

namespace Sys2Proof.Machine

/-- The pseudocode of NOP (R250). -/
def nopBody (t : State) : Res Unit :=
  .ok () t

/-- `NOP` (R250). -/
def execNop (s : State) : Host.Outcome State Fault Refusal := runCommand .nop s nopBody

/-- `SRST` (R251): accepted while halted. -/
def execSrst (s : State) : Host.Outcome State Fault Refusal := .next (softReset s)

/-- `CLRF` (R252): accepted while halted. -/
def execClrf (s : State) : Host.Outcome State Fault Refusal := .next (clearFaults s)

end Sys2Proof.Machine
end

