-- ==== Sys2Proof/Machine/Dispatch.lean ====
section
/-! DEFINITION. The meaning of each command (the rule column of 30_encoding.md R103): one arm per constructor of `Instr`. -/

namespace Sys2Proof.Machine

def exec (i : Instr) (s : State) : Host.Outcome State Fault Refusal :=
  match i with
  | .nop => Sys2Proof.Machine.execNop s
  | .srst => Sys2Proof.Machine.execSrst s
  | .clrf => Sys2Proof.Machine.execClrf s
  | .ldcb cls ctx => Sys2Proof.Machine.execLdcb cls ctx s
  | .rdcw => Sys2Proof.Machine.execRdcw s
  | .wrcw => Sys2Proof.Machine.execWrcw s
  | .zzdec => Sys2Proof.Machine.execZzdec s
  | .zzenc => Sys2Proof.Machine.execZzenc s
  | .alignw => Sys2Proof.Machine.execAlignw s
  | .probe => Sys2Proof.Machine.execProbe s
  | .pfrm => Sys2Proof.Machine.execPfrm s
  | .ppic => Sys2Proof.Machine.execPpic s
  | .nxsl => Sys2Proof.Machine.execNxsl s
  | .pslc => Sys2Proof.Machine.execPslc s
  | .selpl k => Sys2Proof.Machine.execSelpl k s
  | .wfrm => Sys2Proof.Machine.execWfrm s
  | .wpic => Sys2Proof.Machine.execWpic s
  | .wslc => Sys2Proof.Machine.execWslc s
  | .dcinit => Sys2Proof.Machine.execDcinit s
  | .dcsym p => Sys2Proof.Machine.execDcsym p s
  | .rddc p => Sys2Proof.Machine.execRddc p s
  | .acinit => Sys2Proof.Machine.execAcinit s
  | .acsym p => Sys2Proof.Machine.execAcsym p s
  | .rdac p => Sys2Proof.Machine.execRdac p s
  | .wrdc => Sys2Proof.Machine.execWrdc s
  | .wrac => Sys2Proof.Machine.execWrac s
  | .foldq => Sys2Proof.Machine.execFoldq s
  | .scaleq => Sys2Proof.Machine.execScaleq s
  | .deq p idx => Sys2Proof.Machine.execDeq p idx s
  | .qnt p idx => Sys2Proof.Machine.execQnt p idx s
  | .qntp p => Sys2Proof.Machine.execQntp p s

end Sys2Proof.Machine
end

