-- ==== Sys2Proof/Machine/Registers.lean ====
section
/-! DEFINITION. The register file as the host sees it (10_state.md R20): numbers, access, what a read returns (a view for the derived
registers, R29, R34; zero- or sign-extended otherwise) and what a write stores (R39). -/

namespace Sys2Proof.Machine

/-- The registers of R20, by name. -/
inductive Reg where
  | cmd
  | status
  | ctrl
  | fault
  | faultPos
  | log
  | logPos
  | logXy
  | corruptCnt
  | val
  | cbd
  | cbgo
  | cbgb
  | cbrm
  | bitpos
  | bitend
  | byteptr
  | bsLen
  | frameBase
  | l2bps
  | maxc
  | scansel
  | fhFramesize
  | fhHdrsize
  | fhVersion
  | fhCreator
  | fhWidth
  | fhHeight
  | fhFlags1
  | fhColorHi
  | fhColorLo
  | fhFlags2
  | fhPayload
  | fhFrametype
  | fhChromatype
  | fhTff
  | fhMbw
  | phHdrsize
  | phReserved
  | phSlicecount
  | phL2byte
  | picMbh
  | picBase
  | phSpr
  | slIdx
  | slMbx
  | slMby
  | slCur
  | slPtr
  | slBase
  | slSize
  | slX
  | slY
  | slMbcount
  | slHdrsize
  | slQsraw
  | qscale
  | slYsize
  | slUsize
  | slVsize
  | slL2bpsY
  | slL2bpsC
  | slPlane
  | ctxBlk
  | ctxPrevcode
  | ctxSign
  | ctxPrevdc
  | ctxPos
  | ctxPrevrun
  | ctxPrevlev
  deriving DecidableEq, Repr

/-- Host access (R20): read-write, read-only (a write is ignored), write-only (a read returns 0). -/
inductive Access where
  | rw
  | ro
  | wo
  deriving DecidableEq, Repr

/-- The register's number (R20). -/
def Reg.number : Reg → Nat
  | .cmd => 0
  | .status => 1
  | .ctrl => 2
  | .fault => 3
  | .faultPos => 4
  | .log => 5
  | .logPos => 6
  | .logXy => 7
  | .corruptCnt => 8
  | .val => 16
  | .cbd => 17
  | .cbgo => 18
  | .cbgb => 19
  | .cbrm => 20
  | .bitpos => 21
  | .bitend => 22
  | .byteptr => 23
  | .bsLen => 24
  | .frameBase => 25
  | .l2bps => 26
  | .maxc => 27
  | .scansel => 28
  | .fhFramesize => 32
  | .fhHdrsize => 33
  | .fhVersion => 34
  | .fhCreator => 35
  | .fhWidth => 36
  | .fhHeight => 37
  | .fhFlags1 => 38
  | .fhColorHi => 39
  | .fhColorLo => 40
  | .fhFlags2 => 41
  | .fhPayload => 42
  | .fhFrametype => 43
  | .fhChromatype => 44
  | .fhTff => 45
  | .fhMbw => 46
  | .phHdrsize => 48
  | .phReserved => 49
  | .phSlicecount => 50
  | .phL2byte => 51
  | .picMbh => 52
  | .picBase => 53
  | .phSpr => 54
  | .slIdx => 64
  | .slMbx => 65
  | .slMby => 66
  | .slCur => 67
  | .slPtr => 68
  | .slBase => 69
  | .slSize => 70
  | .slX => 71
  | .slY => 72
  | .slMbcount => 73
  | .slHdrsize => 74
  | .slQsraw => 75
  | .qscale => 76
  | .slYsize => 77
  | .slUsize => 78
  | .slVsize => 79
  | .slL2bpsY => 80
  | .slL2bpsC => 81
  | .slPlane => 82
  | .ctxBlk => 96
  | .ctxPrevcode => 97
  | .ctxSign => 98
  | .ctxPrevdc => 99
  | .ctxPos => 100
  | .ctxPrevrun => 101
  | .ctxPrevlev => 102

/-- The register's width in bits (R20). -/
def Reg.width : Reg → Nat
  | .cmd => 32
  | .status => 7
  | .ctrl => 1
  | .fault => 24
  | .faultPos => 32
  | .log => 24
  | .logPos => 32
  | .logXy => 32
  | .corruptCnt => 32
  | .val => 32
  | .cbd => 12
  | .cbgo => 32
  | .cbgb => 32
  | .cbrm => 15
  | .bitpos => 32
  | .bitend => 32
  | .byteptr => 32
  | .bsLen => 32
  | .frameBase => 32
  | .l2bps => 5
  | .maxc => 7
  | .scansel => 1
  | .fhFramesize => 32
  | .fhHdrsize => 16
  | .fhVersion => 16
  | .fhCreator => 32
  | .fhWidth => 16
  | .fhHeight => 16
  | .fhFlags1 => 8
  | .fhColorHi => 16
  | .fhColorLo => 32
  | .fhFlags2 => 8
  | .fhPayload => 32
  | .fhFrametype => 2
  | .fhChromatype => 2
  | .fhTff => 1
  | .fhMbw => 13
  | .phHdrsize => 5
  | .phReserved => 32
  | .phSlicecount => 16
  | .phL2byte => 8
  | .picMbh => 13
  | .picBase => 32
  | .phSpr => 16
  | .slIdx => 17
  | .slMbx => 13
  | .slMby => 13
  | .slCur => 16
  | .slPtr => 32
  | .slBase => 32
  | .slSize => 16
  | .slX => 13
  | .slY => 13
  | .slMbcount => 16
  | .slHdrsize => 5
  | .slQsraw => 8
  | .qscale => 32
  | .slYsize => 16
  | .slUsize => 16
  | .slVsize => 16
  | .slL2bpsY => 5
  | .slL2bpsC => 5
  | .slPlane => 2
  | .ctxBlk => 18
  | .ctxPrevcode => 32
  | .ctxSign => 1
  | .ctxPrevdc => 32
  | .ctxPos => 32
  | .ctxPrevrun => 32
  | .ctxPrevlev => 32

/-- The host's access to the register (R20). -/
def Reg.access : Reg → Access
  | .cmd => .wo
  | .status | .fault | .faultPos | .log | .logPos | .logXy | .corruptCnt | .cbgo | .cbgb | .cbrm | .fhPayload
  | .fhFrametype | .fhChromatype | .fhTff | .fhMbw | .picBase | .phSpr | .slL2bpsY | .slL2bpsC => .ro
  | .ctrl | .val | .cbd | .bitpos | .bitend | .byteptr | .bsLen | .frameBase | .l2bps | .maxc | .scansel |
  .fhFramesize | .fhHdrsize | .fhVersion | .fhCreator | .fhWidth | .fhHeight | .fhFlags1 | .fhColorHi |
  .fhColorLo | .fhFlags2 | .phHdrsize | .phReserved | .phSlicecount | .phL2byte | .picMbh | .slIdx | .slMbx |
  .slMby | .slCur | .slPtr | .slBase | .slSize | .slX | .slY | .slMbcount | .slHdrsize | .slQsraw | .qscale |
  .slYsize | .slUsize | .slVsize | .slPlane | .ctxBlk | .ctxPrevcode | .ctxSign | .ctxPrevdc | .ctxPos |
  .ctxPrevrun | .ctxPrevlev => .rw

/-- Every register, in the order of its number. -/
def Reg.all : List Reg :=
  [.cmd, .status, .ctrl, .fault, .faultPos, .log, .logPos, .logXy, .corruptCnt, .val, .cbd, .cbgo, .cbgb, .cbrm,
   .bitpos, .bitend, .byteptr, .bsLen, .frameBase, .l2bps, .maxc, .scansel, .fhFramesize, .fhHdrsize, .fhVersion,
   .fhCreator, .fhWidth, .fhHeight, .fhFlags1, .fhColorHi, .fhColorLo, .fhFlags2, .fhPayload, .fhFrametype,
   .fhChromatype, .fhTff, .fhMbw, .phHdrsize, .phReserved, .phSlicecount, .phL2byte, .picMbh, .picBase, .phSpr,
   .slIdx, .slMbx, .slMby, .slCur, .slPtr, .slBase, .slSize, .slX, .slY, .slMbcount, .slHdrsize, .slQsraw,
   .qscale, .slYsize, .slUsize, .slVsize, .slL2bpsY, .slL2bpsC, .slPlane, .ctxBlk, .ctxPrevcode, .ctxSign,
   .ctxPrevdc, .ctxPos, .ctxPrevrun, .ctxPrevlev]

/-- The register with a number; `none` for a reserved number (R20). -/
def Reg.ofNumber (n : Nat) : Option Reg := Reg.all.find? fun r => Reg.number r = n

/-- What a read of a register returns (R20): narrower registers zero-extended, `i16` ones sign-extended; `CMD` reads 0 (R28). -/
def State.readReg (s : State) : Reg → Word
  | .cmd => 0
  | .status => s.status.word.setWidth 32
  | .ctrl => BitVec.ofNat 32 s.strict.toNat
  | .fault => s.record.fault.setWidth 32
  | .faultPos => s.record.faultPos
  | .log => s.record.log.setWidth 32
  | .logPos => s.record.logPos
  | .logXy => s.record.logXY
  | .corruptCnt => s.record.corruptCnt
  | .val => s.val
  | .cbd => s.cbd.setWidth 32
  | .cbgo => s32 (golombOffset (codebookOfCbd s.cbd))
  | .cbgb => s32 (golombBits (codebookOfCbd s.cbd))
  | .cbrm => BitVec.ofNat 32 (riceMask (codebookOfCbd s.cbd))
  | .bitpos => s.cur.bitpos
  | .bitend => s.cur.bitend
  | .byteptr => s.cur.byteptr
  | .bsLen => s.cur.bsLen
  | .frameBase => s.cur.frameBase
  | .l2bps => s.plane.l2bps.setWidth 32
  | .maxc => s.plane.maxc.setWidth 32
  | .scansel => s.plane.scansel.setWidth 32
  | .fhFramesize => s.fh.framesize
  | .fhHdrsize => s.fh.hdrsize.setWidth 32
  | .fhVersion => s.fh.version.setWidth 32
  | .fhCreator => s.fh.creator
  | .fhWidth => s.fh.width.signExtend 32
  | .fhHeight => s.fh.height.signExtend 32
  | .fhFlags1 => s.fh.flags1.setWidth 32
  | .fhColorHi => s.fh.colorHi.setWidth 32
  | .fhColorLo => s.fh.colorLo
  | .fhFlags2 => s.fh.flags2.setWidth 32
  | .fhPayload => s.fh.payload
  | .fhFrametype => BitVec.ofNat 32 (frameType s.fh.flags1)
  | .fhChromatype => BitVec.ofNat 32 (chromaType s.fh.flags1)
  | .fhTff => BitVec.ofNat 32 (topFieldFirst s.fh.flags1).toNat
  | .fhMbw => BitVec.ofNat 32 s.fh.mbw
  | .phHdrsize => s.ph.hdrsize.setWidth 32
  | .phReserved => s.ph.reserved
  | .phSlicecount => s.ph.slicecount.setWidth 32
  | .phL2byte => s.ph.l2byte.setWidth 32
  | .picMbh => s.ph.mbh.setWidth 32
  | .picBase => s.ph.base
  | .phSpr => s.ph.spr.setWidth 32
  | .slIdx => s.sched.idx.setWidth 32
  | .slMbx => s.sched.mbx.setWidth 32
  | .slMby => s.sched.mby.setWidth 32
  | .slCur => s.sched.cur.setWidth 32
  | .slPtr => s.sched.ptr
  | .slBase => s.slice.base
  | .slSize => s.slice.size.setWidth 32
  | .slX => s.slice.x.setWidth 32
  | .slY => s.slice.y.setWidth 32
  | .slMbcount => s.slice.mbcount.setWidth 32
  | .slHdrsize => s.slice.hdrsize.setWidth 32
  | .slQsraw => s.slice.qsraw.setWidth 32
  | .qscale => s.slice.qscale
  | .slYsize => s.slice.ysize.setWidth 32
  | .slUsize => s.slice.usize.setWidth 32
  | .slVsize => s.slice.vsize.setWidth 32
  | .slL2bpsY => s.slice.l2bpsY.setWidth 32
  | .slL2bpsC => s.slice.l2bpsC.setWidth 32
  | .slPlane => s.slice.plane.setWidth 32
  | .ctxBlk => s.ctx.blk.setWidth 32
  | .ctxPrevcode => s.ctx.prevcode
  | .ctxSign => BitVec.ofNat 32 s.ctx.sign.toNat
  | .ctxPrevdc => s.ctx.prevdc
  | .ctxPos => s.ctx.pos
  | .ctxPrevrun => s.ctx.prevrun
  | .ctxPrevlev => s.ctx.prevlev

/-- What a host write stores: the low bits of an RW register; nothing in a read-only one, nor in `CMD`, whose write starts a command
instead (R20, R28, R39). -/
def State.writeReg (s : State) (r : Reg) (v : Word) : State :=
  match r with
  | .ctrl => s.withStrict (v.getLsbD 0)
  | .val => s.withVal v
  | .cbd => s.withCbd (v.setWidth 12)
  | .bitpos => s.withCur { s.cur with bitpos := v }
  | .bitend => s.withCur { s.cur with bitend := v }
  | .byteptr => s.withCur { s.cur with byteptr := v }
  | .bsLen => s.withCur { s.cur with bsLen := v }
  | .frameBase => s.withCur { s.cur with frameBase := v }
  | .l2bps => s.withPlane { s.plane with l2bps := v.setWidth 5 }
  | .maxc => s.withPlane { s.plane with maxc := v.setWidth 7 }
  | .scansel => s.withPlane { s.plane with scansel := v.setWidth 1 }
  | .fhFramesize => s.withFh { s.fh with framesize := v }
  | .fhHdrsize => s.withFh { s.fh with hdrsize := v.setWidth 16 }
  | .fhVersion => s.withFh { s.fh with version := v.setWidth 16 }
  | .fhCreator => s.withFh { s.fh with creator := v }
  | .fhWidth => s.withFh { s.fh with width := v.setWidth 16 }
  | .fhHeight => s.withFh { s.fh with height := v.setWidth 16 }
  | .fhFlags1 => s.withFh { s.fh with flags1 := v.setWidth 8 }
  | .fhColorHi => s.withFh { s.fh with colorHi := v.setWidth 16 }
  | .fhColorLo => s.withFh { s.fh with colorLo := v }
  | .fhFlags2 => s.withFh { s.fh with flags2 := v.setWidth 8 }
  | .phHdrsize => s.withPh { s.ph with hdrsize := v.setWidth 5 }
  | .phReserved => s.withPh { s.ph with reserved := v }
  | .phSlicecount => s.withPh { s.ph with slicecount := v.setWidth 16 }
  | .phL2byte => s.withPh { s.ph with l2byte := v.setWidth 8 }
  | .picMbh => s.withPh { s.ph with mbh := v.setWidth 13 }
  | .slIdx => s.withSched { s.sched with idx := v.setWidth 17 }
  | .slMbx => s.withSched { s.sched with mbx := v.setWidth 13 }
  | .slMby => s.withSched { s.sched with mby := v.setWidth 13 }
  | .slCur => s.withSched { s.sched with cur := v.setWidth 16 }
  | .slPtr => s.withSched { s.sched with ptr := v }
  | .slBase => s.withSlice { s.slice with base := v }
  | .slSize => s.withSlice { s.slice with size := v.setWidth 16 }
  | .slX => s.withSlice { s.slice with x := v.setWidth 13 }
  | .slY => s.withSlice { s.slice with y := v.setWidth 13 }
  | .slMbcount => s.withSlice { s.slice with mbcount := v.setWidth 16 }
  | .slHdrsize => s.withSlice { s.slice with hdrsize := v.setWidth 5 }
  | .slQsraw => s.withSlice { s.slice with qsraw := v.setWidth 8 }
  | .qscale => s.withSlice { s.slice with qscale := v }
  | .slYsize => s.withSlice { s.slice with ysize := v.setWidth 16 }
  | .slUsize => s.withSlice { s.slice with usize := v.setWidth 16 }
  | .slVsize => s.withSlice { s.slice with vsize := v.setWidth 16 }
  | .slPlane => s.withSlice { s.slice with plane := v.setWidth 2 }
  | .ctxBlk => s.withCtx { s.ctx with blk := v.setWidth 18 }
  | .ctxPrevcode => s.withCtx { s.ctx with prevcode := v }
  | .ctxSign => s.withCtx { s.ctx with sign := v.getLsbD 0 }
  | .ctxPrevdc => s.withCtx { s.ctx with prevdc := v }
  | .ctxPos => s.withCtx { s.ctx with pos := v }
  | .ctxPrevrun => s.withCtx { s.ctx with prevrun := v }
  | .ctxPrevlev => s.withCtx { s.ctx with prevlev := v }
  | .status | .fault | .faultPos | .log | .logPos | .logXy | .corruptCnt | .cbgo | .cbgb | .cbrm | .fhPayload
  | .fhFrametype | .fhChromatype | .fhTff | .fhMbw | .picBase | .phSpr | .slL2bpsY | .slL2bpsC => s
  | .cmd => s

/-- A host read by register number: reserved numbers read 0 (R20). -/
def State.hostRead (s : State) (n : Nat) : Word :=
  match Reg.ofNumber n with
  | some r => s.readReg r
  | none => 0

/-- A host write by register number, other than to `CMD`: reserved numbers ignore it (R20). -/
def State.hostWrite (s : State) (n : Nat) (v : Word) : State :=
  match Reg.ofNumber n with
  | some r => s.writeReg r v
  | none => s

/-- A host read of one byte of BS (20_memory.md R70, R89). At or beyond `BS_BYTES` there is no byte (10_state.md R40) and the spec does
not say what a read returns: it gives no value. DESIGN CHOICE (log entry 22), safe. -/
def State.hostReadBs (s : State) (a : Nat) : Option Byte := if a < s.cfg.bsBytes then some (bsByte s.bs a) else none

/-- A host read of one word of COEF (R70, R89). At or beyond `64 * 2^LOG2_MAX_BPS` there is no word (10_state.md R41) and the read gives
no value. DESIGN CHOICE (log entry 22), safe. -/
def State.hostReadCoef (s : State) (k : Nat) : Option Word :=
  if k < 64 * 2 ^ s.cfg.log2MaxBps then some (s.coefAt k) else none

/-- A host read of one entry of QM (R70, R89). -/
def State.hostReadQm (s : State) (p : QMatrix) (i : BitVec 6) : Byte := s.qmAt p i.toNat

/-- A host read of one entry of QMS (R70, R89), the only access the host has to it. -/
def State.hostReadQms (s : State) (p : QMatrix) (i : BitVec 6) : Word := s.qmsAt p i.toNat

/-- A host read of one entry of SST (R70, R89). At or beyond `MAX_SLICES` there is no entry (10_state.md R44) and the read gives no value.
DESIGN CHOICE (log entry 22), safe. -/
def State.hostReadSst (s : State) (n : Nat) : Option (BitVec 16) := if n < s.cfg.maxSlices then some (s.sstAt n) else none

end Sys2Proof.Machine
end

