-- ==== Sys2Proof/Machine/HostPort.lean ====
section
/-! DEFINITION. The host's port: what one action of the host does (00_scope.md R5; 10_state.md R28, R39; 20_memory.md R70, R89). A write of
`CMD` runs the whole command; any other write stores and starts nothing. -/

namespace Sys2Proof.Machine

/-- A write of the word `w` to `CMD`: decode it and run the command to its end, or take `IllegalCommand(BAD_WORD)` (10_state.md R28;
30_encoding.md R104; 60_exceptions.md R269). -/
def command (w : Word) (s : State) : Host.Outcome State Fault Refusal :=
  match decode w with
  | .ok i => exec i s
  | .error _ => .next (illegalWord w s)

/-- One action of the host. A write to a location that does not exist stops the model (log entry 8). -/
def hostStep (a : HostAction) (s : State) : Host.Outcome State Fault Refusal :=
  match a with
  | .writeReg n v => if n = 0 then command v s else .next (s.hostWrite n v)
  | .writeBs addr b => if addr < s.cfg.bsBytes then .next (s.withBs (bsSetByte s.bs addr b)) else .fault .bsAddress
  | .writeCoef k v => if k < 64 * 2 ^ s.cfg.log2MaxBps then .next (s.setCoef k v) else .fault .coefIndex
  | .writeQm p i b => .next (s.withQm (Memory.write qmUnlisted s.qm (matrixIndex p i.toNat) b))
  | .writeSst n v => if n < s.cfg.maxSlices then .next (s.setSst n v) else .fault .sstIndex

end Sys2Proof.Machine
end

