-- ==== Sys2Proof/Machine/Step.lean ====
section
/-! DEFINITION. One step: the next action of the host is taken from its list and served to its end (00_scope.md R5; 20_memory.md R84). With
none pending the block is idle and keeps all state (60_exceptions.md R287). -/

namespace Sys2Proof.Machine

/-- One step (log entries 1 and 9). -/
def step (s : State) : Host.Outcome State Fault Refusal :=
  match s.host with
  | [] => .next s
  | a :: rest => hostStep a (s.withHost rest)

/-- The state in which the host's next action is a write of the command word `w` to `CMD` (10_state.md R28): a VLEC command is fetched
from nowhere else (20_memory.md R87; log entry 1). -/
def State.withFetchWord (s : State) (nbits w : Nat) : State :=
  s.withHost (.writeReg 0 (BitVec.ofNat 32 (w % 2 ^ nbits)) :: s.host)

end Sys2Proof.Machine
end

