-- ==== Sys2Proof/Safety.lean ====
section
/-! DEFINITION. The terms of the claims: a run that ended well (00_scope.md R7), the invariants, the legality of the registers a command
checks, the state a fault leaves, and the spec's own view of the bitstream: codewords, DC and AC symbol streams, and the row
schedule, as lists. None of these is used by the machine. -/

namespace Sys2Proof.Machine

/-- A run ended well when `STATUS.HALT = 0` (R7). -/
def State.endedWell (s : State) : Prop := s.status.halt = false

/-- Every memory is in canonical form and lists nothing outside its size (10_state.md R40 to R44). -/
structure State.memoriesWf (s : State) : Prop where
  bs : Memory.wf bsUnlisted s.bs
  coef : Memory.wf coefUnlisted s.coef
  qm : Memory.wf qmUnlisted s.qm
  qms : Memory.wf qmsUnlisted s.qms
  sst : Memory.wf sstUnlisted s.sst
  bsInside : Memory.inside s.cfg.bsBytes s.bs
  coefInside : Memory.inside (64 * 2 ^ s.cfg.log2MaxBps) s.coef
  qmInside : Memory.inside 128 s.qm
  qmsInside : Memory.inside 128 s.qms
  sstInside : Memory.inside s.cfg.maxSlices s.sst

/-- The fault record agrees with the flags: `HALT` is 1 exactly while `FAULT` names a fault, `CORRUPT` exactly while the log and its
count do, an empty record has no cursor, and `REJ` is 1 only while halted (10_state.md R25, R27; 60_exceptions.md R270 to R272). -/
structure State.recordAgrees (s : State) : Prop where
  halt : s.status.halt = true ↔ s.record.fault ≠ 0
  pos : s.status.halt = false → s.record.faultPos = 0
  corrupt : s.status.corrupt = true ↔ s.record.corruptCnt ≠ 0
  log : s.status.corrupt = true ↔ s.record.log ≠ 0
  clean : s.status.corrupt = false → s.record.logPos = 0 ∧ s.record.logXY = 0
  rej : s.status.rej = true → s.status.halt = true

end Sys2Proof.Machine

namespace Sys2Proof.Claims

open Sys2Proof.Machine

/-! ### What the commands check -/

/-- `STATUS.HALT = 0`: commands are accepted (60_exceptions.md R271). -/
abbrev Running (s : State) : Prop := s.status.halt = false

/-- `BS_LEN <= BS_BYTES` (42_header_codec.md R170). -/
abbrev BufferLegal (s : State) : Prop := s.cur.bsLen.toNat ≤ s.cfg.bsBytes

/-- `BS_LEN <= BS_BYTES`, `BITEND <= 8 * BS_LEN`, `BITPOS <= BITEND` (41_entropy_coder.md R150; 43_coefficient_coder.md R211). -/
abbrev CursorsLegal (s : State) : Prop :=
  BufferLegal s ∧ s.cur.bitend.toNat ≤ 8 * s.cur.bsLen.toNat ∧ s.cur.bitpos.toNat ≤ s.cur.bitend.toNat

/-- `L2BPS <= LOG2_MAX_BPS` (10_state.md R30). -/
abbrev BpsLegal (s : State) : Prop := s.plane.l2bps.toNat ≤ s.cfg.log2MaxBps

/-- `1 <= MAXC <= 64` (10_state.md R31). -/
abbrev MaxcLegal (s : State) : Prop := 1 ≤ s.plane.maxc.toNat ∧ s.plane.maxc.toNat ≤ 64

/-! ### What a fault leaves -/

/-- The state a fatal fault leaves, from the state at the fault (60_exceptions.md R270). -/
def fatal (op code sub : Nat) (pos : Word) (t : State) : State :=
  { t with
    record := { t.record with fault := BitVec.ofNat 24 (code + 256 * sub + 65536 * op), faultPos := pos }
    status := { t.status with halt := true } }

/-- The state a concealed corruption leaves, from the state at the fault (60_exceptions.md R272). -/
def concealed (op sub : Nat) (pos : Word) (abandons : Bool) (t : State) : State :=
  { t with
    record := { t.record with
      log := BitVec.ofNat 24 (sub + 256 * t.slice.plane.toNat + 65536 * op)
      logPos := pos
      logXY := BitVec.ofNat 32 (t.slice.x.toNat + 65536 * t.slice.y.toNat)
      corruptCnt := BitVec.ofNat 32 (min (t.record.corruptCnt.toNat + 1) (2 ^ 32 - 1)) }
    status := { t.status with corrupt := true, abandon := t.status.abandon || abandons } }

/-- The state `CorruptSliceData` leaves: fatal with code 2 in strict mode, concealed otherwise (60_exceptions.md R272, R273). -/
def corrupt (op sub : Nat) (pos : Word) (abandons : Bool) (t : State) : State :=
  if t.strict then fatal op 2 sub pos t else concealed op sub pos abandons t

/-- Every fault with its code and subcode, as 60_exceptions.md R261 and R262 list them. -/
def causes : List (Raise × Nat × Nat) := [
  (.malformedHeader .truncated, 1, 1), (.malformedHeader .badSignature, 1, 2), (.malformedHeader .badDimension, 1, 3),
  (.malformedHeader .reservedValue, 1, 4), (.malformedHeader .badHdrsize, 1, 5), (.malformedHeader .badFramesize, 1, 6),
  (.malformedHeader .badTiling, 1, 7),
  (.corruptSliceData .escOverflow, 2, 1), (.corruptSliceData .noTerminator, 2, 2), (.corruptSliceData .pastEnd, 2, 3),
  (.corruptSliceData .runOverrun, 2, 4), (.corruptSliceData .sliceHdr, 2, 5), (.corruptSliceData .negative, 2, 6),
  (.bufferTooSmall .header, 3, 1), (.bufferTooSmall .stream, 3, 2), (.bufferTooSmall .sst, 3, 3),
  (.illegalCommand, 4, 1), (.notRepresentable .negative, 5, 1), (.notRepresentable .tooLarge, 5, 2), (.divideByZero, 6, 1),
  (.badOperand .cursor, 7, 1), (.badOperand .bps, 7, 2), (.badOperand .maxc, 7, 3), (.badOperand .noSlice, 7, 4),
  (.badOperand .hdrsize, 7, 5), (.badOperand .field, 7, 6), (.badOperand .tiling, 7, 7)]

/-- The cursor a fault record names, by the opcode: `BITPOS` at the fault for RDCW, WRCW, ALIGNW and the coefficient commands,
`BYTEPTR` at the start for the header commands, 0 for the rest (60_exceptions.md R270). -/
def recordCursor (op : Nat) (start t : State) : Word :=
  if op = 0x11 ∨ op = 0x12 ∨ op = 0x15 ∨ (0x30 ≤ op ∧ op ≤ 0x39) then t.cur.bitpos
  else if 0x20 ≤ op ∧ op ≤ 0x2A then start.cur.byteptr
  else 0

/-! ### Bits and bytes of BS -/

/-- BS holds the bits of the list from bit address `a` on, in stream order (20_memory.md R72). -/
def holdsBits (bs : Memory 8) : Nat → List Bool → Bool
  | _, [] => true
  | a, b :: l => bsBit bs a == b && holdsBits bs (a + 1) l

/-- BS holds the bytes of the list from byte address `a` on. -/
def holdsBytes (bs : Memory 8) : Nat → List Byte → Bool
  | _, [] => true
  | a, b :: l => bsByte bs a == b && holdsBytes bs (a + 1) l

/-- `bs'` is `bs` with the bits of the list stored from bit address `a`: no other bit differs, and no byte that holds none of them. -/
structure StoresBits (bs bs' : Memory 8) (a : Nat) (l : List Bool) : Prop where
  stored : holdsBits bs' a l = true
  bits : ∀ b, b < a ∨ a + l.length ≤ b → bsBit bs' b = bsBit bs b
  bytes : ∀ x, 8 * x + 8 ≤ a ∨ a + l.length ≤ 8 * x → bsByte bs' x = bsByte bs x

/-- Every byte of BS outside the `n` bytes from `a` reads the same in `bs'`. -/
def SameBytesOutside (bs bs' : Memory 8) (a n : Nat) : Prop := ∀ x, x < a ∨ a + n ≤ x → bsByte bs' x = bsByte bs x

/-- The `n` low bits of `v`, the most significant first (20_memory.md R78). -/
def msbBits : Nat → Nat → List Bool
  | 0, _ => []
  | n + 1, v => v.testBit n :: msbBits n v

/-- The `n` low bytes of `v`, the most significant first (20_memory.md R71, R75). -/
def bigEndian : Nat → Nat → List Byte
  | 0, _ => []
  | n + 1, v => BitVec.ofNat 8 (v / 256 ^ n) :: bigEndian n v

/-! ### Codewords -/

/-- `q` zeros, a one, and the suffix `x` of `n` bits are the codeword of `v` under a codebook (30_encoding.md R110): the escape form when
`q > switchBits`, else the Rice form, whose suffix is empty when `riceOrder = 0`. -/
structure IsCode (cb : Codebook) (q n x : Nat) (v : Int) : Prop where
  prefixLegal : q ≤ 15
  suffixFits : x < 2 ^ n
  suffixLegal : cb.switchBits.toNat < q → (n : Int) = golombBits cb + q ∧ n ≤ 16 ∧ v = (2 ^ n + x : Nat) - golombOffset cb
  riceForm : q ≤ cb.switchBits.toNat → n = cb.riceOrder.toNat ∧ v = (q * 2 ^ n + x : Nat)

/-- The bit string of a codeword (30_encoding.md R110). -/
def codeword (q n x : Nat) : List Bool := List.replicate q false ++ true :: msbBits n x

/-- The bit string is a codeword of the value under the codebook. -/
def Codes (cb : Codebook) (v : Int) (l : List Bool) : Prop := ∃ q n x, IsCode cb q n x v ∧ l = codeword q n x

/-- The largest representable value of a codebook (41_entropy_coder.md R155). -/
def vmax (cb : Codebook) : Int := 2 ^ (min 17 (16 + golombBits cb)).toNat - 1 - golombOffset cb

/-- Between bit addresses `a` and `e` no codeword of the codebook stands at `a`: the subcode of the corruption, and where `BITPOS` is left
(41_entropy_coder.md R151, steps 4 to 6). -/
inductive CorruptAt (cb : Codebook) (bs : Memory 8) (a e : Nat) : (sub : Nat) → (pos : Nat) → Prop where
  /-- Sixteen zeros. -/
  | noTerminator (room : a + 16 ≤ e) (zeros : holdsBits bs a (List.replicate 16 false) = true) : CorruptAt cb bs a e 2 a
  /-- The end before the `1`. -/
  | endsInPrefix (room : a ≤ e) (short : e < a + 16) (zeros : holdsBits bs a (List.replicate (e - a) false) = true) :
      CorruptAt cb bs a e 3 a
  /-- An escape suffix longer than 16 bits. -/
  | escOverflow (q : Nat) (short : q ≤ 15) (room : a + q < e) (bits : holdsBits bs a (codeword q 0 0) = true)
      (escape : cb.switchBits.toNat < q) (long : 16 < golombBits cb + q) : CorruptAt cb bs a e 1 (a + q + 1)
  /-- The end inside an escape suffix. -/
  | endsInEscape (q n : Nat) (short : q ≤ 15) (room : a + q < e) (bits : holdsBits bs a (codeword q 0 0) = true)
      (escape : cb.switchBits.toNat < q) (size : (n : Int) = golombBits cb + q) (legal : n ≤ 16) (past : e < a + q + 1 + n) :
      CorruptAt cb bs a e 3 (a + q + 1)
  /-- The end inside a Rice suffix. -/
  | endsInRice (q : Nat) (short : q ≤ 15) (room : a + q < e) (bits : holdsBits bs a (codeword q 0 0) = true)
      (rice : q ≤ cb.switchBits.toNat) (past : e < a + q + 1 + cb.riceOrder.toNat) : CorruptAt cb bs a e 3 (a + q + 1)

/-- Writing the codeword of `v` from bit address `a` fails, nothing written: the code and subcode (41_entropy_coder.md R153, R155). -/
inductive WriteFails (cb : Codebook) (v : Int) (a e : Nat) : (code : Nat) → (sub : Nat) → Prop where
  /-- `NotRepresentable(NEGATIVE)`. -/
  | negative (below : v < 0) : WriteFails cb v a e 5 1
  /-- `NotRepresentable(TOO_LARGE)`. -/
  | tooLarge (legal : 0 ≤ v) (above : vmax cb < v) : WriteFails cb v a e 5 2
  /-- `BufferTooSmall(STREAM)`. -/
  | noRoom (l : List Bool) (code : Codes cb v l) (past : e < a + l.length) : WriteFails cb v a e 3 2

/-! ### DC symbol streams -/

/-- The context of the first DC-delta symbol: `DC_CTX_INIT`, or the first code in the mode `FIRST_CODE` (43_coefficient_coder.md R202,
R203, R208). -/
def dcFirstContext (c : DcCtxInit) (c0 : Nat) : Nat :=
  match c with
  | .const n => n.val
  | .firstCode => c0

/-- The bit string is the DC-delta codewords of the codes, each under the codebook its predecessor selects (40_codebook_table.md R141). -/
def DeltaStream (rom : CodebookRom) : Nat → List Nat → List Bool → Prop
  | _, [], l => l = []
  | prev, c :: cs, l => ∃ l₁ l₂, l = l₁ ++ l₂ ∧ Codes (cbromAt rom .dcDelta prev) c l₁ ∧ DeltaStream rom c cs l₂

/-- The bit string is the DC part of a payload (30_encoding.md R117): a first-DC codeword, then the DC-delta codewords. -/
def DcStream (cfg : Config) (c0 : Nat) (cs : List Nat) (l : List Bool) : Prop :=
  ∃ l₁ l₂, l = l₁ ++ l₂ ∧ Codes (cbromAt cfg.cbrom .firstDC 0) c0 l₁ ∧
    DeltaStream cfg.cbrom (dcFirstContext cfg.dcCtxInit c0) cs l₂

/-- The bit string is the codewords of the DC codes of the first blocks of a plane, as many as there are codes. -/
def DcCodes (cfg : Config) : List Nat → List Bool → Prop
  | [], l => l = []
  | c0 :: cs, l => DcStream cfg c0 cs l

/-- The codebook of the DC code that follows the given ones: the first-DC codebook for the first block, else the DC-delta codebook the
last code selects (43_coefficient_coder.md R203, R208). -/
def nextDcBook (cfg : Config) : List Nat → Codebook
  | [] => cbromAt cfg.cbrom .firstDC 0
  | c0 :: cs => cbromAt cfg.cbrom .dcDelta (cs.getLast?.getD (dcFirstContext cfg.dcCtxInit c0))

/-- The signed value of a first-DC code: even codes are half the code, odd ones the negative of half the next (41_entropy_coder.md R157). -/
def signedOf (c : Nat) : Int := if c % 2 = 0 then (c / 2 : Nat) else -((c + 1) / 2 : Nat)

/-- The running sign after a DC-delta code: an odd code flips it, an even nonzero one keeps it, 0 clears it (43_coefficient_coder.md
R203). -/
def signAfter (sign : Bool) (c : Nat) : Bool := if c = 0 then false else if c % 2 = 1 then !sign else sign

/-- The running DC after a DC-delta code: the magnitude `(code + 1) >> 1` under the new running sign (R203). -/
def dcAfter (sign : Bool) (dc : Word) (c : Nat) : Word :=
  if signAfter sign c then dc - BitVec.ofNat 32 ((c + 1) / 2) else dc + BitVec.ofNat 32 ((c + 1) / 2)

/-- Running sign and running DC after each of the codes. -/
def dcRun : Bool → Word → List Nat → List (Bool × Word)
  | _, _, [] => []
  | sign, dc, c :: cs => (signAfter sign c, dcAfter sign dc c) :: dcRun (signAfter sign c) (dcAfter sign dc c) cs

/-- Running sign and running DC after the first code and after each of the deltas: entry `j` belongs to block `j`. -/
def dcTerms (c0 : Nat) (cs : List Nat) : List (Bool × Word) :=
  (false, BitVec.ofInt 32 (signedOf c0)) :: dcRun false (BitVec.ofInt 32 (signedOf c0)) cs

/-- The coder context after the DC codes of the first blocks of a plane are decoded, from the start of the plane (R202, R203). -/
def dcContext (s : State) : List Nat → CoderContext
  | [] => { s.ctx with blk := 0, prevcode := BitVec.ofNat 32 (dcFirstContext s.cfg.dcCtxInit 0), sign := false, prevdc := 0 }
  | c0 :: cs => { s.ctx with
      blk := BitVec.ofNat 18 (cs.length + 1)
      prevcode := BitVec.ofNat 32 (cs.getLast?.getD (dcFirstContext s.cfg.dcCtxInit c0))
      sign := ((dcTerms c0 cs).getLast?.map Prod.fst).getD false
      prevdc := ((dcTerms c0 cs).getLast?.map Prod.snd).getD 0 }

/-- The word of COEF at index `k` of a plane whose first blocks have the DC codes and no AC term: the scaled term of a decoded block in
its DC word, 0 elsewhere (R200, R202, R203). -/
def dcWord (s : State) (p : QMatrix) (codes : List Nat) (k : Nat) : Word :=
  match codes with
  | [] => 0
  | c0 :: cs => if k % 64 = 0 then dequant s p 0 ((((dcTerms c0 cs)[k / 64]?).map Prod.snd).getD 0) else 0

/-- The differences of the DC terms of the blocks `blk`, `blk + 1`, ... of the plane in COEF, `n` of them (43_coefficient_coder.md R208). -/
def dcDeltas (s : State) : Nat → Nat → List Word
  | 0, _ => []
  | n + 1, blk => (s.coefAt (64 * blk) - s.coefAt (64 * (blk - 1))) :: dcDeltas s n (blk + 1)

/-- The codes of DC differences: twice the magnitude, less 1 when the sign differs from the running sign (R208). -/
def deltaCodes : Bool → List Word → List Nat
  | _, [] => []
  | sign, d :: ds => (if d = 0 then 0 else 2 * d.toInt.natAbs - (if sign ≠ d.slt 0 then 1 else 0)) :: deltaCodes (d.slt 0) ds

/-- The DC codes of the plane in COEF: the first term zig-zag mapped, read as unsigned, then the codes of the differences (R208). -/
def planeCodes (s : State) : List Nat :=
  let v := (s.coefAt 0).toInt
  (BitVec.ofInt 32 (if 0 ≤ v then 2 * v else -(2 * v) - 1)).toNat :: deltaCodes false (dcDeltas s (2 ^ s.plane.l2bps.toNat - 1) 1)

/-- The coder context after the DC codes of the first blocks of the plane in COEF are written: that of the last of them, and the
untouched one when there is none (R208). -/
def writtenDcContext (s : State) : List Nat → CoderContext
  | [] => s.ctx
  | c0 :: cs => { s.ctx with
      blk := BitVec.ofNat 18 (cs.length + 1)
      prevcode := BitVec.ofNat 32 (cs.getLast?.getD (dcFirstContext s.cfg.dcCtxInit c0))
      sign := (s.coefAt (64 * cs.length) - s.coefAt (64 * (cs.length - 1))).slt 0
      prevdc := s.coefAt (64 * cs.length) }

/-! ### AC symbol streams -/

/-- A decoded AC symbol: run, level, and whether it is negative (43_coefficient_coder.md R206). -/
structure Triple where
  run : Nat
  level : Nat
  negative : Bool
  deriving DecidableEq, Repr

/-- The bit string is the AC part of a payload (30_encoding.md R117): for each triple a run codeword and a level codeword, each under the
codebook the previous run or level selects, and a sign bit. -/
def AcStream (rom : CodebookRom) : Nat → Nat → List Triple → List Bool → Prop
  | _, _, [], l => l = []
  | run, lev, t :: ts, l => ∃ l₁ l₂ l₃, l = l₁ ++ l₂ ++ t.negative :: l₃ ∧ 1 ≤ t.level ∧
      Codes (cbromAt rom .acRun run) t.run l₁ ∧ Codes (cbromAt rom .acLevel lev) (t.level - 1 : Nat) l₂ ∧
      AcStream rom t.run t.level ts l₃

/-- The position after each triple: `run + 1` further (R206). -/
def acPositions : Nat → List Triple → List Nat
  | _, [] => []
  | pos, t :: ts => (pos + t.run + 1) :: acPositions (pos + t.run + 1) ts

/-- The coefficient of a triple. -/
def Triple.value (t : Triple) : Word := BitVec.ofInt 32 (if t.negative then -(t.level : Int) else t.level)

/-- The triples of the coefficients at the positions `pos`, `pos + 1`, ..., `n` of them, with `run` zero terms before (R209). -/
def triplesOf (c : Nat → Word) : Nat → Nat → Nat → List Triple
  | 0, _, _ => []
  | n + 1, pos, run =>
    if c pos = 0 then triplesOf c n (pos + 1) (run + 1)
    else ⟨run, (c pos).toInt.natAbs, (c pos).slt 0⟩ :: triplesOf c n (pos + 1) 0

/-- The triples of the plane in COEF, up to `MAXC` (R209). -/
def planeTriples (s : State) : List Triple :=
  let bps := 2 ^ s.plane.l2bps.toNat
  triplesOf (fun pos => s.coefAt (64 * (pos % bps) + s.scan (pos / bps))) ((s.plane.maxc.toNat - 1) * bps) bps 0

/-- The run that selects the codebook of the run after the triples (R205, R206). -/
def lastRun (cfg : Config) (ts : List Triple) : Nat := (ts.getLast?.map Triple.run).getD cfg.runCtxInit.val

/-- The level that selects the codebook of the level after the triples (R205, R206). -/
def lastLevel (cfg : Config) (ts : List Triple) : Nat := (ts.getLast?.map Triple.level).getD cfg.levCtxInit.val

/-- The position of the last of the triples, from the start of the AC part of a plane of `bps` blocks (R205, R206). -/
def lastPlace (bps : Nat) (ts : List Triple) : Nat := (acPositions (bps - 1) ts).getLast?.getD (bps - 1)

/-- The coder context after the triples, from the start of the AC part of the plane (R205, R206, R209). -/
def acContext (s : State) (ts : List Triple) : CoderContext :=
  { s.ctx with
    pos := BitVec.ofNat 32 (lastPlace (2 ^ s.plane.l2bps.toNat) ts)
    prevrun := BitVec.ofNat 32 (lastRun s.cfg ts)
    prevlev := BitVec.ofNat 32 (lastLevel s.cfg ts) }

/-- No triple is decoded at bit address `a`, after a triple at position `pos` with run `run` and level `lev`, in a plane of `bps` blocks
decoded up to `maxc`: the subcode of the corruption, or none at a normal end, and where `BITPOS` is left (R206, steps 2 to 8). -/
inductive AcEnd (rom : CodebookRom) (bs : Memory 8) (e bps maxc run lev pos a : Nat) : (sub : Option Nat) → (next : Nat) → Prop where
  /-- No `1` up to the end. -/
  | zeros (room : a ≤ e) (bits : holdsBits bs a (List.replicate (e - a) false) = true) : AcEnd rom bs e bps maxc run lev pos a none a
  /-- A corrupt run codeword. -/
  | badRun (sub next : Nat) (bits : holdsBits bs a (List.replicate (e - a) false) = false)
      (corrupt : CorruptAt (cbromAt rom .acRun run) bs a e sub next) : AcEnd rom bs e bps maxc run lev pos a (some sub) next
  /-- A run to or beyond the end of the plane. -/
  | overrun (r : Nat) (l : List Bool) (code : Codes (cbromAt rom .acRun run) r l) (bits : holdsBits bs a l = true)
      (room : a + l.length ≤ e) (far : 64 * bps ≤ pos + r + 1) : AcEnd rom bs e bps maxc run lev pos a (some 4) (a + l.length)
  /-- A run inside the plane, to or beyond `maxc`: the end of a reduced decode. -/
  | reduced (r : Nat) (l : List Bool) (code : Codes (cbromAt rom .acRun run) r l) (bits : holdsBits bs a l = true)
      (room : a + l.length ≤ e) (inside : pos + r + 1 < 64 * bps) (far : maxc * bps ≤ pos + r + 1) :
      AcEnd rom bs e bps maxc run lev pos a none (a + l.length)
  /-- A corrupt level codeword. -/
  | badLevel (r sub next : Nat) (l : List Bool) (code : Codes (cbromAt rom .acRun run) r l) (bits : holdsBits bs a l = true)
      (room : a + l.length ≤ e) (near : pos + r + 1 < maxc * bps)
      (corrupt : CorruptAt (cbromAt rom .acLevel lev) bs (a + l.length) e sub next) :
      AcEnd rom bs e bps maxc run lev pos a (some sub) next
  /-- No bit left for the sign. -/
  | noSign (r : Nat) (v : Int) (l₁ l₂ : List Bool) (code : Codes (cbromAt rom .acRun run) r l₁)
      (code' : Codes (cbromAt rom .acLevel lev) v l₂) (bits : holdsBits bs a (l₁ ++ l₂) = true)
      (near : pos + r + 1 < maxc * bps) (full : a + (l₁ ++ l₂).length = e) : AcEnd rom bs e bps maxc run lev pos a (some 3) e

/-- The state an AC command leaves at the end of its triples, from the state after them: `BITPOS` moved, then `EOP` set at a normal end,
the corruption taken and the plane abandoned at another (R206; 60_exceptions.md R272, R273). -/
def acEnded (op : Nat) (sub : Option Nat) (next : Nat) (s : State) : State :=
  let t := { s with cur := { s.cur with bitpos := BitVec.ofNat 32 next } }
  match sub with
  | none => { t with status := { t.status with eop := true } }
  | some c => corrupt op c (BitVec.ofNat 32 next) true t

/-- Writing a triple from bit address `a` fails after part of it is written: the bits of that part, and the code and subcode (R209). -/
inductive TripleFails (rom : CodebookRom) (run lev : Nat) (x : Triple) (a e : Nat) :
    (part : List Bool) → (code : Nat) → (sub : Nat) → Prop where
  /-- At the run codeword. -/
  | run (code sub : Nat) (fails : WriteFails (cbromAt rom .acRun run) x.run a e code sub) : TripleFails rom run lev x a e [] code sub
  /-- At the level codeword. -/
  | level (l : List Bool) (code sub : Nat) (done : Codes (cbromAt rom .acRun run) x.run l) (room : a + l.length ≤ e)
      (fails : WriteFails (cbromAt rom .acLevel lev) (x.level - 1 : Nat) (a + l.length) e code sub) :
      TripleFails rom run lev x a e l code sub
  /-- At the sign bit. -/
  | sign (l₁ l₂ : List Bool) (done : Codes (cbromAt rom .acRun run) x.run l₁)
      (done' : Codes (cbromAt rom .acLevel lev) (x.level - 1 : Nat) l₂) (full : a + (l₁ ++ l₂).length = e) :
      TripleFails rom run lev x a e (l₁ ++ l₂) 3 2

/-! ### The row schedule -/

/-- The widths of the slices of one macroblock row (42_header_codec.md R175): as many of `2^l2` as fit, then one for each set bit of the
rest, the highest first. -/
def rowWidths (mbw l2 : Nat) : List Nat :=
  List.replicate (mbw / 2 ^ l2) (2 ^ l2) ++
    (List.range l2).reverse.filterMap fun k => if (mbw % 2 ^ l2).testBit k then some (2 ^ k) else none

/-! ### Headers -/

/-- Where the chroma matrix of a frame stands: after the luma matrix when that is present (30_encoding.md R111). -/
def chromaPlace (b f2 : Nat) : Nat := b + 28 + 64 * (f2 / 2 % 2)

/-- The first check of PFRM that fails, by its subcode of `MalformedHeader`; `none` when all pass (42_header_codec.md R172, steps 1 to
7). -/
def frameFault (s : State) : Option Nat :=
  let b := s.cur.frameBase.toNat
  let fs := memRead s.bs b 4
  let hs := memRead s.bs (b + 8) 2
  let wd := memRead s.bs (b + 16) 2
  let ht := memRead s.bs (b + 18) 2
  let f1 := memRead s.bs (b + 20) 1
  let f2 := memRead s.bs (b + 27) 1
  if b + 28 > s.cur.bsLen.toNat then some 1
  else if holdsBytes s.bs (b + 4) [0x69, 0x63, 0x70, 0x66] = false then some 2
  else if wd = 0 ∨ wd ≥ 0x8000 ∨ ht = 0 ∨ ht ≥ 0x8000 then some 3
  else if f1 / 4 % 4 = 3 ∨ f1 / 64 < 2 then some 4
  else if hs < 20 + 64 * (f2 / 2 % 2 + f2 % 2) then some 5
  else if fs < 8 + hs ∨ b + fs > s.cur.bsLen.toNat then some 6
  else none

/-- The first check of PPIC that fails, by its code and subcode; `none` when all pass (R174, steps 1 to 5). -/
def pictureFault (s : State) : Option (Nat × Nat) :=
  let b := s.cur.byteptr.toNat
  let sc := memRead s.bs (b + 5) 2
  let l2 := memRead s.bs (b + 7) 1 / 16
  if b + 8 > s.cur.bsLen.toNat then some (1, 1)
  else if sc > s.cfg.maxSlices then some (3, 3)
  else if b + 8 + 2 * sc > s.cur.bsLen.toNat then some (1, 1)
  else if sc ≠ slicesPerRow s.fh.mbw l2 * s.ph.mbh.toNat then some (1, 7)
  else none

/-- The registers pass the checks of WFRM (R179, steps 1 and 2). -/
abbrev FrameWritable (s : State) : Prop :=
  1 ≤ s.fh.width.toNat ∧ s.fh.width.toNat < 0x8000 ∧ 1 ≤ s.fh.height.toNat ∧ s.fh.height.toNat < 0x8000 ∧
  s.fh.flags1.toNat / 4 % 4 ≠ 3 ∧ 2 ≤ s.fh.flags1.toNat / 64 ∧
  s.cur.frameBase.toNat + 28 + 64 * (s.fh.flags2.toNat / 2 % 2 + s.fh.flags2.toNat % 2) ≤ s.cur.bsLen.toNat

/-- The registers pass the checks of WPIC (R180, steps 1 to 4). -/
abbrev PictureWritable (s : State) : Prop :=
  s.ph.hdrsize = 8 ∧ s.ph.slicecount.toNat ≤ s.cfg.maxSlices ∧
  s.ph.slicecount.toNat = slicesPerRow s.fh.mbw (s.ph.l2byte.toNat / 16) * s.ph.mbh.toNat ∧
  s.cur.byteptr.toNat + 8 + 2 * s.ph.slicecount.toNat ≤ s.cur.bsLen.toNat

/-- The fixed bytes of a frame header, from its registers (30_encoding.md R111), with the header size `hs`. -/
def frameBytes (fh : FrameHeader) (hs : Nat) : List Byte :=
  bigEndian 4 fh.framesize.toNat ++ [0x69, 0x63, 0x70, 0x66] ++ bigEndian 2 hs ++ bigEndian 2 fh.version.toNat ++
    bigEndian 4 fh.creator.toNat ++ bigEndian 2 fh.width.toNat ++ bigEndian 2 fh.height.toNat ++ bigEndian 1 fh.flags1.toNat ++
    bigEndian 2 fh.colorHi.toNat ++ bigEndian 4 fh.colorLo.toNat ++ bigEndian 1 fh.flags2.toNat

/-- The bytes of a picture header and its slice size table, from their registers and SST (30_encoding.md R115). -/
def pictureBytes (s : State) : List Byte :=
  [0x40] ++ bigEndian 4 s.ph.reserved.toNat ++ bigEndian 2 s.ph.slicecount.toNat ++ [s.ph.l2byte] ++
    (List.range s.ph.slicecount.toNat).flatMap fun n => bigEndian 2 (s.sstAt n).toNat

/-- The bytes of a slice header, from its registers (30_encoding.md R116): `vDataSize` only in a header of 8 bytes. -/
def sliceBytes (sl : Slice) : List Byte :=
  [BitVec.ofNat 8 (8 * sl.hdrsize.toNat), sl.qsraw] ++ bigEndian 2 sl.ysize.toNat ++ bigEndian 2 sl.usize.toNat ++
    (if sl.hdrsize = 8 then bigEndian 2 sl.vsize.toNat else [])

/-- The slice header at `SL_BASE` fits the slice, and the slice fits BS (42_header_codec.md R177, steps 1 to 4). -/
abbrev SliceLegal (s : State) : Prop :=
  let b := s.slice.base.toNat
  let sz := s.slice.size.toNat
  let hs := memRead s.bs b 1 / 8
  let ys := memRead s.bs (b + 2) 2
  let us := memRead s.bs (b + 4) 2
  let vs := memRead s.bs (b + 6) 2
  6 ≤ sz ∧ b + sz ≤ s.cur.bsLen.toNat ∧ 6 ≤ hs ∧ hs ≤ sz ∧
    (8 ≤ hs → hs + ys + us + vs ≤ sz) ∧ (hs < 8 → hs + ys + us ≤ sz)

/-- The byte address of plane `k` of the current slice: its header, then Y, U, V (30_encoding.md R116; R178). -/
def planeStart (sl : Slice) (k : Nat) : Nat :=
  sl.base.toNat + sl.hdrsize.toNat + (if k = 0 then 0 else if k = 1 then sl.ysize.toNat else sl.ysize.toNat + sl.usize.toNat)

/-- The size of plane `k` of the current slice (R178). -/
def planeBytes (sl : Slice) (k : Nat) : Nat :=
  if k = 0 then sl.ysize.toNat else if k = 1 then sl.usize.toNat else sl.vsize.toNat

/-- The size WSLC gives the current slice: its header and three payloads (R181). -/
def sliceSize (sl : Slice) : Nat := sl.hdrsize.toNat + sl.ysize.toNat + sl.usize.toNat + sl.vsize.toNat

/-- The registers pass the checks of WSLC (R181, steps 1 to 5). -/
abbrev SliceWritable (s : State) : Prop :=
  1 ≤ s.sched.idx.toNat ∧ s.sched.idx.toNat ≤ s.cfg.maxSlices ∧ (s.slice.hdrsize = 6 ∨ s.slice.hdrsize = 8) ∧
  sliceSize s.slice ≤ 65535 ∧ s.slice.base.toNat + sliceSize s.slice ≤ s.cur.bsLen.toNat

/-- `Fold(raw)` as 44_quantizer.md R231 tabulates it: raw 0 acts as 1, raw 225 to 255 act as 224. -/
def foldOf (raw : Nat) : Nat :=
  if raw = 0 then 1 else if raw ≤ 128 then raw else if raw ≤ 224 then 4 * (raw - 96) else 512

/-! ### Runs of commands -/

/-- The state after a command; the state itself where the model stops. -/
def after (i : Instr) (s : State) : State :=
  match exec i s with
  | .next t => t
  | .fault _ => s
  | .refused _ => s

/-- The state after a command issued `n` times. -/
def afterTimes (i : Instr) : Nat → State → State
  | 0, s => s
  | n + 1, s => afterTimes i n (after i s)

/-- `SL_MBCOUNT` after each of `n` NXSL commands. -/
def deliveredWidths : Nat → State → List Nat
  | 0, _ => []
  | n + 1, s => (after .nxsl s).slice.mbcount.toNat :: deliveredWidths n (after .nxsl s)

/-! ### The registers of the host -/

/-- The register a derived register is a view of (10_state.md R29, R34); the others are storage. -/
def viewOf : Reg → Option Reg
  | .cbgo | .cbgb | .cbrm => some .cbd
  | .fhFrametype | .fhChromatype | .fhTff => some .fhFlags1
  | .fhMbw => some .fhWidth
  | _ => none

/-- The opcodes of the commands that may change a register, other than `STATUS`, `FAULT` and `FAULT_POS`, which any command may change by
ending in a fatal fault: SRST for all, CLRF for the log, and the commands whose rules write it (10_state.md R21 to R38). -/
def writers : Reg → List Nat
  | .cmd | .status | .fault | .faultPos => []
  | .ctrl | .maxc | .bsLen | .frameBase => [0x01]
  | .log | .logPos | .logXy | .corruptCnt => [0x01, 0x02, 0x11, 0x24, 0x31, 0x32, 0x34, 0x35]
  | .val => [0x01, 0x11, 0x13, 0x14, 0x20, 0x42, 0x43]
  | .cbd | .cbgo | .cbgb | .cbrm => [0x01, 0x10]
  | .bitpos => [0x01, 0x11, 0x12, 0x15, 0x25, 0x31, 0x32, 0x34, 0x35, 0x38, 0x39]
  | .bitend | .l2bps | .slPlane => [0x01, 0x25]
  | .byteptr => [0x01, 0x21, 0x22, 0x23, 0x24, 0x28, 0x29, 0x2A]
  | .scansel | .fhHdrsize | .fhPayload | .picMbh => [0x01, 0x21, 0x28]
  | .fhFramesize | .fhVersion | .fhCreator | .fhWidth | .fhHeight | .fhFlags1 | .fhColorHi | .fhColorLo | .fhFlags2
  | .fhFrametype | .fhChromatype | .fhTff | .fhMbw => [0x01, 0x21]
  | .phHdrsize | .phReserved | .phSlicecount | .phL2byte => [0x01, 0x22]
  | .picBase | .phSpr => [0x01, 0x22, 0x29]
  | .slIdx | .slMbx | .slMby | .slCur => [0x01, 0x22, 0x23, 0x29]
  | .slPtr => [0x01, 0x22, 0x23, 0x29, 0x2A]
  | .slBase | .slX | .slY | .slMbcount | .slL2bpsY | .slL2bpsC => [0x01, 0x23]
  | .slSize => [0x01, 0x23, 0x2A]
  | .slHdrsize | .slQsraw | .slYsize | .slUsize | .slVsize => [0x01, 0x24]
  | .qscale => [0x01, 0x24, 0x40]
  | .ctxBlk | .ctxPrevcode | .ctxSign | .ctxPrevdc => [0x01, 0x30, 0x31, 0x32, 0x38]
  | .ctxPos | .ctxPrevrun | .ctxPrevlev => [0x01, 0x33, 0x34, 0x35, 0x39]

end Sys2Proof.Claims
end

