-- ==== Sys2Proof/Certificates/Slice0/Obligations.lean ====
section
/-! DEFINITION. The statements for the provers, in the terms of Safety.lean. A statement about a next state writes that state as the
start state with the named fields replaced, so it says at once what changes and that nothing else does; a memory that changes is
described by what every element reads. -/

open Sys2Proof Sys2Proof.Machine Sys2Proof.Claims

/-! ### Encoding -/

/-- Decoding an encoded well-formed command gives it back (30_encoding.md R101, R103): no operand bit is dropped. -/
def Obligations.DecodeEncode : Prop := ∀ i : Instr, WellFormed i = true → decode (encode i) = .ok i

/-- Every word that decodes is the word of the command it decodes to (R101: a bit not named in a format is 0; R104). -/
def Obligations.EncodeDecode : Prop := ∀ (w : Word) (i : Instr), decode w = .ok i → encode i = w ∧ WellFormed i = true

/-- The decoder agrees with the opcode map of R103: no word matches two rows, and the words that decode are those that match a row,
but for SELPL with `k = 3` (R104). -/
def Obligations.DecodeMatchesOpcodeMap : Prop :=
  ∀ w : Word,
    (∀ r ∈ opcodeMap, ∀ r' ∈ opcodeMap, r.matches w = true → r'.matches w = true → r = r') ∧
    ((∃ i, decode w = .ok i) ↔ (∃ r ∈ opcodeMap, r.matches w = true) ∧ w ≠ 0x25000003) ∧
    (∀ i, decode w = .ok i → w &&& i.mask = i.pattern ∧ ∃ r ∈ opcodeMap, r.pattern = i.pattern ∧ r.mask = i.mask)

/-- A few words written out from the encodings of R101 and R103. -/
def Obligations.DecodeSanityWords : Prop :=
  decode 0x00000000 = .ok .nop ∧ decode 0x10000103 = .ok (.ldcb .dcDelta 3) ∧ decode 0x100002C8 = .ok (.ldcb .acRun 200) ∧
  decode 0x12000000 = .ok .wrcw ∧ decode 0x21000000 = .ok .pfrm ∧ decode 0x25000001 = .ok (.selpl 1) ∧
  decode 0x32000001 = .ok (.rddc .chroma) ∧ decode 0x39000000 = .ok .wrac ∧ decode 0x42000901 = .ok (.deq .chroma 9) ∧
  decode 0x43003F00 = .ok (.qnt .luma 63) ∧ decode 0x25000003 = .error .reservedPlane ∧
  decode 0x00000001 = .error .reservedBits ∧ decode 0x26000000 = .error .reservedOpcode

/-! ### The command port -/

/-- A write of a command's word to CMD runs that command at the state without the write (10_state.md R28): there is no program counter,
and nothing else is added around it. -/
def Obligations.StepRunsDecoded : Prop :=
  ∀ (s : State) (w : Word) (i : Instr) (rest : List HostAction), s.host = .writeReg 0 w :: rest → decode w = .ok i →
    step s = exec i { s with host := rest }

/-- An illegal word, while running, is fatal `IllegalCommand(BAD_WORD)` with the word's own opcode bits and cursor 0, and changes
nothing else (30_encoding.md R104; 60_exceptions.md R270). -/
def Obligations.IllegalWordFaults : Prop :=
  ∀ (s : State) (w : Word) (e : BadWord) (rest : List HostAction), s.host = .writeReg 0 w :: rest → decode w = .error e →
    Running s → step s = .next (fatal (w.toNat / 2 ^ 24) 4 1 0 { s with host := rest })

/-- While halted, a write to CMD of any word but SRST's and CLRF's, legal or not, only sets `STATUS.REJ` (R271). -/
def Obligations.HaltedRejects : Prop :=
  ∀ (s : State) (w : Word) (rest : List HostAction), s.host = .writeReg 0 w :: rest → s.status.halt = true →
    w ≠ 0x01000000 → w ≠ 0x02000000 →
    step s = .next { s with host := rest, status := { s.status with rej := true } }

/-- Every word written to CMD, in every state, ends in a next state: no command stops the model (R271: every command terminates). -/
def Obligations.EveryCommandEnds : Prop :=
  ∀ (s : State) (w : Word) (rest : List HostAction), s.host = .writeReg 0 w :: rest → ∃ t, step s = .next t

/-! ### Faults -/

/-- What taking a fault leaves, for every fault of the tables of R261 and R262 and every command: the concealed form for
`CorruptSliceData` in conceal mode, the fatal form otherwise (60_exceptions.md R270, R272, R273). -/
def Obligations.FaultEntry : Prop :=
  (∀ r : Raise, ∃ code sub, (r, code, sub) ∈ causes) ∧
  ∀ (i : Instr) (start t : State) (r : Raise) (code sub : Nat), (r, code, sub) ∈ causes →
    takeFault i start r t =
      if code = 2 ∧ t.strict = false then
        concealed i.opcode.toNat sub (recordCursor i.opcode.toNat start t)
          (decide (i.opcode.toNat ∈ [0x31, 0x32, 0x34, 0x35])) t
      else fatal i.opcode.toNat code sub (recordCursor i.opcode.toNat start t) t

/-- The data state after a command is the same in both modes: the runs of one command from one state in conceal mode and in strict mode
differ at most in `CTRL`, the fault record and log, and the flags `HALT`, `CORRUPT` and `ABANDON` (R273). -/
def Obligations.StrictModeSameData : Prop :=
  ∀ (i : Instr) (s t u : State), exec i { s with strict := false } = .next t → exec i { s with strict := true } = .next u →
    { u with strict := t.strict, record := t.record,
             status := { u.status with halt := t.status.halt, corrupt := t.status.corrupt, abandon := t.status.abandon } } = t

/-- The preconditions in their order: a stream command with cursors out of order, a coefficient command with L2BPS or then MAXC out of
range, and a header command with BS_LEN beyond BS_BYTES are refused with the fault of the first that fails, and nothing else changes
(41_entropy_coder.md R150; 42_header_codec.md R170; 43_coefficient_coder.md R211; 60_exceptions.md R266, R269). -/
def Obligations.OperandFaults : Prop :=
  ∀ (s : State) (i : Instr), Running s →
    (i.opcode.toNat ∈ [0x11, 0x12, 0x15, 0x31, 0x32, 0x34, 0x35, 0x38, 0x39] → ¬CursorsLegal s →
      exec i s = .next (fatal i.opcode.toNat 7 1 s.cur.bitpos s)) ∧
    (i.opcode.toNat ∈ [0x31, 0x32, 0x34, 0x35, 0x38, 0x39] → CursorsLegal s → ¬BpsLegal s →
      exec i s = .next (fatal i.opcode.toNat 7 2 s.cur.bitpos s)) ∧
    (i.opcode.toNat ∈ [0x34, 0x35, 0x39] → CursorsLegal s → BpsLegal s → ¬MaxcLegal s →
      exec i s = .next (fatal i.opcode.toNat 7 3 s.cur.bitpos s)) ∧
    (WellFormed i = true → i.opcode.toNat ∈ [0x20, 0x21, 0x22, 0x23, 0x24, 0x25, 0x28, 0x29, 0x2A] → ¬BufferLegal s →
      exec i s = .next (fatal i.opcode.toNat 7 1 s.cur.byteptr s))

/-- Where the writers and NXSL refuse their registers, each by the first check that fails and changing nothing else: WFRM on a field the
parser would refuse or a header that does not fit; WPIC; NXSL on a schedule that is not sound; WSLC; WRCW on a codeword that does not
fit (42_header_codec.md R176, R179 to R181; 41_entropy_coder.md R153, R154). -/
def Obligations.WriterFaults : Prop :=
  (∀ s : State, Running s → BufferLegal s → ¬FrameWritable s →
    let h := s.fh
    let field := h.width = 0 ∨ 0x8000 ≤ h.width.toNat ∨ h.height = 0 ∨ 0x8000 ≤ h.height.toNat ∨
      h.flags1.toNat / 4 % 4 = 3 ∨ h.flags1.toNat / 64 < 2
    exec .wfrm s = .next (if field then fatal 0x28 7 6 s.cur.byteptr s else fatal 0x28 3 1 s.cur.byteptr s)) ∧
  (∀ s : State, Running s → BufferLegal s → ¬PictureWritable s →
    exec .wpic s = .next (
      if s.ph.hdrsize ≠ 8 then fatal 0x29 7 5 s.cur.byteptr s
      else if s.cfg.maxSlices < s.ph.slicecount.toNat then fatal 0x29 3 3 s.cur.byteptr s
      else if s.ph.slicecount.toNat ≠ slicesPerRow s.fh.mbw (s.ph.l2byte.toNat / 16) * s.ph.mbh.toNat then
        fatal 0x29 7 7 s.cur.byteptr s
      else fatal 0x29 3 1 s.cur.byteptr s)) ∧
  (∀ s : State, Running s → BufferLegal s → s.sched.idx.toNat < s.ph.slicecount.toNat →
    (s.cfg.maxSlices ≤ s.sched.idx.toNat → exec .nxsl s = .next (fatal 0x23 3 3 s.cur.byteptr s)) ∧
    (s.sched.idx.toNat < s.cfg.maxSlices → (s.fh.mbw ≤ s.sched.mbx.toNat ∨ ∀ k, s.sched.cur.toNat ≠ 2 ^ k) →
      exec .nxsl s = .next (fatal 0x23 7 7 s.cur.byteptr s))) ∧
  (∀ s : State, Running s → BufferLegal s → ¬SliceWritable s →
    exec .wslc s = .next (
      if s.sched.idx = 0 then fatal 0x2A 7 4 s.cur.byteptr s
      else if s.cfg.maxSlices < s.sched.idx.toNat then fatal 0x2A 3 3 s.cur.byteptr s
      else if s.slice.hdrsize ≠ 6 ∧ s.slice.hdrsize ≠ 8 then fatal 0x2A 7 5 s.cur.byteptr s
      else if 65535 < sliceSize s.slice then fatal 0x2A 7 6 s.cur.byteptr s
      else fatal 0x2A 3 1 s.cur.byteptr s)) ∧
  ∀ (s : State) (l : List Bool), Running s → CursorsLegal s → Codes (codebookOfCbd s.cbd) s.val.toInt l →
    s.cur.bitend.toNat < s.cur.bitpos.toNat + l.length → exec .wrcw s = .next (fatal 0x12 3 2 s.cur.bitpos s)

/-! ### System commands and reset -/

/-- NOP does nothing while running and is rejected while halted; SRST puts every register, QM and QMS at the reset values and keeps BS,
COEF and SST; CLRF clears the record, the log and three flags and nothing else. SRST and CLRF run while halted too. Each with its
word (45_system_ops.md R250 to R252). -/
def Obligations.SystemCommands : Prop :=
  (decode 0x00000000 = .ok .nop ∧ decode 0x01000000 = .ok .srst ∧ decode 0x02000000 = .ok .clrf) ∧
  (∀ s : State, Running s → exec .nop s = .next s) ∧
  (∀ s : State, s.status.halt = true → exec .nop s = .next { s with status := { s.status with rej := true } }) ∧
  (∀ s : State, ∃ t, exec .srst s = .next t ∧
    t = { State.reset with cfg := s.cfg, host := s.host, bs := s.bs, coef := s.coef, sst := s.sst } ∧
    (∀ r, t.readReg r = State.reset.readReg r) ∧ (∀ p i, i < 64 → t.qmAt p i = 4 ∧ t.qmsAt p i = 4)) ∧
  (∀ s : State, exec .clrf s = .next { s with
    status := { s.status with halt := false, corrupt := false, rej := false }
    record := { fault := 0, faultPos := 0, log := 0, logPos := 0, logXY := 0, corruptCnt := 0 } })

/-- Every register after reset: the non-zero ones of 70_reset_and_hazards.md R301, all others 0; QM and QMS flat 4. -/
def Obligations.ResetRegisters : Prop :=
  (∀ r : Reg, State.reset.readReg r =
    match r with
    | .cbgb => 0xFFFFFFFF
    | .maxc => 64
    | .fhCreator => 0x61706C30
    | .phHdrsize => 8
    | .slCur => 1
    | .slHdrsize => 6
    | .slQsraw => 1
    | .qscale => 1
    | _ => 0) ∧
  ∀ p i, i < 64 → State.reset.qmAt p i = 4 ∧ State.reset.qmsAt p i = 4

/-- The state after reset meets both invariants, whatever BS, COEF and SST hold (R302), and its parameters are legal. The values of the
OPEN parameters at reset are the model's choice (log entries 2, 3, 5 to 7). -/
def Obligations.ResetMeetsInvariants : Prop :=
  State.reset.memoriesWf ∧ State.reset.recordAgrees ∧ State.reset.cfg.wf = true

/-! ### The host's registers and memories -/

/-- What the host reads of the registers. A write of a read-write register stores the low bits and a read gives them back, sign-extended
for the two `i16` registers; no other register but a view of the written one changes, and no memory. A write of a read-only
register or of a reserved number changes nothing, and a reserved number reads 0, as CMD does. STATUS reads the seven flags, HALT in
bit 0 to REJ in bit 6, and 0 above; FH_FRAMETYPE, FH_CHROMATYPE, FH_TFF and FH_MBW read what FH_FLAGS1 and FH_WIDTH give
(10_state.md R20, R25, R28, R34, R39). -/
def Obligations.HostWriteReadsBack : Prop :=
  (∀ (s : State) (r : Reg) (v : Word) (rest : List HostAction), r.access = .rw → s.host = .writeReg r.number v :: rest →
    ∃ t, step s = .next t ∧
      t.hostRead r.number = (if r = .fhWidth ∨ r = .fhHeight then (v.setWidth 16).signExtend 32
        else BitVec.ofNat 32 (v.toNat % 2 ^ r.width)) ∧
      (∀ r', r' ≠ r → viewOf r' ≠ some r → t.readReg r' = s.readReg r') ∧
      t.cfg = s.cfg ∧ t.host = rest ∧ t.bs = s.bs ∧ t.coef = s.coef ∧ t.qm = s.qm ∧ t.qms = s.qms ∧ t.sst = s.sst) ∧
  (∀ (s : State) (n : Nat) (v : Word) (rest : List HostAction), s.host = .writeReg n v :: rest →
    (∀ r : Reg, r.number = n → r.access = .ro) →
    step s = .next { s with host := rest } ∧ ((∀ r : Reg, r.number ≠ n) → s.hostRead n = 0)) ∧
  ∀ s : State,
    let f := s.status
    let flags1 := s.fh.flags1.toNat
    s.hostRead 0 = 0 ∧
    (∀ k, (s.hostRead 1).getLsbD k = [f.halt, f.corrupt, f.abandon, f.eop, f.eos, f.slok, f.rej].getD k false) ∧
    (s.hostRead 43).toNat = flags1 / 4 % 4 ∧ (s.hostRead 44).toNat = flags1 / 64 ∧
    (s.hostRead 45).toNat = (if flags1 / 4 % 4 = 1 then 1 else 0) ∧ (s.hostRead 46).toNat = (s.fh.width.toNat + 15) / 16

/-- The host's writes of the memories store one element, which its reads then give, and change nothing else; with no action pending the
block keeps all state (20_memory.md R89; 60_exceptions.md R287). A write to a location that does not exist stops the model and a
read of one gives no value, which is the model's choice (log entries 8 and 22). -/
def Obligations.HostActions : Prop :=
  (∀ s : State, s.host = [] → step s = .next s) ∧
  (∀ (s : State) (a : Nat) (b : Byte) (rest : List HostAction), s.memoriesWf → s.host = .writeBs a b :: rest →
    if a < s.cfg.bsBytes then
      ∃ t, step s = .next t ∧ t = { s with host := rest, bs := t.bs } ∧
        ∀ x, t.hostReadBs x = if x = a then some b else s.hostReadBs x
    else step s = .fault .bsAddress) ∧
  (∀ (s : State) (k : Nat) (v : Word) (rest : List HostAction), s.memoriesWf → s.host = .writeCoef k v :: rest →
    if k < 64 * 2 ^ s.cfg.log2MaxBps then
      ∃ t, step s = .next t ∧ t = { s with host := rest, coef := t.coef } ∧
        ∀ x, t.hostReadCoef x = if x = k then some v else s.hostReadCoef x
    else step s = .fault .coefIndex) ∧
  (∀ (s : State) (p : QMatrix) (i : BitVec 6) (b : Byte) (rest : List HostAction), s.memoriesWf →
    s.host = .writeQm p i b :: rest →
    ∃ t, step s = .next t ∧ t = { s with host := rest, qm := t.qm } ∧
      ∀ q j, t.hostReadQm q j = if q = p ∧ j = i then b else s.hostReadQm q j) ∧
  (∀ (s : State) (n : Nat) (v : BitVec 16) (rest : List HostAction), s.memoriesWf → s.host = .writeSst n v :: rest →
    if n < s.cfg.maxSlices then
      ∃ t, step s = .next t ∧ t = { s with host := rest, sst := t.sst } ∧
        ∀ x, t.hostReadSst x = if x = n then some v else s.hostReadSst x
    else step s = .fault .sstIndex) ∧
  ∀ (s : State) (x : Nat),
    s.hostReadBs x = (if s.cfg.bsBytes ≤ x then none else some (bsByte s.bs x)) ∧
    s.hostReadCoef x = (if 64 * 2 ^ s.cfg.log2MaxBps ≤ x then none else some (s.coefAt x)) ∧
    s.hostReadSst x = (if s.cfg.maxSlices ≤ x then none else some (s.sstAt x))

/-! ### The codebook table -/

/-- LDCB loads the table's codebook at the clamped context into CBD and changes nothing else (40_codebook_table.md R141, R143). -/
def Obligations.LdcbLoadsTable : Prop :=
  ∀ (s : State) (cls : SymClass) (ctx : BitVec 8), Running s →
    ∃ cb, (match cls with
        | .firstDC => some s.cfg.cbrom.firstDC
        | .dcDelta => s.cfg.cbrom.dcDelta[min ctx.toNat 6]?
        | .acRun => s.cfg.cbrom.acRun[min ctx.toNat 15]?
        | .acLevel => s.cfg.cbrom.acLevel[min ctx.toNat 9]?) = some cb ∧
      exec (.ldcb cls ctx) s = .next { s with
        cbd := BitVec.ofNat 12 (256 * cb.switchBits.toNat + 16 * cb.expOrder.toNat + cb.riceOrder.toNat) }

/-- The registers CBGO, CBGB, CBRM read, as `i32`, the three values derived from the fields of CBD, which never wrap; the escape suffix
length is never negative (10_state.md R29; 40_codebook_table.md R140, R144). -/
def Obligations.CodebookViews : Prop :=
  (∀ s : State,
    let rice := s.cbd.toNat % 16
    let expo := s.cbd.toNat / 16 % 16
    let switch := s.cbd.toNat / 256
    (s.readReg .cbgo).toInt = 2 ^ expo - ((switch : Int) + 1) * 2 ^ rice ∧
    -524287 ≤ (s.readReg .cbgo).toInt ∧ (s.readReg .cbgo).toInt ≤ 32767 ∧
    (s.readReg .cbgb).toInt = (expo : Int) - switch - 1 ∧
    -16 ≤ (s.readReg .cbgb).toInt ∧ (s.readReg .cbgb).toInt ≤ 14 ∧
    (s.readReg .cbrm).toNat = 2 ^ rice - 1) ∧
  ∀ (cb : Codebook) (q : Nat), cb.switchBits.toNat + 1 ≤ q → (cb.expOrder.toNat : Int) ≤ golombBits cb + q

/-! ### The entropy coder -/

/-- RDCW on a codeword below BITEND: its value in VAL, BITPOS past it, nothing else (41_entropy_coder.md R151, R152; 30_encoding.md
R110). -/
def Obligations.RdcwReadsCodeword : Prop :=
  ∀ (s : State) (v : Int) (l : List Bool), Running s → CursorsLegal s → Codes (codebookOfCbd s.cbd) v l →
    holdsBits s.bs s.cur.bitpos.toNat l = true → s.cur.bitpos.toNat + l.length ≤ s.cur.bitend.toNat →
    exec .rdcw s = .next { s with
      val := BitVec.ofInt 32 v
      cur := { s.cur with bitpos := BitVec.ofNat 32 (s.cur.bitpos.toNat + l.length) } }

/-- RDCW on anything else: the subcode and the BITPOS that R151 gives, VAL unchanged, concealed or fatal by the mode (R152). -/
def Obligations.RdcwCorrupt : Prop :=
  ∀ (s : State) (sub pos : Nat), Running s → CursorsLegal s →
    CorruptAt (codebookOfCbd s.cbd) s.bs s.cur.bitpos.toNat s.cur.bitend.toNat sub pos →
    exec .rdcw s = .next (corrupt 0x11 sub (BitVec.ofNat 32 pos) false
      { s with cur := { s.cur with bitpos := BitVec.ofNat 32 pos } })

/-- All that reading a codeword can do, from every legal cursor and under every codebook: it answers a value exactly when a codeword of
that value stands at BITPOS and ends at or below BITEND, and moves BITPOS past it; it raises `CorruptSliceData` exactly where R151
finds a corruption, with R151's subcode and BITPOS; and it changes nothing else. So at every legal cursor there stands either a
codeword or a corruption, and never both (R151). -/
def Obligations.CodewordOrCorrupt : Prop :=
  ∀ (cb : Codebook) (s : State), CursorsLegal s →
    (∀ (v : Int) (t : State), readCodeword cb s = .ok v t ↔
      ∃ l, Codes cb v l ∧ holdsBits s.bs s.cur.bitpos.toNat l = true ∧ s.cur.bitpos.toNat + l.length ≤ s.cur.bitend.toNat ∧
        t = { s with cur := { s.cur with bitpos := BitVec.ofNat 32 (s.cur.bitpos.toNat + l.length) } }) ∧
    (∀ (r : Raise) (t : State), readCodeword cb s = .raised r t ↔
      ∃ sub pos, CorruptAt cb s.bs s.cur.bitpos.toNat s.cur.bitend.toNat sub pos ∧ (r, 2, sub) ∈ causes ∧
        t = { s with cur := { s.cur with bitpos := BitVec.ofNat 32 pos } })

/-- The range of the reader's result, for every codebook, and for each form; it never raises the reserved subcode NEGATIVE (R160). -/
def Obligations.ReadCodewordRange : Prop :=
  ∀ (cb : Codebook) (s t : State),
    (∀ v : Int, readCodeword cb s = .ok v t →
      0 ≤ v ∧ v ≤ 655358 ∧ (BitVec.ofInt 32 v).toInt = v ∧
      ∃ q, q ≤ 15 ∧ holdsBits s.bs s.cur.bitpos.toNat (codeword q 0 0) = true ∧
        (q ≤ cb.switchBits.toNat → v ≤ 524287) ∧
        (cb.switchBits.toNat < q → ((cb.switchBits.toNat + 1) * 2 ^ cb.riceOrder.toNat : Nat) ≤ v ∧ 1 ≤ v)) ∧
    readCodeword cb s ≠ .raised (.corruptSliceData .negative) t

/-- WRCW stores the codeword of VAL at BITPOS and moves BITPOS past it; no other bit of BS and nothing else changes (R153, R154). -/
def Obligations.WrcwWritesCodeword : Prop :=
  ∀ (s : State) (l : List Bool), Running s → CursorsLegal s → s.memoriesWf → Codes (codebookOfCbd s.cbd) s.val.toInt l →
    s.cur.bitpos.toNat + l.length ≤ s.cur.bitend.toNat →
    ∃ t, exec .wrcw s = .next t ∧
      t = { s with
        bs := t.bs
        cur := { s.cur with bitpos := BitVec.ofNat 32 (s.cur.bitpos.toNat + l.length) } } ∧
      StoresBits s.bs t.bs s.cur.bitpos.toNat l

/-- A value is representable when it lies in 0 to `vmax`: with room for the longest codeword WRCW then ends without a fault, and raises
`NotRepresentable(NEGATIVE)` below and `NotRepresentable(TOO_LARGE)` above, changing nothing else. The values of `vmax` for the
codebooks of the default table (R153, R155). -/
def Obligations.Representable : Prop :=
  (∀ s : State, Running s → CursorsLegal s → s.cur.bitpos.toNat + 32 ≤ s.cur.bitend.toNat →
    (0 ≤ s.val.toInt → s.val.toInt ≤ vmax (codebookOfCbd s.cbd) → ∃ t, exec .wrcw s = .next t ∧ Running t) ∧
    (s.val.toInt < 0 → exec .wrcw s = .next (fatal 0x12 5 1 s.cur.bitpos s)) ∧
    (0 ≤ s.val.toInt → vmax (codebookOfCbd s.cbd) < s.val.toInt → exec .wrcw s = .next (fatal 0x12 5 2 s.cur.bitpos s))) ∧
  [(⟨5, 6, 0⟩ : Codebook), ⟨0, 1, 0⟩, ⟨1, 2, 0⟩, ⟨2, 3, 1⟩, ⟨3, 4, 0⟩, ⟨0, 1, 2⟩, ⟨0, 1, 1⟩, ⟨1, 2, 1⟩, ⟨2, 3, 0⟩, ⟨0, 2, 2⟩].map vmax =
    [131039, 65534, 131069, 131071, 131063, 16384, 32767, 65535, 131067, 32766]

/-- Codeword bijection (R156). Reading back what WRCW wrote gives the value and the writer's BITPOS; writing back what RDCW accepted
restores the very bits of BS; and two different codewords never give the same value. -/
def Obligations.CodewordBijection : Prop :=
  (∀ (s : State) (x : Word), Running s → s.memoriesWf → BufferLegal s → s.cur.bitpos.toNat + 32 ≤ s.cur.bitend.toNat →
    s.cur.bitend.toNat ≤ 8 * s.cur.bsLen.toNat → 0 ≤ s.val.toInt → s.val.toInt ≤ vmax (codebookOfCbd s.cbd) →
    ∃ t u, exec .wrcw s = .next t ∧
      exec .rdcw { t with val := x, cur := { t.cur with bitpos := s.cur.bitpos } } = .next u ∧
      u.val = s.val ∧ u.cur = t.cur ∧ Running u) ∧
  (∀ (s : State) (v : Int) (l : List Bool), Running s → s.memoriesWf → CursorsLegal s → Codes (codebookOfCbd s.cbd) v l →
    holdsBits s.bs s.cur.bitpos.toNat l = true → s.cur.bitpos.toNat + l.length ≤ s.cur.bitend.toNat →
    ∃ t, exec .rdcw s = .next t ∧ t.val.toInt = v ∧
      exec .wrcw { t with cur := { t.cur with bitpos := s.cur.bitpos } } = .next t) ∧
  (∀ (cb : Codebook) (v : Int) (l m : List Bool), Codes cb v l → Codes cb v m → l = m)

/-- ZZDEC maps an even code to its half and an odd one to minus half the next, on `i32` (R157). ZZENC maps a value from 0 up to its
double and a negative one to minus its double less 1, wrapping. On `-2^30` to `2^30 - 1` the result is not negative and ZZDEC
inverts it; outside it reads as negative, ZZDEC does not invert it, and WRCW refuses it; on a code that is not negative ZZENC
inverts ZZDEC (R158). -/
def Obligations.ZigzagMaps : Prop :=
  (decode 0x13000000 = .ok .zzdec ∧ decode 0x14000000 = .ok .zzenc) ∧
  (∀ s : State, Running s →
    exec .zzdec s = .next { s with
      val := BitVec.ofInt 32 (if s.val.toInt % 2 = 0 then s.val.toInt / 2 else -((s.val.toInt + 1) / 2)) }) ∧
  (∀ s : State, Running s →
    exec .zzenc s = .next { s with
      val := BitVec.ofInt 32 (if 0 ≤ s.val.toInt then 2 * s.val.toInt else -(2 * s.val.toInt) - 1) }) ∧
  (∀ s : State, Running s → -2 ^ 30 ≤ s.val.toInt → s.val.toInt ≤ 2 ^ 30 - 1 →
    ∃ t, exec .zzenc s = .next t ∧ 0 ≤ t.val.toInt ∧ exec .zzdec t = .next s) ∧
  (∀ s : State, Running s → CursorsLegal s → (s.val.toInt < -2 ^ 30 ∨ 2 ^ 30 - 1 < s.val.toInt) →
    ∃ t u, exec .zzenc s = .next t ∧ t.val.toInt < 0 ∧ exec .zzdec t = .next u ∧ u.val ≠ s.val ∧
      exec .wrcw t = .next (fatal 0x12 5 1 t.cur.bitpos t)) ∧
  (∀ s : State, Running s → 0 ≤ s.val.toInt → ∃ t, exec .zzdec s = .next t ∧ exec .zzenc t = .next s)

/-- ALIGNW stores zeros up to the next byte boundary and moves BITPOS there, or raises `BufferTooSmall(STREAM)` with nothing written
when they do not fit, or `BadOperand(CURSOR)` when the cursors are not in order (R159). -/
def Obligations.AlignwPads : Prop :=
  decode 0x15000000 = .ok .alignw ∧
  (∀ s : State, Running s → ¬CursorsLegal s → exec .alignw s = .next (fatal 0x15 7 1 s.cur.bitpos s)) ∧
  ∀ s : State, Running s → CursorsLegal s → s.memoriesWf →
    let n := (8 - s.cur.bitpos.toNat % 8) % 8
    if s.cur.bitpos.toNat + n ≤ s.cur.bitend.toNat then
      ∃ t, exec .alignw s = .next t ∧
        t = { s with bs := t.bs, cur := { s.cur with bitpos := BitVec.ofNat 32 (s.cur.bitpos.toNat + n) } } ∧
        StoresBits s.bs t.bs s.cur.bitpos.toNat (List.replicate n false) ∧ t.cur.bitpos.toNat % 8 = 0
    else exec .alignw s = .next (fatal 0x15 3 2 s.cur.bitpos s)

/-! ### The header codec -/

/-- PROBE answers in VAL whether bytes 4 to 7 of the frame lie below BS_LEN and are "icpf", and changes nothing else; with BS_LEN beyond
BS_BYTES it raises `BadOperand(CURSOR)` (42_header_codec.md R171). -/
def Obligations.ProbeAnswers : Prop :=
  decode 0x20000000 = .ok .probe ∧
  ∀ s : State, Running s →
    if BufferLegal s then
      exec .probe s = .next { s with
        val := (if s.cur.frameBase.toNat + 8 ≤ s.cur.bsLen.toNat ∧
          holdsBytes s.bs (s.cur.frameBase.toNat + 4) [0x69, 0x63, 0x70, 0x66] = true then 1 else 0) }
    else exec .probe s = .next (fatal 0x20 7 1 s.cur.byteptr s)

/-- PFRM on a frame header that passes its checks: the registers it loads, the two matrices de-scanned or flat 4, and nothing else
(R172, R173; 30_encoding.md R111 to R114). -/
def Obligations.PfrmParses : Prop :=
  ∀ s : State, Running s → BufferLegal s → s.memoriesWf → frameFault s = none →
    let b := s.cur.frameBase.toNat
    let fs := memRead s.bs b 4
    let hs := memRead s.bs (b + 8) 2
    let ht := memRead s.bs (b + 18) 2
    let f1 := memRead s.bs (b + 20) 1
    let f2 := memRead s.bs (b + 27) 1
    let sc : BitVec 1 := if f1 / 4 % 4 = 0 then 0 else 1
    ∃ t, exec .pfrm s = .next t ∧
      t = { s with
        fh := {
          framesize := BitVec.ofNat 32 fs
          hdrsize := BitVec.ofNat 16 hs
          version := BitVec.ofNat 16 (memRead s.bs (b + 10) 2)
          creator := BitVec.ofNat 32 (memRead s.bs (b + 12) 4)
          width := BitVec.ofNat 16 (memRead s.bs (b + 16) 2)
          height := BitVec.ofNat 16 ht
          flags1 := BitVec.ofNat 8 f1
          colorHi := BitVec.ofNat 16 (memRead s.bs (b + 21) 2)
          colorLo := BitVec.ofNat 32 (memRead s.bs (b + 23) 4)
          flags2 := BitVec.ofNat 8 f2
          payload := BitVec.ofNat 32 (fs - 8 - hs) }
        plane := { s.plane with scansel := sc }
        ph := { s.ph with mbh := BitVec.ofNat 13 (if f1 / 4 % 4 = 0 then (ht + 15) / 16 else (ht + 31) / 32) }
        cur := { s.cur with byteptr := BitVec.ofNat 32 (b + 8 + hs) }
        qm := t.qm } ∧
      ∀ i, i < 64 →
        t.qmAt .luma i = (if f2 / 2 % 2 = 1 then bsByte s.bs (b + 28 + scanromAt s.cfg.scanrom sc i) else 4) ∧
        t.qmAt .chroma i = (if f2 % 2 = 1 then bsByte s.bs (chromaPlace b f2 + scanromAt s.cfg.scanrom sc i) else 4)

/-- PFRM and PPIC on a header that fails a check: the fault of the first check that fails, and nothing else changed (R172, R174;
60_exceptions.md R264). -/
def Obligations.HeaderFaults : Prop :=
  (∀ (s : State) (sub : Nat), Running s → BufferLegal s → frameFault s = some sub →
    exec .pfrm s = .next (fatal 0x21 1 sub s.cur.byteptr s)) ∧
  (∀ (s : State) (code sub : Nat), Running s → BufferLegal s → pictureFault s = some (code, sub) →
    exec .ppic s = .next (fatal 0x22 code sub s.cur.byteptr s))

/-- WFRM on registers that pass its checks: the header's bytes at FRAME_BASE, each present matrix in scan order after them, an absent
one set flat 4 in QM, and nothing else (R179; 30_encoding.md R111, R114). -/
def Obligations.WfrmWrites : Prop :=
  ∀ s : State, Running s → BufferLegal s → s.memoriesWf → s.cfg.wf = true → FrameWritable s →
    let b := s.cur.frameBase.toNat
    let f1 := s.fh.flags1.toNat
    let f2 := s.fh.flags2.toNat
    let hs := 20 + 64 * (f2 / 2 % 2 + f2 % 2)
    let ht := s.fh.height.toNat
    let sc : BitVec 1 := if f1 / 4 % 4 = 0 then 0 else 1
    ∃ t, exec .wfrm s = .next t ∧
      t = { s with
        fh := { s.fh with hdrsize := BitVec.ofNat 16 hs, payload := s.fh.framesize - BitVec.ofNat 32 (8 + hs) }
        plane := { s.plane with scansel := sc }
        ph := { s.ph with mbh := BitVec.ofNat 13 (if f1 / 4 % 4 = 0 then (ht + 15) / 16 else (ht + 31) / 32) }
        cur := { s.cur with byteptr := BitVec.ofNat 32 (b + 8 + hs) }
        qm := t.qm
        bs := t.bs } ∧
      holdsBytes t.bs b (frameBytes s.fh hs) = true ∧ SameBytesOutside s.bs t.bs b (8 + hs) ∧
      ∀ i, i < 64 →
        (f2 / 2 % 2 = 1 → bsByte t.bs (b + 28 + scanromAt s.cfg.scanrom sc i) = s.qmAt .luma i) ∧
        (f2 % 2 = 1 → bsByte t.bs (chromaPlace b f2 + scanromAt s.cfg.scanrom sc i) = s.qmAt .chroma i) ∧
        t.qmAt .luma i = (if f2 / 2 % 2 = 1 then s.qmAt .luma i else 4) ∧
        t.qmAt .chroma i = (if f2 % 2 = 1 then s.qmAt .chroma i else 4)

/-- After WFRM, with FH_FRAMESIZE valid, PFRM at the same FRAME_BASE reads back every register and both matrices: the state after it is
the state before it (R179). -/
def Obligations.WfrmPfrmRestores : Prop :=
  ∀ s t : State, Running s → s.memoriesWf → s.cfg.wf = true → exec .wfrm s = .next t → Running t →
    8 + t.fh.hdrsize.toNat ≤ t.fh.framesize.toNat → t.cur.frameBase.toNat + t.fh.framesize.toNat ≤ t.cur.bsLen.toNat →
    exec .pfrm t = .next t

/-- PPIC on a picture header that passes its checks: the header registers, the slice sizes in SST, the schedule at its start, and nothing
else (R174; 30_encoding.md R115). -/
def Obligations.PpicParses : Prop :=
  ∀ s : State, Running s → BufferLegal s → s.memoriesWf → pictureFault s = none →
    let b := s.cur.byteptr.toNat
    let sc := memRead s.bs (b + 5) 2
    let lb := memRead s.bs (b + 7) 1
    ∃ t, exec .ppic s = .next t ∧
      t = { s with
        ph := { s.ph with
          hdrsize := BitVec.ofNat 5 (memRead s.bs b 1 / 8)
          reserved := BitVec.ofNat 32 (memRead s.bs (b + 1) 4)
          slicecount := BitVec.ofNat 16 sc
          l2byte := BitVec.ofNat 8 lb
          base := s.cur.byteptr
          spr := BitVec.ofNat 16 (slicesPerRow s.fh.mbw (lb / 16)) }
        sched := { idx := 0, mbx := 0, mby := 0, cur := BitVec.ofNat 16 (2 ^ (lb / 16)), ptr := BitVec.ofNat 32 (b + 8 + 2 * sc) }
        cur := { s.cur with byteptr := BitVec.ofNat 32 (b + 8 + 2 * sc) }
        status := { s.status with eos := false, slok := false }
        sst := t.sst } ∧
      ∀ n, t.sstAt n = if n < sc then BitVec.ofNat 16 (memRead s.bs (b + 8 + 2 * n) 2) else s.sstAt n

/-- WPIC on registers that pass its checks: the header and the table's bytes at BYTEPTR, the schedule at its start, and nothing else
(R180). -/
def Obligations.WpicWrites : Prop :=
  ∀ s : State, Running s → BufferLegal s → s.memoriesWf → PictureWritable s →
    let b := s.cur.byteptr.toNat
    let sc := s.ph.slicecount.toNat
    let l2 := s.ph.l2byte.toNat / 16
    ∃ t, exec .wpic s = .next t ∧
      t = { s with
        ph := { s.ph with base := s.cur.byteptr, spr := BitVec.ofNat 16 (slicesPerRow s.fh.mbw l2) }
        sched := { idx := 0, mbx := 0, mby := 0, cur := BitVec.ofNat 16 (2 ^ l2), ptr := BitVec.ofNat 32 (b + 8 + 2 * sc) }
        cur := { s.cur with byteptr := BitVec.ofNat 32 (b + 8 + 2 * sc) }
        status := { s.status with eos := false, slok := false }
        bs := t.bs } ∧
      holdsBytes t.bs b (pictureBytes s) = true ∧ SameBytesOutside s.bs t.bs b (8 + 2 * sc)

/-- NXSL: with slices left and a sound schedule, the next slice's registers and the schedule stepped, where the width `c` is SL_CUR halved
until it fits the rest of the row; with none left, only STATUS.EOS (R176, R182). -/
def Obligations.NxslDelivers : Prop :=
  (∀ s : State, Running s → BufferLegal s → s.ph.slicecount.toNat ≤ s.sched.idx.toNat →
    exec .nxsl s = .next { s with status := { s.status with eos := true } }) ∧
  (∀ (s : State) (k m : Nat), Running s → BufferLegal s → s.sched.idx.toNat < s.ph.slicecount.toNat →
    s.sched.idx.toNat < s.cfg.maxSlices → s.sched.mbx.toNat < s.fh.mbw → s.sched.cur.toNat = 2 ^ k → m ≤ k →
    2 ^ m ≤ s.fh.mbw - s.sched.mbx.toNat → (m < k → s.fh.mbw - s.sched.mbx.toNat < 2 ^ (m + 1)) →
    let c := 2 ^ m
    let size := s.sstAt s.sched.idx.toNat
    let last : Bool := s.fh.mbw ≤ s.sched.mbx.toNat + c
    exec .nxsl s = .next { s with
      slice := { s.slice with
        mbcount := BitVec.ofNat 16 c
        x := s.sched.mbx
        y := s.sched.mby
        base := s.sched.ptr
        size := size
        l2bpsY := BitVec.ofNat 5 (m + 2)
        l2bpsC := BitVec.ofNat 5 (m + (if s.fh.flags1.toNat / 64 = 3 then 2 else 1)) }
      sched := {
        idx := s.sched.idx + 1
        mbx := if last then 0 else BitVec.ofNat 13 (s.sched.mbx.toNat + c)
        mby := if last then s.sched.mby + 1 else s.sched.mby
        cur := if last then BitVec.ofNat 16 (2 ^ (s.ph.l2byte.toNat / 16)) else BitVec.ofNat 16 c
        ptr := s.sched.ptr + BitVec.ofNat 32 size.toNat }
      cur := { s.cur with byteptr := s.sched.ptr }
      status := { s.status with slok := false } })

/-- The schedule of one row: from the start of a row, as many NXSL commands as `SlicesPerRow` counts deliver the widths that R175 lists
and leave the schedule at the start of the next row. `SlicesPerRow` is the closed form, and 0 for an empty row (R175). -/
def Obligations.RowSchedule : Prop :=
  (∀ mbw l2 : Nat, l2 ≤ 15 → slicesPerRow mbw l2 = (rowWidths mbw l2).length ∧ (rowWidths mbw l2).sum = mbw) ∧
  (∀ l2 : Nat, slicesPerRow 0 l2 = 0) ∧
  (∀ s : State, Running s → BufferLegal s → 1 ≤ s.fh.mbw → s.sched.mbx = 0 →
    s.sched.cur = BitVec.ofNat 16 (2 ^ (s.ph.l2byte.toNat / 16)) →
    let n := slicesPerRow s.fh.mbw (s.ph.l2byte.toNat / 16)
    s.sched.idx.toNat + n ≤ s.ph.slicecount.toNat → s.sched.idx.toNat + n ≤ s.cfg.maxSlices →
    deliveredWidths n s = rowWidths s.fh.mbw (s.ph.l2byte.toNat / 16) ∧
    (afterTimes .nxsl n s).sched.idx.toNat = s.sched.idx.toNat + n ∧
    (afterTimes .nxsl n s).sched.mbx = 0 ∧ (afterTimes .nxsl n s).sched.mby = s.sched.mby + 1 ∧
    (afterTimes .nxsl n s).sched.cur = s.sched.cur)

/-- PSLC on a slice header that fits: the registers it loads, the folded scale, BYTEPTR at the payloads, SLOK set, nothing else; on one
that does not fit, `CorruptSliceData(SLICE_HDR)` with SLOK cleared and nothing else (R177; 30_encoding.md R116). -/
def Obligations.PslcParses : Prop :=
  ∀ s : State, Running s → BufferLegal s →
    let b := s.slice.base.toNat
    let sz := s.slice.size.toNat
    let hs := memRead s.bs b 1 / 8
    let qs := memRead s.bs (b + 1) 1
    let ys := memRead s.bs (b + 2) 2
    let us := memRead s.bs (b + 4) 2
    if SliceLegal s then
      exec .pslc s = .next { s with
        slice := { s.slice with
          hdrsize := BitVec.ofNat 5 hs
          qsraw := BitVec.ofNat 8 qs
          qscale := BitVec.ofNat 32 (foldOf qs)
          ysize := BitVec.ofNat 16 ys
          usize := BitVec.ofNat 16 us
          vsize := BitVec.ofNat 16 (if 8 ≤ hs then memRead s.bs (b + 6) 2 else sz - hs - ys - us) }
        cur := { s.cur with byteptr := BitVec.ofNat 32 (b + hs) }
        status := { s.status with slok := true } }
    else exec .pslc s = .next (corrupt 0x24 5 s.cur.byteptr false { s with status := { s.status with slok := false } })

/-- SELPL points the bit cursor at plane `k` of a parsed slice; without one it is refused, changing nothing else (R178). -/
def Obligations.SelplSelects : Prop :=
  ∀ (s : State) (k : BitVec 2), k ≠ 3 → Running s → BufferLegal s →
    if s.status.slok = false then exec (.selpl k) s = .next (fatal 0x25 7 4 s.cur.byteptr s)
    else if s.cur.bsLen.toNat < planeStart s.slice k.toNat + planeBytes s.slice k.toNat then
      exec (.selpl k) s = .next (fatal 0x25 7 1 s.cur.byteptr s)
    else exec (.selpl k) s = .next { s with
      cur := { s.cur with
        bitpos := BitVec.ofNat 32 (8 * planeStart s.slice k.toNat)
        bitend := BitVec.ofNat 32 (8 * (planeStart s.slice k.toNat + planeBytes s.slice k.toNat)) }
      plane := { s.plane with l2bps := if k = 0 then s.slice.l2bpsY else s.slice.l2bpsC }
      slice := { s.slice with plane := k } }

/-- WSLC on registers that pass its checks: the slice header's bytes at SL_BASE, the size recorded in SL_SIZE and SST, the pointers past
the slice, and nothing else (R181). -/
def Obligations.WslcWrites : Prop :=
  ∀ s : State, Running s → BufferLegal s → s.memoriesWf → SliceWritable s →
    let b := s.slice.base.toNat
    let sz := sliceSize s.slice
    ∃ t, exec .wslc s = .next t ∧
      t = { s with
        slice := { s.slice with size := BitVec.ofNat 16 sz }
        sched := { s.sched with ptr := BitVec.ofNat 32 (b + sz) }
        cur := { s.cur with byteptr := BitVec.ofNat 32 (b + sz) }
        bs := t.bs
        sst := t.sst } ∧
      holdsBytes t.bs b (sliceBytes s.slice) = true ∧ SameBytesOutside s.bs t.bs b s.slice.hdrsize.toNat ∧
      ∀ n, t.sstAt n = if n + 1 = s.sched.idx.toNat then BitVec.ofNat 16 sz else s.sstAt n

/-- After WSLC, PSLC on the same slice reads back the header size, the raw scale and the three sizes, and sets the folded scale; nothing
else changes but BYTEPTR and SLOK (R181). -/
def Obligations.WslcPslcRestores : Prop :=
  ∀ s t : State, Running s → s.memoriesWf → exec .wslc s = .next t → Running t →
    exec .pslc t = .next { t with
      slice := { t.slice with qscale := BitVec.ofNat 32 (foldOf t.slice.qsraw.toNat) }
      cur := { t.cur with byteptr := BitVec.ofNat 32 (t.slice.base.toNat + t.slice.hdrsize.toNat) }
      status := { t.status with slok := true } }

/-! ### The coefficient coder -/

/-- DCINIT clears the plane and starts the DC context; ACINIT starts the AC context; nothing else changes. With L2BPS too large each
raises `BadOperand(BPS)` (43_coefficient_coder.md R202, R205). -/
def Obligations.PlaneStarts : Prop :=
  (decode 0x30000000 = .ok .dcinit ∧ decode 0x33000000 = .ok .acinit) ∧
  (∀ s : State, Running s → ¬BpsLegal s →
    exec .dcinit s = .next (fatal 0x30 7 2 s.cur.bitpos s) ∧ exec .acinit s = .next (fatal 0x33 7 2 s.cur.bitpos s)) ∧
  (∀ s : State, Running s → BpsLegal s → s.memoriesWf →
    ∃ t, exec .dcinit s = .next t ∧
      t = { s with
        ctx := { s.ctx with blk := 0, sign := false, prevdc := 0, prevcode := BitVec.ofNat 32 (dcFirstContext s.cfg.dcCtxInit 0) }
        status := { s.status with abandon := false, eop := false }
        coef := t.coef } ∧
      ∀ k, t.coefAt k = if k < 64 * 2 ^ s.plane.l2bps.toNat then 0 else s.coefAt k) ∧
  (∀ s : State, Running s → BpsLegal s →
    exec .acinit s = .next { s with
      ctx := { s.ctx with
        pos := BitVec.ofNat 32 (2 ^ s.plane.l2bps.toNat - 1)
        prevrun := BitVec.ofNat 32 s.cfg.runCtxInit.val
        prevlev := BitVec.ofNat 32 s.cfg.levCtxInit.val }
      status := { s.status with eop := false } })

/-- DCSYM: the first block's term is the signed value of its code, a later one adds the signed delta; the scaled term is stored in the
block's DC word, and nothing else changes. An abandoned or ended plane is left alone, and past the last block only EOP is set. A
corrupt codeword leaves BITPOS where R151 says and every `CTX_` register and COEF as they were: concealed, with the log written and
ABANDON set, or fatal in strict mode (R203; 60_exceptions.md R272 to R274). -/
def Obligations.DcsymDecodes : Prop :=
  ∀ (s : State) (p : QMatrix), Running s → CursorsLegal s → BpsLegal s → s.memoriesWf →
    (s.status.abandon = true ∨ s.status.eop = true → exec (.dcsym p) s = .next s) ∧
    (s.status.abandon = false → s.status.eop = false →
      (2 ^ s.plane.l2bps.toNat ≤ s.ctx.blk.toNat →
        exec (.dcsym p) s = .next { s with status := { s.status with eop := true } }) ∧
      (∀ sub pos : Nat, s.ctx.blk.toNat < 2 ^ s.plane.l2bps.toNat →
        CorruptAt (if s.ctx.blk = 0 then cbromAt s.cfg.cbrom .firstDC 0 else cbromAt s.cfg.cbrom .dcDelta s.ctx.prevcode.toNat)
          s.bs s.cur.bitpos.toNat s.cur.bitend.toNat sub pos →
        exec (.dcsym p) s = .next (corrupt 0x31 sub (BitVec.ofNat 32 pos) true
          { s with cur := { s.cur with bitpos := BitVec.ofNat 32 pos } })) ∧
      (∀ (c : Nat) (l : List Bool), s.ctx.blk.toNat < 2 ^ s.plane.l2bps.toNat →
        Codes (if s.ctx.blk = 0 then cbromAt s.cfg.cbrom .firstDC 0 else cbromAt s.cfg.cbrom .dcDelta s.ctx.prevcode.toNat) c l →
        holdsBits s.bs s.cur.bitpos.toNat l = true → s.cur.bitpos.toNat + l.length ≤ s.cur.bitend.toNat →
        let dc := if s.ctx.blk = 0 then BitVec.ofInt 32 (signedOf c) else dcAfter s.ctx.sign s.ctx.prevdc c
        ∃ t, exec (.dcsym p) s = .next t ∧
          t = { s with
            cur := { s.cur with bitpos := BitVec.ofNat 32 (s.cur.bitpos.toNat + l.length) }
            ctx := { s.ctx with
              blk := s.ctx.blk + 1
              prevdc := dc
              sign := if s.ctx.blk = 0 then s.ctx.sign else signAfter s.ctx.sign c
              prevcode := if s.ctx.blk = 0 ∧ s.cfg.dcCtxInit ≠ .firstCode then s.ctx.prevcode else BitVec.ofNat 32 c }
            status := { s.status with eop := decide (s.ctx.blk.toNat + 1 = 2 ^ s.plane.l2bps.toNat) }
            coef := t.coef } ∧
          ∀ k, t.coefAt k = if k = 64 * s.ctx.blk.toNat then dequant s p 0 dc else s.coefAt k))

/-- RDDC on a whole DC part: every block's scaled term in its DC word, zero in every other word of the plane, the context and BITPOS past
it, EOP set, and nothing else (R204; 30_encoding.md R117). -/
def Obligations.RddcDecodes : Prop :=
  ∀ (s : State) (p : QMatrix) (codes : List Nat) (l : List Bool), Running s → CursorsLegal s → BpsLegal s →
    s.cfg.wf = true → s.memoriesWf → codes.length = 2 ^ s.plane.l2bps.toNat → DcCodes s.cfg codes l →
    holdsBits s.bs s.cur.bitpos.toNat l = true → s.cur.bitpos.toNat + l.length ≤ s.cur.bitend.toNat →
    ∃ t, exec (.rddc p) s = .next t ∧
      t = { s with
        cur := { s.cur with bitpos := BitVec.ofNat 32 (s.cur.bitpos.toNat + l.length) }
        ctx := dcContext s codes
        status := { s.status with abandon := false, eop := true }
        coef := t.coef } ∧
      ∀ k, t.coefAt k = if k < 64 * 2 ^ s.plane.l2bps.toNat then dcWord s p codes k else s.coefAt k

/-- RDDC on a DC part that is corrupt at a block, be it the first, in both modes: the blocks before it hold their terms, every other word
of the plane is 0, the context is that of the last block decoded, BITPOS is where R151 leaves it, and nothing else changes but what
taking the corruption writes: the log, CORRUPT and ABANDON, or the fatal record in strict mode. In conceal mode the RDAC that follows
restarts the AC context and touches no word of COEF (R204; 60_exceptions.md R272 to R274). -/
def Obligations.RddcConceals : Prop :=
  ∀ (s : State) (p : QMatrix) (codes : List Nat) (l : List Bool) (sub pos : Nat), Running s → CursorsLegal s → BpsLegal s →
    s.cfg.wf = true → s.memoriesWf → codes.length < 2 ^ s.plane.l2bps.toNat → DcCodes s.cfg codes l →
    holdsBits s.bs s.cur.bitpos.toNat l = true → s.cur.bitpos.toNat + l.length ≤ s.cur.bitend.toNat →
    CorruptAt (nextDcBook s.cfg codes) s.bs (s.cur.bitpos.toNat + l.length) s.cur.bitend.toNat sub pos →
    ∃ t, exec (.rddc p) s = .next (corrupt 0x32 sub (BitVec.ofNat 32 pos) true t) ∧
      t = { s with
        cur := { s.cur with bitpos := BitVec.ofNat 32 pos }
        ctx := dcContext s codes
        status := { s.status with abandon := false, eop := false }
        coef := t.coef } ∧
      (∀ k, t.coefAt k = if k < 64 * 2 ^ s.plane.l2bps.toNat then dcWord s p codes k else s.coefAt k) ∧
      (s.strict = false → MaxcLegal s →
        let u := corrupt 0x32 sub (BitVec.ofNat 32 pos) true t
        u.status.abandon = true ∧ exec (.rdac p) u = .next { u with ctx := acContext u [] })

/-- ACSYM on a triple inside the plane and below MAXC: the scaled coefficient in the word its position names, the context at the triple,
BITPOS past its sign bit, and nothing else (R200, R206). -/
def Obligations.AcsymDecodes : Prop :=
  ∀ (s : State) (p : QMatrix) (x : Triple) (l₁ l₂ : List Bool), Running s → CursorsLegal s → BpsLegal s → MaxcLegal s →
    s.memoriesWf → s.status.abandon = false → s.status.eop = false → 1 ≤ x.level →
    Codes (cbromAt s.cfg.cbrom .acRun s.ctx.prevrun.toNat) x.run l₁ →
    Codes (cbromAt s.cfg.cbrom .acLevel s.ctx.prevlev.toNat) (x.level - 1 : Nat) l₂ →
    holdsBits s.bs s.cur.bitpos.toNat (l₁ ++ l₂ ++ [x.negative]) = true →
    s.cur.bitpos.toNat + (l₁ ++ l₂ ++ [x.negative]).length ≤ s.cur.bitend.toNat →
    let bps := 2 ^ s.plane.l2bps.toNat
    let np := s.ctx.pos.toNat + x.run + 1
    np < s.plane.maxc.toNat * bps →
    ∃ t, exec (.acsym p) s = .next t ∧
      t = { s with
        cur := { s.cur with bitpos := BitVec.ofNat 32 (s.cur.bitpos.toNat + (l₁ ++ l₂ ++ [x.negative]).length) }
        ctx := { s.ctx with
          pos := BitVec.ofNat 32 np
          prevrun := BitVec.ofNat 32 x.run
          prevlev := BitVec.ofNat 32 x.level }
        coef := t.coef } ∧
      ∀ k, t.coefAt k =
        if k = 64 * (np % bps) + s.scan (np / bps) then dequant s p (s.scan (np / bps)) x.value else s.coefAt k

/-- Where ACSYM decodes nothing: an abandoned or ended plane, which it leaves alone; a payload with no `1` left, and a run to or beyond
MAXC in a reduced decode, which set EOP; a corrupt run or level codeword, a run to or beyond the end of the plane (RUN_OVERRUN) and a
sign bit beyond BITEND, which are taken as corruptions of ACSYM. No `CTX_` register and no word of COEF changes, and BITPOS is where
the last read left it (R206; 60_exceptions.md R272 to R274). -/
def Obligations.AcsymStops : Prop :=
  ∀ (s : State) (p : QMatrix), Running s → CursorsLegal s → BpsLegal s → MaxcLegal s →
    (s.status.abandon = true ∨ s.status.eop = true → exec (.acsym p) s = .next s) ∧
    (∀ sub next, s.status.abandon = false → s.status.eop = false →
      AcEnd s.cfg.cbrom s.bs s.cur.bitend.toNat (2 ^ s.plane.l2bps.toNat) s.plane.maxc.toNat s.ctx.prevrun.toNat
        s.ctx.prevlev.toNat s.ctx.pos.toNat s.cur.bitpos.toNat sub next →
      exec (.acsym p) s = .next (acEnded 0x34 sub next s))

/-- RDAC on the triples of an AC part and what ends it, be it the zeros up to BITEND, the MAXC stop of a reduced decode, or a corruption:
every triple's scaled coefficient in the word its position names, every other word as before, the context at the last triple,
BITPOS where the end leaves it, EOP set at a normal end and the corruption taken at another, and nothing else. On an abandoned plane
only the AC context and EOP are set back (R207; 30_encoding.md R117). -/
def Obligations.RdacDecodes : Prop :=
  (∀ (s : State) (p : QMatrix), Running s → CursorsLegal s → BpsLegal s → MaxcLegal s → s.status.abandon = true →
    exec (.rdac p) s = .next { s with ctx := acContext s [], status := { s.status with eop := false } }) ∧
  ∀ (s : State) (p : QMatrix) (ts : List Triple) (l : List Bool) (sub : Option Nat) (next : Nat), Running s → CursorsLegal s →
    BpsLegal s → MaxcLegal s → s.cfg.wf = true → s.memoriesWf → s.status.abandon = false →
    AcStream s.cfg.cbrom s.cfg.runCtxInit.val s.cfg.levCtxInit.val ts l →
    let bps := 2 ^ s.plane.l2bps.toNat
    let places := acPositions (bps - 1) ts
    (∀ np ∈ places, np < s.plane.maxc.toNat * bps) →
    holdsBits s.bs s.cur.bitpos.toNat l = true → s.cur.bitpos.toNat + l.length ≤ s.cur.bitend.toNat →
    AcEnd s.cfg.cbrom s.bs s.cur.bitend.toNat bps s.plane.maxc.toNat (lastRun s.cfg ts) (lastLevel s.cfg ts) (lastPlace bps ts)
      (s.cur.bitpos.toNat + l.length) sub next →
    ∃ t, exec (.rdac p) s = .next (acEnded 0x35 sub next t) ∧
      t = { s with ctx := acContext s ts, status := { s.status with eop := false }, coef := t.coef } ∧
      (∀ (j np : Nat) (x : Triple), places[j]? = some np → ts[j]? = some x →
        t.coefAt (64 * (np % bps) + s.scan (np / bps)) = dequant s p (s.scan (np / bps)) x.value) ∧
      (∀ k, (∀ np ∈ places, k ≠ 64 * (np % bps) + s.scan (np / bps)) → t.coefAt k = s.coefAt k)

/-- WRDC: the first-DC codeword and the DC-delta codewords of the plane's DC terms stored at BITPOS, BITPOS past them, the context at the
last block, no other bit of BS and nothing else changed. Where the codeword of a block is not representable or does not fit, the
fault is fatal with the codewords of the blocks before it stored, BITPOS past them and the context at the last of them (R208;
60_exceptions.md R277). -/
def Obligations.WrdcWrites : Prop :=
  ∀ (s : State) (l : List Bool), Running s → CursorsLegal s → BpsLegal s → s.cfg.wf = true → s.memoriesWf →
    s.cur.bitpos.toNat + l.length ≤ s.cur.bitend.toNat →
    (DcCodes s.cfg (planeCodes s) l →
      ∃ t, exec .wrdc s = .next t ∧
        t = { s with
          bs := t.bs
          cur := { s.cur with bitpos := BitVec.ofNat 32 (s.cur.bitpos.toNat + l.length) }
          ctx := writtenDcContext s (planeCodes s) } ∧
        StoresBits s.bs t.bs s.cur.bitpos.toNat l) ∧
    (∀ (done rest : List Nat) (c code sub : Nat), planeCodes s = done ++ c :: rest → DcCodes s.cfg done l →
      WriteFails (nextDcBook s.cfg done) c (s.cur.bitpos.toNat + l.length) s.cur.bitend.toNat code sub →
      ∃ t, exec .wrdc s = .next (fatal 0x38 code sub t.cur.bitpos t) ∧
        t = { s with
          bs := t.bs
          cur := { s.cur with bitpos := BitVec.ofNat 32 (s.cur.bitpos.toNat + l.length) }
          ctx := writtenDcContext s done } ∧
        StoresBits s.bs t.bs s.cur.bitpos.toNat l)

/-- WRAC: run, level and sign of every nonzero AC term below MAXC stored at BITPOS in position order, BITPOS past them, the context at the
last of them, no other bit of BS and nothing else changed. Where a codeword of a triple is not representable or does not fit, or its
sign bit does not fit, the fault is fatal with the triples before it and the codewords of it that were complete stored, BITPOS past
them and the context at the last complete triple (R209; 60_exceptions.md R277). -/
def Obligations.WracWrites : Prop :=
  ∀ (s : State) (l : List Bool), Running s → CursorsLegal s → BpsLegal s → MaxcLegal s → s.cfg.wf = true → s.memoriesWf →
    s.cur.bitpos.toNat + l.length ≤ s.cur.bitend.toNat →
    (AcStream s.cfg.cbrom s.cfg.runCtxInit.val s.cfg.levCtxInit.val (planeTriples s) l →
      ∃ t, exec .wrac s = .next t ∧
        t = { s with
          bs := t.bs
          cur := { s.cur with bitpos := BitVec.ofNat 32 (s.cur.bitpos.toNat + l.length) }
          ctx := acContext s (planeTriples s) } ∧
        StoresBits s.bs t.bs s.cur.bitpos.toNat l) ∧
    (∀ (done rest : List Triple) (x : Triple) (part : List Bool) (code sub : Nat), planeTriples s = done ++ x :: rest →
      AcStream s.cfg.cbrom s.cfg.runCtxInit.val s.cfg.levCtxInit.val done l →
      TripleFails s.cfg.cbrom (lastRun s.cfg done) (lastLevel s.cfg done) x (s.cur.bitpos.toNat + l.length) s.cur.bitend.toNat
        part code sub →
      ∃ t, exec .wrac s = .next (fatal 0x39 code sub t.cur.bitpos t) ∧
        t = { s with
          bs := t.bs
          cur := { s.cur with bitpos := BitVec.ofNat 32 (s.cur.bitpos.toNat + (l ++ part).length) }
          ctx := acContext s done } ∧
        StoresBits s.bs t.bs s.cur.bitpos.toNat (l ++ part))

/-- Plane round trip (R210 (a)): what WRDC, WRAC and ALIGNW wrote from a byte boundary, RDDC and RDAC under a matrix of 4 read back: every
term at a scan position below MAXC as it was, 0 at the others, CORRUPT unchanged and EOP set. The DC terms are below 2^29 in
magnitude, so that scaling by 4 does not wrap; the AC terms are, since their levels have codewords. -/
def Obligations.PlaneRoundTrip : Prop :=
  ∀ (s s₁ s₂ s₃ : State) (p : QMatrix), Running s → CursorsLegal s → BpsLegal s → MaxcLegal s → s.cfg.wf = true → s.memoriesWf →
    s.cur.bitpos.toNat % 8 = 0 → (∀ i, i < 64 → s.qmsAt p i = 4) →
    (∀ blk, blk < 2 ^ s.plane.l2bps.toNat → (s.coefAt (64 * blk)).toInt.natAbs < 2 ^ 29) →
    exec .wrdc s = .next s₁ → Running s₁ → exec .wrac s₁ = .next s₂ → Running s₂ → exec .alignw s₂ = .next s₃ → Running s₃ →
    ∃ d₁ d₂,
      exec (.rddc p) { s₃ with cur := { s₃.cur with bitpos := s.cur.bitpos, bitend := s₃.cur.bitpos } } = .next d₁ ∧
      exec (.rdac p) d₁ = .next d₂ ∧ Running d₂ ∧ d₂.status.corrupt = s.status.corrupt ∧ d₂.status.eop = true ∧
      ∀ blk j, blk < 2 ^ s.plane.l2bps.toNat → j < 64 →
        d₂.coefAt (64 * blk + s.scan j) = if j < s.plane.maxc.toNat then s.coefAt (64 * blk + s.scan j) else 0

/-- Context determinism (R210 (b)): from two states that agree on the bits from BITPOS to BITEND, on L2BPS, MAXC, CBROM, the three initial
contexts and the mode, whatever their matrices, scan selection, coefficients and earlier contexts, the same sequence of decode
commands leaves the same contexts. -/
def Obligations.ContextDeterminism : Prop :=
  ∀ (s u : State) (p q : QMatrix), Running s → Running u → CursorsLegal s → CursorsLegal u → BpsLegal s → BpsLegal u → MaxcLegal s →
    s.strict = u.strict → s.plane.l2bps = u.plane.l2bps → s.plane.maxc = u.plane.maxc → s.cfg.cbrom = u.cfg.cbrom →
    s.cfg.dcCtxInit = u.cfg.dcCtxInit → s.cfg.runCtxInit = u.cfg.runCtxInit → s.cfg.levCtxInit = u.cfg.levCtxInit →
    s.cur.bitend.toNat - s.cur.bitpos.toNat = u.cur.bitend.toNat - u.cur.bitpos.toNat →
    (∀ k, k < s.cur.bitend.toNat - s.cur.bitpos.toNat →
      bsBit s.bs (s.cur.bitpos.toNat + k) = bsBit u.bs (u.cur.bitpos.toNat + k)) →
    ∀ n m,
      let s₁ := afterTimes (.dcsym p) n (after .dcinit s)
      let u₁ := afterTimes (.dcsym q) n (after .dcinit u)
      s₁.status.halt = u₁.status.halt ∧ s₁.ctx.blk = u₁.ctx.blk ∧ s₁.ctx.prevcode = u₁.ctx.prevcode ∧ s₁.ctx.sign = u₁.ctx.sign ∧
      s₁.ctx.prevdc = u₁.ctx.prevdc ∧
      (Running s₁ → (afterTimes (.acsym p) m (after .acinit s₁)).ctx = (afterTimes (.acsym q) m (after .acinit u₁)).ctx)

/-! ### The quantizer -/

/-- FOLDQ sets QSCALE to the folded raw scale and changes nothing else; the fold is the clip to 1..224 then `(q - 96) << 2` above 128,
lies in 1 to 512 and rises strictly on 1 to 224 (44_quantizer.md R231). -/
def Obligations.FoldqFolds : Prop :=
  decode 0x40000000 = .ok .foldq ∧
  (∀ s : State, Running s →
    exec .foldq s = .next { s with slice := { s.slice with qscale := BitVec.ofNat 32 (foldOf s.slice.qsraw.toNat) } }) ∧
  (∀ raw : Nat, raw < 256 →
    foldOf raw = (if 128 < min (max raw 1) 224 then (min (max raw 1) 224 - 96) * 2 ^ 2 else min (max raw 1) 224) ∧
    1 ≤ foldOf raw ∧ foldOf raw ≤ 512) ∧
  ∀ a b : Nat, 1 ≤ a → a < b → b ≤ 224 → foldOf a < foldOf b

/-- SCALEQ sets every entry of QMS to the entry of QM times QSCALE, wrapping, and changes nothing else (R233). -/
def Obligations.ScaleqScales : Prop :=
  ∀ s : State, Running s → s.memoriesWf →
    ∃ t, exec .scaleq s = .next t ∧ t = { s with qms := t.qms } ∧
      ∀ p i, i < 64 → t.qmsAt p i = BitVec.ofInt 32 ((s.qmAt p i).toNat * s.slice.qscale.toInt)

/-- DEQ scales VAL: the product wraps, the shift rounds toward minus infinity, and with an entry of 4 a value below `2^29` in magnitude
stays (R232, R234). QNT divides VAL toward zero, the one quotient that does not fit wrapping; a zero divisor is fatal and leaves VAL
(R235). Nothing else changes. Each with its words. -/
def Obligations.ScalarQuantizer : Prop :=
  (∀ (p : QMatrix) (idx : BitVec 6),
    decode (BitVec.ofNat 32 (0x42000000 + 256 * idx.toNat + (if p = .luma then 0 else 1))) = .ok (.deq p idx) ∧
    decode (BitVec.ofNat 32 (0x43000000 + 256 * idx.toNat + (if p = .luma then 0 else 1))) = .ok (.qnt p idx)) ∧
  (∀ (s : State) (p : QMatrix) (idx : BitVec 6), Running s →
    exec (.deq p idx) s = .next { s with
      val := BitVec.ofInt 32 ((BitVec.ofInt 32 (s.val.toInt * (s.qmsAt p idx.toNat).toInt)).toInt / 4) }) ∧
  (∀ (s : State) (p : QMatrix) (idx : BitVec 6), Running s → s.qmsAt p idx.toNat = 4 → s.val.toInt.natAbs < 2 ^ 29 →
    exec (.deq p idx) s = .next s) ∧
  ∀ (s : State) (p : QMatrix) (idx : BitVec 6), Running s →
    exec (.qnt p idx) s = .next (
      if s.qmsAt p idx.toNat = 0 then fatal 0x43 6 1 0 s
      else { s with
        val := BitVec.ofInt 32 (s.val.toInt.sign * (s.qmsAt p idx.toNat).toInt.sign *
          (s.val.toInt.natAbs / (s.qmsAt p idx.toNat).toInt.natAbs : Nat)) })

/-- QNTP divides every word of the plane by the entry of its raster position, or raises `DivideByZero` with COEF unchanged when some
entry is 0, or before that `BadOperand(BPS)` (R236). -/
def Obligations.QntpDivides : Prop :=
  (decode 0x44000000 = .ok (.qntp .luma) ∧ decode 0x44000001 = .ok (.qntp .chroma)) ∧
  (∀ (s : State) (p : QMatrix), Running s → ¬BpsLegal s → exec (.qntp p) s = .next (fatal 0x44 7 2 0 s)) ∧
  ∀ (s : State) (p : QMatrix), Running s → BpsLegal s → s.memoriesWf →
    ((∃ i, i < 64 ∧ s.qmsAt p i = 0) → exec (.qntp p) s = .next (fatal 0x44 6 1 0 s)) ∧
    ((∀ i, i < 64 → s.qmsAt p i ≠ 0) →
      ∃ t, exec (.qntp p) s = .next t ∧ t = { s with coef := t.coef } ∧
        ∀ k, t.coefAt k =
          if k < 64 * 2 ^ s.plane.l2bps.toNat then BitVec.ofInt 32 ((s.coefAt k).toInt.tdiv (s.qmsAt p (k % 64)).toInt)
          else s.coefAt k)

/-- The quantizer's laws (R237): four times the dequantized quotient is within the stated bounds of the value, which are reached; zero
stays zero both ways; the quotient grows with the value, and its magnitude does not grow with the divisor. -/
def Obligations.QuantizerLaws : Prop :=
  (∀ (s : State) (p : QMatrix) (idx : BitVec 6), Running s → 1 ≤ (s.qmsAt p idx.toNat).toInt →
    ∃ q r, exec (.qnt p idx) s = .next q ∧ exec (.deq p idx) q = .next r ∧
      (0 ≤ s.val.toInt → 0 ≤ s.val.toInt - 4 * r.val.toInt ∧ s.val.toInt - 4 * r.val.toInt ≤ (s.qmsAt p idx.toNat).toInt + 2) ∧
      (s.val.toInt < 0 → -((s.qmsAt p idx.toNat).toInt - 1) ≤ s.val.toInt - 4 * r.val.toInt ∧ s.val.toInt - 4 * r.val.toInt ≤ 3) ∧
      (s.val.toInt - 4 * r.val.toInt).natAbs < (s.qmsAt p idx.toNat).toInt + 3) ∧
  (∀ (s : State) (p : QMatrix), s.qmsAt p 0 = 7 →
    13 - 4 * (dequant s p 0 (quotient 13 (s.qmsAt p 0))).toInt = 9 ∧
    -6 - 4 * (dequant s p 0 (quotient (-6) (s.qmsAt p 0))).toInt = -6) ∧
  (∀ (s : State) (p : QMatrix) (ci : Nat), dequant s p ci 0 = 0 ∧ quotient 0 (s.qmsAt p ci) = 0) ∧
  (∀ a b m : Word, 1 ≤ m.toInt → a.toInt ≤ b.toInt → (quotient a m).toInt ≤ (quotient b m).toInt) ∧
  (∀ a m n : Word, 1 ≤ m.toInt → m.toInt ≤ n.toInt → (quotient a n).toInt.natAbs ≤ (quotient a m).toInt.natAbs)

/-! ### The whole machine -/

/-- Every step keeps every memory in canonical form and inside its size (10_state.md R40 to R44; 20_memory.md R76). -/
def Obligations.MemoriesWfKept : Prop := ∀ s t : State, s.memoriesWf → step s = .next t → t.memoriesWf

/-- Every step keeps the agreement of the fault record, the log and the flags (10_state.md R25, R27; 60_exceptions.md R270 to R272). -/
def Obligations.RecordAgreesKept : Prop := ∀ s t : State, s.recordAgrees → step s = .next t → t.recordAgrees

/-- Which commands may change what, by opcode, and how far: BS only below BS_LEN, COEF only inside the plane, SST only below MAX_SLICES
(20_memory.md R70, R76; 10_state.md R42 to R44); every register only by the commands whose rules write it (R21 to R38), the fatal
record only with HALT set or by SRST and CLRF, and each flag of STATUS only by its column of R25, where HALT is cleared by SRST and
CLRF alone and REJ set only while halted; the parameters and the host's pending actions never. -/
def Obligations.CommandFrames : Prop :=
  ∀ (i : Instr) (s t : State), s.memoriesWf → exec i s = .next t →
    t.cfg = s.cfg ∧ t.host = s.host ∧
    (∀ a, bsByte t.bs a ≠ bsByte s.bs a → a < s.cur.bsLen.toNat ∧ i.opcode.toNat ∈ [0x12, 0x15, 0x28, 0x29, 0x2A, 0x38, 0x39]) ∧
    (∀ k, t.coefAt k ≠ s.coefAt k →
      k < 64 * 2 ^ s.plane.l2bps.toNat ∧ i.opcode.toNat ∈ [0x30, 0x31, 0x32, 0x34, 0x35, 0x44]) ∧
    (∀ p j, j < 64 → t.qmAt p j ≠ s.qmAt p j → i.opcode.toNat ∈ [0x01, 0x21, 0x28]) ∧
    (∀ p j, j < 64 → t.qmsAt p j ≠ s.qmsAt p j → i.opcode.toNat ∈ [0x01, 0x41]) ∧
    (∀ n, t.sstAt n ≠ s.sstAt n → n < s.cfg.maxSlices ∧ i.opcode.toNat ∈ [0x22, 0x2A]) ∧
    (∀ r : Reg, r ∉ [.status, .fault, .faultPos] → t.readReg r ≠ s.readReg r → i.opcode.toNat ∈ writers r) ∧
    (∀ r : Reg, r ∈ [.fault, .faultPos] → t.readReg r ≠ s.readReg r →
      (s.status.halt = false ∧ t.status.halt = true) ∨ i.opcode.toNat ∈ [0x01, 0x02]) ∧
    (s.status.halt = true → t.status.halt = false → i.opcode.toNat ∈ [0x01, 0x02]) ∧
    (t.status.corrupt ≠ s.status.corrupt → i.opcode.toNat ∈ [0x01, 0x02, 0x11, 0x24, 0x31, 0x32, 0x34, 0x35]) ∧
    (t.status.abandon ≠ s.status.abandon → i.opcode.toNat ∈ [0x01, 0x30, 0x31, 0x32, 0x34, 0x35]) ∧
    (t.status.eop ≠ s.status.eop → i.opcode.toNat ∈ [0x01, 0x30, 0x31, 0x32, 0x33, 0x34, 0x35]) ∧
    (t.status.eos ≠ s.status.eos → i.opcode.toNat ∈ [0x01, 0x22, 0x23, 0x29]) ∧
    (t.status.slok ≠ s.status.slok → i.opcode.toNat ∈ [0x01, 0x22, 0x23, 0x24, 0x29]) ∧
    (t.status.rej ≠ s.status.rej → s.status.halt = true ∨ i.opcode.toNat ∈ [0x01, 0x02])
end

