-- ==== Sys2Proof/Laws/Memory.lean ====
section
/-! SUPPORT. The laws of the memories: what a read gives after a write, and that every operation keeps the canonical form and the
memory's size. -/

namespace Sys2Proof.Machine

variable {w : Nat} (d : BitVec w)

theorem Memory.wf_nil : Memory.wf d [] := ⟨List.Pairwise.nil, by simp⟩

theorem Memory.inside_nil (n : Nat) : Memory.inside (w := w) n [] := by simp [Memory.inside]

/-- A read below every listed address gives the unlisted value. -/
theorem Memory.read_of_unlisted {m : Memory w} {a : Nat} (h : ∀ c ∈ m, c.1 ≠ a) : Memory.read d m a = d := by
  induction m with
  | nil => rfl
  | cons c m ih =>
    have hc := h c (by simp)
    simp only [Memory.read, if_neg hc]
    exact ih fun c' h' => h c' (by simp [h'])

/-- A read of a listed address gives its value, in a memory of strictly rising addresses. -/
theorem Memory.read_of_mem {m : Memory w} (hm : m.Pairwise (fun a b => a.1 < b.1)) {a : Nat} {v : BitVec w} (h : (a, v) ∈ m) :
    Memory.read d m a = v := by
  induction m with
  | nil => simp at h
  | cons c m ih =>
    rw [List.pairwise_cons] at hm
    rcases List.mem_cons.1 h with rfl | h'
    · simp [Memory.read]
    · have := hm.1 _ h'
      have hne : c.1 ≠ a := by simp at this; omega
      simp only [Memory.read, if_neg hne]
      exact ih hm.2 h'

/-- Reading after a write: the written value there, what was read before elsewhere. -/
theorem Memory.read_write {m : Memory w} (hm : Memory.wf d m) (a b : Nat) (v : BitVec w) :
    Memory.read d (Memory.write d m a v) b = if b = a then v else Memory.read d m b := by
  obtain ⟨hs, -⟩ := hm
  induction m with
  | nil =>
    by_cases hv : v = d
    · simp [Memory.write, hv, Memory.read]
    · simp only [Memory.write, if_neg hv, Memory.read]
      by_cases h : a = b
      · simp [h]
      · simp [h, Ne.symm h]
  | cons c m ih =>
    obtain ⟨k, x⟩ := c
    rw [List.pairwise_cons] at hs
    have hlt : ∀ c ∈ m, k < c.1 := fun c h => hs.1 c h
    have ih := ih hs.2
    simp only [Memory.write]
    split
    · rename_i hak
      have hread : b = a → Memory.read d ((k, x) :: m) b = d := by
        rintro rfl
        apply Memory.read_of_unlisted
        rintro c hc
        rcases List.mem_cons.1 hc with rfl | hc
        · simp; omega
        · have := hlt c hc; omega
      split
      · rename_i hv
        split
        · rename_i hb; rw [hread hb, hv]
        · rfl
      · rw [Memory.read]
        by_cases hb : a = b
        · simp [hb]
        · simp [hb, Ne.symm hb]
    · split
      · rename_i _ hak
        subst hak
        have hread : b = a → Memory.read d m b = d := by
          rintro rfl
          exact Memory.read_of_unlisted d fun c hc => by have := hlt c hc; omega
        split
        · rename_i hv
          by_cases hb : b = a
          · rw [if_pos hb, hread hb, hv]
          · rw [if_neg hb, Memory.read, if_neg (Ne.symm hb)]
        · simp only [Memory.read]
          by_cases hb : a = b
          · simp [hb]
          · simp [hb, Ne.symm hb]
      · rename_i h1 h2
        simp only [Memory.read]
        by_cases hk : k = b
        · have : b ≠ a := by omega
          simp [hk, this]
        · rw [if_neg hk, if_neg hk, ih]

/-- Every entry after a write is the written one or was there before. -/
theorem Memory.mem_write {m : Memory w} {a : Nat} {v : BitVec w} {c : Nat × BitVec w} (h : c ∈ Memory.write d m a v) :
    (c = (a, v) ∧ v ≠ d) ∨ c ∈ m := by
  induction m with
  | nil =>
    simp only [Memory.write] at h
    split at h
    · simp at h
    · left; simp at h; exact ⟨h, ‹_›⟩
  | cons e m ih =>
    simp only [Memory.write] at h
    split at h
    · split at h
      · exact .inr h
      · rcases List.mem_cons.1 h with h | h
        · exact .inl ⟨h, ‹_›⟩
        · exact .inr h
    · split at h
      · split at h
        · exact .inr (List.mem_cons_of_mem _ h)
        · rcases List.mem_cons.1 h with h | h
          · exact .inl ⟨h, ‹_›⟩
          · exact .inr (List.mem_cons_of_mem _ h)
      · rcases List.mem_cons.1 h with h | h
        · exact .inr (by simp [h])
        · rcases ih h with h | h
          · exact .inl h
          · exact .inr (List.mem_cons_of_mem _ h)

/-- A write keeps the canonical form. -/
theorem Memory.wf_write {m : Memory w} (hm : Memory.wf d m) (a : Nat) (v : BitVec w) : Memory.wf d (Memory.write d m a v) := by
  obtain ⟨hs, hd⟩ := hm
  refine ⟨?_, fun c hc => ?_⟩
  · clear hd
    induction m with
    | nil => simp only [Memory.write]; split <;> simp
    | cons c m ih =>
      obtain ⟨k, x⟩ := c
      have hs' := hs
      rw [List.pairwise_cons] at hs
      have ih := ih hs.2
      simp only [Memory.write]
      split
      · split
        · exact hs'
        · refine List.pairwise_cons.2 ⟨fun c hc => ?_, hs'⟩
          rcases List.mem_cons.1 hc with rfl | hc
          · assumption
          · have := hs.1 c hc; simp at this ⊢; omega
      · split
        · subst_vars
          split
          · exact hs.2
          · exact List.pairwise_cons.2 ⟨hs.1, hs.2⟩
        · refine List.pairwise_cons.2 ⟨fun c hc => ?_, ih⟩
          rcases Memory.mem_write d hc with ⟨rfl, -⟩ | h
          · show k < a; omega
          · exact hs.1 c h
  · rcases Memory.mem_write d hc with ⟨rfl, h⟩ | h
    · exact h
    · exact hd c h

/-- A write inside the memory's size lists nothing outside it. -/
theorem Memory.inside_write {m : Memory w} {n : Nat} (hm : Memory.inside n m) {a : Nat} (ha : a < n) (v : BitVec w) :
    Memory.inside n (Memory.write d m a v) := by
  intro c hc
  rcases Memory.mem_write d hc with ⟨rfl, -⟩ | h
  · exact ha
  · exact hm c h

theorem Memory.mem_tabulate {base n : Nat} {f : Nat → BitVec w} {c : Nat × BitVec w} :
    c ∈ Memory.tabulate d base n f ↔ ∃ i, i < n ∧ f i ≠ d ∧ c = (base + i, f i) := by
  simp only [Memory.tabulate, List.mem_filterMap, List.mem_range]
  constructor
  · rintro ⟨i, hi, h⟩
    split at h
    · simp at h
    · exact ⟨i, hi, ‹_›, by simpa using h.symm⟩
  · rintro ⟨i, hi, hf, rfl⟩
    exact ⟨i, hi, by simp [hf]⟩

theorem Memory.sorted_tabulate (base n : Nat) (f : Nat → BitVec w) :
    (Memory.tabulate d base n f).Pairwise (fun a b => a.1 < b.1) := by
  rw [Memory.tabulate, List.pairwise_filterMap]
  refine List.Pairwise.imp ?_ (List.pairwise_lt_range (n := n))
  intro i j hij b hb b' hb'
  split at hb <;> split at hb' <;> simp_all
  subst hb; subst hb'
  omega

/-- A range write keeps the canonical form. -/
theorem Memory.wf_writeRange {m : Memory w} (hm : Memory.wf d m) (base n : Nat) (f : Nat → BitVec w) :
    Memory.wf d (Memory.writeRange d m base n f) := by
  obtain ⟨hs, hd⟩ := hm
  refine ⟨?_, fun c hc => ?_⟩
  · rw [Memory.writeRange, List.pairwise_append]
    refine ⟨hs.filter _, ?_, ?_⟩
    · rw [List.pairwise_append]
      refine ⟨Memory.sorted_tabulate d base n f, hs.filter _, ?_⟩
      intro a ha b hb
      obtain ⟨i, hi, -, rfl⟩ := (Memory.mem_tabulate d).1 ha
      simp at hb ⊢; omega
    · intro a ha b hb
      rcases List.mem_append.1 hb with hb | hb
      · obtain ⟨i, hi, -, rfl⟩ := (Memory.mem_tabulate d).1 hb
        simp at ha ⊢; omega
      · simp at ha hb; omega
  · rw [Memory.writeRange, List.mem_append, List.mem_append] at hc
    rcases hc with hc | hc | hc
    · exact hd c (List.mem_filter.1 hc).1
    · obtain ⟨i, -, h, rfl⟩ := (Memory.mem_tabulate d).1 hc; exact h
    · exact hd c (List.mem_filter.1 hc).1

/-- A range write inside the memory's size lists nothing outside it. -/
theorem Memory.inside_writeRange {m : Memory w} {k : Nat} (hm : Memory.inside k m) {base n : Nat} (h : base + n ≤ k)
    (f : Nat → BitVec w) : Memory.inside k (Memory.writeRange d m base n f) := by
  intro c hc
  rw [Memory.writeRange, List.mem_append, List.mem_append] at hc
  rcases hc with hc | hc | hc
  · exact hm c (List.mem_filter.1 hc).1
  · obtain ⟨i, hi, -, rfl⟩ := (Memory.mem_tabulate d).1 hc; simp; omega
  · exact hm c (List.mem_filter.1 hc).1

/-- Reading after a range write: the new values inside the range, what was read before outside. -/
theorem Memory.read_writeRange {m : Memory w} (hm : Memory.wf d m) (base n : Nat) (f : Nat → BitVec w) (a : Nat) :
    Memory.read d (Memory.writeRange d m base n f) a =
      if base ≤ a ∧ a < base + n then f (a - base) else Memory.read d m a := by
  have hwf := (Memory.wf_writeRange d hm base n f).1
  have inRange : ∀ {v}, (a, v) ∈ Memory.writeRange d m base n f → Memory.read d (Memory.writeRange d m base n f) a = v :=
    fun h => Memory.read_of_mem d hwf h
  split
  · rename_i h
    by_cases hf : f (a - base) = d
    · rw [hf]
      apply Memory.read_of_unlisted
      intro c hc
      rw [Memory.writeRange, List.mem_append, List.mem_append] at hc
      rcases hc with hc | hc | hc
      · simp at hc; omega
      · obtain ⟨i, hi, hne, rfl⟩ := (Memory.mem_tabulate d).1 hc
        rintro rfl
        simp at hf; exact hne hf
      · simp at hc; omega
    · apply inRange
      rw [Memory.writeRange, List.mem_append, List.mem_append]
      refine .inr (.inl ((Memory.mem_tabulate d).2 ⟨a - base, by omega, hf, ?_⟩))
      simp; omega
  · rename_i h
    by_cases hl : ∃ v, (a, v) ∈ m
    · obtain ⟨v, hv⟩ := hl
      rw [Memory.read_of_mem d hm.1 hv]
      apply inRange
      rw [Memory.writeRange, List.mem_append, List.mem_append]
      by_cases hb : a < base
      · exact .inl (List.mem_filter.2 ⟨hv, by simpa using hb⟩)
      · exact .inr (.inr (List.mem_filter.2 ⟨hv, by simp; omega⟩))
    · rw [Memory.read_of_unlisted d (m := m) fun c hc he => hl ⟨c.2, by rw [← he]; exact hc⟩]
      apply Memory.read_of_unlisted
      intro c hc he
      rw [Memory.writeRange, List.mem_append, List.mem_append] at hc
      rcases hc with hc | hc | hc
      · exact hl ⟨c.2, by rw [← he]; exact (List.mem_filter.1 hc).1⟩
      · obtain ⟨i, hi, -, rfl⟩ := (Memory.mem_tabulate d).1 hc; simp at he; omega
      · exact hl ⟨c.2, by rw [← he]; exact (List.mem_filter.1 hc).1⟩

/-- The fold of single writes that a loop of the spec's pseudocode is (log entry 20). -/
def Memory.writeLoop (m : Memory w) (base n : Nat) (f : Nat → BitVec w) : Memory w :=
  (List.range n).foldl (fun m i => Memory.write d m (base + i) (f i)) m

theorem Memory.wf_writeLoop {m : Memory w} (hm : Memory.wf d m) (base n : Nat) (f : Nat → BitVec w) :
    Memory.wf d (Memory.writeLoop d m base n f) := by
  induction n with
  | zero => simpa [Memory.writeLoop] using hm
  | succ n ih => rw [Memory.writeLoop, List.range_succ, List.foldl_append]; exact Memory.wf_write d ih _ _

/-- A range write reads as the loop of single writes does (log entry 20). -/
theorem Memory.read_writeLoop {m : Memory w} (hm : Memory.wf d m) (base n : Nat) (f : Nat → BitVec w) (a : Nat) :
    Memory.read d (Memory.writeLoop d m base n f) a = Memory.read d (Memory.writeRange d m base n f) a := by
  rw [Memory.read_writeRange d hm]
  induction n with
  | zero =>
    have : ¬(base ≤ a ∧ a < base + 0) := by omega
    rw [if_neg this]; rfl
  | succ n ih =>
    have hstep : Memory.writeLoop d m base (n + 1) f = Memory.write d (Memory.writeLoop d m base n f) (base + n) (f n) := by
      rw [Memory.writeLoop, List.range_succ, List.foldl_append]; rfl
    rw [hstep, Memory.read_write d (Memory.wf_writeLoop d hm base n f), ih]
    by_cases ha : a = base + n
    · subst ha; simp
    · rw [if_neg ha]
      by_cases h : base ≤ a ∧ a < base + n
      · rw [if_pos h, if_pos (by omega)]
      · rw [if_neg h, if_neg (by omega)]

/-- Memories in canonical form that read alike are equal. -/
theorem Memory.ext_read {m m' : Memory w} (hm : Memory.wf d m) (hm' : Memory.wf d m')
    (h : ∀ a, Memory.read d m a = Memory.read d m' a) : m = m' := by
  have sub : ∀ {m m' : Memory w}, Memory.wf d m → Memory.wf d m' → (∀ a, Memory.read d m a = Memory.read d m' a) →
      ∀ c ∈ m, c ∈ m' := by
    rintro m m' hm hm' h ⟨a, v⟩ hc
    have h1 := h a
    rw [Memory.read_of_mem d hm.1 hc] at h1
    by_contra hn
    by_cases hl : ∃ v', (a, v') ∈ m'
    · obtain ⟨v', hv'⟩ := hl
      rw [Memory.read_of_mem d hm'.1 hv'] at h1
      exact hn (h1 ▸ hv')
    · rw [Memory.read_of_unlisted d fun c hc he => hl ⟨c.2, by rw [← he]; exact hc⟩] at h1
      exact hm.2 _ hc h1
  have nodup : ∀ {m : Memory w}, Memory.wf d m → m.Nodup := fun hm =>
    hm.1.imp fun {a b} hab => fun he => by subst he; exact absurd hab (lt_irrefl _)
  have hp : m.Perm m' := (List.perm_ext_iff_of_nodup (nodup hm) (nodup hm')).2 fun c =>
    ⟨sub hm hm' h c, sub hm' hm (fun a => (h a).symm) c⟩
  exact hp.eq_of_pairwise (fun a b _ _ h1 h2 => absurd (lt_trans h1 h2) (lt_irrefl _)) hm.1 hm'.1

/-! ### The memory that pairs describe -/

/-- What the pairs describe is canonical and lies inside the memory's size. -/
theorem Memory.ofPairs_wf_inside (n : Nat) (l : List (Nat × BitVec w)) :
    Memory.wf d (Memory.ofPairs d n l) ∧ Memory.inside n (Memory.ofPairs d n l) := by
  have fold : ∀ (l : List (Nat × BitVec w)) (m : Memory w), (∀ c ∈ l, c.1 < n) → Memory.wf d m ∧ Memory.inside n m →
      Memory.wf d (l.foldl (fun m c => Memory.write d m c.1 c.2) m) ∧
      Memory.inside n (l.foldl (fun m c => Memory.write d m c.1 c.2) m) := by
    intro l
    induction l with
    | nil => exact fun _ _ h => h
    | cons c l ih =>
      exact fun m hl h => ih _ (fun c' hc => hl c' (by simp [hc]))
        ⟨Memory.wf_write d h.1 _ _, Memory.inside_write d h.2 (hl c (by simp)) _⟩
  exact fold _ _ (fun c hc => by simpa using (List.mem_filter.1 hc).2) ⟨Memory.wf_nil d, Memory.inside_nil n⟩

theorem Memory.ofPairs_wf (n : Nat) (l : List (Nat × BitVec w)) : Memory.wf d (Memory.ofPairs d n l) :=
  (Memory.ofPairs_wf_inside d n l).1

theorem Memory.ofPairs_inside (n : Nat) (l : List (Nat × BitVec w)) : Memory.inside n (Memory.ofPairs d n l) :=
  (Memory.ofPairs_wf_inside d n l).2

/-- No contents are ruled out: a memory in canonical form inside its size is what its own list describes. -/
theorem Memory.ofPairs_of_wf {n : Nat} {m : Memory w} (hm : Memory.wf d m) (hi : Memory.inside n m) : Memory.ofPairs d n m = m := by
  have snoc : ∀ (m : Memory w) (a : Nat) (v : BitVec w), (∀ c ∈ m, c.1 < a) → v ≠ d → Memory.write d m a v = m ++ [(a, v)] := by
    intro m a v hm hv
    induction m with
    | nil => simp [Memory.write, hv]
    | cons c m ih =>
      obtain ⟨k, x⟩ := c
      have hk : k < a := hm (k, x) (by simp)
      rw [Memory.write, if_neg (by omega), if_neg (by omega), ih fun c hc => hm c (by simp [hc])]
      rfl
  have fold : ∀ l m : Memory w, Memory.wf d (m ++ l) → l.foldl (fun m c => Memory.write d m c.1 c.2) m = m ++ l := by
    intro l
    induction l with
    | nil => simp
    | cons c l ih =>
      intro m h
      have hp := (List.pairwise_append.1 h.1).2.2
      rw [List.foldl_cons, snoc m c.1 c.2 (fun e he => hp e he c (by simp)) (h.2 c (by simp)), ih _ (by simpa using h)]
      simp
  rw [Memory.ofPairs, List.filter_eq_self.2 (by simpa using hi), fold m [] (by simpa using hm)]
  rfl

end Sys2Proof.Machine
end

