-- ==== Sys2Proof/Laws/Bits.lean ====
section
/-! SUPPORT. The laws of the byte and bit primitives of BS (20_memory.md R71 to R78): what each read gives after each write, that a
write changes nothing else, and that the writes keep the canonical form and the size of BS. -/

namespace Sys2Proof.Machine

open Sys2Proof.Claims

/-- A concatenation as a number. -/
theorem append_toNat {m n : Nat} (x : BitVec m) (y : BitVec n) : (x ++ y).toNat = x.toNat * 2 ^ n + y.toNat := by
  rw [BitVec.toNat_append, Nat.shiftLeft_eq, ← Nat.shiftLeft_eq, Nat.shiftLeft_add_eq_or_of_lt y.isLt]

/-! ### Bytes -/

theorem bsByte_bsSetByte {bs : Memory 8} (h : Memory.wf bsUnlisted bs) (a x : Nat) (b : Byte) :
    bsByte (bsSetByte bs a b) x = if x = a then b else bsByte bs x := Memory.read_write _ h a x b

theorem bsSetByte_wf {bs : Memory 8} (h : Memory.wf bsUnlisted bs) (a : Nat) (b : Byte) :
    Memory.wf bsUnlisted (bsSetByte bs a b) := Memory.wf_write _ h a b

theorem bsSetByte_inside {bs : Memory 8} {n : Nat} (h : Memory.inside n bs) {a : Nat} (ha : a < n) (b : Byte) :
    Memory.inside n (bsSetByte bs a b) := Memory.inside_write _ h ha b

theorem memWrite_wf {bs : Memory 8} (h : Memory.wf bsUnlisted bs) (n a v : Nat) : Memory.wf bsUnlisted (memWrite n bs a v) := by
  induction n generalizing bs a with
  | zero => exact h
  | succ n ih => exact ih (bsSetByte_wf h _ _) _

theorem memWrite_inside {bs : Memory 8} {m : Nat} (h : Memory.inside m bs) {n a : Nat} (ha : a + n ≤ m) (v : Nat) :
    Memory.inside m (memWrite n bs a v) := by
  induction n generalizing bs a with
  | zero => exact h
  | succ n ih => exact ih (bsSetByte_inside h (by omega) _) (by omega)

/-- A byte after `MemWrite` (R75). -/
theorem bsByte_memWrite {bs : Memory 8} (h : Memory.wf bsUnlisted bs) (n a v x : Nat) :
    bsByte (memWrite n bs a v) x =
      if a ≤ x ∧ x < a + n then BitVec.ofNat 8 (v >>> (8 * (n - 1 - (x - a)))) else bsByte bs x := by
  induction n generalizing bs a with
  | zero => simp [memWrite]
  | succ n ih =>
    rw [memWrite, ih (bsSetByte_wf h _ _), bsByte_bsSetByte h]
    by_cases hx : x = a
    · subst hx
      simp
    · have e : n - 1 - (x - (a + 1)) = n + 1 - 1 - (x - a) ∨ ¬(a + 1 ≤ x ∧ x < a + 1 + n) := by omega
      by_cases hc : a + 1 ≤ x ∧ x < a + 1 + n
      · rw [if_pos hc, if_pos (by omega)]
        rcases e with e | e
        · rw [e]
        · exact absurd hc e
      · rw [if_neg hc, if_neg hx, if_neg (by omega)]

theorem holdsBytes_iff {bs : Memory 8} {a : Nat} {l : List Byte} :
    holdsBytes bs a l = true ↔ ∀ i (h : i < l.length), bsByte bs (a + i) = l[i] := by
  induction l generalizing a with
  | nil => simp [holdsBytes]
  | cons b l ih =>
    simp only [holdsBytes, Bool.and_eq_true, beq_iff_eq, ih]
    constructor
    · rintro ⟨h0, h⟩ i hi
      cases i with
      | zero => simpa using h0
      | succ i => simpa [Nat.add_assoc, Nat.add_comm 1] using h i (by simpa using hi)
    · intro h
      refine ⟨h 0 (Nat.zero_lt_succ _), fun i hi => ?_⟩
      rw [show a + 1 + i = a + (i + 1) by omega]
      exact h (i + 1) (Nat.succ_lt_succ hi)

theorem holdsBytes_append {bs : Memory 8} {a : Nat} {l m : List Byte} :
    holdsBytes bs a (l ++ m) = (holdsBytes bs a l && holdsBytes bs (a + l.length) m) := by
  induction l generalizing a with
  | nil => simp [holdsBytes]
  | cons b l ih => simp [holdsBytes, ih, Bool.and_assoc, Nat.add_assoc, Nat.add_comm 1]

/-- Two BS that agree on the bytes of the list's places hold it alike. -/
theorem holdsBytes_congr {bs bs' : Memory 8} {a : Nat} {l : List Byte}
    (h : ∀ x, a ≤ x → x < a + l.length → bsByte bs' x = bsByte bs x) : holdsBytes bs' a l = holdsBytes bs a l := by
  induction l generalizing a with
  | nil => rfl
  | cons b l ih =>
    simp only [List.length_cons] at h
    simp only [holdsBytes]
    rw [h a le_rfl (by omega), ih fun x h1 h2 => h x (by omega) (by omega)]

@[simp] theorem bigEndian_length (n v : Nat) : (bigEndian n v).length = n := by
  induction n with
  | zero => rfl
  | succ n ih => simp [bigEndian, ih]

theorem bigEndian_getElem (n v i : Nat) (h : i < (bigEndian n v).length) :
    (bigEndian n v)[i] = BitVec.ofNat 8 (v / 256 ^ (n - 1 - i)) := by
  induction n generalizing i with
  | zero => simp [bigEndian] at h
  | succ n ih =>
    cases i with
    | zero => simp [bigEndian]
    | succ i =>
      simp only [bigEndian, List.getElem_cons_succ]
      rw [ih]
      congr 3
      omega

/-- `MemWrite` stores the value's bytes, the most significant first (R71, R75). -/
theorem holdsBytes_memWrite {bs : Memory 8} (h : Memory.wf bsUnlisted bs) (n a v : Nat) :
    holdsBytes (memWrite n bs a v) a (bigEndian n v) = true := by
  rw [holdsBytes_iff]
  intro i hi
  have hn : i < n := by simpa using hi
  rw [bsByte_memWrite h, if_pos (by omega), bigEndian_getElem, Nat.shiftRight_eq_div_pow]
  have : (2 : Nat) ^ (8 * (n - 1 - (a + i - a))) = 256 ^ (n - 1 - i) := by
    rw [show (256 : Nat) = 2 ^ 8 from rfl, ← pow_mul]
    congr 2
    omega
  rw [this]

/-- `MemWrite` changes no byte outside the field (R75). -/
theorem memWrite_sameOutside {bs : Memory 8} (h : Memory.wf bsUnlisted bs) (n a v : Nat) :
    SameBytesOutside bs (memWrite n bs a v) a n := by
  intro x hx
  rw [bsByte_memWrite h, if_neg (by omega)]

theorem memRead_lt (bs : Memory 8) (a n : Nat) : memRead bs a n < 256 ^ n := by
  induction n with
  | zero => simp [memRead]
  | succ n ih =>
    rw [memRead, pow_succ]
    have := (bsByte bs (a + n)).isLt
    omega

/-- `MemRead` depends on the field's bytes only (R74). -/
theorem memRead_congr {bs bs' : Memory 8} {a n : Nat} (h : ∀ i, i < n → bsByte bs' (a + i) = bsByte bs (a + i)) :
    memRead bs' a n = memRead bs a n := by
  induction n with
  | zero => rfl
  | succ n ih => rw [memRead, memRead, ih fun i hi => h i (by omega), h n (by omega)]

/-- `MemRead` of a field that holds a value's bytes gives the value (R74). -/
theorem memRead_of_holdsBytes {bs : Memory 8} {a n v : Nat} (h : holdsBytes bs a (bigEndian n v) = true) :
    memRead bs a n = v % 256 ^ n := by
  rw [holdsBytes_iff] at h
  have key : ∀ m, m ≤ n → memRead bs a m = v / 256 ^ (n - m) % 256 ^ m := by
    intro m hm
    induction m with
    | zero => simp [memRead, Nat.mod_one]
    | succ m ih =>
      rw [memRead, ih (by omega)]
      have hb := h m (by simpa using hm)
      rw [bigEndian_getElem] at hb
      rw [hb]
      have e1 : n - m = (n - (m + 1)) + 1 := by omega
      have e2 : n - 1 - m = n - (m + 1) := by omega
      rw [e1, e2, pow_succ, ← Nat.div_div_eq_div_mul]
      generalize v / 256 ^ (n - (m + 1)) = y
      simp only [BitVec.toNat_ofNat]
      rw [show (2 : Nat) ^ 8 = 256 from rfl, pow_succ, Nat.mul_comm (256 ^ m) 256, Nat.mod_mul]
      omega
  simpa using key n le_rfl

/-! ### One bit -/

theorem byteWithBit_getLsbD (x : Byte) (j k : Nat) (b : Bool) (hj : j < 8) (hk : k < 8) :
    (byteWithBit x j b).getLsbD (7 - k) = if k = j then b else x.getLsbD (7 - k) := by
  have hiff : (7 - j = 7 - k) ↔ k = j := by omega
  unfold byteWithBit
  by_cases h : k = j
  · subst h
    cases b <;> (simp; try omega)
  · have h' : ¬(7 - j = 7 - k) := by omega
    cases b <;> (simp [h, h']; try omega)

theorem bsSetBit_wf {bs : Memory 8} (h : Memory.wf bsUnlisted bs) (a : Nat) (b : Bool) : Memory.wf bsUnlisted (bsSetBit bs a b) :=
  bsSetByte_wf h _ _

theorem bsSetBit_inside {bs : Memory 8} {n : Nat} (h : Memory.inside n bs) {a : Nat} (ha : a < 8 * n) (b : Bool) :
    Memory.inside n (bsSetBit bs a b) := bsSetByte_inside h (by omega) _

/-- Setting one bit changes that bit only (R72, R78). -/
theorem bsBit_bsSetBit {bs : Memory 8} (h : Memory.wf bsUnlisted bs) (a x : Nat) (b : Bool) :
    bsBit (bsSetBit bs a b) x = if x = a then b else bsBit bs x := by
  unfold bsBit bsSetBit
  rw [bsByte_bsSetByte h]
  by_cases hd : x / 8 = a / 8
  · rw [if_pos hd, byteWithBit_getLsbD _ _ _ _ (Nat.mod_lt _ (by decide)) (Nat.mod_lt _ (by decide)), hd]
    have : x % 8 = a % 8 ↔ x = a := by omega
    simp [this]
  · rw [if_neg hd, if_neg (by intro e; exact hd (by rw [e]))]

theorem bsByte_bsSetBit_of_ne {bs : Memory 8} (h : Memory.wf bsUnlisted bs) {a x : Nat} (hx : x ≠ a / 8) (b : Bool) :
    bsByte (bsSetBit bs a b) x = bsByte bs x := by
  rw [bsSetBit, bsByte_bsSetByte h, if_neg hx]

/-- A byte is its eight bits. -/
theorem bsByte_ext {bs bs' : Memory 8} {x : Nat} (h : ∀ k, k < 8 → bsBit bs' (8 * x + k) = bsBit bs (8 * x + k)) :
    bsByte bs' x = bsByte bs x := by
  apply BitVec.eq_of_getLsbD_eq
  intro i hi
  have := h (7 - i) (by omega)
  simp only [bsBit] at this
  rwa [show (8 * x + (7 - i)) / 8 = x by omega, show 7 - (8 * x + (7 - i)) % 8 = i by omega] at this

/-! ### A run of bits -/

theorem bsWriteBits_wf {bs : Memory 8} (h : Memory.wf bsUnlisted bs) (n a v : Nat) :
    Memory.wf bsUnlisted (bsWriteBits n bs a v) := by
  induction n generalizing bs a with
  | zero => exact h
  | succ n ih => exact ih (bsSetBit_wf h _ _) _

theorem bsWriteBits_inside {bs : Memory 8} {m : Nat} (h : Memory.inside m bs) {n a : Nat} (ha : a + n ≤ 8 * m) (v : Nat) :
    Memory.inside m (bsWriteBits n bs a v) := by
  induction n generalizing bs a with
  | zero => exact h
  | succ n ih => exact ih (bsSetBit_inside h (by omega) _) (by omega)

theorem holdsBits_append {bs : Memory 8} {a : Nat} {l m : List Bool} :
    holdsBits bs a (l ++ m) = (holdsBits bs a l && holdsBits bs (a + l.length) m) := by
  induction l generalizing a with
  | nil => simp [holdsBits]
  | cons b l ih => simp [holdsBits, ih, Bool.and_assoc, Nat.add_assoc, Nat.add_comm 1]

/-- Two BS that agree on the bits of the list's places hold it alike. -/
theorem holdsBits_congr {bs bs' : Memory 8} {a : Nat} {l : List Bool}
    (h : ∀ x, a ≤ x → x < a + l.length → bsBit bs' x = bsBit bs x) : holdsBits bs' a l = holdsBits bs a l := by
  induction l generalizing a with
  | nil => rfl
  | cons b l ih =>
    simp only [List.length_cons] at h
    simp only [holdsBits]
    rw [h a le_rfl (by omega), ih fun x h1 h2 => h x (by omega) (by omega)]

@[simp] theorem msbBits_length (n v : Nat) : (msbBits n v).length = n := by
  induction n with
  | zero => rfl
  | succ n ih => simp [msbBits, ih]

theorem msbBits_zero (n : Nat) : msbBits n 0 = List.replicate n false := by
  induction n with
  | zero => rfl
  | succ n ih => simp [msbBits, ih, List.replicate_succ]

/-- `WriteBits` stores the bits of the value and changes nothing else (R78). -/
theorem bsWriteBits_stores {bs : Memory 8} (h : Memory.wf bsUnlisted bs) (n a v : Nat) :
    StoresBits bs (bsWriteBits n bs a v) a (msbBits n v) := by
  induction n generalizing bs a with
  | zero => exact ⟨rfl, fun _ _ => rfl, fun _ _ => rfl⟩
  | succ n ih =>
    obtain ⟨h1, h2, h3⟩ := ih (bsSetBit_wf h a (v.testBit n)) (a + 1)
    simp only [msbBits_length] at h2 h3
    refine ⟨?_, ?_, ?_⟩
    · rw [bsWriteBits, msbBits, holdsBits, h1, h2 a (by omega), bsBit_bsSetBit h]
      simp
    · intro b hb
      simp only [msbBits_length] at hb
      rw [bsWriteBits, h2 b (by omega), bsBit_bsSetBit h, if_neg (by omega)]
    · intro x hx
      simp only [msbBits_length] at hx
      rw [bsWriteBits, h3 x (by omega), bsByte_bsSetBit_of_ne h (by omega)]

theorem storesBits_refl (bs : Memory 8) (a : Nat) : StoresBits bs bs a [] := ⟨rfl, fun _ _ => rfl, fun _ _ => rfl⟩

/-- Two stores, one after the other. -/
theorem storesBits_append {bs bs' bs'' : Memory 8} {a : Nat} {l m : List Bool} (h1 : StoresBits bs bs' a l)
    (h2 : StoresBits bs' bs'' (a + l.length) m) : StoresBits bs bs'' a (l ++ m) := by
  refine ⟨?_, ?_, ?_⟩
  · rw [holdsBits_append, h2.stored, Bool.and_true, ← h1.stored]
    exact holdsBits_congr fun x _ hx => h2.bits x (.inl hx)
  · intro b hb
    simp only [List.length_append] at hb
    rw [h2.bits b (by omega), h1.bits b (by omega)]
  · intro x hx
    simp only [List.length_append] at hx
    rw [h2.bytes x (by omega), h1.bytes x (by omega)]

/-- A store leaves what another place holds. -/
theorem storesBits_holdsBits_of_disjoint {bs bs' : Memory 8} {a b : Nat} {l m : List Bool} (h : StoresBits bs bs' a l)
    (hd : b + m.length ≤ a ∨ a + l.length ≤ b) : holdsBits bs' b m = holdsBits bs b m :=
  holdsBits_congr fun x h1 h2 => h.bits x (by omega)

theorem bitsValue_lt (bs : Memory 8) (a n : Nat) : bitsValue bs a n < 2 ^ n := by
  induction n with
  | zero => simp [bitsValue]
  | succ n ih =>
    have := Bool.toNat_lt (bsBit bs (a + n))
    rw [bitsValue, pow_succ]
    omega

/-- `ReadBits` depends on the field's bits only (R77). -/
theorem bitsValue_congr {bs bs' : Memory 8} {a b n : Nat} (h : ∀ i, i < n → bsBit bs' (b + i) = bsBit bs (a + i)) :
    bitsValue bs' b n = bitsValue bs a n := by
  induction n with
  | zero => rfl
  | succ n ih => rw [bitsValue, bitsValue, ih fun i hi => h i (by omega), h n (by omega)]

theorem holdsBits_iff {bs : Memory 8} {a : Nat} {l : List Bool} :
    holdsBits bs a l = true ↔ ∀ i (h : i < l.length), bsBit bs (a + i) = l[i] := by
  induction l generalizing a with
  | nil => simp [holdsBits]
  | cons b l ih =>
    simp only [holdsBits, Bool.and_eq_true, beq_iff_eq, ih]
    constructor
    · rintro ⟨h0, h⟩ i hi
      cases i with
      | zero => simpa using h0
      | succ i => simpa [Nat.add_assoc, Nat.add_comm 1] using h i (by simpa using hi)
    · intro h
      refine ⟨h 0 (Nat.zero_lt_succ _), fun i hi => ?_⟩
      rw [show a + 1 + i = a + (i + 1) by omega]
      exact h (i + 1) (Nat.succ_lt_succ hi)

theorem msbBits_getElem (n v i : Nat) (h : i < (msbBits n v).length) : (msbBits n v)[i] = v.testBit (n - 1 - i) := by
  induction n generalizing i with
  | zero => simp [msbBits] at h
  | succ n ih =>
    cases i with
    | zero => simp [msbBits]
    | succ i =>
      simp only [msbBits, List.getElem_cons_succ]
      rw [ih]
      congr 1
      omega

/-- `ReadBits` of a field that holds a value's bits gives the value (R77). -/
theorem bitsValue_of_holdsBits {bs : Memory 8} {a n v : Nat} (h : holdsBits bs a (msbBits n v) = true) :
    bitsValue bs a n = v % 2 ^ n := by
  rw [holdsBits_iff] at h
  have key : ∀ m, m ≤ n → bitsValue bs a m = v / 2 ^ (n - m) % 2 ^ m := by
    intro m hm
    induction m with
    | zero => simp [bitsValue, Nat.mod_one]
    | succ m ih =>
      rw [bitsValue, ih (by omega)]
      have hb := h m (by simpa using hm)
      rw [msbBits_getElem] at hb
      have e1 : n - m = (n - (m + 1)) + 1 := by omega
      have e2 : n - 1 - m = n - (m + 1) := by omega
      rw [hb, e1, e2, pow_succ, ← Nat.div_div_eq_div_mul, Nat.toNat_testBit]
      generalize v / 2 ^ (n - (m + 1)) = y
      rw [pow_succ, Nat.mul_comm (2 ^ m) 2, Nat.mod_mul]
      omega
  simpa using key n le_rfl

/-- A field holds the bits of the value `ReadBits` gives (R77). -/
theorem holdsBits_bitsValue (bs : Memory 8) (a n : Nat) : holdsBits bs a (msbBits n (bitsValue bs a n)) = true := by
  rw [holdsBits_iff]
  intro i hi
  have hn : i < n := by simpa using hi
  rw [msbBits_getElem]
  have key : ∀ m, i < m → (bitsValue bs a m).testBit (m - 1 - i) = bsBit bs (a + i) := by
    intro m hm
    induction m with
    | zero => omega
    | succ m ih =>
      rw [bitsValue]
      by_cases h : i = m
      · subst h
        have := Bool.toNat_lt (bsBit bs (a + i))
        simp only [Nat.add_sub_cancel, Nat.sub_self, Nat.testBit_zero]
        cases bsBit bs (a + i) <;> simp
      · have e : m + 1 - 1 - i = (m - 1 - i) + 1 := by omega
        rw [e, Nat.testBit_add_one]
        have hb : (2 * bitsValue bs a m + (bsBit bs (a + m)).toNat) / 2 = bitsValue bs a m := by
          have := Bool.toNat_lt (bsBit bs (a + m))
          omega
        rw [hb, ih (by omega)]
  exact (key n hn).symm

/-! ### Zeros -/

/-- No `1` among the `n` bits: the field holds zeros (43_coefficient_coder.md R206). -/
theorem allZero_eq (bs : Memory 8) (a n : Nat) : allZero bs a n = holdsBits bs a (List.replicate n false) := by
  induction n generalizing a with
  | zero => rfl
  | succ n ih =>
    rw [allZero, List.replicate_succ, holdsBits, ih]
    cases bsBit bs a <;> simp

theorem zeroRun_le (bs : Memory 8) (a w : Nat) : zeroRun bs a w ≤ w := by
  induction w generalizing a with
  | zero => simp [zeroRun]
  | succ w ih => rw [zeroRun]; have := ih (a + 1); split <;> omega

/-- The zeros that `zeroRun` counts (41_entropy_coder.md R151 step 3). -/
theorem zeroRun_zeros (bs : Memory 8) (a w : Nat) : holdsBits bs a (List.replicate (zeroRun bs a w) false) = true := by
  induction w generalizing a with
  | zero => rfl
  | succ w ih =>
    rw [zeroRun]
    split
    · rfl
    · rename_i h
      rw [List.replicate_succ, holdsBits, ih]
      simpa using h

/-- The `1` that ends them, when there is one. -/
theorem zeroRun_one {bs : Memory 8} {a w : Nat} (h : zeroRun bs a w < w) : bsBit bs (a + zeroRun bs a w) = true := by
  induction w generalizing a with
  | zero => omega
  | succ w ih =>
    rw [zeroRun] at h ⊢
    split
    · rename_i hb; simpa using hb
    · rename_i hb
      rw [if_neg hb] at h
      have := ih (a := a + 1) (by omega)
      rwa [show a + (zeroRun bs (a + 1) w + 1) = a + 1 + zeroRun bs (a + 1) w by omega]

/-- A prefix of zeros and a `1` inside the window fixes the count. -/
theorem zeroRun_of_prefix {bs : Memory 8} {a w q : Nat} (hq : q < w) (hz : holdsBits bs a (List.replicate q false) = true)
    (h1 : bsBit bs (a + q) = true) : zeroRun bs a w = q := by
  induction w generalizing a q with
  | zero => omega
  | succ w ih =>
    rw [zeroRun]
    cases q with
    | zero => simp_all
    | succ q =>
      rw [List.replicate_succ, holdsBits, Bool.and_eq_true, beq_iff_eq] at hz
      rw [if_neg (by simp [hz.1]), ih (by omega) hz.2 (by rwa [show a + 1 + q = a + (q + 1) by omega])]

/-- A window of zeros fixes the count. -/
theorem zeroRun_of_zeros {bs : Memory 8} {a w : Nat} (hz : holdsBits bs a (List.replicate w false) = true) : zeroRun bs a w = w := by
  induction w generalizing a with
  | zero => rfl
  | succ w ih =>
    rw [List.replicate_succ, holdsBits, Bool.and_eq_true, beq_iff_eq] at hz
    rw [zeroRun, if_neg (by simp [hz.1]), ih hz.2]

end Sys2Proof.Machine
end

