-- ==== Sys2Proof/Laws/State.lean ====
section
/-! SUPPORT. What each named update of `State` leaves in each field (all by definition), and the same for the updates built from them. -/

namespace Sys2Proof.Machine

variable (s : State)

@[simp] theorem State.withHost_cfg (x : List HostAction) : (s.withHost x).cfg = s.cfg := rfl
@[simp] theorem State.withHost_host (x : List HostAction) : (s.withHost x).host = x := rfl
@[simp] theorem State.withHost_status (x : List HostAction) : (s.withHost x).status = s.status := rfl
@[simp] theorem State.withHost_strict (x : List HostAction) : (s.withHost x).strict = s.strict := rfl
@[simp] theorem State.withHost_record (x : List HostAction) : (s.withHost x).record = s.record := rfl
@[simp] theorem State.withHost_val (x : List HostAction) : (s.withHost x).val = s.val := rfl
@[simp] theorem State.withHost_cbd (x : List HostAction) : (s.withHost x).cbd = s.cbd := rfl
@[simp] theorem State.withHost_cur (x : List HostAction) : (s.withHost x).cur = s.cur := rfl
@[simp] theorem State.withHost_plane (x : List HostAction) : (s.withHost x).plane = s.plane := rfl
@[simp] theorem State.withHost_fh (x : List HostAction) : (s.withHost x).fh = s.fh := rfl
@[simp] theorem State.withHost_ph (x : List HostAction) : (s.withHost x).ph = s.ph := rfl
@[simp] theorem State.withHost_sched (x : List HostAction) : (s.withHost x).sched = s.sched := rfl
@[simp] theorem State.withHost_slice (x : List HostAction) : (s.withHost x).slice = s.slice := rfl
@[simp] theorem State.withHost_ctx (x : List HostAction) : (s.withHost x).ctx = s.ctx := rfl
@[simp] theorem State.withHost_bs (x : List HostAction) : (s.withHost x).bs = s.bs := rfl
@[simp] theorem State.withHost_coef (x : List HostAction) : (s.withHost x).coef = s.coef := rfl
@[simp] theorem State.withHost_qm (x : List HostAction) : (s.withHost x).qm = s.qm := rfl
@[simp] theorem State.withHost_qms (x : List HostAction) : (s.withHost x).qms = s.qms := rfl
@[simp] theorem State.withHost_sst (x : List HostAction) : (s.withHost x).sst = s.sst := rfl

@[simp] theorem State.withStatus_cfg (x : Status) : (s.withStatus x).cfg = s.cfg := rfl
@[simp] theorem State.withStatus_host (x : Status) : (s.withStatus x).host = s.host := rfl
@[simp] theorem State.withStatus_status (x : Status) : (s.withStatus x).status = x := rfl
@[simp] theorem State.withStatus_strict (x : Status) : (s.withStatus x).strict = s.strict := rfl
@[simp] theorem State.withStatus_record (x : Status) : (s.withStatus x).record = s.record := rfl
@[simp] theorem State.withStatus_val (x : Status) : (s.withStatus x).val = s.val := rfl
@[simp] theorem State.withStatus_cbd (x : Status) : (s.withStatus x).cbd = s.cbd := rfl
@[simp] theorem State.withStatus_cur (x : Status) : (s.withStatus x).cur = s.cur := rfl
@[simp] theorem State.withStatus_plane (x : Status) : (s.withStatus x).plane = s.plane := rfl
@[simp] theorem State.withStatus_fh (x : Status) : (s.withStatus x).fh = s.fh := rfl
@[simp] theorem State.withStatus_ph (x : Status) : (s.withStatus x).ph = s.ph := rfl
@[simp] theorem State.withStatus_sched (x : Status) : (s.withStatus x).sched = s.sched := rfl
@[simp] theorem State.withStatus_slice (x : Status) : (s.withStatus x).slice = s.slice := rfl
@[simp] theorem State.withStatus_ctx (x : Status) : (s.withStatus x).ctx = s.ctx := rfl
@[simp] theorem State.withStatus_bs (x : Status) : (s.withStatus x).bs = s.bs := rfl
@[simp] theorem State.withStatus_coef (x : Status) : (s.withStatus x).coef = s.coef := rfl
@[simp] theorem State.withStatus_qm (x : Status) : (s.withStatus x).qm = s.qm := rfl
@[simp] theorem State.withStatus_qms (x : Status) : (s.withStatus x).qms = s.qms := rfl
@[simp] theorem State.withStatus_sst (x : Status) : (s.withStatus x).sst = s.sst := rfl

@[simp] theorem State.withStrict_cfg (x : Bool) : (s.withStrict x).cfg = s.cfg := rfl
@[simp] theorem State.withStrict_host (x : Bool) : (s.withStrict x).host = s.host := rfl
@[simp] theorem State.withStrict_status (x : Bool) : (s.withStrict x).status = s.status := rfl
@[simp] theorem State.withStrict_strict (x : Bool) : (s.withStrict x).strict = x := rfl
@[simp] theorem State.withStrict_record (x : Bool) : (s.withStrict x).record = s.record := rfl
@[simp] theorem State.withStrict_val (x : Bool) : (s.withStrict x).val = s.val := rfl
@[simp] theorem State.withStrict_cbd (x : Bool) : (s.withStrict x).cbd = s.cbd := rfl
@[simp] theorem State.withStrict_cur (x : Bool) : (s.withStrict x).cur = s.cur := rfl
@[simp] theorem State.withStrict_plane (x : Bool) : (s.withStrict x).plane = s.plane := rfl
@[simp] theorem State.withStrict_fh (x : Bool) : (s.withStrict x).fh = s.fh := rfl
@[simp] theorem State.withStrict_ph (x : Bool) : (s.withStrict x).ph = s.ph := rfl
@[simp] theorem State.withStrict_sched (x : Bool) : (s.withStrict x).sched = s.sched := rfl
@[simp] theorem State.withStrict_slice (x : Bool) : (s.withStrict x).slice = s.slice := rfl
@[simp] theorem State.withStrict_ctx (x : Bool) : (s.withStrict x).ctx = s.ctx := rfl
@[simp] theorem State.withStrict_bs (x : Bool) : (s.withStrict x).bs = s.bs := rfl
@[simp] theorem State.withStrict_coef (x : Bool) : (s.withStrict x).coef = s.coef := rfl
@[simp] theorem State.withStrict_qm (x : Bool) : (s.withStrict x).qm = s.qm := rfl
@[simp] theorem State.withStrict_qms (x : Bool) : (s.withStrict x).qms = s.qms := rfl
@[simp] theorem State.withStrict_sst (x : Bool) : (s.withStrict x).sst = s.sst := rfl

@[simp] theorem State.withRecord_cfg (x : FaultRecord) : (s.withRecord x).cfg = s.cfg := rfl
@[simp] theorem State.withRecord_host (x : FaultRecord) : (s.withRecord x).host = s.host := rfl
@[simp] theorem State.withRecord_status (x : FaultRecord) : (s.withRecord x).status = s.status := rfl
@[simp] theorem State.withRecord_strict (x : FaultRecord) : (s.withRecord x).strict = s.strict := rfl
@[simp] theorem State.withRecord_record (x : FaultRecord) : (s.withRecord x).record = x := rfl
@[simp] theorem State.withRecord_val (x : FaultRecord) : (s.withRecord x).val = s.val := rfl
@[simp] theorem State.withRecord_cbd (x : FaultRecord) : (s.withRecord x).cbd = s.cbd := rfl
@[simp] theorem State.withRecord_cur (x : FaultRecord) : (s.withRecord x).cur = s.cur := rfl
@[simp] theorem State.withRecord_plane (x : FaultRecord) : (s.withRecord x).plane = s.plane := rfl
@[simp] theorem State.withRecord_fh (x : FaultRecord) : (s.withRecord x).fh = s.fh := rfl
@[simp] theorem State.withRecord_ph (x : FaultRecord) : (s.withRecord x).ph = s.ph := rfl
@[simp] theorem State.withRecord_sched (x : FaultRecord) : (s.withRecord x).sched = s.sched := rfl
@[simp] theorem State.withRecord_slice (x : FaultRecord) : (s.withRecord x).slice = s.slice := rfl
@[simp] theorem State.withRecord_ctx (x : FaultRecord) : (s.withRecord x).ctx = s.ctx := rfl
@[simp] theorem State.withRecord_bs (x : FaultRecord) : (s.withRecord x).bs = s.bs := rfl
@[simp] theorem State.withRecord_coef (x : FaultRecord) : (s.withRecord x).coef = s.coef := rfl
@[simp] theorem State.withRecord_qm (x : FaultRecord) : (s.withRecord x).qm = s.qm := rfl
@[simp] theorem State.withRecord_qms (x : FaultRecord) : (s.withRecord x).qms = s.qms := rfl
@[simp] theorem State.withRecord_sst (x : FaultRecord) : (s.withRecord x).sst = s.sst := rfl

@[simp] theorem State.withVal_cfg (x : Word) : (s.withVal x).cfg = s.cfg := rfl
@[simp] theorem State.withVal_host (x : Word) : (s.withVal x).host = s.host := rfl
@[simp] theorem State.withVal_status (x : Word) : (s.withVal x).status = s.status := rfl
@[simp] theorem State.withVal_strict (x : Word) : (s.withVal x).strict = s.strict := rfl
@[simp] theorem State.withVal_record (x : Word) : (s.withVal x).record = s.record := rfl
@[simp] theorem State.withVal_val (x : Word) : (s.withVal x).val = x := rfl
@[simp] theorem State.withVal_cbd (x : Word) : (s.withVal x).cbd = s.cbd := rfl
@[simp] theorem State.withVal_cur (x : Word) : (s.withVal x).cur = s.cur := rfl
@[simp] theorem State.withVal_plane (x : Word) : (s.withVal x).plane = s.plane := rfl
@[simp] theorem State.withVal_fh (x : Word) : (s.withVal x).fh = s.fh := rfl
@[simp] theorem State.withVal_ph (x : Word) : (s.withVal x).ph = s.ph := rfl
@[simp] theorem State.withVal_sched (x : Word) : (s.withVal x).sched = s.sched := rfl
@[simp] theorem State.withVal_slice (x : Word) : (s.withVal x).slice = s.slice := rfl
@[simp] theorem State.withVal_ctx (x : Word) : (s.withVal x).ctx = s.ctx := rfl
@[simp] theorem State.withVal_bs (x : Word) : (s.withVal x).bs = s.bs := rfl
@[simp] theorem State.withVal_coef (x : Word) : (s.withVal x).coef = s.coef := rfl
@[simp] theorem State.withVal_qm (x : Word) : (s.withVal x).qm = s.qm := rfl
@[simp] theorem State.withVal_qms (x : Word) : (s.withVal x).qms = s.qms := rfl
@[simp] theorem State.withVal_sst (x : Word) : (s.withVal x).sst = s.sst := rfl

@[simp] theorem State.withCbd_cfg (x : BitVec 12) : (s.withCbd x).cfg = s.cfg := rfl
@[simp] theorem State.withCbd_host (x : BitVec 12) : (s.withCbd x).host = s.host := rfl
@[simp] theorem State.withCbd_status (x : BitVec 12) : (s.withCbd x).status = s.status := rfl
@[simp] theorem State.withCbd_strict (x : BitVec 12) : (s.withCbd x).strict = s.strict := rfl
@[simp] theorem State.withCbd_record (x : BitVec 12) : (s.withCbd x).record = s.record := rfl
@[simp] theorem State.withCbd_val (x : BitVec 12) : (s.withCbd x).val = s.val := rfl
@[simp] theorem State.withCbd_cbd (x : BitVec 12) : (s.withCbd x).cbd = x := rfl
@[simp] theorem State.withCbd_cur (x : BitVec 12) : (s.withCbd x).cur = s.cur := rfl
@[simp] theorem State.withCbd_plane (x : BitVec 12) : (s.withCbd x).plane = s.plane := rfl
@[simp] theorem State.withCbd_fh (x : BitVec 12) : (s.withCbd x).fh = s.fh := rfl
@[simp] theorem State.withCbd_ph (x : BitVec 12) : (s.withCbd x).ph = s.ph := rfl
@[simp] theorem State.withCbd_sched (x : BitVec 12) : (s.withCbd x).sched = s.sched := rfl
@[simp] theorem State.withCbd_slice (x : BitVec 12) : (s.withCbd x).slice = s.slice := rfl
@[simp] theorem State.withCbd_ctx (x : BitVec 12) : (s.withCbd x).ctx = s.ctx := rfl
@[simp] theorem State.withCbd_bs (x : BitVec 12) : (s.withCbd x).bs = s.bs := rfl
@[simp] theorem State.withCbd_coef (x : BitVec 12) : (s.withCbd x).coef = s.coef := rfl
@[simp] theorem State.withCbd_qm (x : BitVec 12) : (s.withCbd x).qm = s.qm := rfl
@[simp] theorem State.withCbd_qms (x : BitVec 12) : (s.withCbd x).qms = s.qms := rfl
@[simp] theorem State.withCbd_sst (x : BitVec 12) : (s.withCbd x).sst = s.sst := rfl

@[simp] theorem State.withCur_cfg (x : Cursors) : (s.withCur x).cfg = s.cfg := rfl
@[simp] theorem State.withCur_host (x : Cursors) : (s.withCur x).host = s.host := rfl
@[simp] theorem State.withCur_status (x : Cursors) : (s.withCur x).status = s.status := rfl
@[simp] theorem State.withCur_strict (x : Cursors) : (s.withCur x).strict = s.strict := rfl
@[simp] theorem State.withCur_record (x : Cursors) : (s.withCur x).record = s.record := rfl
@[simp] theorem State.withCur_val (x : Cursors) : (s.withCur x).val = s.val := rfl
@[simp] theorem State.withCur_cbd (x : Cursors) : (s.withCur x).cbd = s.cbd := rfl
@[simp] theorem State.withCur_cur (x : Cursors) : (s.withCur x).cur = x := rfl
@[simp] theorem State.withCur_plane (x : Cursors) : (s.withCur x).plane = s.plane := rfl
@[simp] theorem State.withCur_fh (x : Cursors) : (s.withCur x).fh = s.fh := rfl
@[simp] theorem State.withCur_ph (x : Cursors) : (s.withCur x).ph = s.ph := rfl
@[simp] theorem State.withCur_sched (x : Cursors) : (s.withCur x).sched = s.sched := rfl
@[simp] theorem State.withCur_slice (x : Cursors) : (s.withCur x).slice = s.slice := rfl
@[simp] theorem State.withCur_ctx (x : Cursors) : (s.withCur x).ctx = s.ctx := rfl
@[simp] theorem State.withCur_bs (x : Cursors) : (s.withCur x).bs = s.bs := rfl
@[simp] theorem State.withCur_coef (x : Cursors) : (s.withCur x).coef = s.coef := rfl
@[simp] theorem State.withCur_qm (x : Cursors) : (s.withCur x).qm = s.qm := rfl
@[simp] theorem State.withCur_qms (x : Cursors) : (s.withCur x).qms = s.qms := rfl
@[simp] theorem State.withCur_sst (x : Cursors) : (s.withCur x).sst = s.sst := rfl

@[simp] theorem State.withPlane_cfg (x : PlaneConfig) : (s.withPlane x).cfg = s.cfg := rfl
@[simp] theorem State.withPlane_host (x : PlaneConfig) : (s.withPlane x).host = s.host := rfl
@[simp] theorem State.withPlane_status (x : PlaneConfig) : (s.withPlane x).status = s.status := rfl
@[simp] theorem State.withPlane_strict (x : PlaneConfig) : (s.withPlane x).strict = s.strict := rfl
@[simp] theorem State.withPlane_record (x : PlaneConfig) : (s.withPlane x).record = s.record := rfl
@[simp] theorem State.withPlane_val (x : PlaneConfig) : (s.withPlane x).val = s.val := rfl
@[simp] theorem State.withPlane_cbd (x : PlaneConfig) : (s.withPlane x).cbd = s.cbd := rfl
@[simp] theorem State.withPlane_cur (x : PlaneConfig) : (s.withPlane x).cur = s.cur := rfl
@[simp] theorem State.withPlane_plane (x : PlaneConfig) : (s.withPlane x).plane = x := rfl
@[simp] theorem State.withPlane_fh (x : PlaneConfig) : (s.withPlane x).fh = s.fh := rfl
@[simp] theorem State.withPlane_ph (x : PlaneConfig) : (s.withPlane x).ph = s.ph := rfl
@[simp] theorem State.withPlane_sched (x : PlaneConfig) : (s.withPlane x).sched = s.sched := rfl
@[simp] theorem State.withPlane_slice (x : PlaneConfig) : (s.withPlane x).slice = s.slice := rfl
@[simp] theorem State.withPlane_ctx (x : PlaneConfig) : (s.withPlane x).ctx = s.ctx := rfl
@[simp] theorem State.withPlane_bs (x : PlaneConfig) : (s.withPlane x).bs = s.bs := rfl
@[simp] theorem State.withPlane_coef (x : PlaneConfig) : (s.withPlane x).coef = s.coef := rfl
@[simp] theorem State.withPlane_qm (x : PlaneConfig) : (s.withPlane x).qm = s.qm := rfl
@[simp] theorem State.withPlane_qms (x : PlaneConfig) : (s.withPlane x).qms = s.qms := rfl
@[simp] theorem State.withPlane_sst (x : PlaneConfig) : (s.withPlane x).sst = s.sst := rfl

@[simp] theorem State.withFh_cfg (x : FrameHeader) : (s.withFh x).cfg = s.cfg := rfl
@[simp] theorem State.withFh_host (x : FrameHeader) : (s.withFh x).host = s.host := rfl
@[simp] theorem State.withFh_status (x : FrameHeader) : (s.withFh x).status = s.status := rfl
@[simp] theorem State.withFh_strict (x : FrameHeader) : (s.withFh x).strict = s.strict := rfl
@[simp] theorem State.withFh_record (x : FrameHeader) : (s.withFh x).record = s.record := rfl
@[simp] theorem State.withFh_val (x : FrameHeader) : (s.withFh x).val = s.val := rfl
@[simp] theorem State.withFh_cbd (x : FrameHeader) : (s.withFh x).cbd = s.cbd := rfl
@[simp] theorem State.withFh_cur (x : FrameHeader) : (s.withFh x).cur = s.cur := rfl
@[simp] theorem State.withFh_plane (x : FrameHeader) : (s.withFh x).plane = s.plane := rfl
@[simp] theorem State.withFh_fh (x : FrameHeader) : (s.withFh x).fh = x := rfl
@[simp] theorem State.withFh_ph (x : FrameHeader) : (s.withFh x).ph = s.ph := rfl
@[simp] theorem State.withFh_sched (x : FrameHeader) : (s.withFh x).sched = s.sched := rfl
@[simp] theorem State.withFh_slice (x : FrameHeader) : (s.withFh x).slice = s.slice := rfl
@[simp] theorem State.withFh_ctx (x : FrameHeader) : (s.withFh x).ctx = s.ctx := rfl
@[simp] theorem State.withFh_bs (x : FrameHeader) : (s.withFh x).bs = s.bs := rfl
@[simp] theorem State.withFh_coef (x : FrameHeader) : (s.withFh x).coef = s.coef := rfl
@[simp] theorem State.withFh_qm (x : FrameHeader) : (s.withFh x).qm = s.qm := rfl
@[simp] theorem State.withFh_qms (x : FrameHeader) : (s.withFh x).qms = s.qms := rfl
@[simp] theorem State.withFh_sst (x : FrameHeader) : (s.withFh x).sst = s.sst := rfl

@[simp] theorem State.withPh_cfg (x : PictureHeader) : (s.withPh x).cfg = s.cfg := rfl
@[simp] theorem State.withPh_host (x : PictureHeader) : (s.withPh x).host = s.host := rfl
@[simp] theorem State.withPh_status (x : PictureHeader) : (s.withPh x).status = s.status := rfl
@[simp] theorem State.withPh_strict (x : PictureHeader) : (s.withPh x).strict = s.strict := rfl
@[simp] theorem State.withPh_record (x : PictureHeader) : (s.withPh x).record = s.record := rfl
@[simp] theorem State.withPh_val (x : PictureHeader) : (s.withPh x).val = s.val := rfl
@[simp] theorem State.withPh_cbd (x : PictureHeader) : (s.withPh x).cbd = s.cbd := rfl
@[simp] theorem State.withPh_cur (x : PictureHeader) : (s.withPh x).cur = s.cur := rfl
@[simp] theorem State.withPh_plane (x : PictureHeader) : (s.withPh x).plane = s.plane := rfl
@[simp] theorem State.withPh_fh (x : PictureHeader) : (s.withPh x).fh = s.fh := rfl
@[simp] theorem State.withPh_ph (x : PictureHeader) : (s.withPh x).ph = x := rfl
@[simp] theorem State.withPh_sched (x : PictureHeader) : (s.withPh x).sched = s.sched := rfl
@[simp] theorem State.withPh_slice (x : PictureHeader) : (s.withPh x).slice = s.slice := rfl
@[simp] theorem State.withPh_ctx (x : PictureHeader) : (s.withPh x).ctx = s.ctx := rfl
@[simp] theorem State.withPh_bs (x : PictureHeader) : (s.withPh x).bs = s.bs := rfl
@[simp] theorem State.withPh_coef (x : PictureHeader) : (s.withPh x).coef = s.coef := rfl
@[simp] theorem State.withPh_qm (x : PictureHeader) : (s.withPh x).qm = s.qm := rfl
@[simp] theorem State.withPh_qms (x : PictureHeader) : (s.withPh x).qms = s.qms := rfl
@[simp] theorem State.withPh_sst (x : PictureHeader) : (s.withPh x).sst = s.sst := rfl

@[simp] theorem State.withSched_cfg (x : Schedule) : (s.withSched x).cfg = s.cfg := rfl
@[simp] theorem State.withSched_host (x : Schedule) : (s.withSched x).host = s.host := rfl
@[simp] theorem State.withSched_status (x : Schedule) : (s.withSched x).status = s.status := rfl
@[simp] theorem State.withSched_strict (x : Schedule) : (s.withSched x).strict = s.strict := rfl
@[simp] theorem State.withSched_record (x : Schedule) : (s.withSched x).record = s.record := rfl
@[simp] theorem State.withSched_val (x : Schedule) : (s.withSched x).val = s.val := rfl
@[simp] theorem State.withSched_cbd (x : Schedule) : (s.withSched x).cbd = s.cbd := rfl
@[simp] theorem State.withSched_cur (x : Schedule) : (s.withSched x).cur = s.cur := rfl
@[simp] theorem State.withSched_plane (x : Schedule) : (s.withSched x).plane = s.plane := rfl
@[simp] theorem State.withSched_fh (x : Schedule) : (s.withSched x).fh = s.fh := rfl
@[simp] theorem State.withSched_ph (x : Schedule) : (s.withSched x).ph = s.ph := rfl
@[simp] theorem State.withSched_sched (x : Schedule) : (s.withSched x).sched = x := rfl
@[simp] theorem State.withSched_slice (x : Schedule) : (s.withSched x).slice = s.slice := rfl
@[simp] theorem State.withSched_ctx (x : Schedule) : (s.withSched x).ctx = s.ctx := rfl
@[simp] theorem State.withSched_bs (x : Schedule) : (s.withSched x).bs = s.bs := rfl
@[simp] theorem State.withSched_coef (x : Schedule) : (s.withSched x).coef = s.coef := rfl
@[simp] theorem State.withSched_qm (x : Schedule) : (s.withSched x).qm = s.qm := rfl
@[simp] theorem State.withSched_qms (x : Schedule) : (s.withSched x).qms = s.qms := rfl
@[simp] theorem State.withSched_sst (x : Schedule) : (s.withSched x).sst = s.sst := rfl

@[simp] theorem State.withSlice_cfg (x : Slice) : (s.withSlice x).cfg = s.cfg := rfl
@[simp] theorem State.withSlice_host (x : Slice) : (s.withSlice x).host = s.host := rfl
@[simp] theorem State.withSlice_status (x : Slice) : (s.withSlice x).status = s.status := rfl
@[simp] theorem State.withSlice_strict (x : Slice) : (s.withSlice x).strict = s.strict := rfl
@[simp] theorem State.withSlice_record (x : Slice) : (s.withSlice x).record = s.record := rfl
@[simp] theorem State.withSlice_val (x : Slice) : (s.withSlice x).val = s.val := rfl
@[simp] theorem State.withSlice_cbd (x : Slice) : (s.withSlice x).cbd = s.cbd := rfl
@[simp] theorem State.withSlice_cur (x : Slice) : (s.withSlice x).cur = s.cur := rfl
@[simp] theorem State.withSlice_plane (x : Slice) : (s.withSlice x).plane = s.plane := rfl
@[simp] theorem State.withSlice_fh (x : Slice) : (s.withSlice x).fh = s.fh := rfl
@[simp] theorem State.withSlice_ph (x : Slice) : (s.withSlice x).ph = s.ph := rfl
@[simp] theorem State.withSlice_sched (x : Slice) : (s.withSlice x).sched = s.sched := rfl
@[simp] theorem State.withSlice_slice (x : Slice) : (s.withSlice x).slice = x := rfl
@[simp] theorem State.withSlice_ctx (x : Slice) : (s.withSlice x).ctx = s.ctx := rfl
@[simp] theorem State.withSlice_bs (x : Slice) : (s.withSlice x).bs = s.bs := rfl
@[simp] theorem State.withSlice_coef (x : Slice) : (s.withSlice x).coef = s.coef := rfl
@[simp] theorem State.withSlice_qm (x : Slice) : (s.withSlice x).qm = s.qm := rfl
@[simp] theorem State.withSlice_qms (x : Slice) : (s.withSlice x).qms = s.qms := rfl
@[simp] theorem State.withSlice_sst (x : Slice) : (s.withSlice x).sst = s.sst := rfl

@[simp] theorem State.withCtx_cfg (x : CoderContext) : (s.withCtx x).cfg = s.cfg := rfl
@[simp] theorem State.withCtx_host (x : CoderContext) : (s.withCtx x).host = s.host := rfl
@[simp] theorem State.withCtx_status (x : CoderContext) : (s.withCtx x).status = s.status := rfl
@[simp] theorem State.withCtx_strict (x : CoderContext) : (s.withCtx x).strict = s.strict := rfl
@[simp] theorem State.withCtx_record (x : CoderContext) : (s.withCtx x).record = s.record := rfl
@[simp] theorem State.withCtx_val (x : CoderContext) : (s.withCtx x).val = s.val := rfl
@[simp] theorem State.withCtx_cbd (x : CoderContext) : (s.withCtx x).cbd = s.cbd := rfl
@[simp] theorem State.withCtx_cur (x : CoderContext) : (s.withCtx x).cur = s.cur := rfl
@[simp] theorem State.withCtx_plane (x : CoderContext) : (s.withCtx x).plane = s.plane := rfl
@[simp] theorem State.withCtx_fh (x : CoderContext) : (s.withCtx x).fh = s.fh := rfl
@[simp] theorem State.withCtx_ph (x : CoderContext) : (s.withCtx x).ph = s.ph := rfl
@[simp] theorem State.withCtx_sched (x : CoderContext) : (s.withCtx x).sched = s.sched := rfl
@[simp] theorem State.withCtx_slice (x : CoderContext) : (s.withCtx x).slice = s.slice := rfl
@[simp] theorem State.withCtx_ctx (x : CoderContext) : (s.withCtx x).ctx = x := rfl
@[simp] theorem State.withCtx_bs (x : CoderContext) : (s.withCtx x).bs = s.bs := rfl
@[simp] theorem State.withCtx_coef (x : CoderContext) : (s.withCtx x).coef = s.coef := rfl
@[simp] theorem State.withCtx_qm (x : CoderContext) : (s.withCtx x).qm = s.qm := rfl
@[simp] theorem State.withCtx_qms (x : CoderContext) : (s.withCtx x).qms = s.qms := rfl
@[simp] theorem State.withCtx_sst (x : CoderContext) : (s.withCtx x).sst = s.sst := rfl

@[simp] theorem State.withBs_cfg (x : Memory 8) : (s.withBs x).cfg = s.cfg := rfl
@[simp] theorem State.withBs_host (x : Memory 8) : (s.withBs x).host = s.host := rfl
@[simp] theorem State.withBs_status (x : Memory 8) : (s.withBs x).status = s.status := rfl
@[simp] theorem State.withBs_strict (x : Memory 8) : (s.withBs x).strict = s.strict := rfl
@[simp] theorem State.withBs_record (x : Memory 8) : (s.withBs x).record = s.record := rfl
@[simp] theorem State.withBs_val (x : Memory 8) : (s.withBs x).val = s.val := rfl
@[simp] theorem State.withBs_cbd (x : Memory 8) : (s.withBs x).cbd = s.cbd := rfl
@[simp] theorem State.withBs_cur (x : Memory 8) : (s.withBs x).cur = s.cur := rfl
@[simp] theorem State.withBs_plane (x : Memory 8) : (s.withBs x).plane = s.plane := rfl
@[simp] theorem State.withBs_fh (x : Memory 8) : (s.withBs x).fh = s.fh := rfl
@[simp] theorem State.withBs_ph (x : Memory 8) : (s.withBs x).ph = s.ph := rfl
@[simp] theorem State.withBs_sched (x : Memory 8) : (s.withBs x).sched = s.sched := rfl
@[simp] theorem State.withBs_slice (x : Memory 8) : (s.withBs x).slice = s.slice := rfl
@[simp] theorem State.withBs_ctx (x : Memory 8) : (s.withBs x).ctx = s.ctx := rfl
@[simp] theorem State.withBs_bs (x : Memory 8) : (s.withBs x).bs = x := rfl
@[simp] theorem State.withBs_coef (x : Memory 8) : (s.withBs x).coef = s.coef := rfl
@[simp] theorem State.withBs_qm (x : Memory 8) : (s.withBs x).qm = s.qm := rfl
@[simp] theorem State.withBs_qms (x : Memory 8) : (s.withBs x).qms = s.qms := rfl
@[simp] theorem State.withBs_sst (x : Memory 8) : (s.withBs x).sst = s.sst := rfl

@[simp] theorem State.withCoef_cfg (x : Memory 32) : (s.withCoef x).cfg = s.cfg := rfl
@[simp] theorem State.withCoef_host (x : Memory 32) : (s.withCoef x).host = s.host := rfl
@[simp] theorem State.withCoef_status (x : Memory 32) : (s.withCoef x).status = s.status := rfl
@[simp] theorem State.withCoef_strict (x : Memory 32) : (s.withCoef x).strict = s.strict := rfl
@[simp] theorem State.withCoef_record (x : Memory 32) : (s.withCoef x).record = s.record := rfl
@[simp] theorem State.withCoef_val (x : Memory 32) : (s.withCoef x).val = s.val := rfl
@[simp] theorem State.withCoef_cbd (x : Memory 32) : (s.withCoef x).cbd = s.cbd := rfl
@[simp] theorem State.withCoef_cur (x : Memory 32) : (s.withCoef x).cur = s.cur := rfl
@[simp] theorem State.withCoef_plane (x : Memory 32) : (s.withCoef x).plane = s.plane := rfl
@[simp] theorem State.withCoef_fh (x : Memory 32) : (s.withCoef x).fh = s.fh := rfl
@[simp] theorem State.withCoef_ph (x : Memory 32) : (s.withCoef x).ph = s.ph := rfl
@[simp] theorem State.withCoef_sched (x : Memory 32) : (s.withCoef x).sched = s.sched := rfl
@[simp] theorem State.withCoef_slice (x : Memory 32) : (s.withCoef x).slice = s.slice := rfl
@[simp] theorem State.withCoef_ctx (x : Memory 32) : (s.withCoef x).ctx = s.ctx := rfl
@[simp] theorem State.withCoef_bs (x : Memory 32) : (s.withCoef x).bs = s.bs := rfl
@[simp] theorem State.withCoef_coef (x : Memory 32) : (s.withCoef x).coef = x := rfl
@[simp] theorem State.withCoef_qm (x : Memory 32) : (s.withCoef x).qm = s.qm := rfl
@[simp] theorem State.withCoef_qms (x : Memory 32) : (s.withCoef x).qms = s.qms := rfl
@[simp] theorem State.withCoef_sst (x : Memory 32) : (s.withCoef x).sst = s.sst := rfl

@[simp] theorem State.withQm_cfg (x : Memory 8) : (s.withQm x).cfg = s.cfg := rfl
@[simp] theorem State.withQm_host (x : Memory 8) : (s.withQm x).host = s.host := rfl
@[simp] theorem State.withQm_status (x : Memory 8) : (s.withQm x).status = s.status := rfl
@[simp] theorem State.withQm_strict (x : Memory 8) : (s.withQm x).strict = s.strict := rfl
@[simp] theorem State.withQm_record (x : Memory 8) : (s.withQm x).record = s.record := rfl
@[simp] theorem State.withQm_val (x : Memory 8) : (s.withQm x).val = s.val := rfl
@[simp] theorem State.withQm_cbd (x : Memory 8) : (s.withQm x).cbd = s.cbd := rfl
@[simp] theorem State.withQm_cur (x : Memory 8) : (s.withQm x).cur = s.cur := rfl
@[simp] theorem State.withQm_plane (x : Memory 8) : (s.withQm x).plane = s.plane := rfl
@[simp] theorem State.withQm_fh (x : Memory 8) : (s.withQm x).fh = s.fh := rfl
@[simp] theorem State.withQm_ph (x : Memory 8) : (s.withQm x).ph = s.ph := rfl
@[simp] theorem State.withQm_sched (x : Memory 8) : (s.withQm x).sched = s.sched := rfl
@[simp] theorem State.withQm_slice (x : Memory 8) : (s.withQm x).slice = s.slice := rfl
@[simp] theorem State.withQm_ctx (x : Memory 8) : (s.withQm x).ctx = s.ctx := rfl
@[simp] theorem State.withQm_bs (x : Memory 8) : (s.withQm x).bs = s.bs := rfl
@[simp] theorem State.withQm_coef (x : Memory 8) : (s.withQm x).coef = s.coef := rfl
@[simp] theorem State.withQm_qm (x : Memory 8) : (s.withQm x).qm = x := rfl
@[simp] theorem State.withQm_qms (x : Memory 8) : (s.withQm x).qms = s.qms := rfl
@[simp] theorem State.withQm_sst (x : Memory 8) : (s.withQm x).sst = s.sst := rfl

@[simp] theorem State.withQms_cfg (x : Memory 32) : (s.withQms x).cfg = s.cfg := rfl
@[simp] theorem State.withQms_host (x : Memory 32) : (s.withQms x).host = s.host := rfl
@[simp] theorem State.withQms_status (x : Memory 32) : (s.withQms x).status = s.status := rfl
@[simp] theorem State.withQms_strict (x : Memory 32) : (s.withQms x).strict = s.strict := rfl
@[simp] theorem State.withQms_record (x : Memory 32) : (s.withQms x).record = s.record := rfl
@[simp] theorem State.withQms_val (x : Memory 32) : (s.withQms x).val = s.val := rfl
@[simp] theorem State.withQms_cbd (x : Memory 32) : (s.withQms x).cbd = s.cbd := rfl
@[simp] theorem State.withQms_cur (x : Memory 32) : (s.withQms x).cur = s.cur := rfl
@[simp] theorem State.withQms_plane (x : Memory 32) : (s.withQms x).plane = s.plane := rfl
@[simp] theorem State.withQms_fh (x : Memory 32) : (s.withQms x).fh = s.fh := rfl
@[simp] theorem State.withQms_ph (x : Memory 32) : (s.withQms x).ph = s.ph := rfl
@[simp] theorem State.withQms_sched (x : Memory 32) : (s.withQms x).sched = s.sched := rfl
@[simp] theorem State.withQms_slice (x : Memory 32) : (s.withQms x).slice = s.slice := rfl
@[simp] theorem State.withQms_ctx (x : Memory 32) : (s.withQms x).ctx = s.ctx := rfl
@[simp] theorem State.withQms_bs (x : Memory 32) : (s.withQms x).bs = s.bs := rfl
@[simp] theorem State.withQms_coef (x : Memory 32) : (s.withQms x).coef = s.coef := rfl
@[simp] theorem State.withQms_qm (x : Memory 32) : (s.withQms x).qm = s.qm := rfl
@[simp] theorem State.withQms_qms (x : Memory 32) : (s.withQms x).qms = x := rfl
@[simp] theorem State.withQms_sst (x : Memory 32) : (s.withQms x).sst = s.sst := rfl

@[simp] theorem State.withSst_cfg (x : Memory 16) : (s.withSst x).cfg = s.cfg := rfl
@[simp] theorem State.withSst_host (x : Memory 16) : (s.withSst x).host = s.host := rfl
@[simp] theorem State.withSst_status (x : Memory 16) : (s.withSst x).status = s.status := rfl
@[simp] theorem State.withSst_strict (x : Memory 16) : (s.withSst x).strict = s.strict := rfl
@[simp] theorem State.withSst_record (x : Memory 16) : (s.withSst x).record = s.record := rfl
@[simp] theorem State.withSst_val (x : Memory 16) : (s.withSst x).val = s.val := rfl
@[simp] theorem State.withSst_cbd (x : Memory 16) : (s.withSst x).cbd = s.cbd := rfl
@[simp] theorem State.withSst_cur (x : Memory 16) : (s.withSst x).cur = s.cur := rfl
@[simp] theorem State.withSst_plane (x : Memory 16) : (s.withSst x).plane = s.plane := rfl
@[simp] theorem State.withSst_fh (x : Memory 16) : (s.withSst x).fh = s.fh := rfl
@[simp] theorem State.withSst_ph (x : Memory 16) : (s.withSst x).ph = s.ph := rfl
@[simp] theorem State.withSst_sched (x : Memory 16) : (s.withSst x).sched = s.sched := rfl
@[simp] theorem State.withSst_slice (x : Memory 16) : (s.withSst x).slice = s.slice := rfl
@[simp] theorem State.withSst_ctx (x : Memory 16) : (s.withSst x).ctx = s.ctx := rfl
@[simp] theorem State.withSst_bs (x : Memory 16) : (s.withSst x).bs = s.bs := rfl
@[simp] theorem State.withSst_coef (x : Memory 16) : (s.withSst x).coef = s.coef := rfl
@[simp] theorem State.withSst_qm (x : Memory 16) : (s.withSst x).qm = s.qm := rfl
@[simp] theorem State.withSst_qms (x : Memory 16) : (s.withSst x).qms = s.qms := rfl
@[simp] theorem State.withSst_sst (x : Memory 16) : (s.withSst x).sst = x := rfl

/-! The flag updates change `STATUS` only. -/

@[simp] theorem State.setHalt_cfg : s.setHalt.cfg = s.cfg := rfl
@[simp] theorem State.setHalt_host : s.setHalt.host = s.host := rfl
@[simp] theorem State.setHalt_strict : s.setHalt.strict = s.strict := rfl
@[simp] theorem State.setHalt_record : s.setHalt.record = s.record := rfl
@[simp] theorem State.setHalt_val : s.setHalt.val = s.val := rfl
@[simp] theorem State.setHalt_cbd : s.setHalt.cbd = s.cbd := rfl
@[simp] theorem State.setHalt_cur : s.setHalt.cur = s.cur := rfl
@[simp] theorem State.setHalt_plane : s.setHalt.plane = s.plane := rfl
@[simp] theorem State.setHalt_fh : s.setHalt.fh = s.fh := rfl
@[simp] theorem State.setHalt_ph : s.setHalt.ph = s.ph := rfl
@[simp] theorem State.setHalt_sched : s.setHalt.sched = s.sched := rfl
@[simp] theorem State.setHalt_slice : s.setHalt.slice = s.slice := rfl
@[simp] theorem State.setHalt_ctx : s.setHalt.ctx = s.ctx := rfl
@[simp] theorem State.setHalt_bs : s.setHalt.bs = s.bs := rfl
@[simp] theorem State.setHalt_coef : s.setHalt.coef = s.coef := rfl
@[simp] theorem State.setHalt_qm : s.setHalt.qm = s.qm := rfl
@[simp] theorem State.setHalt_qms : s.setHalt.qms = s.qms := rfl
@[simp] theorem State.setHalt_sst : s.setHalt.sst = s.sst := rfl
@[simp] theorem State.setRej_cfg : s.setRej.cfg = s.cfg := rfl
@[simp] theorem State.setRej_host : s.setRej.host = s.host := rfl
@[simp] theorem State.setRej_strict : s.setRej.strict = s.strict := rfl
@[simp] theorem State.setRej_record : s.setRej.record = s.record := rfl
@[simp] theorem State.setRej_val : s.setRej.val = s.val := rfl
@[simp] theorem State.setRej_cbd : s.setRej.cbd = s.cbd := rfl
@[simp] theorem State.setRej_cur : s.setRej.cur = s.cur := rfl
@[simp] theorem State.setRej_plane : s.setRej.plane = s.plane := rfl
@[simp] theorem State.setRej_fh : s.setRej.fh = s.fh := rfl
@[simp] theorem State.setRej_ph : s.setRej.ph = s.ph := rfl
@[simp] theorem State.setRej_sched : s.setRej.sched = s.sched := rfl
@[simp] theorem State.setRej_slice : s.setRej.slice = s.slice := rfl
@[simp] theorem State.setRej_ctx : s.setRej.ctx = s.ctx := rfl
@[simp] theorem State.setRej_bs : s.setRej.bs = s.bs := rfl
@[simp] theorem State.setRej_coef : s.setRej.coef = s.coef := rfl
@[simp] theorem State.setRej_qm : s.setRej.qm = s.qm := rfl
@[simp] theorem State.setRej_qms : s.setRej.qms = s.qms := rfl
@[simp] theorem State.setRej_sst : s.setRej.sst = s.sst := rfl
@[simp] theorem State.setEop_cfg : s.setEop.cfg = s.cfg := rfl
@[simp] theorem State.setEop_host : s.setEop.host = s.host := rfl
@[simp] theorem State.setEop_strict : s.setEop.strict = s.strict := rfl
@[simp] theorem State.setEop_record : s.setEop.record = s.record := rfl
@[simp] theorem State.setEop_val : s.setEop.val = s.val := rfl
@[simp] theorem State.setEop_cbd : s.setEop.cbd = s.cbd := rfl
@[simp] theorem State.setEop_cur : s.setEop.cur = s.cur := rfl
@[simp] theorem State.setEop_plane : s.setEop.plane = s.plane := rfl
@[simp] theorem State.setEop_fh : s.setEop.fh = s.fh := rfl
@[simp] theorem State.setEop_ph : s.setEop.ph = s.ph := rfl
@[simp] theorem State.setEop_sched : s.setEop.sched = s.sched := rfl
@[simp] theorem State.setEop_slice : s.setEop.slice = s.slice := rfl
@[simp] theorem State.setEop_ctx : s.setEop.ctx = s.ctx := rfl
@[simp] theorem State.setEop_bs : s.setEop.bs = s.bs := rfl
@[simp] theorem State.setEop_coef : s.setEop.coef = s.coef := rfl
@[simp] theorem State.setEop_qm : s.setEop.qm = s.qm := rfl
@[simp] theorem State.setEop_qms : s.setEop.qms = s.qms := rfl
@[simp] theorem State.setEop_sst : s.setEop.sst = s.sst := rfl
@[simp] theorem State.clearEop_cfg : s.clearEop.cfg = s.cfg := rfl
@[simp] theorem State.clearEop_host : s.clearEop.host = s.host := rfl
@[simp] theorem State.clearEop_strict : s.clearEop.strict = s.strict := rfl
@[simp] theorem State.clearEop_record : s.clearEop.record = s.record := rfl
@[simp] theorem State.clearEop_val : s.clearEop.val = s.val := rfl
@[simp] theorem State.clearEop_cbd : s.clearEop.cbd = s.cbd := rfl
@[simp] theorem State.clearEop_cur : s.clearEop.cur = s.cur := rfl
@[simp] theorem State.clearEop_plane : s.clearEop.plane = s.plane := rfl
@[simp] theorem State.clearEop_fh : s.clearEop.fh = s.fh := rfl
@[simp] theorem State.clearEop_ph : s.clearEop.ph = s.ph := rfl
@[simp] theorem State.clearEop_sched : s.clearEop.sched = s.sched := rfl
@[simp] theorem State.clearEop_slice : s.clearEop.slice = s.slice := rfl
@[simp] theorem State.clearEop_ctx : s.clearEop.ctx = s.ctx := rfl
@[simp] theorem State.clearEop_bs : s.clearEop.bs = s.bs := rfl
@[simp] theorem State.clearEop_coef : s.clearEop.coef = s.coef := rfl
@[simp] theorem State.clearEop_qm : s.clearEop.qm = s.qm := rfl
@[simp] theorem State.clearEop_qms : s.clearEop.qms = s.qms := rfl
@[simp] theorem State.clearEop_sst : s.clearEop.sst = s.sst := rfl
@[simp] theorem State.clearPlaneFlags_cfg : s.clearPlaneFlags.cfg = s.cfg := rfl
@[simp] theorem State.clearPlaneFlags_host : s.clearPlaneFlags.host = s.host := rfl
@[simp] theorem State.clearPlaneFlags_strict : s.clearPlaneFlags.strict = s.strict := rfl
@[simp] theorem State.clearPlaneFlags_record : s.clearPlaneFlags.record = s.record := rfl
@[simp] theorem State.clearPlaneFlags_val : s.clearPlaneFlags.val = s.val := rfl
@[simp] theorem State.clearPlaneFlags_cbd : s.clearPlaneFlags.cbd = s.cbd := rfl
@[simp] theorem State.clearPlaneFlags_cur : s.clearPlaneFlags.cur = s.cur := rfl
@[simp] theorem State.clearPlaneFlags_plane : s.clearPlaneFlags.plane = s.plane := rfl
@[simp] theorem State.clearPlaneFlags_fh : s.clearPlaneFlags.fh = s.fh := rfl
@[simp] theorem State.clearPlaneFlags_ph : s.clearPlaneFlags.ph = s.ph := rfl
@[simp] theorem State.clearPlaneFlags_sched : s.clearPlaneFlags.sched = s.sched := rfl
@[simp] theorem State.clearPlaneFlags_slice : s.clearPlaneFlags.slice = s.slice := rfl
@[simp] theorem State.clearPlaneFlags_ctx : s.clearPlaneFlags.ctx = s.ctx := rfl
@[simp] theorem State.clearPlaneFlags_bs : s.clearPlaneFlags.bs = s.bs := rfl
@[simp] theorem State.clearPlaneFlags_coef : s.clearPlaneFlags.coef = s.coef := rfl
@[simp] theorem State.clearPlaneFlags_qm : s.clearPlaneFlags.qm = s.qm := rfl
@[simp] theorem State.clearPlaneFlags_qms : s.clearPlaneFlags.qms = s.qms := rfl
@[simp] theorem State.clearPlaneFlags_sst : s.clearPlaneFlags.sst = s.sst := rfl
@[simp] theorem State.setEos_cfg : s.setEos.cfg = s.cfg := rfl
@[simp] theorem State.setEos_host : s.setEos.host = s.host := rfl
@[simp] theorem State.setEos_strict : s.setEos.strict = s.strict := rfl
@[simp] theorem State.setEos_record : s.setEos.record = s.record := rfl
@[simp] theorem State.setEos_val : s.setEos.val = s.val := rfl
@[simp] theorem State.setEos_cbd : s.setEos.cbd = s.cbd := rfl
@[simp] theorem State.setEos_cur : s.setEos.cur = s.cur := rfl
@[simp] theorem State.setEos_plane : s.setEos.plane = s.plane := rfl
@[simp] theorem State.setEos_fh : s.setEos.fh = s.fh := rfl
@[simp] theorem State.setEos_ph : s.setEos.ph = s.ph := rfl
@[simp] theorem State.setEos_sched : s.setEos.sched = s.sched := rfl
@[simp] theorem State.setEos_slice : s.setEos.slice = s.slice := rfl
@[simp] theorem State.setEos_ctx : s.setEos.ctx = s.ctx := rfl
@[simp] theorem State.setEos_bs : s.setEos.bs = s.bs := rfl
@[simp] theorem State.setEos_coef : s.setEos.coef = s.coef := rfl
@[simp] theorem State.setEos_qm : s.setEos.qm = s.qm := rfl
@[simp] theorem State.setEos_qms : s.setEos.qms = s.qms := rfl
@[simp] theorem State.setEos_sst : s.setEos.sst = s.sst := rfl
@[simp] theorem State.clearPictureFlags_cfg : s.clearPictureFlags.cfg = s.cfg := rfl
@[simp] theorem State.clearPictureFlags_host : s.clearPictureFlags.host = s.host := rfl
@[simp] theorem State.clearPictureFlags_strict : s.clearPictureFlags.strict = s.strict := rfl
@[simp] theorem State.clearPictureFlags_record : s.clearPictureFlags.record = s.record := rfl
@[simp] theorem State.clearPictureFlags_val : s.clearPictureFlags.val = s.val := rfl
@[simp] theorem State.clearPictureFlags_cbd : s.clearPictureFlags.cbd = s.cbd := rfl
@[simp] theorem State.clearPictureFlags_cur : s.clearPictureFlags.cur = s.cur := rfl
@[simp] theorem State.clearPictureFlags_plane : s.clearPictureFlags.plane = s.plane := rfl
@[simp] theorem State.clearPictureFlags_fh : s.clearPictureFlags.fh = s.fh := rfl
@[simp] theorem State.clearPictureFlags_ph : s.clearPictureFlags.ph = s.ph := rfl
@[simp] theorem State.clearPictureFlags_sched : s.clearPictureFlags.sched = s.sched := rfl
@[simp] theorem State.clearPictureFlags_slice : s.clearPictureFlags.slice = s.slice := rfl
@[simp] theorem State.clearPictureFlags_ctx : s.clearPictureFlags.ctx = s.ctx := rfl
@[simp] theorem State.clearPictureFlags_bs : s.clearPictureFlags.bs = s.bs := rfl
@[simp] theorem State.clearPictureFlags_coef : s.clearPictureFlags.coef = s.coef := rfl
@[simp] theorem State.clearPictureFlags_qm : s.clearPictureFlags.qm = s.qm := rfl
@[simp] theorem State.clearPictureFlags_qms : s.clearPictureFlags.qms = s.qms := rfl
@[simp] theorem State.clearPictureFlags_sst : s.clearPictureFlags.sst = s.sst := rfl
@[simp] theorem State.setSlok_cfg : s.setSlok.cfg = s.cfg := rfl
@[simp] theorem State.setSlok_host : s.setSlok.host = s.host := rfl
@[simp] theorem State.setSlok_strict : s.setSlok.strict = s.strict := rfl
@[simp] theorem State.setSlok_record : s.setSlok.record = s.record := rfl
@[simp] theorem State.setSlok_val : s.setSlok.val = s.val := rfl
@[simp] theorem State.setSlok_cbd : s.setSlok.cbd = s.cbd := rfl
@[simp] theorem State.setSlok_cur : s.setSlok.cur = s.cur := rfl
@[simp] theorem State.setSlok_plane : s.setSlok.plane = s.plane := rfl
@[simp] theorem State.setSlok_fh : s.setSlok.fh = s.fh := rfl
@[simp] theorem State.setSlok_ph : s.setSlok.ph = s.ph := rfl
@[simp] theorem State.setSlok_sched : s.setSlok.sched = s.sched := rfl
@[simp] theorem State.setSlok_slice : s.setSlok.slice = s.slice := rfl
@[simp] theorem State.setSlok_ctx : s.setSlok.ctx = s.ctx := rfl
@[simp] theorem State.setSlok_bs : s.setSlok.bs = s.bs := rfl
@[simp] theorem State.setSlok_coef : s.setSlok.coef = s.coef := rfl
@[simp] theorem State.setSlok_qm : s.setSlok.qm = s.qm := rfl
@[simp] theorem State.setSlok_qms : s.setSlok.qms = s.qms := rfl
@[simp] theorem State.setSlok_sst : s.setSlok.sst = s.sst := rfl
@[simp] theorem State.clearSlok_cfg : s.clearSlok.cfg = s.cfg := rfl
@[simp] theorem State.clearSlok_host : s.clearSlok.host = s.host := rfl
@[simp] theorem State.clearSlok_strict : s.clearSlok.strict = s.strict := rfl
@[simp] theorem State.clearSlok_record : s.clearSlok.record = s.record := rfl
@[simp] theorem State.clearSlok_val : s.clearSlok.val = s.val := rfl
@[simp] theorem State.clearSlok_cbd : s.clearSlok.cbd = s.cbd := rfl
@[simp] theorem State.clearSlok_cur : s.clearSlok.cur = s.cur := rfl
@[simp] theorem State.clearSlok_plane : s.clearSlok.plane = s.plane := rfl
@[simp] theorem State.clearSlok_fh : s.clearSlok.fh = s.fh := rfl
@[simp] theorem State.clearSlok_ph : s.clearSlok.ph = s.ph := rfl
@[simp] theorem State.clearSlok_sched : s.clearSlok.sched = s.sched := rfl
@[simp] theorem State.clearSlok_slice : s.clearSlok.slice = s.slice := rfl
@[simp] theorem State.clearSlok_ctx : s.clearSlok.ctx = s.ctx := rfl
@[simp] theorem State.clearSlok_bs : s.clearSlok.bs = s.bs := rfl
@[simp] theorem State.clearSlok_coef : s.clearSlok.coef = s.coef := rfl
@[simp] theorem State.clearSlok_qm : s.clearSlok.qm = s.qm := rfl
@[simp] theorem State.clearSlok_qms : s.clearSlok.qms = s.qms := rfl
@[simp] theorem State.clearSlok_sst : s.clearSlok.sst = s.sst := rfl
@[simp] theorem State.clearFaultFlags_cfg : s.clearFaultFlags.cfg = s.cfg := rfl
@[simp] theorem State.clearFaultFlags_host : s.clearFaultFlags.host = s.host := rfl
@[simp] theorem State.clearFaultFlags_strict : s.clearFaultFlags.strict = s.strict := rfl
@[simp] theorem State.clearFaultFlags_record : s.clearFaultFlags.record = s.record := rfl
@[simp] theorem State.clearFaultFlags_val : s.clearFaultFlags.val = s.val := rfl
@[simp] theorem State.clearFaultFlags_cbd : s.clearFaultFlags.cbd = s.cbd := rfl
@[simp] theorem State.clearFaultFlags_cur : s.clearFaultFlags.cur = s.cur := rfl
@[simp] theorem State.clearFaultFlags_plane : s.clearFaultFlags.plane = s.plane := rfl
@[simp] theorem State.clearFaultFlags_fh : s.clearFaultFlags.fh = s.fh := rfl
@[simp] theorem State.clearFaultFlags_ph : s.clearFaultFlags.ph = s.ph := rfl
@[simp] theorem State.clearFaultFlags_sched : s.clearFaultFlags.sched = s.sched := rfl
@[simp] theorem State.clearFaultFlags_slice : s.clearFaultFlags.slice = s.slice := rfl
@[simp] theorem State.clearFaultFlags_ctx : s.clearFaultFlags.ctx = s.ctx := rfl
@[simp] theorem State.clearFaultFlags_bs : s.clearFaultFlags.bs = s.bs := rfl
@[simp] theorem State.clearFaultFlags_coef : s.clearFaultFlags.coef = s.coef := rfl
@[simp] theorem State.clearFaultFlags_qm : s.clearFaultFlags.qm = s.qm := rfl
@[simp] theorem State.clearFaultFlags_qms : s.clearFaultFlags.qms = s.qms := rfl
@[simp] theorem State.clearFaultFlags_sst : s.clearFaultFlags.sst = s.sst := rfl
@[simp] theorem State.setHalt_status : s.setHalt.status = { s.status with halt := true } := rfl
@[simp] theorem State.setRej_status : s.setRej.status = { s.status with rej := true } := rfl
@[simp] theorem State.setEop_status : s.setEop.status = { s.status with eop := true } := rfl
@[simp] theorem State.clearEop_status : s.clearEop.status = { s.status with eop := false } := rfl
@[simp] theorem State.clearPlaneFlags_status : s.clearPlaneFlags.status = { s.status with abandon := false, eop := false } := rfl
@[simp] theorem State.setEos_status : s.setEos.status = { s.status with eos := true } := rfl
@[simp] theorem State.clearPictureFlags_status : s.clearPictureFlags.status = { s.status with eos := false, slok := false } := rfl
@[simp] theorem State.setSlok_status : s.setSlok.status = { s.status with slok := true } := rfl
@[simp] theorem State.clearSlok_status : s.clearSlok.status = { s.status with slok := false } := rfl
@[simp] theorem State.clearFaultFlags_status : s.clearFaultFlags.status = { s.status with halt := false, corrupt := false, rej := false } := rfl
@[simp] theorem State.setCorrupt_cfg (b : Bool) : (s.setCorrupt b).cfg = s.cfg := rfl
@[simp] theorem State.setCorrupt_host (b : Bool) : (s.setCorrupt b).host = s.host := rfl
@[simp] theorem State.setCorrupt_status (b : Bool) : (s.setCorrupt b).status = { s.status with corrupt := true, abandon := s.status.abandon || b } := rfl
@[simp] theorem State.setCorrupt_strict (b : Bool) : (s.setCorrupt b).strict = s.strict := rfl
@[simp] theorem State.setCorrupt_record (b : Bool) : (s.setCorrupt b).record = s.record := rfl
@[simp] theorem State.setCorrupt_val (b : Bool) : (s.setCorrupt b).val = s.val := rfl
@[simp] theorem State.setCorrupt_cbd (b : Bool) : (s.setCorrupt b).cbd = s.cbd := rfl
@[simp] theorem State.setCorrupt_cur (b : Bool) : (s.setCorrupt b).cur = s.cur := rfl
@[simp] theorem State.setCorrupt_plane (b : Bool) : (s.setCorrupt b).plane = s.plane := rfl
@[simp] theorem State.setCorrupt_fh (b : Bool) : (s.setCorrupt b).fh = s.fh := rfl
@[simp] theorem State.setCorrupt_ph (b : Bool) : (s.setCorrupt b).ph = s.ph := rfl
@[simp] theorem State.setCorrupt_sched (b : Bool) : (s.setCorrupt b).sched = s.sched := rfl
@[simp] theorem State.setCorrupt_slice (b : Bool) : (s.setCorrupt b).slice = s.slice := rfl
@[simp] theorem State.setCorrupt_ctx (b : Bool) : (s.setCorrupt b).ctx = s.ctx := rfl
@[simp] theorem State.setCorrupt_bs (b : Bool) : (s.setCorrupt b).bs = s.bs := rfl
@[simp] theorem State.setCorrupt_coef (b : Bool) : (s.setCorrupt b).coef = s.coef := rfl
@[simp] theorem State.setCorrupt_qm (b : Bool) : (s.setCorrupt b).qm = s.qm := rfl
@[simp] theorem State.setCorrupt_qms (b : Bool) : (s.setCorrupt b).qms = s.qms := rfl
@[simp] theorem State.setCorrupt_sst (b : Bool) : (s.setCorrupt b).sst = s.sst := rfl

/-! The memory and cursor updates. -/

@[simp] theorem State.setCoef_cfg (k : Nat) (v : Word) : (s.setCoef k v).cfg = s.cfg := rfl
@[simp] theorem State.setCoef_host (k : Nat) (v : Word) : (s.setCoef k v).host = s.host := rfl
@[simp] theorem State.setCoef_status (k : Nat) (v : Word) : (s.setCoef k v).status = s.status := rfl
@[simp] theorem State.setCoef_strict (k : Nat) (v : Word) : (s.setCoef k v).strict = s.strict := rfl
@[simp] theorem State.setCoef_record (k : Nat) (v : Word) : (s.setCoef k v).record = s.record := rfl
@[simp] theorem State.setCoef_val (k : Nat) (v : Word) : (s.setCoef k v).val = s.val := rfl
@[simp] theorem State.setCoef_cbd (k : Nat) (v : Word) : (s.setCoef k v).cbd = s.cbd := rfl
@[simp] theorem State.setCoef_cur (k : Nat) (v : Word) : (s.setCoef k v).cur = s.cur := rfl
@[simp] theorem State.setCoef_plane (k : Nat) (v : Word) : (s.setCoef k v).plane = s.plane := rfl
@[simp] theorem State.setCoef_fh (k : Nat) (v : Word) : (s.setCoef k v).fh = s.fh := rfl
@[simp] theorem State.setCoef_ph (k : Nat) (v : Word) : (s.setCoef k v).ph = s.ph := rfl
@[simp] theorem State.setCoef_sched (k : Nat) (v : Word) : (s.setCoef k v).sched = s.sched := rfl
@[simp] theorem State.setCoef_slice (k : Nat) (v : Word) : (s.setCoef k v).slice = s.slice := rfl
@[simp] theorem State.setCoef_ctx (k : Nat) (v : Word) : (s.setCoef k v).ctx = s.ctx := rfl
@[simp] theorem State.setCoef_bs (k : Nat) (v : Word) : (s.setCoef k v).bs = s.bs := rfl
@[simp] theorem State.setCoef_coef (k : Nat) (v : Word) : (s.setCoef k v).coef = Memory.write coefUnlisted s.coef k v := rfl
@[simp] theorem State.setCoef_qm (k : Nat) (v : Word) : (s.setCoef k v).qm = s.qm := rfl
@[simp] theorem State.setCoef_qms (k : Nat) (v : Word) : (s.setCoef k v).qms = s.qms := rfl
@[simp] theorem State.setCoef_sst (k : Nat) (v : Word) : (s.setCoef k v).sst = s.sst := rfl

@[simp] theorem State.setSst_cfg (n : Nat) (v : BitVec 16) : (s.setSst n v).cfg = s.cfg := rfl
@[simp] theorem State.setSst_host (n : Nat) (v : BitVec 16) : (s.setSst n v).host = s.host := rfl
@[simp] theorem State.setSst_status (n : Nat) (v : BitVec 16) : (s.setSst n v).status = s.status := rfl
@[simp] theorem State.setSst_strict (n : Nat) (v : BitVec 16) : (s.setSst n v).strict = s.strict := rfl
@[simp] theorem State.setSst_record (n : Nat) (v : BitVec 16) : (s.setSst n v).record = s.record := rfl
@[simp] theorem State.setSst_val (n : Nat) (v : BitVec 16) : (s.setSst n v).val = s.val := rfl
@[simp] theorem State.setSst_cbd (n : Nat) (v : BitVec 16) : (s.setSst n v).cbd = s.cbd := rfl
@[simp] theorem State.setSst_cur (n : Nat) (v : BitVec 16) : (s.setSst n v).cur = s.cur := rfl
@[simp] theorem State.setSst_plane (n : Nat) (v : BitVec 16) : (s.setSst n v).plane = s.plane := rfl
@[simp] theorem State.setSst_fh (n : Nat) (v : BitVec 16) : (s.setSst n v).fh = s.fh := rfl
@[simp] theorem State.setSst_ph (n : Nat) (v : BitVec 16) : (s.setSst n v).ph = s.ph := rfl
@[simp] theorem State.setSst_sched (n : Nat) (v : BitVec 16) : (s.setSst n v).sched = s.sched := rfl
@[simp] theorem State.setSst_slice (n : Nat) (v : BitVec 16) : (s.setSst n v).slice = s.slice := rfl
@[simp] theorem State.setSst_ctx (n : Nat) (v : BitVec 16) : (s.setSst n v).ctx = s.ctx := rfl
@[simp] theorem State.setSst_bs (n : Nat) (v : BitVec 16) : (s.setSst n v).bs = s.bs := rfl
@[simp] theorem State.setSst_coef (n : Nat) (v : BitVec 16) : (s.setSst n v).coef = s.coef := rfl
@[simp] theorem State.setSst_qm (n : Nat) (v : BitVec 16) : (s.setSst n v).qm = s.qm := rfl
@[simp] theorem State.setSst_qms (n : Nat) (v : BitVec 16) : (s.setSst n v).qms = s.qms := rfl
@[simp] theorem State.setSst_sst (n : Nat) (v : BitVec 16) : (s.setSst n v).sst = Memory.write sstUnlisted s.sst n v := rfl

@[simp] theorem State.withBitpos_cfg (n : Nat) : (s.withBitpos n).cfg = s.cfg := rfl
@[simp] theorem State.withBitpos_host (n : Nat) : (s.withBitpos n).host = s.host := rfl
@[simp] theorem State.withBitpos_status (n : Nat) : (s.withBitpos n).status = s.status := rfl
@[simp] theorem State.withBitpos_strict (n : Nat) : (s.withBitpos n).strict = s.strict := rfl
@[simp] theorem State.withBitpos_record (n : Nat) : (s.withBitpos n).record = s.record := rfl
@[simp] theorem State.withBitpos_val (n : Nat) : (s.withBitpos n).val = s.val := rfl
@[simp] theorem State.withBitpos_cbd (n : Nat) : (s.withBitpos n).cbd = s.cbd := rfl
@[simp] theorem State.withBitpos_cur (n : Nat) : (s.withBitpos n).cur = { s.cur with bitpos := BitVec.ofNat 32 n } := rfl
@[simp] theorem State.withBitpos_plane (n : Nat) : (s.withBitpos n).plane = s.plane := rfl
@[simp] theorem State.withBitpos_fh (n : Nat) : (s.withBitpos n).fh = s.fh := rfl
@[simp] theorem State.withBitpos_ph (n : Nat) : (s.withBitpos n).ph = s.ph := rfl
@[simp] theorem State.withBitpos_sched (n : Nat) : (s.withBitpos n).sched = s.sched := rfl
@[simp] theorem State.withBitpos_slice (n : Nat) : (s.withBitpos n).slice = s.slice := rfl
@[simp] theorem State.withBitpos_ctx (n : Nat) : (s.withBitpos n).ctx = s.ctx := rfl
@[simp] theorem State.withBitpos_bs (n : Nat) : (s.withBitpos n).bs = s.bs := rfl
@[simp] theorem State.withBitpos_coef (n : Nat) : (s.withBitpos n).coef = s.coef := rfl
@[simp] theorem State.withBitpos_qm (n : Nat) : (s.withBitpos n).qm = s.qm := rfl
@[simp] theorem State.withBitpos_qms (n : Nat) : (s.withBitpos n).qms = s.qms := rfl
@[simp] theorem State.withBitpos_sst (n : Nat) : (s.withBitpos n).sst = s.sst := rfl

@[simp] theorem State.withByteptr_cfg (n : Nat) : (s.withByteptr n).cfg = s.cfg := rfl
@[simp] theorem State.withByteptr_host (n : Nat) : (s.withByteptr n).host = s.host := rfl
@[simp] theorem State.withByteptr_status (n : Nat) : (s.withByteptr n).status = s.status := rfl
@[simp] theorem State.withByteptr_strict (n : Nat) : (s.withByteptr n).strict = s.strict := rfl
@[simp] theorem State.withByteptr_record (n : Nat) : (s.withByteptr n).record = s.record := rfl
@[simp] theorem State.withByteptr_val (n : Nat) : (s.withByteptr n).val = s.val := rfl
@[simp] theorem State.withByteptr_cbd (n : Nat) : (s.withByteptr n).cbd = s.cbd := rfl
@[simp] theorem State.withByteptr_cur (n : Nat) : (s.withByteptr n).cur = { s.cur with byteptr := BitVec.ofNat 32 n } := rfl
@[simp] theorem State.withByteptr_plane (n : Nat) : (s.withByteptr n).plane = s.plane := rfl
@[simp] theorem State.withByteptr_fh (n : Nat) : (s.withByteptr n).fh = s.fh := rfl
@[simp] theorem State.withByteptr_ph (n : Nat) : (s.withByteptr n).ph = s.ph := rfl
@[simp] theorem State.withByteptr_sched (n : Nat) : (s.withByteptr n).sched = s.sched := rfl
@[simp] theorem State.withByteptr_slice (n : Nat) : (s.withByteptr n).slice = s.slice := rfl
@[simp] theorem State.withByteptr_ctx (n : Nat) : (s.withByteptr n).ctx = s.ctx := rfl
@[simp] theorem State.withByteptr_bs (n : Nat) : (s.withByteptr n).bs = s.bs := rfl
@[simp] theorem State.withByteptr_coef (n : Nat) : (s.withByteptr n).coef = s.coef := rfl
@[simp] theorem State.withByteptr_qm (n : Nat) : (s.withByteptr n).qm = s.qm := rfl
@[simp] theorem State.withByteptr_qms (n : Nat) : (s.withByteptr n).qms = s.qms := rfl
@[simp] theorem State.withByteptr_sst (n : Nat) : (s.withByteptr n).sst = s.sst := rfl

@[simp] theorem State.advance_cfg (n : Nat) : (s.advance n).cfg = s.cfg := rfl
@[simp] theorem State.advance_host (n : Nat) : (s.advance n).host = s.host := rfl
@[simp] theorem State.advance_status (n : Nat) : (s.advance n).status = s.status := rfl
@[simp] theorem State.advance_strict (n : Nat) : (s.advance n).strict = s.strict := rfl
@[simp] theorem State.advance_record (n : Nat) : (s.advance n).record = s.record := rfl
@[simp] theorem State.advance_val (n : Nat) : (s.advance n).val = s.val := rfl
@[simp] theorem State.advance_cbd (n : Nat) : (s.advance n).cbd = s.cbd := rfl
@[simp] theorem State.advance_cur (n : Nat) : (s.advance n).cur = { s.cur with bitpos := BitVec.ofNat 32 (s.cur.bitpos.toNat + n) } := rfl
@[simp] theorem State.advance_plane (n : Nat) : (s.advance n).plane = s.plane := rfl
@[simp] theorem State.advance_fh (n : Nat) : (s.advance n).fh = s.fh := rfl
@[simp] theorem State.advance_ph (n : Nat) : (s.advance n).ph = s.ph := rfl
@[simp] theorem State.advance_sched (n : Nat) : (s.advance n).sched = s.sched := rfl
@[simp] theorem State.advance_slice (n : Nat) : (s.advance n).slice = s.slice := rfl
@[simp] theorem State.advance_ctx (n : Nat) : (s.advance n).ctx = s.ctx := rfl
@[simp] theorem State.advance_bs (n : Nat) : (s.advance n).bs = s.bs := rfl
@[simp] theorem State.advance_coef (n : Nat) : (s.advance n).coef = s.coef := rfl
@[simp] theorem State.advance_qm (n : Nat) : (s.advance n).qm = s.qm := rfl
@[simp] theorem State.advance_qms (n : Nat) : (s.advance n).qms = s.qms := rfl
@[simp] theorem State.advance_sst (n : Nat) : (s.advance n).sst = s.sst := rfl

@[simp] theorem State.setQm_cfg (p : QMatrix) (f : Nat → Byte) : (s.setQm p f).cfg = s.cfg := rfl
@[simp] theorem State.setQm_host (p : QMatrix) (f : Nat → Byte) : (s.setQm p f).host = s.host := rfl
@[simp] theorem State.setQm_status (p : QMatrix) (f : Nat → Byte) : (s.setQm p f).status = s.status := rfl
@[simp] theorem State.setQm_strict (p : QMatrix) (f : Nat → Byte) : (s.setQm p f).strict = s.strict := rfl
@[simp] theorem State.setQm_record (p : QMatrix) (f : Nat → Byte) : (s.setQm p f).record = s.record := rfl
@[simp] theorem State.setQm_val (p : QMatrix) (f : Nat → Byte) : (s.setQm p f).val = s.val := rfl
@[simp] theorem State.setQm_cbd (p : QMatrix) (f : Nat → Byte) : (s.setQm p f).cbd = s.cbd := rfl
@[simp] theorem State.setQm_cur (p : QMatrix) (f : Nat → Byte) : (s.setQm p f).cur = s.cur := rfl
@[simp] theorem State.setQm_plane (p : QMatrix) (f : Nat → Byte) : (s.setQm p f).plane = s.plane := rfl
@[simp] theorem State.setQm_fh (p : QMatrix) (f : Nat → Byte) : (s.setQm p f).fh = s.fh := rfl
@[simp] theorem State.setQm_ph (p : QMatrix) (f : Nat → Byte) : (s.setQm p f).ph = s.ph := rfl
@[simp] theorem State.setQm_sched (p : QMatrix) (f : Nat → Byte) : (s.setQm p f).sched = s.sched := rfl
@[simp] theorem State.setQm_slice (p : QMatrix) (f : Nat → Byte) : (s.setQm p f).slice = s.slice := rfl
@[simp] theorem State.setQm_ctx (p : QMatrix) (f : Nat → Byte) : (s.setQm p f).ctx = s.ctx := rfl
@[simp] theorem State.setQm_bs (p : QMatrix) (f : Nat → Byte) : (s.setQm p f).bs = s.bs := rfl
@[simp] theorem State.setQm_coef (p : QMatrix) (f : Nat → Byte) : (s.setQm p f).coef = s.coef := rfl
@[simp] theorem State.setQm_qm (p : QMatrix) (f : Nat → Byte) : (s.setQm p f).qm = Memory.writeRange qmUnlisted s.qm (matrixIndex p 0) 64 f := rfl
@[simp] theorem State.setQm_qms (p : QMatrix) (f : Nat → Byte) : (s.setQm p f).qms = s.qms := rfl
@[simp] theorem State.setQm_sst (p : QMatrix) (f : Nat → Byte) : (s.setQm p f).sst = s.sst := rfl

end Sys2Proof.Machine
end

