-- ==== Sys2Proof/Laws/Codeword.lean ====
section
/-! SUPPORT. The laws of reading and writing one codeword (41_entropy_coder.md R151, R153), against the spec's own view of a codeword
(30_encoding.md R110): what the reader answers on a codeword and on a corruption, that nothing else occurs, and that the writer
emits the codeword of its value. -/

namespace Sys2Proof.Machine

open Sys2Proof.Claims

/-! ### The cursor -/

theorem State.withBitpos_bitpos (s : State) {v : Nat} (h : v < 2 ^ 32) : (s.withBitpos v).cur.bitpos.toNat = v := by
  rw [State.withBitpos, State.withCur_cur, BitVec.toNat_ofNat, Nat.mod_eq_of_lt h]

theorem State.withBitpos_withBitpos (s : State) (v w : Nat) : (s.withBitpos v).withBitpos w = s.withBitpos w := rfl

/-- Two moves of the bit cursor are one, when the first stays in 32 bits. -/
theorem State.advance_advance (s : State) {n : Nat} (m : Nat) (h : s.cur.bitpos.toNat + n < 2 ^ 32) :
    (s.advance n).advance m = s.advance (n + m) := by
  rw [State.advance, State.advance, State.withBitpos_bitpos _ h, State.withBitpos_withBitpos, State.advance, Nat.add_assoc]

theorem State.advance_zero (s : State) : s.advance 0 = s := by
  simp [State.advance, State.withBitpos, State.withCur]

/-- `BITPOS` after a move that stays in 32 bits. -/
theorem State.advance_bitpos (s : State) {n : Nat} (h : s.cur.bitpos.toNat + n < 2 ^ 32) :
    (s.advance n).cur.bitpos.toNat = s.cur.bitpos.toNat + n := State.withBitpos_bitpos _ h

@[simp] theorem State.advance_bitend (s : State) (n : Nat) : (s.advance n).cur.bitend = s.cur.bitend := rfl

/-! ### Reading bits -/

/-- All that `ReadBits` can do (20_memory.md R77). -/
theorem readBits_cases (n : Nat) (s : State) :
    (s.cur.bitpos.toNat + n ≤ s.cur.bitend.toNat ∧ readBits n s = .ok (bitsValue s.bs s.cur.bitpos.toNat n) (s.advance n)) ∨
    (s.cur.bitend.toNat < s.cur.bitpos.toNat + n ∧ readBits n s = .raised (.corruptSliceData .pastEnd) s) := by
  unfold readBits
  split
  · exact .inr ⟨by omega, rfl⟩
  · exact .inl ⟨by omega, rfl⟩

/-! ### The derived values of a codebook -/

/-- The escape suffix is never shorter than `expOrder` (40_codebook_table.md R144). -/
theorem golombBits_escape {cb : Codebook} {q : Nat} (h : cb.switchBits.toNat < q) : (cb.expOrder.toNat : Int) ≤ golombBits cb + q := by
  unfold golombBits; omega

theorem golombOffset_ge (cb : Codebook) : -524287 ≤ golombOffset cb := by
  unfold golombOffset
  have h1 : (1 : Int) ≤ 2 ^ cb.expOrder.toNat := by exact_mod_cast Nat.one_le_two_pow
  have h2 : (2 : Int) ^ cb.riceOrder.toNat ≤ 2 ^ 15 := by
    have := cb.riceOrder.isLt
    exact_mod_cast Nat.pow_le_pow_right (by decide) (by omega)
  have h3 : (cb.switchBits.toNat : Int) + 1 ≤ 16 := by have := cb.switchBits.isLt; omega
  have h4 : (0 : Int) < 2 ^ cb.riceOrder.toNat := by positivity
  nlinarith

theorem golombOffset_le (cb : Codebook) : golombOffset cb ≤ 32767 := by
  unfold golombOffset
  have h1 : (2 : Int) ^ cb.expOrder.toNat ≤ 2 ^ 15 := by
    have := cb.expOrder.isLt
    exact_mod_cast Nat.pow_le_pow_right (by decide) (by omega)
  have h4 : (1 : Int) ≤ 2 ^ cb.riceOrder.toNat := by exact_mod_cast Nat.one_le_two_pow
  have h3 : (0 : Int) ≤ (cb.switchBits.toNat : Int) := by omega
  nlinarith

/-! ### The shape of a codeword -/

theorem codeword_length (q n x : Nat) : (codeword q n x).length = q + 1 + n := by
  simp [codeword]; omega

/-- A codeword in BS: zeros, a one, a suffix. -/
theorem holdsBits_codeword {bs : Memory 8} {a q n x : Nat} :
    holdsBits bs a (codeword q n x) = true ↔
      holdsBits bs a (List.replicate q false) = true ∧ bsBit bs (a + q) = true ∧
        holdsBits bs (a + q + 1) (msbBits n x) = true := by
  simp [codeword, holdsBits_append, holdsBits]

/-- Every codeword holds a `1`, so no codeword begins in a field of zeros (30_encoding.md R117). -/
theorem allZero_of_codeword {bs : Memory 8} {a q n x m : Nat} (h : holdsBits bs a (codeword q n x) = true) (hm : q < m) :
    allZero bs a m = false := by
  obtain ⟨-, h1, -⟩ := holdsBits_codeword.1 h
  rw [allZero_eq, Bool.eq_false_iff]
  intro hz
  rw [holdsBits_iff] at hz
  have := hz q (by simpa using hm)
  rw [h1] at this
  simp at this

/-- The values of codewords are bounded (41_entropy_coder.md R160). -/
theorem isCode_bounds {cb : Codebook} {q n x : Nat} {v : Int} (h : IsCode cb q n x v) : 0 ≤ v ∧ v ≤ 655358 := by
  obtain ⟨hq, hx, he, hr⟩ := h
  by_cases hs : cb.switchBits.toNat < q
  · obtain ⟨hn, h16, rfl⟩ := he hs
    have hge := golombBits_escape hs
    have hlow : (2 : Int) ^ cb.expOrder.toNat ≤ 2 ^ n := by
      exact_mod_cast Nat.pow_le_pow_right (by decide) (by omega)
    have hhi : (2 : Nat) ^ n ≤ 2 ^ 16 := Nat.pow_le_pow_right (by decide) h16
    have hoff := golombOffset_ge cb
    have hT : (0 : Int) ≤ ((cb.switchBits.toNat : Int) + 1) * 2 ^ cb.riceOrder.toNat := by positivity
    constructor
    · unfold golombOffset; push_cast; omega
    · push_cast
      have : (2 : Int) ^ n ≤ 65536 := by exact_mod_cast hhi
      have : (x : Int) < 2 ^ n := by exact_mod_cast hx
      omega
  · obtain ⟨hn, rfl⟩ := hr (by omega)
    have hn15 : n ≤ 15 := by have := cb.riceOrder.isLt; omega
    have hp : (2 : Nat) ^ n ≤ 2 ^ 15 := Nat.pow_le_pow_right (by decide) hn15
    have hm : q * 2 ^ n ≤ 15 * 2 ^ 15 := Nat.mul_le_mul hq hp
    constructor
    · positivity
    · have : q * 2 ^ n + x ≤ 655358 := by omega
      exact_mod_cast this

/-- A codeword's suffix is at most 16 bits long. -/
theorem isCode_bits_le {cb : Codebook} {q n x : Nat} {v : Int} (h : IsCode cb q n x v) : n ≤ 16 := by
  by_cases hs : cb.switchBits.toNat < q
  · exact (h.suffixLegal hs).2.1
  · have := (h.riceForm (by omega)).1
    have := cb.riceOrder.isLt
    omega

/-- One value, one codeword (41_entropy_coder.md R156). -/
theorem isCode_unique {cb : Codebook} {q n x q' n' x' : Nat} {v : Int} (h : IsCode cb q n x v) (h' : IsCode cb q' n' x' v) :
    q = q' ∧ n = n' ∧ x = x' := by
  have hT : ∀ {q n x : Nat}, IsCode cb q n x v →
      (cb.switchBits.toNat < q ↔ ((cb.switchBits.toNat : Int) + 1) * 2 ^ cb.riceOrder.toNat ≤ v) := by
    intro q n x h
    obtain ⟨hq, hx, he, hr⟩ := h
    constructor
    · intro hs
      obtain ⟨hn, -, rfl⟩ := he hs
      have hge := golombBits_escape hs
      have hlow : (2 : Int) ^ cb.expOrder.toNat ≤ 2 ^ n := by
        exact_mod_cast Nat.pow_le_pow_right (by decide) (by omega)
      unfold golombOffset; push_cast; omega
    · intro hv
      by_contra hs
      obtain ⟨hn, rfl⟩ := hr (by omega)
      rw [← hn] at hv
      have h1 : q + 1 ≤ cb.switchBits.toNat + 1 := by omega
      have h2 := Nat.mul_le_mul_right (2 ^ n) h1
      have hv' : (cb.switchBits.toNat + 1) * 2 ^ n ≤ q * 2 ^ n + x := by exact_mod_cast hv
      rw [Nat.add_mul q] at h2
      omega
  by_cases hs : cb.switchBits.toNat < q
  · have hs' := (hT h').2 ((hT h).1 hs)
    obtain ⟨hn, -, hv⟩ := h.suffixLegal hs
    obtain ⟨hn', -, hv'⟩ := h'.suffixLegal hs'
    have hsum : 2 ^ n + x = 2 ^ n' + x' := by
      have : ((2 ^ n + x : Nat) : Int) = (2 ^ n' + x' : Nat) := by omega
      exact_mod_cast this
    have hnn : n = n' := by
      rcases Nat.lt_trichotomy n n' with hlt | heq | hlt
      · have hp : (2 : Nat) ^ (n + 1) ≤ 2 ^ n' := Nat.pow_le_pow_right (by decide) hlt
        have := h.suffixFits
        rw [pow_succ] at hp
        omega
      · exact heq
      · have hp : (2 : Nat) ^ (n' + 1) ≤ 2 ^ n := Nat.pow_le_pow_right (by decide) hlt
        have := h'.suffixFits
        rw [pow_succ] at hp
        omega
    subst hnn
    exact ⟨by omega, rfl, by omega⟩
  · have hs' : ¬cb.switchBits.toNat < q' := fun hc => hs ((hT h).2 ((hT h').1 hc))
    obtain ⟨hn, hv⟩ := h.riceForm (by omega)
    obtain ⟨hn', hv'⟩ := h'.riceForm (by omega)
    have hnn : n = n' := by omega
    subst hnn
    have hsum : q * 2 ^ n + x = q' * 2 ^ n + x' := by
      have : ((q * 2 ^ n + x : Nat) : Int) = (q' * 2 ^ n + x' : Nat) := by rw [← hv, ← hv']
      exact_mod_cast this
    have hx := h.suffixFits
    have hx' := h'.suffixFits
    have hqq : q = q' := by
      have h1 : (q * 2 ^ n + x) / 2 ^ n = q := by
        rw [Nat.mul_comm, Nat.mul_add_div (by positivity), Nat.div_eq_of_lt hx, Nat.add_zero]
      have h2 : (q' * 2 ^ n + x') / 2 ^ n = q' := by
        rw [Nat.mul_comm, Nat.mul_add_div (by positivity), Nat.div_eq_of_lt hx', Nat.add_zero]
      rw [← h1, ← h2, hsum]
    subst hqq
    exact ⟨rfl, rfl, by omega⟩

/-! ### Reading -/

/-- The reader on a codeword below `BITEND`: its value, and `BITPOS` past it (R151). -/
theorem readCodeword_of_code {cb : Codebook} {s : State} {q n x : Nat} {v : Int} (hc : IsCode cb q n x v)
    (hb : holdsBits s.bs s.cur.bitpos.toNat (codeword q n x) = true)
    (hr : s.cur.bitpos.toNat + (q + 1 + n) ≤ s.cur.bitend.toNat) :
    readCodeword cb s = .ok v (s.advance (q + 1 + n)) := by
  obtain ⟨hz, h1, hx⟩ := holdsBits_codeword.1 hb
  have hq15 := hc.prefixLegal
  have hend := s.cur.bitend.isLt
  have hw : q < min lookahead (s.cur.bitend.toNat - s.cur.bitpos.toNat) := by unfold lookahead; omega
  have hzr := zeroRun_of_prefix hw hz h1
  have hadv : s.cur.bitpos.toNat + (q + 1) < 2 ^ 32 := by omega
  have hread : ∀ m, m = n → readBits m (s.advance (q + 1)) = .ok x (s.advance (q + 1 + n)) := by
    rintro m rfl
    rcases readBits_cases m (s.advance (q + 1)) with ⟨-, h⟩ | ⟨h, -⟩
    · rw [h, State.advance_advance _ _ hadv, State.advance_bitpos _ hadv, State.advance_bs, ← Nat.add_assoc,
        bitsValue_of_holdsBits hx, Nat.mod_eq_of_lt hc.suffixFits]
    · rw [State.advance_bitpos _ hadv, State.advance_bitend] at h; omega
  unfold readCodeword
  simp only [hzr]
  rw [if_neg (by omega)]
  by_cases hs : cb.switchBits.toNat < q
  · obtain ⟨hn, h16, rfl⟩ := hc.suffixLegal hs
    rw [if_pos hs]
    have e : (golombBits cb + q).toNat = n := by omega
    rw [e, if_neg (by unfold escMaxBits; omega), hread n rfl]
    rfl
  · obtain ⟨hn, rfl⟩ := hc.riceForm (by omega)
    rw [if_neg hs]
    split
    · rw [hread _ hn.symm]; simp [Res.bind, hn]
    · have hn0 : n = 0 := by omega
      subst hn0
      have hx0 : x = 0 := by have := hc.suffixFits; simpa using this
      subst hx0
      simp

/-- The fault of each corruption subcode. -/
def corruptionOf (sub : Nat) : Raise :=
  .corruptSliceData (if sub = 1 then .escOverflow else if sub = 2 then .noTerminator else .pastEnd)

/-- The reader on a corruption: the fault, and `BITPOS` as the rule leaves it (R151). -/
theorem readCodeword_of_corrupt {cb : Codebook} {s : State} {sub pos : Nat}
    (h : CorruptAt cb s.bs s.cur.bitpos.toNat s.cur.bitend.toNat sub pos) :
    readCodeword cb s = .raised (corruptionOf sub) (s.withBitpos pos) := by
  have hend := s.cur.bitend.isLt
  have hsame : s.withBitpos s.cur.bitpos.toNat = s := State.advance_zero s
  have hpre : ∀ q, q ≤ 15 → s.cur.bitpos.toNat + q < s.cur.bitend.toNat →
      holdsBits s.bs s.cur.bitpos.toNat (codeword q 0 0) = true →
      zeroRun s.bs s.cur.bitpos.toNat (min lookahead (s.cur.bitend.toNat - s.cur.bitpos.toNat)) = q ∧
      q < min lookahead (s.cur.bitend.toNat - s.cur.bitpos.toNat) := by
    intro q h15 hroom hbits
    obtain ⟨hz, h1, -⟩ := holdsBits_codeword.1 hbits
    have hw : q < min lookahead (s.cur.bitend.toNat - s.cur.bitpos.toNat) := by unfold lookahead; omega
    exact ⟨zeroRun_of_prefix hw hz h1, hw⟩
  have hpast : ∀ q n, s.cur.bitpos.toNat + q < s.cur.bitend.toNat → s.cur.bitend.toNat < s.cur.bitpos.toNat + q + 1 + n →
      readBits n (s.advance (q + 1)) = .raised (.corruptSliceData .pastEnd) (s.withBitpos (s.cur.bitpos.toNat + q + 1)) := by
    intro q n hroom hp
    have hadv : s.cur.bitpos.toNat + (q + 1) < 2 ^ 32 := by omega
    rcases readBits_cases n (s.advance (q + 1)) with ⟨h, -⟩ | ⟨-, h⟩
    · rw [State.advance_bitpos _ hadv, State.advance_bitend] at h; omega
    · rw [h]; rfl
  cases h with
  | noTerminator room zeros =>
    have hw : min lookahead (s.cur.bitend.toNat - s.cur.bitpos.toNat) = 16 := by unfold lookahead; omega
    unfold readCodeword
    simp only [hw]
    rw [zeroRun_of_zeros zeros, if_pos rfl, if_pos (show 16 = lookahead from rfl), hsame]
    rfl
  | endsInPrefix room short zeros =>
    have hw : min lookahead (s.cur.bitend.toNat - s.cur.bitpos.toNat) = s.cur.bitend.toNat - s.cur.bitpos.toNat := by
      unfold lookahead; omega
    unfold readCodeword
    simp only [hw]
    rw [zeroRun_of_zeros zeros, if_pos rfl, if_neg (by unfold lookahead; omega), hsame]
    rfl
  | escOverflow q short room bits escape long =>
    obtain ⟨hzr, hw⟩ := hpre q short room bits
    unfold readCodeword
    simp only [hzr]
    rw [if_neg (by omega), if_pos escape, if_pos (by unfold escMaxBits; omega)]
    rfl
  | endsInEscape q n short room bits escape size legal past =>
    obtain ⟨hzr, hw⟩ := hpre q short room bits
    have e : (golombBits cb + q).toNat = n := by omega
    unfold readCodeword
    simp only [hzr]
    rw [if_neg (by omega), if_pos escape, e, if_neg (by unfold escMaxBits; omega), hpast q n room past]
    rfl
  | endsInRice q short room bits rice past =>
    obtain ⟨hzr, hw⟩ := hpre q short room bits
    unfold readCodeword
    simp only [hzr]
    rw [if_neg (by omega), if_neg (by omega), if_pos (by omega), hpast q _ room past]
    rfl

/-- At a legal cursor there stands a codeword or a corruption (R151): nothing else can occur. -/
theorem code_or_corrupt (cb : Codebook) (bs : Memory 8) {a e : Nat} (h : a ≤ e) :
    (∃ q n x v, IsCode cb q n x v ∧ holdsBits bs a (codeword q n x) = true ∧ a + (q + 1 + n) ≤ e) ∨
    ∃ sub pos, CorruptAt cb bs a e sub pos := by
  have hzeros := zeroRun_zeros bs a (min 16 (e - a))
  rcases Nat.lt_or_ge (zeroRun bs a (min 16 (e - a))) (min 16 (e - a)) with hlt | hge
  · have hone := zeroRun_one hlt
    generalize zeroRun bs a (min 16 (e - a)) = q at hlt hzeros hone
    have hbits : holdsBits bs a (codeword q 0 0) = true := holdsBits_codeword.2 ⟨hzeros, hone, rfl⟩
    by_cases hs : cb.switchBits.toNat < q
    · have hge := golombBits_escape hs
      obtain ⟨n, hn⟩ : ∃ n : Nat, (n : Int) = golombBits cb + q := ⟨(golombBits cb + q).toNat, by omega⟩
      by_cases h16 : n ≤ 16
      · by_cases hp : e < a + q + 1 + n
        · exact .inr ⟨_, _, .endsInEscape q n (by omega) (by omega) hbits hs hn h16 hp⟩
        · refine .inl ⟨q, n, bitsValue bs (a + q + 1) n, _, ⟨by omega, bitsValue_lt _ _ _, fun _ => ⟨hn, h16, rfl⟩,
            fun hc => by omega⟩, holdsBits_codeword.2 ⟨hzeros, hone, holdsBits_bitsValue _ _ _⟩, by omega⟩
      · exact .inr ⟨_, _, .escOverflow q (by omega) (by omega) hbits hs (by omega)⟩
    · by_cases hp : e < a + q + 1 + cb.riceOrder.toNat
      · exact .inr ⟨_, _, .endsInRice q (by omega) (by omega) hbits (by omega) hp⟩
      · refine .inl ⟨q, cb.riceOrder.toNat, bitsValue bs (a + q + 1) cb.riceOrder.toNat, _, ⟨by omega, bitsValue_lt _ _ _,
          fun hc => by omega, fun _ => ⟨rfl, rfl⟩⟩, holdsBits_codeword.2 ⟨hzeros, hone, holdsBits_bitsValue _ _ _⟩, by omega⟩
  · have heq : zeroRun bs a (min 16 (e - a)) = min 16 (e - a) := le_antisymm (zeroRun_le _ _ _) hge
    rw [heq] at hzeros
    by_cases h16 : a + 16 ≤ e
    · rw [show min 16 (e - a) = 16 by omega] at hzeros
      exact .inr ⟨_, _, .noTerminator h16 hzeros⟩
    · rw [show min 16 (e - a) = e - a by omega] at hzeros
      exact .inr ⟨_, _, .endsInPrefix h (by omega) hzeros⟩

/-- All that the reader can do at a legal cursor (R151). -/
theorem readCodeword_cases (cb : Codebook) {s : State} (h : s.cur.bitpos.toNat ≤ s.cur.bitend.toNat) :
    (∃ q n x v, IsCode cb q n x v ∧ holdsBits s.bs s.cur.bitpos.toNat (codeword q n x) = true ∧
      s.cur.bitpos.toNat + (q + 1 + n) ≤ s.cur.bitend.toNat ∧ readCodeword cb s = .ok v (s.advance (q + 1 + n))) ∨
    (∃ sub pos, CorruptAt cb s.bs s.cur.bitpos.toNat s.cur.bitend.toNat sub pos ∧
      readCodeword cb s = .raised (corruptionOf sub) (s.withBitpos pos)) := by
  rcases code_or_corrupt cb s.bs h with ⟨q, n, x, v, hc, hb, hr⟩ | ⟨sub, pos, hc⟩
  · exact .inl ⟨q, n, x, v, hc, hb, hr, readCodeword_of_code hc hb hr⟩
  · exact .inr ⟨sub, pos, hc, readCodeword_of_corrupt hc⟩

/-! ### Writing -/

/-- The writer's codeword is the value's (R153). -/
theorem codewordOf_isCode {cb : Codebook} {v : Int} {c : Codeword} (h : codewordOf cb v = .ok c) :
    IsCode cb c.zeros c.bits c.suffix v := by
  unfold codewordOf at h
  split at h
  · cases h
  · rename_i hv0
    have hv0 : 0 ≤ v := by omega
    obtain ⟨m, rfl⟩ := Int.eq_ofNat_of_zero_le hv0
    split at h
    · rename_i hT
      simp only [Except.ok.injEq] at h
      subst h
      have hT : m < (cb.switchBits.toNat + 1) * 2 ^ cb.riceOrder.toNat := by exact_mod_cast hT
      have hp : 0 < 2 ^ cb.riceOrder.toNat := by positivity
      have hq : m / 2 ^ cb.riceOrder.toNat ≤ cb.switchBits.toNat := by
        have := (Nat.div_lt_iff_lt_mul hp).2 hT
        omega
      have hs := cb.switchBits.isLt
      have hx : m &&& riceMask cb = m % 2 ^ cb.riceOrder.toNat := Nat.and_two_pow_sub_one_eq_mod _ _
      refine ⟨?_, ?_, fun hc => ?_, fun _ => ⟨rfl, ?_⟩⟩
      · simp; omega
      · simp only [Int.toNat_natCast, hx]; exact Nat.mod_lt _ hp
      · simp at hc; omega
      · simp only [Int.toNat_natCast, hx]
        congr 1
        rw [Nat.mul_comm]
        exact (Nat.div_add_mod _ _).symm
    · rename_i hT
      simp only at h
      split at h
      · cases h
      · rename_i hlim
        simp only [Except.ok.injEq] at h
        subst h
        have hT : ((cb.switchBits.toNat + 1) * 2 ^ cb.riceOrder.toNat : Nat) ≤ (m : Int) := by omega
        have hw : (2 ^ cb.expOrder.toNat : Nat) ≤ (m : Int) + golombOffset cb := by
          unfold golombOffset; push_cast at hT ⊢; omega
        obtain ⟨w, hwv⟩ : ∃ w : Nat, (w : Int) = (m : Int) + golombOffset cb :=
          ⟨((m : Int) + golombOffset cb).toNat, Int.toNat_of_nonneg (le_trans (Int.natCast_nonneg _) hw)⟩
        have hww : ((m : Int) + golombOffset cb).toNat = w := by omega
        rw [hww] at hlim ⊢
        have hwe : 2 ^ cb.expOrder.toNat ≤ w := by exact_mod_cast (hwv ▸ hw)
        have hw0 : w ≠ 0 := by have : 0 < 2 ^ cb.expOrder.toNat := by positivity
                               omega
        have hlog : cb.expOrder.toNat ≤ Nat.log2 w := (Nat.le_log2 hw0).2 hwe
        have hlo : 2 ^ Nat.log2 w ≤ w := Nat.log2_self_le hw0
        have hhi : w < 2 ^ (Nat.log2 w + 1) := Nat.lt_log2_self
        have hq : (((Nat.log2 w : Int) - golombBits cb).toNat : Int) = (Nat.log2 w : Int) - golombBits cb := by
          unfold golombBits; omega
        unfold lookahead escMaxBits at hlim
        rw [pow_succ] at hhi
        refine ⟨?_, ?_, fun _ => ⟨?_, ?_, ?_⟩, fun hc => ?_⟩
        · simp only; omega
        · simp only; omega
        · simp only; omega
        · simp only; omega
        · simp only
          rw [show 2 ^ Nat.log2 w + (w - 2 ^ Nat.log2 w) = w by omega]
          omega
        · exfalso
          simp only at hc
          have : golombBits cb = (cb.expOrder.toNat : Int) - cb.switchBits.toNat - 1 := rfl
          omega

/-- A value with a codeword is given it by the writer (R153, R156). -/
theorem codewordOf_of_isCode {cb : Codebook} {q n x : Nat} {v : Int} (h : IsCode cb q n x v) :
    codewordOf cb v = .ok ⟨q, n, x⟩ := by
  have hb := isCode_bounds h
  have key : ∃ c, codewordOf cb v = .ok c := by
    unfold codewordOf
    rw [if_neg (by omega)]
    split
    · exact ⟨_, rfl⟩
    · rename_i hT
      have hs : cb.switchBits.toNat < q := by
        by_contra hs
        obtain ⟨hn, hv⟩ := h.riceForm (by omega)
        have h1 : q + 1 ≤ cb.switchBits.toNat + 1 := by omega
        have h2 := Nat.mul_le_mul_right (2 ^ n) h1
        have hx := h.suffixFits
        rw [Nat.add_mul q] at h2
        rw [← hn, hv] at hT
        have : q * 2 ^ n + x < (cb.switchBits.toNat + 1) * 2 ^ n := by omega
        exact hT (by exact_mod_cast this)
      obtain ⟨hn, h16, hv⟩ := h.suffixLegal hs
      have e : (v + golombOffset cb).toNat = 2 ^ n + x := by
        rw [hv, sub_add_cancel]; exact Int.toNat_natCast _
      have hlog : Nat.log2 (2 ^ n + x) = n := by
        rw [Nat.log2_eq_iff (by have : 0 < 2 ^ n := by positivity
                                omega)]
        have := h.suffixFits
        rw [pow_succ]
        omega
      have hq := h.prefixLegal
      simp only [e, hlog]
      rw [if_neg (by unfold escMaxBits lookahead; omega)]
      exact ⟨_, rfl⟩
  obtain ⟨c, hc⟩ := key
  obtain ⟨h1, h2, h3⟩ := isCode_unique (codewordOf_isCode hc) h
  rw [hc, ← h1, ← h2, ← h3]

/-- The state after the writer's three writes: the codeword stored, `BITPOS` past it (20_memory.md R78). -/
theorem writeBits_codeword {s : State} (hwf : Memory.wf bsUnlisted s.bs) {q n x : Nat}
    (hroom : s.cur.bitpos.toNat + (q + 1 + n) ≤ s.cur.bitend.toNat) :
    ∃ bs, writeBits n x (writeBits 1 1 (writeBits q 0 s)) = (s.advance (q + 1 + n)).withBs bs ∧
      StoresBits s.bs bs s.cur.bitpos.toNat (codeword q n x) ∧ Memory.wf bsUnlisted bs := by
  have hend := s.cur.bitend.isLt
  have h1 : s.cur.bitpos.toNat + q < 2 ^ 32 := by omega
  have h2 : s.cur.bitpos.toNat + q + 1 < 2 ^ 32 := by omega
  have e1 : (writeBits q 0 s).cur.bitpos.toNat = s.cur.bitpos.toNat + q := by
    rw [writeBits, State.advance_bitpos]
    · rfl
    · exact h1
  have e2 : (writeBits 1 1 (writeBits q 0 s)).cur.bitpos.toNat = s.cur.bitpos.toNat + q + 1 := by
    rw [writeBits, State.advance_bitpos]
    · show (writeBits q 0 s).cur.bitpos.toNat + 1 = _
      rw [e1]
    · show (writeBits q 0 s).cur.bitpos.toNat + 1 < _
      rw [e1]; exact h2
  have w1 := bsWriteBits_wf hwf q s.cur.bitpos.toNat 0
  have w2 := bsWriteBits_wf w1 1 (s.cur.bitpos.toNat + q) 1
  have w3 := bsWriteBits_wf w2 n (s.cur.bitpos.toNat + q + 1) x
  refine ⟨_, ?_, ?_, w3⟩
  · have e3 : ∀ (u : State) m y, writeBits m y u = (u.withBs (bsWriteBits m u.bs u.cur.bitpos.toNat y)).withBitpos
        (u.cur.bitpos.toNat + m) := fun _ _ _ => rfl
    rw [e3 (writeBits 1 1 (writeBits q 0 s)), e2, State.advance,
      show s.cur.bitpos.toNat + (q + 1 + n) = s.cur.bitpos.toNat + q + 1 + n by omega]
    rw [show (writeBits 1 1 (writeBits q 0 s)).bs = bsWriteBits 1 (bsWriteBits q s.bs s.cur.bitpos.toNat 0)
      (writeBits q 0 s).cur.bitpos.toNat 1 from rfl, e1]
    rfl
  · have s1 := bsWriteBits_stores hwf q s.cur.bitpos.toNat 0
    have s2 := bsWriteBits_stores w1 1 (s.cur.bitpos.toNat + q) 1
    have s3 := bsWriteBits_stores w2 n (s.cur.bitpos.toNat + q + 1) x
    rw [msbBits_zero] at s1
    have s12 := storesBits_append s1 (by simpa using s2)
    have s123 := storesBits_append s12 (m := msbBits n x) (by
      have : s.cur.bitpos.toNat + (List.replicate q false ++ msbBits 1 1).length = s.cur.bitpos.toNat + q + 1 := by
        simp; omega
      rw [this]; exact s3)
    have hm : msbBits 1 1 = [true] := rfl
    rw [hm, List.append_assoc] at s123
    exact s123

/-- All that the writer can do (R153): refuse the value, refuse for want of room, or store its codeword and pass it. -/
theorem writeCodeword_cases (cb : Codebook) (v : Int) {s : State} (hwf : Memory.wf bsUnlisted s.bs) :
    (∃ e, codewordOf cb v = .error e ∧ writeCodeword cb v s = .raised (.notRepresentable e) s) ∨
    (∃ q n x, IsCode cb q n x v ∧ s.cur.bitend.toNat < s.cur.bitpos.toNat + (q + 1 + n) ∧
      writeCodeword cb v s = .raised (.bufferTooSmall .stream) s) ∨
    (∃ q n x bs, IsCode cb q n x v ∧ s.cur.bitpos.toNat + (q + 1 + n) ≤ s.cur.bitend.toNat ∧
      writeCodeword cb v s = .ok () ((s.advance (q + 1 + n)).withBs bs) ∧
      StoresBits s.bs bs s.cur.bitpos.toNat (codeword q n x) ∧ Memory.wf bsUnlisted bs) := by
  unfold writeCodeword
  cases hc : codewordOf cb v with
  | error e => exact .inl ⟨e, rfl, rfl⟩
  | ok c =>
    obtain ⟨q, n, x⟩ := c
    have hi := codewordOf_isCode hc
    simp only
    split
    · exact .inr (.inl ⟨q, n, x, hi, by omega, rfl⟩)
    · obtain ⟨bs, h1, h2, h3⟩ := writeBits_codeword hwf (q := q) (n := n) (x := x) (s := s) (by omega)
      exact .inr (.inr ⟨q, n, x, bs, hi, by omega, by rw [h1], h2, h3⟩)

end Sys2Proof.Machine
end

