-- ==== Sys2Proof/Laws/Commands.lean ====
section
/-! SUPPORT. One lemma for each operation the commands share, saying once all that it can do: the checks, running a command, taking a
fault, and the frames of the decode and encode loops. -/

namespace Sys2Proof.Machine

open Sys2Proof.Claims

/-! ### Results -/

@[simp] theorem Res.bind_ok {α β : Type} (a : α) (s : State) (f : α → State → Res β) : (Res.ok a s).bind f = f a s := rfl
@[simp] theorem Res.bind_raised {α β : Type} (r : Raise) (s : State) (f : α → State → Res β) :
    (Res.raised r s).bind f = .raised r s := rfl

/-- The state a result ends in. -/
def Res.state {α : Type} : Res α → State
  | .ok _ s => s
  | .raised _ s => s

@[simp] theorem Res.state_ok {α : Type} (a : α) (s : State) : (Res.ok a s).state = s := rfl
@[simp] theorem Res.state_raised {α : Type} (r : Raise) (s : State) : (Res.raised r s : Res α).state = s := rfl

/-- What holds of every state a sequence can end in: of the first part's if it raises, else of the second's. -/
theorem Res.bind_state {α β : Type} {P : State → Prop} {x : Res α} {f : α → State → Res β} (h0 : P x.state)
    (h : ∀ a s, x = .ok a s → P s → P (f a s).state) : P (x.bind f).state := by
  cases x with
  | ok a s => exact h a s rfl h0
  | raised r s => exact h0

/-- All that a check can do. -/
theorem require_eq (c : Bool) (r : Raise) (s : State) : require c r s = if c then .ok () s else .raised r s := rfl

theorem checkBuffer_ok {s : State} (h : BufferLegal s) : checkBuffer s = .ok () s := by
  simp [checkBuffer, require, h]

theorem checkCursors_ok {s : State} (h : CursorsLegal s) : checkCursors s = .ok () s := by
  have h := h
  obtain ⟨h1, h2, h3⟩ := h
  simp [checkCursors, require, h1, h2, h3]

theorem checkBps_ok {s : State} (h : BpsLegal s) : checkBps s = .ok () s := by
  simp [checkBps, require, h]

theorem checkMaxc_ok {s : State} (h : MaxcLegal s) : checkMaxc s = .ok () s := by
  obtain ⟨h1, h2⟩ := h
  simp [checkMaxc, require, h1, h2]

theorem checkBuffer_cases (s : State) :
    (BufferLegal s ∧ checkBuffer s = .ok () s) ∨ (¬BufferLegal s ∧ checkBuffer s = .raised (.badOperand .cursor) s) := by
  by_cases h : BufferLegal s
  · exact .inl ⟨h, checkBuffer_ok h⟩
  · exact .inr ⟨h, by simp [checkBuffer, require, h]⟩

theorem checkCursors_cases (s : State) :
    (CursorsLegal s ∧ checkCursors s = .ok () s) ∨ (¬CursorsLegal s ∧ checkCursors s = .raised (.badOperand .cursor) s) := by
  by_cases h : CursorsLegal s
  · exact .inl ⟨h, checkCursors_ok h⟩
  · refine .inr ⟨h, ?_⟩
    rw [checkCursors, require, if_neg]
    simpa [BufferLegal] using h

theorem checkBps_cases (s : State) :
    (BpsLegal s ∧ checkBps s = .ok () s) ∨ (¬BpsLegal s ∧ checkBps s = .raised (.badOperand .bps) s) := by
  by_cases h : BpsLegal s
  · exact .inl ⟨h, checkBps_ok h⟩
  · exact .inr ⟨h, by simp [checkBps, require, h]⟩

theorem checkMaxc_cases (s : State) :
    (MaxcLegal s ∧ checkMaxc s = .ok () s) ∨ (¬MaxcLegal s ∧ checkMaxc s = .raised (.badOperand .maxc) s) := by
  by_cases h : MaxcLegal s
  · exact .inl ⟨h, checkMaxc_ok h⟩
  · refine .inr ⟨h, ?_⟩
    rw [checkMaxc, require, if_neg]
    simpa using h

/-! ### Running a command -/

theorem runCommand_halted {i : Instr} {s : State} {body : State → Res Unit} (h : s.status.halt = true) :
    runCommand i s body = .next s.setRej := by simp [runCommand, h]

theorem runCommand_ok {i : Instr} {s t : State} {body : State → Res Unit} (h : Running s) (hb : body s = .ok () t) :
    runCommand i s body = .next t := by simp [runCommand, h, hb]

theorem runCommand_raised {i : Instr} {s t : State} {r : Raise} {body : State → Res Unit} (h : Running s)
    (hb : body s = .raised r t) : runCommand i s body = .next (takeFault i s r t) := by simp [runCommand, h, hb]

/-- All that running a command can do (60_exceptions.md R269 to R273). -/
theorem runCommand_cases {i : Instr} {s t : State} {body : State → Res Unit} (h : runCommand i s body = .next t) :
    (s.status.halt = true ∧ t = s.setRej) ∨ (Running s ∧ body s = .ok () t) ∨
    (Running s ∧ ∃ r u, body s = .raised r u ∧ t = takeFault i s r u) := by
  cases hh : s.status.halt with
  | true => exact .inl ⟨rfl, (Host.Outcome.next.inj ((runCommand_halted hh).symm.trans h)).symm⟩
  | false =>
    cases hb : body s with
    | ok a u => exact .inr (.inl ⟨hh, by rw [Host.Outcome.next.inj ((runCommand_ok hh hb).symm.trans h)]⟩)
    | raised r u => exact .inr (.inr ⟨hh, r, u, rfl, (Host.Outcome.next.inj ((runCommand_raised hh hb).symm.trans h)).symm⟩)

/-- A command never stops the model. -/
theorem runCommand_next (i : Instr) (s : State) (body : State → Res Unit) : ∃ t, runCommand i s body = .next t := by
  unfold runCommand
  split <;> exact ⟨_, rfl⟩

/-! ### Taking a fault: nothing changes but the record and the flags -/

variable (i : Instr) (s : State) (r : Raise) (t : State)

/-- All that taking a fault can do. -/
theorem takeFault_cases :
    (r.recoverable = true ∧ t.strict = false ∧
      takeFault i s r t = enterConcealed i.opcode (faultCursor (Instr.posKind i) s t) (Instr.abandons i) r t) ∨
    ((r.recoverable = false ∨ t.strict = true) ∧
      takeFault i s r t = enterFatal i.opcode (faultCursor (Instr.posKind i) s t) r t) := by
  unfold takeFault
  cases h1 : r.recoverable <;> cases h2 : t.strict <;> simp

@[simp] theorem takeFault_cfg : (takeFault i s r t).cfg = t.cfg := by unfold takeFault; split <;> rfl
@[simp] theorem takeFault_host : (takeFault i s r t).host = t.host := by unfold takeFault; split <;> rfl
@[simp] theorem takeFault_strict : (takeFault i s r t).strict = t.strict := by unfold takeFault; split <;> rfl
@[simp] theorem takeFault_val : (takeFault i s r t).val = t.val := by unfold takeFault; split <;> rfl
@[simp] theorem takeFault_cbd : (takeFault i s r t).cbd = t.cbd := by unfold takeFault; split <;> rfl
@[simp] theorem takeFault_cur : (takeFault i s r t).cur = t.cur := by unfold takeFault; split <;> rfl
@[simp] theorem takeFault_plane : (takeFault i s r t).plane = t.plane := by unfold takeFault; split <;> rfl
@[simp] theorem takeFault_fh : (takeFault i s r t).fh = t.fh := by unfold takeFault; split <;> rfl
@[simp] theorem takeFault_ph : (takeFault i s r t).ph = t.ph := by unfold takeFault; split <;> rfl
@[simp] theorem takeFault_sched : (takeFault i s r t).sched = t.sched := by unfold takeFault; split <;> rfl
@[simp] theorem takeFault_slice : (takeFault i s r t).slice = t.slice := by unfold takeFault; split <;> rfl
@[simp] theorem takeFault_ctx : (takeFault i s r t).ctx = t.ctx := by unfold takeFault; split <;> rfl
@[simp] theorem takeFault_bs : (takeFault i s r t).bs = t.bs := by unfold takeFault; split <;> rfl
@[simp] theorem takeFault_coef : (takeFault i s r t).coef = t.coef := by unfold takeFault; split <;> rfl
@[simp] theorem takeFault_qm : (takeFault i s r t).qm = t.qm := by unfold takeFault; split <;> rfl
@[simp] theorem takeFault_qms : (takeFault i s r t).qms = t.qms := by unfold takeFault; split <;> rfl
@[simp] theorem takeFault_sst : (takeFault i s r t).sst = t.sst := by unfold takeFault; split <;> rfl

/-! ### The frame of the decode commands -/

/-- What a decode loop leaves: everything but `BITPOS`, the context, the flag `EOP` and words of COEF inside the plane. -/
structure DecodeFrame (s t : State) : Prop where
  cfg : t.cfg = s.cfg
  host : t.host = s.host
  status : ({ t.status with eop := s.status.eop } : Status) = s.status
  strict : t.strict = s.strict
  record : t.record = s.record
  val : t.val = s.val
  cbd : t.cbd = s.cbd
  cur : ({ t.cur with bitpos := s.cur.bitpos } : Cursors) = s.cur
  plane : t.plane = s.plane
  fh : t.fh = s.fh
  ph : t.ph = s.ph
  sched : t.sched = s.sched
  slice : t.slice = s.slice
  bs : t.bs = s.bs
  qm : t.qm = s.qm
  qms : t.qms = s.qms
  sst : t.sst = s.sst
  coefWf : Memory.wf coefUnlisted s.coef → Memory.wf coefUnlisted t.coef
  coefInside : ∀ n, 64 * s.bps ≤ n → Memory.inside n s.coef → Memory.inside n t.coef
  coefOutside : Memory.wf coefUnlisted s.coef → ∀ k, 64 * s.bps ≤ k → t.coefAt k = s.coefAt k

theorem DecodeFrame.refl (s : State) : DecodeFrame s s :=
  ⟨rfl, rfl, rfl, rfl, rfl, rfl, rfl, rfl, rfl, rfl, rfl, rfl, rfl, rfl, rfl, rfl, rfl, id, fun _ _ => id, fun _ _ _ => rfl⟩

theorem DecodeFrame.trans {s t u : State} (h : DecodeFrame s t) (k : DecodeFrame t u) : DecodeFrame s u := by
  have hb : t.bps = s.bps := by rw [State.bps, State.bps, h.plane]
  have status := h.status
  have status' := k.status
  have cur := h.cur
  have cur' := k.cur
  refine ⟨k.cfg.trans h.cfg, k.host.trans h.host, ?_, k.strict.trans h.strict, k.record.trans h.record, k.val.trans h.val,
    k.cbd.trans h.cbd, ?_, k.plane.trans h.plane, k.fh.trans h.fh, k.ph.trans h.ph, k.sched.trans h.sched,
    k.slice.trans h.slice, k.bs.trans h.bs, k.qm.trans h.qm, k.qms.trans h.qms, k.sst.trans h.sst,
    fun w => k.coefWf (h.coefWf w), fun n hn hi => k.coefInside n (hb ▸ hn) (h.coefInside n hn hi),
    fun w a ha => (k.coefOutside (h.coefWf w) a (hb ▸ ha)).trans (h.coefOutside w a ha)⟩
  · rw [← status, ← status']
  · rw [← cur, ← cur']

theorem decodeFrame_withBitpos (s : State) (v : Nat) : DecodeFrame s (s.withBitpos v) :=
  ⟨rfl, rfl, rfl, rfl, rfl, rfl, rfl, rfl, rfl, rfl, rfl, rfl, rfl, rfl, rfl, rfl, rfl, id, fun _ _ => id, fun _ _ _ => rfl⟩

theorem decodeFrame_withCtx (s : State) (c : CoderContext) : DecodeFrame s (s.withCtx c) :=
  ⟨rfl, rfl, rfl, rfl, rfl, rfl, rfl, rfl, rfl, rfl, rfl, rfl, rfl, rfl, rfl, rfl, rfl, id, fun _ _ => id, fun _ _ _ => rfl⟩

theorem decodeFrame_setEop (s : State) : DecodeFrame s s.setEop :=
  ⟨rfl, rfl, rfl, rfl, rfl, rfl, rfl, rfl, rfl, rfl, rfl, rfl, rfl, rfl, rfl, rfl, rfl, id, fun _ _ => id, fun _ _ _ => rfl⟩

theorem decodeFrame_clearEop (s : State) : DecodeFrame s s.clearEop :=
  ⟨rfl, rfl, rfl, rfl, rfl, rfl, rfl, rfl, rfl, rfl, rfl, rfl, rfl, rfl, rfl, rfl, rfl, id, fun _ _ => id, fun _ _ _ => rfl⟩

theorem decodeFrame_setCoef (s : State) {k : Nat} (hk : k < 64 * s.bps) (v : Word) : DecodeFrame s (s.setCoef k v) := by
  refine ⟨rfl, rfl, rfl, rfl, rfl, rfl, rfl, rfl, rfl, rfl, rfl, rfl, rfl, rfl, rfl, rfl, rfl,
    fun w => Memory.wf_write _ w k v, fun n hn hi => Memory.inside_write _ hi (by omega) v, fun w a ha => ?_⟩
  show Memory.read coefUnlisted (Memory.write coefUnlisted s.coef k v) a = _
  rw [Memory.read_write _ w, if_neg (by omega)]
  rfl

/-- A codeword read moves `BITPOS` only, and raises nothing but `CorruptSliceData` (R151). -/
theorem readCodeword_state (cb : Codebook) (s : State) : ∃ v, (readCodeword cb s).state = s.withBitpos v := by
  have hz : s = s.withBitpos s.cur.bitpos.toNat := (State.advance_zero s).symm
  have hrb : ∀ {n : Nat} {u : State} (f : Nat → Int), (∃ v, u = s.withBitpos v) →
      ∃ v, ((readBits n u).bind fun x w => Res.ok (f x) w).state = s.withBitpos v := by
    rintro n u f ⟨v, rfl⟩
    rcases readBits_cases n (s.withBitpos v) with ⟨-, h⟩ | ⟨-, h⟩ <;> rw [h]
    · exact ⟨_, rfl⟩
    · exact ⟨_, rfl⟩
  unfold readCodeword
  simp only
  split
  · split <;> exact ⟨_, hz⟩
  · split
    · split
      · exact ⟨_, rfl⟩
      · exact hrb _ ⟨_, rfl⟩
    · split
      · exact hrb _ ⟨_, rfl⟩
      · exact ⟨_, rfl⟩

theorem readCodeword_raises {cb : Codebook} {s t : State} {r : Raise} (h : readCodeword cb s = .raised r t) :
    r.recoverable = true := by
  have hrb : ∀ {n : Nat} {u : State} {f : Nat → Int}, ((readBits n u).bind fun x w => Res.ok (f x) w) = .raised r t →
      r.recoverable = true := by
    intro n u f h
    rcases readBits_cases n u with ⟨-, e⟩ | ⟨-, e⟩ <;> rw [e] at h
    · cases h
    · cases h; rfl
  unfold readCodeword at h
  simp only at h
  split at h
  · split at h <;> (cases h; rfl)
  · split at h
    · split at h
      · cases h; rfl
      · exact hrb h
    · split at h
      · exact hrb h
      · cases h

theorem readCodeword_frame (cb : Codebook) (s : State) : DecodeFrame s (readCodeword cb s).state := by
  obtain ⟨v, h⟩ := readCodeword_state cb s
  rw [h]
  exact decodeFrame_withBitpos s v

theorem scan_lt (s : State) (j : Nat) : s.scan j < 64 := BitVec.isLt _

theorem coefIndexOf_lt (s : State) (pos : Nat) : coefIndexOf s pos < 64 * s.bps := by
  have h := scan_lt s (pos / s.bps)
  have hb : pos % s.bps < s.bps := Nat.mod_lt _ (Nat.two_pow_pos _)
  unfold coefIndexOf
  omega

theorem storeDc_frame (p : QMatrix) (dc : Word) {s : State} (h : s.ctx.blk.toNat < s.bps) : DecodeFrame s (storeDc p dc s) := by
  have h1 := (decodeFrame_setCoef s (k := 64 * s.ctx.blk.toNat) (by omega) (dequant s p 0 dc)).trans
    (decodeFrame_withCtx _ { s.ctx with prevdc := dc, blk := s.ctx.blk + 1 })
  unfold storeDc
  simp only
  split
  · exact h1.trans (decodeFrame_setEop _)
  · exact h1

/-- One DC step changes only what the frame leaves open (43_coefficient_coder.md R203). -/
theorem dcStep_frame (p : QMatrix) (s : State) : DecodeFrame s (dcStep p s).state := by
  unfold dcStep
  split
  · exact .refl s
  · split
    · exact decodeFrame_setEop s
    · rename_i hb
      split
      · refine Res.bind_state (readCodeword_frame _ _) fun code u hu hf => hf.trans ?_
        have hb' : ∀ x : CoderContext, x.blk = u.ctx.blk → (u.withCtx x).ctx.blk.toNat < (u.withCtx x).bps := by
          intro x hx
          obtain ⟨v, hv⟩ := readCodeword_state (cbromAt s.cfg.cbrom .firstDC 0) s
          rw [hu] at hv
          have hv : u = s.withBitpos v := hv
          subst hv
          simp only [State.withCtx_ctx, hx]
          exact Nat.not_le.1 hb
        have hbu := hb' u.ctx rfl
        cases hc : u.cfg.dcCtxInit with
        | const n => exact storeDc_frame p _ hbu
        | firstCode => exact (decodeFrame_withCtx _ _).trans (storeDc_frame p _ (hb' _ rfl))
      · refine Res.bind_state (readCodeword_frame _ _) fun code u hu hf => hf.trans ?_
        refine (decodeFrame_withCtx u _).trans (storeDc_frame p _ ?_)
        obtain ⟨v, hv⟩ := readCodeword_state (cbromAt s.cfg.cbrom .dcDelta s.ctx.prevcode.toNat) s
        rw [hu] at hv
        have hv : u = s.withBitpos v := hv
        subst hv
        exact Nat.not_le.1 hb

theorem dcLoop_frame (p : QMatrix) (n : Nat) (s : State) : DecodeFrame s (dcLoop p n s).state := by
  induction n generalizing s with
  | zero => exact .refl s
  | succ n ih =>
    rw [dcLoop]
    refine Res.bind_state (dcStep_frame p s) fun _ t _ hf => ?_
    split
    · exact hf
    · exact hf.trans (ih t)

theorem storeAc_frame (p : QMatrix) (np : Nat) (run lv : Int) (negative : Bool) (s : State) :
    DecodeFrame s (storeAc p np run lv negative s) :=
  (decodeFrame_setCoef s (coefIndexOf_lt s np) _).trans (decodeFrame_withCtx _ _)

/-- One AC step changes only what the frame leaves open (R206). -/
theorem acStep_frame (p : QMatrix) (s : State) : DecodeFrame s (acStep p s).state := by
  unfold acStep
  split
  · exact .refl s
  · split
    · exact decodeFrame_setEop s
    · refine Res.bind_state (readCodeword_frame _ _) fun run u _ hf => hf.trans ?_
      simp only
      split
      · exact .refl u
      · split
        · exact decodeFrame_setEop u
        · refine Res.bind_state (readCodeword_frame _ _) fun code v _ hf' => hf'.trans ?_
          rcases readBits_cases 1 v with ⟨-, e⟩ | ⟨-, e⟩ <;> rw [e]
          · exact (decodeFrame_withBitpos v _).trans (storeAc_frame p _ _ _ _ _)
          · exact .refl v

theorem acLoop_frame (p : QMatrix) (n : Nat) (s : State) : DecodeFrame s (acLoop p n s).state := by
  induction n generalizing s with
  | zero => exact .refl s
  | succ n ih =>
    rw [acLoop]
    refine Res.bind_state (acStep_frame p s) fun _ t _ hf => ?_
    split
    · exact hf
    · exact hf.trans (ih t)

/-! ### The frame of the encode commands -/

/-- What an encode loop leaves: everything but `BITPOS`, the context, and the bits of BS from `BITPOS` up to `BITEND`. -/
structure EncodeFrame (s t : State) : Prop where
  cfg : t.cfg = s.cfg
  host : t.host = s.host
  status : t.status = s.status
  strict : t.strict = s.strict
  record : t.record = s.record
  val : t.val = s.val
  cbd : t.cbd = s.cbd
  cur : ({ t.cur with bitpos := s.cur.bitpos } : Cursors) = s.cur
  plane : t.plane = s.plane
  fh : t.fh = s.fh
  ph : t.ph = s.ph
  sched : t.sched = s.sched
  slice : t.slice = s.slice
  coef : t.coef = s.coef
  qm : t.qm = s.qm
  qms : t.qms = s.qms
  sst : t.sst = s.sst
  bsWf : Memory.wf bsUnlisted t.bs
  bitpos : s.cur.bitpos.toNat ≤ t.cur.bitpos.toNat ∧ t.cur.bitpos.toNat ≤ t.cur.bitend.toNat
  bsInside : ∀ n, s.cur.bitend.toNat ≤ 8 * n → Memory.inside n s.bs → Memory.inside n t.bs
  stores : ∃ l : List Bool, l.length = t.cur.bitpos.toNat - s.cur.bitpos.toNat ∧ StoresBits s.bs t.bs s.cur.bitpos.toNat l

theorem EncodeFrame.bitend {s t : State} (h : EncodeFrame s t) : t.cur.bitend = s.cur.bitend := by
  have c := h.cur
  rw [← c]

theorem EncodeFrame.refl {s : State} (hw : Memory.wf bsUnlisted s.bs) (h : s.cur.bitpos.toNat ≤ s.cur.bitend.toNat) :
    EncodeFrame s s :=
  ⟨rfl, rfl, rfl, rfl, rfl, rfl, rfl, rfl, rfl, rfl, rfl, rfl, rfl, rfl, rfl, rfl, rfl, hw, ⟨le_rfl, h⟩, fun _ _ => id,
    [], by simp, storesBits_refl _ _⟩

theorem EncodeFrame.trans {s t u : State} (h : EncodeFrame s t) (k : EncodeFrame t u) : EncodeFrame s u := by
  obtain ⟨l, hl, hs⟩ := h.stores
  obtain ⟨m, hm, ks⟩ := k.stores
  have h1 := h.bitpos
  have h2 := k.bitpos
  have e : s.cur.bitpos.toNat + l.length = t.cur.bitpos.toNat := by omega
  refine ⟨k.cfg.trans h.cfg, k.host.trans h.host, k.status.trans h.status, k.strict.trans h.strict, k.record.trans h.record,
    k.val.trans h.val, k.cbd.trans h.cbd, ?_, k.plane.trans h.plane, k.fh.trans h.fh, k.ph.trans h.ph, k.sched.trans h.sched,
    k.slice.trans h.slice, k.coef.trans h.coef, k.qm.trans h.qm, k.qms.trans h.qms, k.sst.trans h.sst, k.bsWf,
    ⟨by omega, h2.2⟩, fun n hn hi => k.bsInside n (by rw [h.bitend]; exact hn) (h.bsInside n hn hi),
    l ++ m, by rw [List.length_append]; omega, storesBits_append hs (e ▸ ks)⟩
  have c1 := h.cur
  have c2 := k.cur
  rw [← c1, ← c2]

theorem encodeFrame_withCtx {s t : State} (h : EncodeFrame s t) (c : CoderContext) : EncodeFrame s (t.withCtx c) :=
  ⟨h.cfg, h.host, h.status, h.strict, h.record, h.val, h.cbd, h.cur, h.plane, h.fh, h.ph, h.sched, h.slice, h.coef, h.qm,
    h.qms, h.sst, h.bsWf, h.bitpos, h.bsInside, h.stores⟩

/-- Storing bits that fit below `BITEND` (20_memory.md R78). -/
theorem writeBits_frame {s : State} (hw : Memory.wf bsUnlisted s.bs) {n : Nat} (h : s.cur.bitpos.toNat + n ≤ s.cur.bitend.toNat)
    (v : Nat) : EncodeFrame s (writeBits n v s) := by
  have hend := s.cur.bitend.isLt
  have e : (writeBits n v s).cur.bitpos.toNat = s.cur.bitpos.toNat + n := by
    rw [writeBits, State.advance_bitpos]
    · rfl
    · show s.cur.bitpos.toNat + n < _; omega
  refine ⟨rfl, rfl, rfl, rfl, rfl, rfl, rfl, rfl, rfl, rfl, rfl, rfl, rfl, rfl, rfl, rfl, rfl, bsWriteBits_wf hw _ _ _,
    ⟨by omega, by rw [e]; exact h⟩, fun m hm hi => bsWriteBits_inside hi (by omega) v,
    msbBits n v, by rw [msbBits_length]; omega, bsWriteBits_stores hw _ _ _⟩

/-- Writing a codeword (41_entropy_coder.md R153). -/
theorem writeCodeword_frame (cb : Codebook) (v : Int) {s : State} (hw : Memory.wf bsUnlisted s.bs)
    (h : s.cur.bitpos.toNat ≤ s.cur.bitend.toNat) : EncodeFrame s (writeCodeword cb v s).state := by
  unfold writeCodeword
  split
  · exact .refl hw h
  · rename_i c _
    split
    · exact .refl hw h
    · rename_i hroom
      have f1 := writeBits_frame hw (n := c.zeros) (by omega) 0
      have e1 : (writeBits c.zeros 0 s).cur.bitpos.toNat = s.cur.bitpos.toNat + c.zeros := by
        obtain ⟨l, hl, -⟩ := f1.stores
        have hend := s.cur.bitend.isLt
        rw [writeBits, State.advance_bitpos]
        · rfl
        · show s.cur.bitpos.toNat + c.zeros < _; omega
      have f2 := writeBits_frame f1.bsWf (n := 1) (by rw [f1.bitend, e1]; omega) 1
      have e2 : (writeBits 1 1 (writeBits c.zeros 0 s)).cur.bitpos.toNat = s.cur.bitpos.toNat + c.zeros + 1 := by
        have hend := s.cur.bitend.isLt
        rw [writeBits, State.advance_bitpos]
        · show (writeBits c.zeros 0 s).cur.bitpos.toNat + 1 = _
          rw [e1]
        · show (writeBits c.zeros 0 s).cur.bitpos.toNat + 1 < _
          rw [e1]; omega
      exact f1.trans (f2.trans (writeBits_frame f2.bsWf (by rw [f2.bitend, f1.bitend, e2]; omega) _))

theorem wrdcLoop_frame (n blk : Nat) {s : State} (hw : Memory.wf bsUnlisted s.bs)
    (h : s.cur.bitpos.toNat ≤ s.cur.bitend.toNat) : EncodeFrame s (wrdcLoop n blk s).state := by
  induction n generalizing blk s with
  | zero => exact .refl hw h
  | succ n ih =>
    rw [wrdcLoop]
    refine Res.bind_state (writeCodeword_frame _ _ hw h) fun _ t _ hf => ?_
    exact (encodeFrame_withCtx hf _).trans (ih _ hf.bsWf hf.bitpos.2)

theorem writeTriple_frame (pos run : Nat) (c : Word) {s : State} (hw : Memory.wf bsUnlisted s.bs)
    (h : s.cur.bitpos.toNat ≤ s.cur.bitend.toNat) : EncodeFrame s (writeTriple pos run c s).state := by
  unfold writeTriple
  refine Res.bind_state (writeCodeword_frame _ _ hw h) fun _ t _ hf => hf.trans ?_
  refine Res.bind_state (writeCodeword_frame _ _ hf.bsWf hf.bitpos.2) fun _ u _ hf' => hf'.trans ?_
  split
  · exact .refl hf'.bsWf hf'.bitpos.2
  · exact encodeFrame_withCtx (writeBits_frame hf'.bsWf (by omega) _) _

theorem wracLoop_frame (n pos run : Nat) {s : State} (hw : Memory.wf bsUnlisted s.bs)
    (h : s.cur.bitpos.toNat ≤ s.cur.bitend.toNat) : EncodeFrame s (wracLoop n pos run s).state := by
  induction n generalizing pos run s with
  | zero => exact .refl hw h
  | succ n ih =>
    rw [wracLoop]
    split
    · exact ih _ _ hw h
    · refine Res.bind_state (writeTriple_frame _ _ _ hw h) fun _ t _ hf => ?_
      exact hf.trans (ih _ _ hf.bsWf hf.bitpos.2)

end Sys2Proof.Machine
end

