-- ==== Sys2Proof/Laws/Dispatch.lean ====
section
/-! SUPPORT. The dispatch in one equation: every command but SRST and CLRF is `runCommand` over its pseudocode, so a statement about
all commands is one about `runCommand` and the pseudocodes. Then the words a fault record is made of, as numbers. -/

namespace Sys2Proof.Machine

open Sys2Proof.Claims

/-! ### The pseudocode of each command -/

/-- The pseudocode of a command; SRST and CLRF, which run while halted too, have none. -/
def Instr.body : Instr → State → Res Unit
  | .nop => nopBody
  | .srst | .clrf => fun s => .ok () s
  | .ldcb cls ctx => ldcbBody cls ctx
  | .rdcw => rdcwBody
  | .wrcw => wrcwBody
  | .zzdec => zzdecBody
  | .zzenc => zzencBody
  | .alignw => alignwBody
  | .probe => probeBody
  | .pfrm => pfrmBody
  | .ppic => ppicBody
  | .nxsl => nxslBody
  | .pslc => pslcBody
  | .selpl k => selplBody k
  | .wfrm => wfrmBody
  | .wpic => wpicBody
  | .wslc => wslcBody
  | .dcinit => dcinitBody
  | .dcsym p => dcsymBody p
  | .rddc p => rddcBody p
  | .acinit => acinitBody
  | .acsym p => acsymBody p
  | .rdac p => rdacBody p
  | .wrdc => wrdcBody
  | .wrac => wracBody
  | .foldq => foldqBody
  | .scaleq => scaleqBody
  | .deq p idx => deqBody p idx
  | .qnt p idx => qntBody p idx
  | .qntp p => qntpBody p

/-- A well-formed command other than SRST and CLRF runs its pseudocode. -/
theorem exec_eq_runCommand {i : Instr} (h : WellFormed i = true) (h1 : i ≠ .srst) (h2 : i ≠ .clrf) (s : State) :
    exec i s = runCommand i s (Instr.body i) := by
  cases i <;> first | rfl | exact absurd rfl h1 | exact absurd rfl h2 | skip
  rename_i k
  show execSelpl k s = _
  rw [execSelpl, if_neg]
  · rfl
  · have h' : planeLegal k = true := h
    simp [h']

/-- All that a command can do. -/
theorem exec_cases {i : Instr} {s t : State} (h : exec i s = .next t) :
    (i = .srst ∧ t = softReset s) ∨ (i = .clrf ∧ t = clearFaults s) ∨
    (s.status.halt = true ∧ t = s.setRej) ∨
    (Running s ∧ WellFormed i = false ∧ t = illegalWord (encode i) s) ∨
    (Running s ∧ WellFormed i = true ∧ Instr.body i s = .ok () t) ∨
    (Running s ∧ WellFormed i = true ∧ ∃ r u, Instr.body i s = .raised r u ∧ t = takeFault i s r u) := by
  by_cases h1 : i = .srst
  · subst h1; exact .inl ⟨rfl, (Host.Outcome.next.inj h).symm⟩
  by_cases h2 : i = .clrf
  · subst h2; exact .inr (.inl ⟨rfl, (Host.Outcome.next.inj h).symm⟩)
  by_cases hw : WellFormed i = true
  · rw [exec_eq_runCommand hw h1 h2] at h
    rcases runCommand_cases h with h | ⟨hr, h⟩ | ⟨hr, h⟩
    · exact .inr (.inr (.inl h))
    · exact .inr (.inr (.inr (.inr (.inl ⟨hr, hw, h⟩))))
    · exact .inr (.inr (.inr (.inr (.inr ⟨hr, hw, h⟩))))
  · have hw' : WellFormed i = false := by simpa using hw
    cases i <;> first | exact absurd rfl hw | skip
    rename_i k
    have hk : planeLegal k = false := hw'
    have h : execSelpl k s = .next t := h
    rw [execSelpl, if_pos (by simp [hk])] at h
    have h := (Host.Outcome.next.inj h).symm
    by_cases hh : s.status.halt = true
    · refine .inr (.inr (.inl ⟨hh, ?_⟩))
      rw [h, illegalWord, if_pos hh]
    · exact .inr (.inr (.inr (.inl ⟨by simpa using hh, hw', h⟩)))

/-- Every command ends in a next state. -/
theorem exec_next (i : Instr) (s : State) : ∃ t, exec i s = .next t := by
  by_cases h1 : i = .srst
  · subst h1; exact ⟨_, rfl⟩
  by_cases h2 : i = .clrf
  · subst h2; exact ⟨_, rfl⟩
  by_cases hw : WellFormed i = true
  · rw [exec_eq_runCommand hw h1 h2]; exact runCommand_next _ _ _
  · cases i <;> first | exact absurd rfl hw | skip
    rename_i k
    have hk : planeLegal k = false := (Bool.not_eq_true _).mp hw
    exact ⟨_, by show execSelpl k s = _; rw [execSelpl, if_pos (by simp [hk])]⟩

/-! ### The words of a fault record, as numbers -/

theorem faultWord_eq (op : BitVec 8) (r : Raise) :
    faultWord op r = BitVec.ofNat 24 (r.code.toNat + 256 * r.subcode.toNat + 65536 * op.toNat) := by
  apply BitVec.eq_of_toNat_eq
  have h : (faultWord op r).toNat = (op.toNat * 2 ^ 8 + r.subcode.toNat) * 2 ^ 8 + r.code.toNat := by
    rw [← append_toNat, ← append_toNat]; rfl
  rw [h, BitVec.toNat_ofNat, Nat.mod_eq_of_lt] <;> omega

theorem logWord_eq (op : BitVec 8) (plane : BitVec 2) (r : Raise) :
    logWord op plane r = BitVec.ofNat 24 (r.subcode.toNat + 256 * plane.toNat + 65536 * op.toNat) := by
  apply BitVec.eq_of_toNat_eq
  have h : (logWord op plane r).toNat = ((op.toNat * 2 ^ 6 + (0 : BitVec 6).toNat) * 2 ^ 2 + plane.toNat) * 2 ^ 8 + r.subcode.toNat := by
    rw [← append_toNat, ← append_toNat, ← append_toNat]; rfl
  have h0 : (0 : BitVec 6).toNat = 0 := rfl
  rw [h, h0, BitVec.toNat_ofNat, Nat.mod_eq_of_lt] <;> omega

theorem logXYWord_eq (sl : Slice) : logXYWord sl = BitVec.ofNat 32 (sl.x.toNat + 65536 * sl.y.toNat) := by
  apply BitVec.eq_of_toNat_eq
  have h : (logXYWord sl).toNat = (sl.y.setWidth 16).toNat * 2 ^ 16 + (sl.x.setWidth 16).toNat := by
    rw [← append_toNat]; rfl
  rw [h, BitVec.toNat_ofNat, BitVec.toNat_setWidth, BitVec.toNat_setWidth, Nat.mod_eq_of_lt (by omega),
    Nat.mod_eq_of_lt (by omega), Nat.mod_eq_of_lt] <;> omega

theorem cbdOfCodebook_eq (cb : Codebook) :
    cbdOfCodebook cb = BitVec.ofNat 12 (256 * cb.switchBits.toNat + 16 * cb.expOrder.toNat + cb.riceOrder.toNat) := by
  apply BitVec.eq_of_toNat_eq
  have h : (cbdOfCodebook cb).toNat = (cb.switchBits.toNat * 2 ^ 4 + cb.expOrder.toNat) * 2 ^ 4 + cb.riceOrder.toNat := by
    rw [← append_toNat, ← append_toNat]; rfl
  rw [h, BitVec.toNat_ofNat, Nat.mod_eq_of_lt] <;> omega

theorem countUp_eq (c : Word) : countUp c = BitVec.ofNat 32 (min (c.toNat + 1) (2 ^ 32 - 1)) := by
  unfold countUp
  split
  · rename_i h; rw [h]; rfl
  · rename_i h
    have h' : c.toNat ≠ 0xFFFFFFFF := fun e => h (BitVec.eq_of_toNat_eq (by simpa using e))
    apply BitVec.eq_of_toNat_eq
    have := c.isLt
    simp; omega

/-- The folded scale is the tabulated one (44_quantizer.md R231). -/
theorem foldScale_eq (raw : BitVec 8) : foldScale raw = foldOf raw.toNat := by
  revert raw; decide +kernel

end Sys2Proof.Machine
end

