-- ==== Sys2Proof/Laws/PerInstr.lean ====
section
/-! SUPPORT. One statement for each constructor of `Instr`: the encoder puts every operand where the row of the opcode map lets it stand
(30_encoding.md R101, R103). -/

namespace Sys2Proof.Laws.EncodedWordMatchesItsRow

/-- The word of an instruction, under the mask of its row, is the pattern of its row. -/
def Statement (i : Instr) : Prop := encode i &&& i.mask = i.pattern

theorem nop : Statement .nop := rfl

theorem srst : Statement .srst := rfl

theorem clrf : Statement .clrf := rfl

theorem ldcb (cls : SymClass) (ctx : BitVec 8) : Statement (.ldcb cls ctx) := by
  cases cls <;> (revert ctx; unfold Statement; decide +kernel)

theorem rdcw : Statement .rdcw := rfl

theorem wrcw : Statement .wrcw := rfl

theorem zzdec : Statement .zzdec := rfl

theorem zzenc : Statement .zzenc := rfl

theorem alignw : Statement .alignw := rfl

theorem probe : Statement .probe := rfl

theorem pfrm : Statement .pfrm := rfl

theorem ppic : Statement .ppic := rfl

theorem nxsl : Statement .nxsl := rfl

theorem pslc : Statement .pslc := rfl

theorem selpl (k : BitVec 2) : Statement (.selpl k) := by
  revert k; unfold Statement; decide +kernel

theorem wfrm : Statement .wfrm := rfl

theorem wpic : Statement .wpic := rfl

theorem wslc : Statement .wslc := rfl

theorem dcinit : Statement .dcinit := rfl

theorem dcsym (p : QMatrix) : Statement (.dcsym p) := by cases p <;> rfl

theorem rddc (p : QMatrix) : Statement (.rddc p) := by cases p <;> rfl

theorem acinit : Statement .acinit := rfl

theorem acsym (p : QMatrix) : Statement (.acsym p) := by cases p <;> rfl

theorem rdac (p : QMatrix) : Statement (.rdac p) := by cases p <;> rfl

theorem wrdc : Statement .wrdc := rfl

theorem wrac : Statement .wrac := rfl

theorem foldq : Statement .foldq := rfl

theorem scaleq : Statement .scaleq := rfl

theorem deq (p : QMatrix) (idx : BitVec 6) : Statement (.deq p idx) := by
  cases p <;> (revert idx; unfold Statement; decide +kernel)

theorem qnt (p : QMatrix) (idx : BitVec 6) : Statement (.qnt p idx) := by
  cases p <;> (revert idx; unfold Statement; decide +kernel)

theorem qntp (p : QMatrix) : Statement (.qntp p) := by cases p <;> rfl

end Sys2Proof.Laws.EncodedWordMatchesItsRow
end

