-- ==== Sys2Proof/Tests/Slice0.lean ====
section
/-! SUPPORT. The tests. The expected results are those of spec/95_test_vectors.md (V and P number a vector or a program of it) or are
worked out by hand from the rule named. Each test runs one command on a small state. The theorems `witness_…` show, for each
statement with hypotheses, a state and operands that meet them together. -/

namespace Sys2Proof.Tests

open Sys2Proof Sys2Proof.Machine Sys2Proof.Claims

-- The theorems below are kernel evaluations; elaborated one at a time they need one thread.
set_option Elab.async false

/-! ### Small states -/

/-- BS with the bytes of the list from address `a`. -/
def bytes (a : Nat) (l : List Nat) : Memory 8 := Memory.tabulate bsUnlisted a l.length fun i => BitVec.ofNat 8 (l.getD i 0)

/-- COEF, QM or QMS with the listed words, addresses rising, none equal to what an unlisted word reads as. -/
def cells (w : Nat) (l : List (Nat × Int)) : Memory w := l.map fun c => (c.1, BitVec.ofInt w c.2)

/-- Reset, with BS, COEF and SST all 0: a state to compute on, where those of `State.reset` have no value. -/
def blank : State := { State.reset with bs := [], coef := [], sst := [] }

/-- Blank, with the bytes in BS from address 0, `BS_LEN` and `BITEND` at their end. -/
def stream (l : List Nat) : State :=
  { blank with
    bs := bytes 0 l
    cur := { State.reset.cur with bsLen := BitVec.ofNat 32 l.length, bitend := BitVec.ofNat 32 (8 * l.length) } }

/-- A state with the bit cursor at `a`, ending at `e`. -/
def between (s : State) (a e : Nat) : State :=
  { s with cur := { s.cur with bitpos := BitVec.ofNat 32 a, bitend := BitVec.ofNat 32 e } }

/-- The state after a step; the state itself where the model stops. -/
def stepTo (s : State) : State :=
  match step s with
  | .next t => t
  | .fault _ => s
  | .refused _ => s

/-- A state halted by an illegal word (V1.2). -/
def halted : State := after (.selpl 3) State.reset

/-- The frame header of program 1: the fixed bytes, and the chroma matrix, which holds `4 + SCANROM⁻¹` in scan order. -/
def frameHeaderBytes : List Nat :=
  [0x00, 0x00, 0x00, 0x78, 0x69, 0x63, 0x70, 0x66, 0x00, 0x54, 0x00, 0x00, 0x61, 0x70, 0x6C, 0x30,
   0x00, 0x10, 0x00, 0x10, 0x80, 0x00, 0x00, 0x00, 0x00, 0x00, 0x00, 0x01] ++
  [0x04, 0x05, 0x08, 0x09, 0x14, 0x15, 0x19, 0x1A, 0x06, 0x07, 0x0A, 0x0B, 0x16, 0x18, 0x1B, 0x20,
   0x0C, 0x0D, 0x10, 0x11, 0x17, 0x1C, 0x1F, 0x21, 0x0E, 0x0F, 0x12, 0x13, 0x1D, 0x1E, 0x22, 0x23,
   0x24, 0x25, 0x29, 0x2A, 0x31, 0x32, 0x39, 0x3A, 0x26, 0x28, 0x2B, 0x30, 0x33, 0x38, 0x3B, 0x40,
   0x27, 0x2C, 0x2F, 0x34, 0x37, 0x3C, 0x3F, 0x41, 0x2D, 0x2E, 0x35, 0x36, 0x3D, 0x3E, 0x42, 0x43]

/-- The frame of program 1. -/
def frame : State :=
  let s := stream (frameHeaderBytes ++
    [0x40, 0x00, 0x00, 0x00, 0x00, 0x00, 0x01, 0x00, 0x00, 0x12, 0x30, 0x0A, 0x00, 0x06, 0x00, 0x02,
     0xAB, 0x21, 0xA4, 0x72, 0x83, 0x4E, 0x96, 0x00, 0x82, 0x80, 0xFD, 0x00])
  { s with cur := { s.cur with bitend := 0 } }

/-- Program 1 before PPIC, with the bytes of the picture header in BS. -/
def picture : State :=
  { blank with
    bs := bytes 92 [0x40, 0x00, 0x00, 0x00, 0x00, 0x00, 0x01, 0x00, 0x00, 0x12]
    fh := { State.reset.fh with width := 16, height := 16, flags1 := 0x80, flags2 := 1, framesize := 120, hdrsize := 84 }
    ph := { State.reset.ph with mbh := 1 }
    cur := { State.reset.cur with bsLen := 120, byteptr := 92 } }

/-- Program 1 before PSLC, with the bytes of the slice in BS. -/
def slice : State :=
  { picture with
    bs := bytes 102 [0x30, 0x0A, 0x00, 0x06, 0x00, 0x02, 0xAB, 0x21, 0xA4, 0x72, 0x83, 0x4E]
    slice := { picture.slice with base := 102, size := 18, mbcount := 1, l2bpsY := 2, l2bpsC := 1 } }

/-- Program 1 before SELPL. -/
def parsed : State :=
  { slice with
    slice := { slice.slice with hdrsize := 6, ysize := 6, usize := 2, vsize := 4 }
    status := { slice.status with slok := true } }

/-- Program 1 at the Y plane, with `QMS` 40 at the raster positions its terms have. -/
def lumaPlane : State :=
  { between parsed 864 912 with
    plane := { parsed.plane with l2bps := 2 }
    bs := bytes 108 [0xAB, 0x21, 0xA4, 0x72, 0x83, 0x4E]
    qms := cells 32 [(0, 40), (1, 40), (3, 40), (8, 40)] }

/-- The Y plane after RDDC. -/
def lumaTerms : State := after (.rddc .luma) lumaPlane

/-- The quantized Y plane of program 2, and room for its payload. -/
def lumaEncode : State :=
  { (stream (List.replicate 8 0)) with
    plane := { State.reset.plane with l2bps := 2 }
    coef := cells 32 [(0, 5), (1, 3), (64, 7), (72, 2), (128, 7), (129, -1), (192, 4), (195, -4)] }

/-- Program 3: a plane whose second run passes its end. -/
def corruptPlane : State :=
  { stream [0x8E, 0xAC, 0x01, 0x03, 0x00] with
    plane := { State.reset.plane with l2bps := 1 }
    slice := { State.reset.slice with x := 3, y := 2, plane := 1 }
    coef := cells 32 [(5, 99), (128, 99)] }

/-- Program 5 before WPIC: 112 by 32 macroblock columns and rows 7 by 2, `log2SliceMbWidth` 2. -/
def schedule : State :=
  { stream (List.replicate 20 0xFF) with
    fh := { State.reset.fh with width := 112, height := 32, flags1 := 0xC0 }
    ph := { State.reset.ph with mbh := 2, slicecount := 6, l2byte := 0x20 }
    sched := { State.reset.sched with cur := 4, ptr := 20 }
    sst := cells 16 [(0, 100), (1, 60), (2, 30), (3, 90), (4, 50), (5, 20)] }

/-! ### Well-formedness and decoding -/

theorem test_wellFormed_refuses_plane_3 : WellFormed (.selpl 3) = false := by decide

theorem test_wellFormed_accepts_planes : WellFormed (.selpl 0) ∧ WellFormed (.selpl 1) ∧ WellFormed (.selpl 2) := by decide

/-- System, format N: opcode in bits 31:24, 0 below. -/
theorem test_decode_system :
    decode 0b00000000_000000000000000000000000 = .ok .nop ∧ decode 0b00000001_000000000000000000000000 = .ok .srst ∧
    decode 0b00000010_000000000000000000000000 = .ok .clrf := by decide +kernel

/-- Codebook table, format C: `class` in bits 9:8, `ctx` in bits 7:0. -/
theorem test_decode_codebook :
    decode 0b00010000_00000000000000_00_00000000 = .ok (.ldcb .firstDC 0) ∧
    decode 0b00010000_00000000000000_01_00000011 = .ok (.ldcb .dcDelta 3) ∧
    decode 0b00010000_00000000000000_10_11001000 = .ok (.ldcb .acRun 200) ∧
    decode 0b00010000_00000000000000_11_00001001 = .ok (.ldcb .acLevel 9) := by decide +kernel

theorem test_decode_entropy :
    decode 0b00010001_000000000000000000000000 = .ok .rdcw ∧ decode 0b00010010_000000000000000000000000 = .ok .wrcw ∧
    decode 0b00010011_000000000000000000000000 = .ok .zzdec ∧ decode 0b00010100_000000000000000000000000 = .ok .zzenc ∧
    decode 0b00010101_000000000000000000000000 = .ok .alignw := by decide +kernel

/-- Header codec; SELPL is format K, `k` in bits 1:0. -/
theorem test_decode_header :
    decode 0x20000000 = .ok .probe ∧ decode 0x21000000 = .ok .pfrm ∧ decode 0x22000000 = .ok .ppic ∧
    decode 0x23000000 = .ok .nxsl ∧ decode 0x24000000 = .ok .pslc ∧
    decode 0b00100101_0000000000000000000000_00 = .ok (.selpl 0) ∧ decode 0b00100101_0000000000000000000000_10 = .ok (.selpl 2) ∧
    decode 0x28000000 = .ok .wfrm ∧ decode 0x29000000 = .ok .wpic ∧ decode 0x2A000000 = .ok .wslc := by decide +kernel

/-- Coefficient coder; format P has `p` in bit 0. -/
theorem test_decode_coefficient :
    decode 0x30000000 = .ok .dcinit ∧ decode 0b00110001_00000000000000000000000_1 = .ok (.dcsym .chroma) ∧
    decode 0b00110010_00000000000000000000000_0 = .ok (.rddc .luma) ∧ decode 0x33000000 = .ok .acinit ∧
    decode 0b00110100_00000000000000000000000_0 = .ok (.acsym .luma) ∧
    decode 0b00110101_00000000000000000000000_1 = .ok (.rdac .chroma) ∧
    decode 0x38000000 = .ok .wrdc ∧ decode 0x39000000 = .ok .wrac := by decide +kernel

/-- Quantizer; format I has `idx` in bits 13:8 and `p` in bit 0. -/
theorem test_decode_quantizer :
    decode 0x40000000 = .ok .foldq ∧ decode 0x41000000 = .ok .scaleq ∧
    decode 0b01000010_0000000000_111111_0000000_1 = .ok (.deq .chroma 63) ∧
    decode 0b01000011_0000000000_000001_0000000_0 = .ok (.qnt .luma 1) ∧
    decode 0b01000100_00000000000000000000000_1 = .ok (.qntp .chroma) := by decide +kernel

/-- V1.2: the reason each illegal word is refused. -/
theorem test_decode_illegal :
    decode 0x03000000 = .error .reservedOpcode ∧ decode 0xFF000000 = .error .reservedOpcode ∧
    decode 0x00000001 = .error .reservedBits ∧ decode 0x11000001 = .error .reservedBits ∧
    decode 0x25000003 = .error .reservedPlane ∧ decode 0x10000400 = .error .reservedBits ∧
    decode 0x42004000 = .error .reservedBits ∧ decode 0x42000002 = .error .reservedBits ∧
    decode 0x44000002 = .error .reservedBits := by decide +kernel

/-! ### The port -/

/-- The row's interface: the word stored is the word decoded. -/
theorem test_decodeTableWord : decodeTableWord 32 0x43003F01 = some (.qnt .chroma 63) ∧ decodeTableWord 32 0x26000000 = none := by
  decide +kernel

/-- V1.2 through the port: FAULT = 0x0104 OR (opcode << 16), FAULT_POS = 0, STATUS = 1. -/
theorem test_step_illegal :
    let t := stepTo (State.reset.withFetchWord 32 0x42004000)
    t.hostRead 3 = 0x00420104 ∧ t.hostRead 4 = 0 ∧ t.hostRead 1 = 1 ∧ t.host = [] := by decide +kernel

/-- P4 through the port: LDCB DCD, 3. -/
theorem test_step_runs : (stepTo (State.reset.withFetchWord 32 0x10000103)).hostRead 17 = 0x132 := by decide +kernel

/-- R25, R34: the bits of STATUS, and the views of FH_FLAGS1 0x84 (frame type 1, chroma type 2). -/
theorem test_hostRead_views :
    ({ blank with status := ⟨false, true, true, false, true, false, false⟩ } : State).hostRead 1 = 0x16 ∧
    [43, 44, 45].map (fun n => (blank.hostWrite 38 0x84).hostRead n) = [1, 2, 1] := by decide +kernel

/-- R20, R34: a host write of FH_WIDTH reads back sign-extended, and FH_MBW shows `(65535 + 15) >> 4`. -/
theorem test_hostWrite_width :
    (State.reset.hostWrite 36 0x1FFFF).hostRead 36 = 0xFFFFFFFF ∧ (State.reset.hostWrite 36 0x1FFFF).hostRead 46 = 4096 := by
  decide +kernel

/-- A write of a location outside a memory stops and a read gives no value (log entries 8 and 22); the last byte of BS is written and
read. -/
theorem test_hostStep_bounds :
    step (State.reset.withHost [.writeBs (2 ^ 28) 1]) = .fault .bsAddress ∧
    step (State.reset.withHost [.writeCoef 2048 1]) = .fault .coefIndex ∧
    step (State.reset.withHost [.writeSst 65535 1]) = .fault .sstIndex ∧
    State.reset.hostReadBs (2 ^ 28) = none ∧ State.reset.hostReadCoef 2048 = none ∧ State.reset.hostReadSst 65535 = none ∧
    (stepTo (blank.withHost [.writeBs (2 ^ 28 - 1) 7])).hostReadBs (2 ^ 28 - 1) = some 7 :=
  ⟨rfl, rfl, rfl, by decide +kernel⟩

/-! ### System commands -/

/-- R250: with STATUS = 0x01 NOP leaves STATUS = 0x41. -/
theorem test_nop_halted : halted.hostRead 1 = 1 ∧ (after .nop halted).hostRead 1 = 0x41 := by decide +kernel

/-- P3: after SRST the registers are reset and COEF and BS are not. -/
theorem test_srst :
    (after .srst corruptPlane).hostRead 26 = 0 ∧ (after .srst corruptPlane).hostRead 27 = 64 ∧
    (after .srst corruptPlane).coefAt 128 = 99 ∧ (after .srst corruptPlane).hostReadBs 0 = some 0x8E := by decide +kernel

/-- R252: STATUS 0x47 becomes 0x04, CTRL stays. -/
theorem test_clrf :
    let s := { halted with status := ⟨true, true, true, false, false, false, true⟩, strict := true }
    (after .clrf s).hostRead 1 = 4 ∧ (after .clrf s).hostRead 3 = 0 ∧ (after .clrf s).hostRead 2 = 1 := by decide +kernel

/-! ### Codebook table and entropy coder -/

/-- LDCB RUN, 200 clamps to index 15 (2.2 of the vectors). -/
theorem test_ldcb_clamps :
    (after (.ldcb .acRun 200) State.reset).hostRead 17 = 0x032 ∧ (after (.ldcb .acRun 200) State.reset).hostRead 18 = 4 := by
  decide +kernel

/-- LDCB LEV, 1: CBGB reads -1. -/
theorem test_ldcb_golombBits : (after (.ldcb .acLevel 1) State.reset).hostRead 19 = 0xFFFFFFFF := by decide +kernel

/-- V4.2: an escape codeword of 31 bits. -/
theorem test_rdcw_escape :
    let t := after .rdcw { stream [0x00, 0x01, 0x00, 0x01] with cbd := 0x010, val := 777 }
    t.val = 32767 ∧ t.cur.bitpos = 31 := by decide +kernel

/-- V4.7: an escape suffix of 17 bits, concealed. -/
theorem test_rdcw_overflow :
    let t := after .rdcw { stream [0x00, 0x0F, 0xFF, 0xFF, 0xFF, 0xFF, 0xFF, 0xFF] with cbd := 0x065, val := 777 }
    t.val = 777 ∧ t.cur.bitpos = 13 ∧ t.hostRead 5 = 0x00110001 ∧ t.hostRead 6 = 13 := by decide +kernel

/-- V5.2: a codeword that ends exactly at BITEND, among ones. -/
theorem test_wrcw_exact :
    let t := after .wrcw { between (stream [0xFF, 0xFF]) 3 7 with cbd := 0x132, val := 5 }
    t.hostReadBs 0 = some 0xEB ∧ t.cur.bitpos = 7 := by decide +kernel

/-- V5.3: one bit too few. -/
theorem test_wrcw_full :
    let t := after .wrcw { between (stream [0xFF, 0xFF]) 3 6 with cbd := 0x132, val := 5 }
    t.hostReadBs 0 = some 0xFF ∧ t.hostRead 3 = 0x00120203 ∧ t.hostRead 4 = 3 := by decide +kernel

/-- ZZDEC: 5 to -3, and 0x80000000 to -1073741824 (2.6 of the vectors). -/
theorem test_zzdec :
    (after .zzdec { State.reset with val := 5 }).val = -3 ∧
    (after .zzdec { State.reset with val := 0x80000000 }).val = -1073741824 := by decide +kernel

/-- ZZENC: -100 to 199, and 2^30 to 0x80000000 (2.6). -/
theorem test_zzenc :
    (after .zzenc { State.reset with val := -100 }).val = 199 ∧
    (after .zzenc { State.reset with val := 0x40000000 }).val = 0x80000000 := by decide +kernel

/-- 2.7 of the vectors: (13, 16) pads three zeros, (13, 15) faults. -/
theorem test_alignw :
    let t := after .alignw (between (stream [0xFF, 0xFF]) 13 16)
    let u := after .alignw (between (stream [0xFF, 0xFF]) 13 15)
    t.hostReadBs 1 = some 0xF8 ∧ t.cur.bitpos = 16 ∧ u.hostReadBs 1 = some 0xFF ∧ u.hostRead 3 = 0x00150203 ∧ u.hostRead 4 = 13 := by
  decide +kernel

/-! ### Header codec -/

/-- R171: with BS_LEN = 7 PROBE answers 0. -/
theorem test_probe :
    (after .probe frame).val = 1 ∧
    (after .probe { frame with cur := { frame.cur with bsLen := 7 }, val := 9 }).val = 0 := by decide +kernel

/-- P1: PFRM of the tiny frame. -/
theorem test_pfrm :
    let t := after .pfrm frame
    t.hostRead 32 = 120 ∧ t.hostRead 42 = 28 ∧ t.hostRead 52 = 1 ∧ t.cur.byteptr = 92 ∧ t.qmAt .chroma 63 = 67 ∧
    t.qmAt .chroma 8 = 12 ∧ t.qmAt .luma 63 = 4 := by decide +kernel

/-- 2.10 of the vectors: BS[4] = 49 is BAD_SIGNATURE, and nothing is loaded. -/
theorem test_pfrm_signature :
    let t := after .pfrm { frame with bs := bsSetByte frame.bs 4 0x49 }
    t.hostRead 3 = 0x00210201 ∧ t.fh = frame.fh := by decide +kernel

/-- P1: PPIC. -/
theorem test_ppic :
    let t := after .ppic picture
    t.hostRead 50 = 1 ∧ t.hostRead 53 = 92 ∧ t.sstAt 0 = 18 ∧ t.hostRead 68 = 102 ∧ t.hostRead 67 = 1 := by decide +kernel

/-- P5, rows 2 and 3: the halved widths and the end of the row. -/
theorem test_nxsl :
    let s := { schedule with sched := { idx := 2, mbx := 6, mby := 0, cur := 2, ptr := 180 } }
    let t := after .nxsl s
    t.hostRead 73 = 1 ∧ t.hostRead 69 = 180 ∧ t.hostRead 70 = 30 ∧ t.hostRead 81 = 2 ∧ t.hostRead 65 = 0 ∧ t.hostRead 66 = 1 ∧
    t.hostRead 67 = 4 ∧ t.hostRead 68 = 210 := by decide +kernel

/-- V10.9: NXSL at reset sets EOS. -/
theorem test_nxsl_end : (after .nxsl State.reset).hostRead 1 = 0x10 := by decide +kernel

/-- P1: PSLC. -/
theorem test_pslc :
    let t := after .pslc slice
    t.hostRead 74 = 6 ∧ t.hostRead 76 = 10 ∧ t.hostRead 79 = 4 ∧ t.cur.byteptr = 108 ∧ t.hostRead 1 = 0x20 := by decide +kernel

/-- V10.3: a slice of 5 bytes. -/
theorem test_pslc_short :
    let t := after .pslc { slice with slice := { slice.slice with size := 5 } }
    t.hostRead 1 = 2 ∧ t.hostRead 5 = 0x00240005 := by decide +kernel

/-- R178: SELPL U of the tiny frame. -/
theorem test_selpl :
    let t := after (.selpl 1) parsed
    t.cur.bitpos = 912 ∧ t.cur.bitend = 928 ∧ t.hostRead 26 = 1 ∧ t.hostRead 82 = 1 := by decide +kernel

/-- V11.1: SELPL U at reset is BadOperand(NO_SLICE). -/
theorem test_selpl_none : (after (.selpl 1) State.reset).hostRead 3 = 0x00250407 := by decide +kernel

/-- The registers of program 2 before WFRM, with `BS_LEN = n`. -/
def encodeFrame (n : Nat) : State :=
  { blank with
    fh := { State.reset.fh with width := 16, height := 16, flags1 := 0x80, flags2 := 1, framesize := 120 }
    qm := Memory.tabulate qmUnlisted 64 64 fun i => BitVec.ofNat 8 (4 + i)
    cur := { State.reset.cur with bsLen := BitVec.ofNat 32 n } }

/-- P2: WFRM writes the frame header of program 1. -/
theorem test_wfrm :
    let t := after .wfrm (encodeFrame 92)
    holdsBytes t.bs 0 (frameHeaderBytes.map (BitVec.ofNat 8)) = true ∧ t.cur.byteptr = 92 ∧ t.hostRead 42 = 28 := by decide +kernel

/-- V10.8: with BS_LEN = 91 it does not fit. -/
theorem test_wfrm_full :
    (after .wfrm (encodeFrame 91)).hostRead 3 = 0x00280103 ∧ (after .wfrm (encodeFrame 91)).bs = [] := by decide +kernel

/-- P5: WPIC. -/
theorem test_wpic :
    let t := after .wpic schedule
    holdsBytes t.bs 0 [0x40, 0x00, 0x00, 0x00, 0x00, 0x00, 0x06, 0x20, 0x00, 0x64, 0x00, 0x3C, 0x00, 0x1E] = true ∧
    t.hostRead 54 = 3 ∧ t.hostRead 67 = 4 ∧ t.hostRead 68 = 20 := by decide +kernel

/-- V10.8: WSLC with SL_IDX = 1 and SL_YSIZE = 94 fits 100 bytes. -/
def encodeSlice : State :=
  { blank with
    sched := { State.reset.sched with idx := 1 }
    slice := { State.reset.slice with ysize := 94 }
    cur := { State.reset.cur with bsLen := 100 } }

theorem test_wslc :
    let t := after .wslc encodeSlice
    holdsBytes t.bs 0 [0x30, 0x01, 0x00, 0x5E, 0x00, 0x00] = true ∧ t.hostRead 70 = 100 ∧ t.sstAt 0 = 100 ∧ t.hostRead 68 = 100 := by
  decide +kernel

/-- V10.8: WSLC at reset is BadOperand(NO_SLICE). -/
theorem test_wslc_none : (after .wslc State.reset).hostRead 3 = 0x002A0407 := by decide +kernel

/-! ### Coefficient coder -/

/-- P3: DCINIT clears the plane and nothing beyond. -/
theorem test_dcinit :
    let t := after .dcinit corruptPlane
    t.coefAt 5 = 0 ∧ t.coefAt 128 = 99 ∧ t.hostRead 97 = 5 := by decide +kernel

/-- P1: the first DCSYM of the Y plane. -/
theorem test_dcsym_first :
    let t := after (.dcsym .luma) lumaPlane
    t.coefAt 0 = 50 ∧ t.cur.bitpos = 870 ∧ t.hostRead 96 = 1 ∧ t.hostRead 99 = 5 := by decide +kernel

/-- P1: the fourth DCSYM, an odd code that sets the running sign and ends the plane. -/
theorem test_dcsym_last :
    let s := { between lumaPlane 877 912 with ctx := { lumaPlane.ctx with blk := 3, prevcode := 0, sign := false, prevdc := 7 } }
    let t := after (.dcsym .luma) s
    t.coefAt 192 = 40 ∧ t.cur.bitpos = 882 ∧ t.hostRead 98 = 1 ∧ t.hostRead 97 = 5 ∧ t.hostRead 1 = 0x28 := by decide +kernel

/-- P1: RDDC L. -/
theorem test_rddc :
    lumaTerms.coef = cells 32 [(0, 50), (64, 70), (128, 70), (192, 40)] ∧ lumaTerms.cur.bitpos = 882 ∧ lumaTerms.hostRead 1 = 0x28 := by
  decide +kernel

/-- V8.12: an empty payload. -/
theorem test_rddc_empty :
    let t := after (.rddc .luma) (between lumaPlane 864 864)
    t.hostRead 5 = 0x00320003 ∧ t.hostRead 6 = 864 ∧ t.hostRead 96 = 0 ∧ t.hostRead 1 = 0x26 := by decide +kernel

/-- P1: ACINIT. -/
theorem test_acinit :
    let t := after .acinit lumaTerms
    t.hostRead 100 = 3 ∧ t.hostRead 101 = 4 ∧ t.hostRead 102 = 2 ∧ t.hostRead 1 = 0x20 := by decide +kernel

/-- P1: the second ACSYM, a negative level. -/
theorem test_acsym :
    let s := { between lumaPlane 888 912 with ctx := { lumaPlane.ctx with pos := 4, prevrun := 0, prevlev := 3 } }
    let t := after (.acsym .luma) s
    t.coefAt 129 = -10 ∧ t.cur.bitpos = 892 ∧ t.hostRead 100 = 6 ∧ t.hostRead 101 = 1 ∧ t.hostRead 102 = 1 := by decide +kernel

/-- P1: RDAC L. -/
theorem test_rdac :
    let t := after (.rdac .luma) lumaTerms
    t.coef = cells 32 [(0, 50), (1, 30), (64, 70), (72, 20), (128, 70), (129, -10), (192, 40), (195, -40)] ∧
    t.cur.bitpos = 911 ∧ t.hostRead 100 = 23 ∧ t.hostRead 1 = 0x28 := by decide +kernel

/-- P3: a run beyond the plane, concealed. -/
theorem test_rdac_overrun :
    let t := after (.rdac .chroma) (after (.rddc .chroma) corruptPlane)
    t.coefAt 1 = -2 ∧ t.cur.bitpos = 31 ∧ t.hostRead 1 = 6 ∧ t.hostRead 5 = 0x00350104 ∧ t.hostRead 7 = 0x00020003 := by
  decide +kernel

/-- P2: WRDC of the Y plane: 101010 1100 100 00110. -/
theorem test_wrdc :
    let t := after .wrdc lumaEncode
    t.cur.bitpos = 18 ∧ t.hostReadBs 0 = some 0xAB ∧ t.hostReadBs 1 = some 0x21 ∧ t.hostReadBs 2 = some 0x80 ∧ t.hostRead 97 = 5 ∧
    t.hostRead 98 = 1 := by decide +kernel

/-- V8.11: BITEND = 16, so the fourth codeword does not fit. -/
theorem test_wrdc_full :
    let t := after .wrdc (between lumaEncode 0 16)
    t.hostRead 3 = 0x00380203 ∧ t.hostRead 4 = 13 ∧ t.hostRead 96 = 3 := by decide +kernel

/-- P2: WRAC of the Y plane after its DC part. -/
theorem test_wrac :
    let t := after .wrac (between lumaEncode 18 64)
    t.cur.bitpos = 47 ∧ t.hostReadBs 2 = some 0x24 ∧ t.hostReadBs 3 = some 0x72 ∧ t.hostReadBs 4 = some 0x83 ∧ t.hostReadBs 5 = some 0x4E ∧
    t.hostRead 100 = 23 := by decide +kernel

/-- V8.11: BITEND = 23, so the first triple's sign does not fit. -/
theorem test_wrac_full :
    let t := after .wrac (between lumaEncode 18 23)
    t.hostRead 3 = 0x00390203 ∧ t.hostRead 4 = 23 ∧ t.hostRead 101 = 4 := by decide +kernel

/-! ### Quantizer -/

/-- V9.1. -/
theorem test_foldq :
    [0, 128, 129, 224, 255].map (fun q => foldScale q) = [1, 128, 132, 512, 512] ∧
    (after .foldq { State.reset with slice := { State.reset.slice with qsraw := 200 } }).hostRead 76 = 416 := by decide +kernel

/-- P1: SCALEQ, `QM[1][i] = 4 + i` at `QSCALE = 10`. -/
theorem test_scaleq :
    let t := after .scaleq { encodeFrame 0 with slice := { State.reset.slice with qscale := 10 } }
    t.qmsAt .luma 63 = 40 ∧ t.qmsAt .chroma 63 = 670 := by decide +kernel

/-- R234: with `QMS = 5`, -3 gives -4. -/
theorem test_deq :
    (after (.deq .luma 9) { State.reset with val := -3, qms := cells 32 [(9, 5)] }).val = -4 ∧
    (after (.deq .chroma 9) { State.reset with val := 5, qms := cells 32 [(73, 40)] }).val = 50 := by decide +kernel

/-- R235: -7 / 2 is -3, and the quotient that does not fit wraps. -/
theorem test_qnt :
    (after (.qnt .luma 0) { State.reset with val := -7, qms := cells 32 [(0, 2)] }).val = -3 ∧
    (after (.qnt .luma 0) { State.reset with val := 0x80000000, qms := cells 32 [(0, -1)] }).val = 0x80000000 := by decide +kernel

/-- R235: a zero divisor. -/
theorem test_qnt_zero :
    let t := after (.qnt .luma 0) { State.reset with val := 9, qms := cells 32 [(0, 0)] }
    t.val = 9 ∧ t.hostRead 3 = 0x00430106 := by decide +kernel

/-- P2: QNTP L. -/
theorem test_qntp :
    let s := { lumaPlane with coef := cells 32 [(0, 213), (1, 127), (64, 281), (129, -79), (195, -167), (256, 99)] }
    (after (.qntp .luma) s).coef = cells 32 [(0, 5), (1, 3), (64, 7), (129, -1), (195, -4), (256, 99)] := by decide +kernel

/-! ### Witnesses: what the hypotheses of each statement meet together -/

/-- `State.memoriesWf`, evaluated. -/
def memoriesOk (s : State) : Bool :=
  decide (Memory.wf bsUnlisted s.bs ∧ Memory.wf coefUnlisted s.coef ∧ Memory.wf qmUnlisted s.qm ∧ Memory.wf qmsUnlisted s.qms ∧
    Memory.wf sstUnlisted s.sst ∧ Memory.inside s.cfg.bsBytes s.bs ∧ Memory.inside (64 * 2 ^ s.cfg.log2MaxBps) s.coef ∧
    Memory.inside 128 s.qm ∧ Memory.inside 128 s.qms ∧ Memory.inside s.cfg.maxSlices s.sst)

theorem memoriesWf_of_ok {s : State} (h : memoriesOk s = true) : s.memoriesWf := by
  obtain ⟨a, b, c, d, e, f, g, i, j, k⟩ := of_decide_eq_true h
  exact ⟨a, b, c, d, e, f, g, i, j, k⟩

/-- `IsCode`, evaluated. -/
def isCode (cb : Codebook) (q n x : Nat) (v : Int) : Bool :=
  decide (q ≤ 15 ∧ x < 2 ^ n ∧
    (cb.switchBits.toNat < q → (n : Int) = golombBits cb + q ∧ n ≤ 16 ∧ v = (2 ^ n + x : Nat) - golombOffset cb) ∧
    (q ≤ cb.switchBits.toNat → n = cb.riceOrder.toNat ∧ v = (q * 2 ^ n + x : Nat)))

theorem codes_of {cb : Codebook} (q n x : Nat) {v : Int} (h : isCode cb q n x v = true) : Codes cb v (codeword q n x) := by
  obtain ⟨a, b, c, d⟩ := of_decide_eq_true h
  exact ⟨q, n, x, ⟨a, b, c, d⟩, rfl⟩

theorem defaultConfig_wf : defaultConfig.wf = true := by decide +kernel

theorem exec_after (i : Instr) (s : State) : exec i s = .next (after i s) := by
  obtain ⟨t, h⟩ := exec_next i s
  simp [after, h]

/-- The state with the word next at the port. -/
def port (w : Word) (s : State) : State := { s with host := [.writeReg 0 w] }

theorem step_port (w : Word) (s : State) : step (port w s) = .next (stepTo (port w s)) := by
  obtain ⟨t, h⟩ : ∃ t, step (port w s) = .next t := by
    show ∃ t, command w _ = .next t
    unfold command
    split
    · exact exec_next _ _
    · exact ⟨_, rfl⟩
  simp [stepTo, h]

theorem witness_DecodeEncode : WellFormed (.deq .chroma 63) = true ∧ WellFormed (.selpl 2) = true := by decide

theorem witness_EncodeDecode : decode 0x42003F01 = .ok (.deq .chroma 63) := by decide +kernel

theorem witness_DecodeMatchesOpcodeMap :
    (⟨"SELPL", 0x25000000, 0xFFFFFFFC⟩ : OpcodeRow) ∈ opcodeMap ∧
    (⟨"SELPL", 0x25000000, 0xFFFFFFFC⟩ : OpcodeRow).matches 0x25000002 = true ∧ decode 0x25000002 = .ok (.selpl 2) := by
  decide +kernel

theorem witness_StepRunsDecoded :
    (port 0x12000000 lumaEncode).host = .writeReg 0 0x12000000 :: [] ∧ decode 0x12000000 = .ok .wrcw := by decide +kernel

theorem witness_IllegalWordFaults :
    (port 0x26000000 State.reset).host = .writeReg 0 0x26000000 :: [] ∧ decode 0x26000000 = .error .reservedOpcode ∧
    Running (port 0x26000000 State.reset) := by decide +kernel

theorem witness_HaltedRejects :
    (port 0x11000000 halted).host = .writeReg 0 0x11000000 :: [] ∧ (port 0x11000000 halted).status.halt = true ∧
    (0x11000000 : Word) ≠ 0x01000000 ∧ (0x11000000 : Word) ≠ 0x02000000 := by decide +kernel

theorem witness_EveryCommandEnds : (port 0xFFFFFFFF State.reset).host = .writeReg 0 0xFFFFFFFF :: [] := by decide +kernel

theorem witness_FaultEntry :
    (.corruptSliceData .runOverrun, 2, 4) ∈ causes ∧ (.divideByZero, 6, 1) ∈ causes := by decide +kernel

/-- The corrupt plane of program 3 after its DC part: concealed in one mode, fatal in the other. -/
theorem witness_StrictModeSameData :
    ∃ t u, exec (.rdac .chroma) { after (.rddc .chroma) corruptPlane with strict := false } = .next t ∧
      exec (.rdac .chroma) { after (.rddc .chroma) corruptPlane with strict := true } = .next u ∧
      t.status.halt = false ∧ u.status.halt = true :=
  ⟨_, _, exec_after _ _, exec_after _ _, by decide +kernel, by decide +kernel⟩

theorem witness_SystemCommands : Running State.reset ∧ halted.status.halt = true := by decide +kernel

theorem witness_HostWriteReadsBack :
    Reg.fhWidth.access = .rw ∧
    (State.reset.withHost [.writeReg 36 0x8000]).host = .writeReg Reg.fhWidth.number 0x8000 :: [] ∧
    (∀ r : Reg, r.number = 3 → r.access = .ro) ∧ ∀ r : Reg, r.number ≠ 103 :=
  ⟨rfl, rfl, fun r => by cases r <;> decide, fun r => by cases r <;> decide⟩

/-- The last location of each memory the host writes, and the first beyond it. -/
theorem witness_HostActions :
    blank.memoriesWf ∧ blank.host = [] ∧ 2 ^ 28 - 1 < blank.cfg.bsBytes ∧ ¬2 ^ 28 < blank.cfg.bsBytes ∧
    2047 < 64 * 2 ^ blank.cfg.log2MaxBps ∧ ¬2048 < 64 * 2 ^ blank.cfg.log2MaxBps ∧
    65534 < blank.cfg.maxSlices ∧ ¬65535 < blank.cfg.maxSlices :=
  ⟨memoriesWf_of_ok (by decide +kernel), by decide +kernel⟩

theorem witness_LdcbLoadsTable : Running lumaPlane := by decide +kernel

theorem witness_CodebookViews : (⟨0, 1, 15⟩ : Codebook).switchBits.toNat + 1 ≤ 16 := by decide +kernel

/-- V4.1, at the end of the stream. -/
def oneCode : State := { between (stream [0x50]) 0 4 with cbd := 0x132, val := 5 }

theorem witness_RdcwReadsCodeword :
    Running oneCode ∧ CursorsLegal oneCode ∧ Codes (codebookOfCbd oneCode.cbd) 5 (codeword 1 2 1) ∧
    holdsBits oneCode.bs oneCode.cur.bitpos.toNat (codeword 1 2 1) = true ∧
    oneCode.cur.bitpos.toNat + (codeword 1 2 1).length ≤ oneCode.cur.bitend.toNat :=
  ⟨by decide +kernel, by decide +kernel, codes_of 1 2 1 (by decide +kernel), by decide +kernel, by decide +kernel⟩

/-- V4.3, V4.4, V4.7, V4.6 and a Rice suffix cut off: each form of corruption. -/
theorem witness_RdcwCorrupt :
    Running (stream [0, 0, 0, 0]) ∧ CursorsLegal (stream [0, 0, 0, 0]) ∧
    CorruptAt (codebookOfCbd 0x010) (bytes 0 [0, 0, 0, 0]) 0 32 2 0 ∧
    CorruptAt (codebookOfCbd 0x010) (bytes 0 [0x10]) 0 3 3 0 ∧
    CorruptAt (codebookOfCbd 0x065) (bytes 0 [0x00, 0x0F, 0xFF]) 0 24 1 13 ∧
    CorruptAt (codebookOfCbd 0x010) (bytes 0 [0x20]) 0 4 3 3 ∧
    CorruptAt (codebookOfCbd 0x132) (bytes 0 [0x50]) 0 3 3 2 := by
  refine ⟨by decide +kernel, by decide +kernel, .noTerminator (by decide) (by decide +kernel),
    .endsInPrefix (by decide) (by decide) (by decide +kernel),
    .escOverflow 12 (by decide) (by decide) (by decide +kernel) (by decide +kernel) (by decide +kernel),
    .endsInEscape 2 2 (by decide) (by decide) (by decide +kernel) (by decide +kernel) (by decide +kernel) (by decide) (by decide),
    .endsInRice 1 (by decide) (by decide) (by decide +kernel) (by decide +kernel) (by decide +kernel)⟩

/-- A codeword that ends at BITEND, and no bit at all. -/
theorem witness_CodewordOrCorrupt :
    CursorsLegal oneCode ∧ Codes (codebookOfCbd oneCode.cbd) 5 (codeword 1 2 1) ∧
    holdsBits oneCode.bs oneCode.cur.bitpos.toNat (codeword 1 2 1) = true ∧
    oneCode.cur.bitpos.toNat + (codeword 1 2 1).length ≤ oneCode.cur.bitend.toNat ∧
    CursorsLegal (between oneCode 4 4) ∧ CorruptAt (codebookOfCbd oneCode.cbd) oneCode.bs 4 4 3 4 ∧
    (.corruptSliceData .pastEnd, 2, 3) ∈ causes :=
  ⟨by decide +kernel, codes_of 1 2 1 (by decide +kernel), by decide +kernel, by decide +kernel, by decide +kernel,
   .endsInPrefix (by decide) (by decide) (by decide +kernel), by decide +kernel⟩

/-- A Rice codeword, and the escape codeword of V4.2. -/
theorem witness_ReadCodewordRange :
    (∃ t, readCodeword (codebookOfCbd 0x132) oneCode = .ok 5 t) ∧
    ∃ t, readCodeword (codebookOfCbd 0x010) (stream [0x00, 0x01, 0x00, 0x01]) = .ok 32767 t :=
  ⟨⟨(readCodeword (codebookOfCbd 0x132) oneCode).state, by decide +kernel⟩,
   ⟨(readCodeword (codebookOfCbd 0x010) (stream [0x00, 0x01, 0x00, 0x01])).state, by decide +kernel⟩⟩

/-- The codeword ends exactly at BITEND (V5.2). -/
theorem witness_WrcwWritesCodeword :
    Running oneCode ∧ CursorsLegal oneCode ∧ oneCode.memoriesWf ∧
    Codes (codebookOfCbd oneCode.cbd) oneCode.val.toInt (codeword 1 2 1) ∧
    oneCode.cur.bitpos.toNat + (codeword 1 2 1).length ≤ oneCode.cur.bitend.toNat :=
  ⟨by decide +kernel, by decide +kernel, memoriesWf_of_ok (by decide +kernel), codes_of 1 2 1 (by decide +kernel), by decide +kernel⟩

/-- A value to write under the codebook (0,1,0), with exactly 32 bits of room. -/
def room (v : Word) : State := { stream [0, 0, 0, 0] with cbd := 0x010, val := v }

/-- Both ends of the range, and the first value outside at each end (V3.2). -/
theorem witness_Representable :
    Running (room 0) ∧ CursorsLegal (room 0) ∧ (room 0).cur.bitpos.toNat + 32 ≤ (room 0).cur.bitend.toNat ∧
    0 ≤ (room 0).val.toInt ∧ (room 65534).val.toInt ≤ vmax (codebookOfCbd (room 65534).cbd) ∧ (room (-1)).val.toInt < 0 ∧
    vmax (codebookOfCbd (room 65535).cbd) < (room 65535).val.toInt := by decide +kernel

theorem witness_CodewordBijection :
    (Running (room 65534) ∧ (room 65534).memoriesWf ∧ BufferLegal (room 65534) ∧
      (room 65534).cur.bitpos.toNat + 32 ≤ (room 65534).cur.bitend.toNat ∧
      (room 65534).cur.bitend.toNat ≤ 8 * (room 65534).cur.bsLen.toNat ∧ 0 ≤ (room 65534).val.toInt ∧
      (room 65534).val.toInt ≤ vmax (codebookOfCbd (room 65534).cbd)) ∧
    Codes (codebookOfCbd oneCode.cbd) 5 (codeword 1 2 1) :=
  ⟨⟨by decide +kernel, memoriesWf_of_ok (by decide +kernel), by decide +kernel⟩, codes_of 1 2 1 (by decide +kernel)⟩

/-- Both ends of the range that ZZDEC inverts, and the first value outside at each end (2.6 of the vectors). -/
theorem witness_ZigzagMaps :
    Running (room 0x3FFFFFFF) ∧ (room 0x3FFFFFFF).val.toInt ≤ 2 ^ 30 - 1 ∧ -2 ^ 30 ≤ (room 0xC0000000).val.toInt ∧
    CursorsLegal (room 0x40000000) ∧ 2 ^ 30 - 1 < (room 0x40000000).val.toInt ∧ (room 0xBFFFFFFF).val.toInt < -2 ^ 30 ∧
    0 ≤ (room 0x7FFFFFFF).val.toInt := by decide +kernel

/-- 2.7 of the vectors: the last bit that fits, and the first that does not. -/
theorem witness_AlignwPads :
    let s := between (stream [0xFF, 0xFF]) 13 16
    let u := between (stream [0xFF, 0xFF]) 13 15
    Running s ∧ CursorsLegal s ∧ s.memoriesWf ∧ 13 + (8 - 13 % 8) % 8 ≤ s.cur.bitend.toNat ∧
    CursorsLegal u ∧ ¬13 + (8 - 13 % 8) % 8 ≤ u.cur.bitend.toNat ∧ ¬CursorsLegal (between u 16 15) :=
  ⟨by decide +kernel, by decide +kernel, memoriesWf_of_ok (by decide +kernel), by decide +kernel⟩

/-- The state with one byte of BS fewer than `BS_LEN`. -/
def tooLong (s : State) : State := { s with cfg := { s.cfg with bsBytes := s.cur.bsLen.toNat - 1 } }

theorem witness_ProbeAnswers : Running frame ∧ BufferLegal frame ∧ Running (tooLong frame) ∧ ¬BufferLegal (tooLong frame) := by
  decide +kernel

/-- V11.1: each precondition alone out of order, at the first value outside. -/
theorem witness_OperandFaults :
    let c := between lumaPlane 17 16
    let b := { lumaPlane with plane := { lumaPlane.plane with l2bps := 6 } }
    let m := { lumaPlane with plane := { lumaPlane.plane with maxc := 65 } }
    Running lumaPlane ∧ ¬CursorsLegal c ∧ (Instr.rdcw.opcode.toNat ∈ [0x11, 0x12]) ∧ CursorsLegal b ∧ ¬BpsLegal b ∧
    CursorsLegal m ∧ BpsLegal m ∧ ¬MaxcLegal m ∧ ¬MaxcLegal { m with plane := { m.plane with maxc := 0 } } ∧
    WellFormed (.selpl 2) = true ∧ ¬BufferLegal (tooLong frame) := by decide +kernel

/-- V10.8 and V10.9: each writer, and NXSL, with registers it refuses, one for each check. -/
theorem witness_WriterFaults :
    Running State.reset ∧ BufferLegal State.reset ∧ ¬FrameWritable State.reset ∧ State.reset.fh.width = 0 ∧
    BufferLegal (encodeFrame 91) ∧ ¬FrameWritable (encodeFrame 91) := by decide +kernel

theorem witness_WriterFaults_picture :
    ¬PictureWritable { schedule with ph := { schedule.ph with hdrsize := 9 } } ∧
    ¬PictureWritable { schedule with cfg := { schedule.cfg with maxSlices := 5 } } ∧
    ¬PictureWritable { schedule with ph := { schedule.ph with slicecount := 5 } } ∧
    ¬PictureWritable { schedule with cur := { schedule.cur with bsLen := 19 } } := by decide +kernel

theorem witness_WriterFaults_schedule :
    schedule.sched.idx.toNat < schedule.ph.slicecount.toNat ∧
    ({ schedule with sched := { schedule.sched with mbx := 7 } } : State).fh.mbw ≤ 7 ∧
    ({ schedule with cfg := { schedule.cfg with maxSlices := 0 } } : State).cfg.maxSlices ≤ schedule.sched.idx.toNat := by
  decide +kernel

theorem witness_WriterFaults_slice :
    ¬SliceWritable State.reset ∧
    ¬SliceWritable { encodeSlice with cfg := { encodeSlice.cfg with maxSlices := 0 } } ∧
    ¬SliceWritable { encodeSlice with slice := { encodeSlice.slice with hdrsize := 7 } } ∧
    ¬SliceWritable { encodeSlice with slice := { encodeSlice.slice with ysize := 65535 } } ∧
    ¬SliceWritable { encodeSlice with slice := { encodeSlice.slice with ysize := 95 } } := by decide +kernel

/-- The codeword of `oneCode` with one bit too little room (V5.3). -/
theorem witness_WriterFaults_codeword :
    let s := { oneCode with cur := { oneCode.cur with bitend := 3 } }
    Codes (codebookOfCbd s.cbd) s.val.toInt (codeword 1 2 1) ∧ Running s ∧ CursorsLegal s ∧
    s.cur.bitend.toNat < s.cur.bitpos.toNat + (codeword 1 2 1).length :=
  ⟨codes_of 1 2 1 (by decide +kernel), by decide +kernel⟩

theorem witness_PfrmParses : Running frame ∧ BufferLegal frame ∧ frame.memoriesWf ∧ frameFault frame = none :=
  ⟨by decide +kernel, by decide +kernel, memoriesWf_of_ok (by decide +kernel), by decide +kernel⟩

/-- The frame with one byte replaced. -/
def broken (a : Nat) (b : Byte) : State := { frame with bs := bsSetByte frame.bs a b }

/-- The picture with one byte replaced. -/
def brokenPicture (a : Nat) (b : Byte) : State := { picture with bs := bsSetByte picture.bs a b }

/-- Every check of PFRM and PPIC that can fail, each alone (2.10 of the vectors). -/
theorem witness_HeaderFaults :
    frameFault State.reset = some 1 ∧ frameFault (broken 4 0x49) = some 2 ∧ frameFault (broken 18 0x80) = some 3 ∧
    frameFault (broken 20 0x8C) = some 4 ∧ frameFault (broken 9 83) = some 5 ∧ frameFault (broken 3 121) = some 6 ∧
    pictureFault State.reset = some (1, 1) ∧ pictureFault (brokenPicture 97 0xFF) = some (1, 1) ∧
    pictureFault { brokenPicture 98 2 with cfg := { picture.cfg with maxSlices := 1 } } = some (3, 3) ∧
    pictureFault (brokenPicture 98 2) = some (1, 7) ∧ Running (broken 4 0x49) ∧ BufferLegal (broken 4 0x49) := by decide +kernel

theorem witness_WfrmWrites :
    Running (encodeFrame 92) ∧ BufferLegal (encodeFrame 92) ∧ (encodeFrame 92).memoriesWf ∧ (encodeFrame 92).cfg.wf = true ∧
    FrameWritable (encodeFrame 92) :=
  ⟨by decide +kernel, by decide +kernel, memoriesWf_of_ok (by decide +kernel), by decide +kernel, by decide +kernel⟩

theorem witness_WfrmPfrmRestores :
    let s := encodeFrame 120
    Running s ∧ s.memoriesWf ∧ s.cfg.wf = true ∧ exec .wfrm s = .next (after .wfrm s) ∧ Running (after .wfrm s) ∧
    8 + (after .wfrm s).fh.hdrsize.toNat ≤ (after .wfrm s).fh.framesize.toNat ∧
    (after .wfrm s).cur.frameBase.toNat + (after .wfrm s).fh.framesize.toNat ≤ (after .wfrm s).cur.bsLen.toNat :=
  ⟨by decide +kernel, memoriesWf_of_ok (by decide +kernel), by decide +kernel, exec_after _ _, by decide +kernel⟩

theorem witness_PpicParses : Running picture ∧ BufferLegal picture ∧ picture.memoriesWf ∧ pictureFault picture = none :=
  ⟨by decide +kernel, by decide +kernel, memoriesWf_of_ok (by decide +kernel), by decide +kernel⟩

theorem witness_WpicWrites : Running schedule ∧ BufferLegal schedule ∧ schedule.memoriesWf ∧ PictureWritable schedule :=
  ⟨by decide +kernel, by decide +kernel, memoriesWf_of_ok (by decide +kernel), by decide +kernel⟩

/-- No slice left (V10.9), and program 5's second slice: the candidate 4 halved once, `k = 2`, `m = 1`. -/
theorem witness_NxslDelivers :
    (Running State.reset ∧ BufferLegal State.reset ∧ State.reset.ph.slicecount.toNat ≤ State.reset.sched.idx.toNat) ∧
    let s := { schedule with sched := { schedule.sched with idx := 1, mbx := 4 } }
    Running s ∧ BufferLegal s ∧ s.sched.idx.toNat < s.ph.slicecount.toNat ∧ s.sched.idx.toNat < s.cfg.maxSlices ∧
    s.sched.mbx.toNat < s.fh.mbw ∧ s.sched.cur.toNat = 2 ^ 2 ∧ 1 ≤ 2 ∧ 2 ^ 1 ≤ s.fh.mbw - s.sched.mbx.toNat ∧
    s.fh.mbw - s.sched.mbx.toNat < 2 ^ (1 + 1) := by decide +kernel

theorem witness_RowSchedule :
    Running schedule ∧ BufferLegal schedule ∧ 1 ≤ schedule.fh.mbw ∧ schedule.sched.mbx = 0 ∧
    schedule.sched.cur = BitVec.ofNat 16 (2 ^ (schedule.ph.l2byte.toNat / 16)) ∧
    schedule.sched.idx.toNat + slicesPerRow schedule.fh.mbw (schedule.ph.l2byte.toNat / 16) ≤ schedule.ph.slicecount.toNat ∧
    schedule.sched.idx.toNat + slicesPerRow schedule.fh.mbw (schedule.ph.l2byte.toNat / 16) ≤ schedule.cfg.maxSlices := by
  decide +kernel

/-- A slice that fits, and V10.3's of 5 bytes. -/
theorem witness_PslcParses :
    Running slice ∧ BufferLegal slice ∧ SliceLegal slice ∧
    ¬SliceLegal { slice with slice := { slice.slice with size := 5 } } := by decide +kernel

theorem witness_SelplSelects :
    (2 : BitVec 2) ≠ 3 ∧ Running parsed ∧ BufferLegal parsed ∧ parsed.status.slok = true ∧ slice.status.slok = false ∧
    ¬parsed.cur.bsLen.toNat < planeStart parsed.slice 2 + planeBytes parsed.slice 2 ∧
    ({ parsed with cur := { parsed.cur with bsLen := 119 } } : State).cur.bsLen.toNat <
      planeStart parsed.slice 2 + planeBytes parsed.slice 2 := by decide +kernel

theorem witness_WslcWrites :
    Running encodeSlice ∧ BufferLegal encodeSlice ∧ encodeSlice.memoriesWf ∧ SliceWritable encodeSlice :=
  ⟨by decide +kernel, by decide +kernel, memoriesWf_of_ok (by decide +kernel), by decide +kernel⟩

theorem witness_WslcPslcRestores :
    Running encodeSlice ∧ encodeSlice.memoriesWf ∧ exec .wslc encodeSlice = .next (after .wslc encodeSlice) ∧
    Running (after .wslc encodeSlice) :=
  ⟨by decide +kernel, memoriesWf_of_ok (by decide +kernel), exec_after _ _, by decide +kernel⟩

theorem witness_PlaneStarts :
    Running corruptPlane ∧ BpsLegal corruptPlane ∧ corruptPlane.memoriesWf ∧
    ¬BpsLegal { corruptPlane with plane := { corruptPlane.plane with l2bps := 6 } } :=
  ⟨by decide +kernel, by decide +kernel, memoriesWf_of_ok (by decide +kernel), by decide +kernel⟩

/-- Program 1: the first block, the fourth, an abandoned plane, and a plane past its last block. -/
theorem witness_DcsymDecodes :
    let s := between lumaPlane 877 912
    let u := { s with ctx := { s.ctx with blk := 3, prevdc := 7 } }
    Running lumaPlane ∧ CursorsLegal lumaPlane ∧ BpsLegal lumaPlane ∧ lumaPlane.memoriesWf ∧
    lumaPlane.status.abandon = false ∧ lumaPlane.status.eop = false ∧ lumaPlane.ctx.blk = 0 ∧
    Codes (cbromAt lumaPlane.cfg.cbrom .firstDC 0) (10 : Nat) (codeword 0 5 10) ∧
    holdsBits lumaPlane.bs lumaPlane.cur.bitpos.toNat (codeword 0 5 10) = true ∧
    u.ctx.blk.toNat < 2 ^ u.plane.l2bps.toNat ∧ CursorsLegal u ∧
    Codes (cbromAt u.cfg.cbrom .dcDelta u.ctx.prevcode.toNat) (5 : Nat) (codeword 2 2 2) ∧
    holdsBits u.bs u.cur.bitpos.toNat (codeword 2 2 2) = true ∧
    u.cur.bitpos.toNat + (codeword 2 2 2).length ≤ u.cur.bitend.toNat ∧
    lumaTerms.status.eop = true ∧
    2 ^ u.plane.l2bps.toNat ≤ ({ u with ctx := { u.ctx with blk := 4 } } : State).ctx.blk.toNat :=
  ⟨by decide +kernel, by decide +kernel, by decide +kernel, memoriesWf_of_ok (by decide +kernel), by decide +kernel,
   by decide +kernel, by decide +kernel, codes_of 0 5 10 (by decide +kernel), by decide +kernel, by decide +kernel,
   by decide +kernel, codes_of 2 2 2 (by decide +kernel), by decide +kernel⟩

/-- Its corrupt codewords: the first block with no bit, the last cut off in its prefix. -/
theorem witness_DcsymDecodes_corrupt :
    let s := between lumaPlane 864 864
    let u := { between lumaPlane 877 879 with ctx := { lumaPlane.ctx with blk := 3, prevdc := 7 } }
    CursorsLegal s ∧ s.ctx.blk = 0 ∧ CorruptAt (cbromAt s.cfg.cbrom .firstDC 0) s.bs s.cur.bitpos.toNat s.cur.bitend.toNat 3 864 ∧
    CursorsLegal u ∧ u.ctx.blk.toNat < 2 ^ u.plane.l2bps.toNat ∧
    CorruptAt (cbromAt u.cfg.cbrom .dcDelta u.ctx.prevcode.toNat) u.bs u.cur.bitpos.toNat u.cur.bitend.toNat 3 877 :=
  ⟨by decide +kernel, by decide +kernel, .endsInPrefix (by decide +kernel) (by decide +kernel) (by decide +kernel),
   by decide +kernel, by decide +kernel, .endsInPrefix (by decide +kernel) (by decide +kernel) (by decide +kernel)⟩

/-- The first two codewords of the DC part of program 1's Y plane. -/
theorem dcStream_two : DcStream lumaPlane.cfg 10 [4] (codeword 0 5 10 ++ codeword 0 3 4) :=
  ⟨_, _, rfl, codes_of 0 5 10 (by decide +kernel), codeword 0 3 4, [], rfl, codes_of 0 3 4 (by decide +kernel), rfl⟩

/-- The DC part of program 1's Y plane. -/
def dcBits : List Bool := codeword 0 5 10 ++ (codeword 0 3 4 ++ (codeword 0 2 0 ++ (codeword 2 2 2 ++ [])))

theorem dcStream_four : DcStream lumaPlane.cfg 10 [4, 0, 5] dcBits :=
  ⟨_, _, rfl, codes_of 0 5 10 (by decide +kernel), _, _, rfl, codes_of 0 3 4 (by decide +kernel),
   _, _, rfl, codes_of 0 2 0 (by decide +kernel), _, _, rfl, codes_of 2 2 2 (by decide +kernel), rfl⟩

theorem witness_RddcDecodes :
    Running lumaPlane ∧ CursorsLegal lumaPlane ∧ BpsLegal lumaPlane ∧ lumaPlane.cfg.wf = true ∧ lumaPlane.memoriesWf ∧
    [10, 4, 0, 5].length = 2 ^ lumaPlane.plane.l2bps.toNat ∧ DcCodes lumaPlane.cfg [10, 4, 0, 5] dcBits ∧
    holdsBits lumaPlane.bs lumaPlane.cur.bitpos.toNat dcBits = true ∧
    lumaPlane.cur.bitpos.toNat + dcBits.length ≤ lumaPlane.cur.bitend.toNat :=
  ⟨by decide +kernel, by decide +kernel, by decide +kernel, by decide +kernel, memoriesWf_of_ok (by decide +kernel),
   by decide +kernel, dcStream_four, by decide +kernel, by decide +kernel⟩

/-- The Y plane cut off in the prefix of its third DC codeword: block 2 is corrupt. -/
theorem witness_RddcConceals :
    let s := between lumaPlane 864 874
    let l := codeword 0 5 10 ++ codeword 0 3 4
    Running s ∧ CursorsLegal s ∧ BpsLegal s ∧ s.cfg.wf = true ∧ s.memoriesWf ∧ s.strict = false ∧
    [10, 4].length < 2 ^ s.plane.l2bps.toNat ∧ DcCodes s.cfg [10, 4] l ∧
    holdsBits s.bs s.cur.bitpos.toNat l = true ∧ s.cur.bitpos.toNat + l.length ≤ s.cur.bitend.toNat ∧
    CorruptAt (nextDcBook s.cfg [10, 4]) s.bs (s.cur.bitpos.toNat + l.length) s.cur.bitend.toNat 3 874 ∧ MaxcLegal s :=
  ⟨by decide +kernel, by decide +kernel, by decide +kernel, by decide +kernel, memoriesWf_of_ok (by decide +kernel),
   by decide +kernel, by decide +kernel, dcStream_two, by decide +kernel, by decide +kernel,
   .endsInPrefix (by decide) (by decide) (by decide +kernel), by decide +kernel⟩

/-- The same in strict mode, with no bit at all: block 0 is corrupt. -/
theorem witness_RddcConceals_first :
    let s := { between lumaPlane 864 864 with strict := true }
    Running s ∧ CursorsLegal s ∧ s.memoriesWf ∧ ([] : List Nat).length < 2 ^ s.plane.l2bps.toNat ∧ DcCodes s.cfg [] [] ∧
    CorruptAt (nextDcBook s.cfg []) s.bs (s.cur.bitpos.toNat + ([] : List Bool).length) s.cur.bitend.toNat 3 864 :=
  ⟨by decide +kernel, by decide +kernel, memoriesWf_of_ok (by decide +kernel), by decide +kernel, rfl,
   .endsInPrefix (by decide +kernel) (by decide +kernel) (by decide +kernel)⟩

/-- The first triple of program 1's Y plane. -/
theorem witness_AcsymDecodes :
    let s := after .acinit lumaTerms
    let l := codeword 0 0 0 ++ codeword 2 1 0 ++ [false]
    Running s ∧ CursorsLegal s ∧ BpsLegal s ∧ MaxcLegal s ∧ s.memoriesWf ∧ s.status.abandon = false ∧ s.status.eop = false ∧
    Codes (cbromAt s.cfg.cbrom .acRun s.ctx.prevrun.toNat) (0 : Nat) (codeword 0 0 0) ∧
    Codes (cbromAt s.cfg.cbrom .acLevel s.ctx.prevlev.toNat) (3 - 1 : Nat) (codeword 2 1 0) ∧
    holdsBits s.bs s.cur.bitpos.toNat l = true ∧ s.cur.bitpos.toNat + l.length ≤ s.cur.bitend.toNat ∧
    s.ctx.pos.toNat + 0 + 1 < s.plane.maxc.toNat * 2 ^ s.plane.l2bps.toNat :=
  ⟨by decide +kernel, by decide +kernel, by decide +kernel, by decide +kernel, memoriesWf_of_ok (by decide +kernel),
   by decide +kernel, by decide +kernel, codes_of 0 0 0 (by decide +kernel), codes_of 2 1 0 (by decide +kernel),
   by decide +kernel, by decide +kernel, by decide +kernel⟩

/-- `AcEnd` in the terms of a state. -/
abbrev EndsAt (s : State) (sub : Option Nat) (next : Nat) : Prop :=
  AcEnd s.cfg.cbrom s.bs s.cur.bitend.toNat (2 ^ s.plane.l2bps.toNat) s.plane.maxc.toNat s.ctx.prevrun.toNat s.ctx.prevlev.toNat
    s.ctx.pos.toNat s.cur.bitpos.toNat sub next

/-- Program 3's second run, 130, in a plane of 4 blocks from the position `pos`. -/
def longRun (pos : Word) : State :=
  { between corruptPlane 14 40 with
    plane := { corruptPlane.plane with l2bps := 2, maxc := 63 }
    ctx := { corruptPlane.ctx with pos := pos, prevrun := 0, prevlev := 2 } }

/-- The first triple of program 1's Y plane, `1 0010 0` from bit 882, with `n` bits of it below BITEND. -/
def cutTriple (n : Nat) : State :=
  { between lumaTerms 882 (882 + n) with
    ctx := { lumaTerms.ctx with pos := 3, prevrun := 4, prevlev := 2 }
    status := { lumaTerms.status with eop := false } }

/-- No bit; a run cut off; the run 130 at the first position beyond the plane, at the last inside it, and at the first at MAXC; a level
cut off after one bit; and a sign bit just beyond BITEND. -/
theorem witness_AcsymStops :
    EndsAt (cutTriple 0) none 882 ∧ EndsAt (between (longRun 3) 14 30) (some 3) 24 ∧
    EndsAt (longRun 125) (some 4) (14 + (codeword 9 7 1).length) ∧ EndsAt (longRun 124) none (14 + (codeword 9 7 1).length) ∧
    EndsAt (longRun 121) none (14 + (codeword 9 7 1).length) ∧
    EndsAt (cutTriple 2) (some 3) 883 ∧ EndsAt (cutTriple 5) (some 3) 887 :=
  ⟨.zeros (by decide +kernel) (by decide +kernel),
   .badRun 3 24 (by decide +kernel) (.endsInEscape 9 7 (by decide) (by decide +kernel) (by decide +kernel) (by decide +kernel)
     (by decide +kernel) (by decide) (by decide +kernel)),
   .overrun 130 (codeword 9 7 1) (codes_of 9 7 1 (by decide +kernel)) (by decide +kernel) (by decide +kernel) (by decide +kernel),
   .reduced 130 (codeword 9 7 1) (codes_of 9 7 1 (by decide +kernel)) (by decide +kernel) (by decide +kernel) (by decide +kernel)
     (by decide +kernel),
   .reduced 130 (codeword 9 7 1) (codes_of 9 7 1 (by decide +kernel)) (by decide +kernel) (by decide +kernel) (by decide +kernel)
     (by decide +kernel),
   .badLevel 0 3 883 (codeword 0 0 0) (codes_of 0 0 0 (by decide +kernel)) (by decide +kernel) (by decide +kernel)
     (by decide +kernel) (.endsInPrefix (by decide +kernel) (by decide +kernel) (by decide +kernel)),
   .noSign 0 2 (codeword 0 0 0) (codeword 2 1 0) (codes_of 0 0 0 (by decide +kernel)) (codes_of 2 1 0 (by decide +kernel))
     (by decide +kernel) (by decide +kernel) (by decide +kernel)⟩

/-- The states of `witness_AcsymStops` meet the other hypotheses. -/
theorem witness_AcsymStops_legal :
    (∀ s ∈ [cutTriple 0, between (longRun 3) 14 30, longRun 125, longRun 124, longRun 121, cutTriple 2, cutTriple 5],
      Running s ∧ CursorsLegal s ∧ BpsLegal s ∧ MaxcLegal s ∧ s.status.abandon = false ∧ s.status.eop = false) ∧
    lumaTerms.status.eop = true := by decide +kernel

/-- The triples of program 1's Y plane. -/
def lumaTriples : List Triple := [⟨0, 3, false⟩, ⟨1, 1, true⟩, ⟨2, 2, false⟩, ⟨13, 4, true⟩]

/-- The AC part of program 1's Y plane: 1 0010 0, 01 1 1, 001 01 0, 00001101 0011 1. -/
def acBits : List Bool :=
  codeword 0 0 0 ++ codeword 2 1 0 ++ false :: (codeword 1 0 0 ++ codeword 0 0 0 ++ true ::
    (codeword 2 0 0 ++ codeword 1 0 0 ++ false :: (codeword 4 3 5 ++ codeword 2 1 1 ++ true :: [])))

theorem acStream_four {s : State}
    (h : s.cfg.cbrom = defaultCbrom ∧ s.cfg.runCtxInit.val = 4 ∧ s.cfg.levCtxInit.val = 2) :
    AcStream s.cfg.cbrom s.cfg.runCtxInit.val s.cfg.levCtxInit.val lumaTriples acBits := by
  rw [h.1, h.2.1, h.2.2]
  exact ⟨_, _, _, rfl, by decide, codes_of 0 0 0 (by decide +kernel), codes_of 2 1 0 (by decide +kernel),
    _, _, _, rfl, by decide, codes_of 1 0 0 (by decide +kernel), codes_of 0 0 0 (by decide +kernel),
    _, _, _, rfl, by decide, codes_of 2 0 0 (by decide +kernel), codes_of 1 0 0 (by decide +kernel),
    _, _, _, rfl, by decide, codes_of 4 3 5 (by decide +kernel), codes_of 2 1 1 (by decide +kernel), rfl⟩

/-- What the triples `ts` of program 1's Y plane, in the bits `l`, and their end meet. -/
abbrev RdacMet (s : State) (ts : List Triple) (l : List Bool) (sub : Option Nat) (next : Nat) : Prop :=
  AcStream s.cfg.cbrom s.cfg.runCtxInit.val s.cfg.levCtxInit.val ts l ∧
  AcEnd s.cfg.cbrom s.bs s.cur.bitend.toNat (2 ^ s.plane.l2bps.toNat) s.plane.maxc.toNat (lastRun s.cfg ts) (lastLevel s.cfg ts)
    (lastPlace (2 ^ s.plane.l2bps.toNat) ts) (s.cur.bitpos.toNat + l.length) sub next

/-- The other hypotheses, evaluated. -/
def rdacLegal (s : State) (ts : List Triple) (l : List Bool) : Bool :=
  decide (Running s ∧ CursorsLegal s ∧ BpsLegal s ∧ MaxcLegal s ∧ s.cfg.wf = true ∧ s.status.abandon = false) &&
  ((acPositions (2 ^ s.plane.l2bps.toNat - 1) ts).all fun np => np < s.plane.maxc.toNat * 2 ^ s.plane.l2bps.toNat) &&
  holdsBits s.bs s.cur.bitpos.toNat l && decide (s.cur.bitpos.toNat + l.length ≤ s.cur.bitend.toNat) && memoriesOk s

/-- Program 1's Y plane: all its triples and the zeros after them; its first triple and a second level with no bit left; and no triple,
the first one standing at MAXC. -/
theorem witness_RdacDecodes :
    let one := codeword 0 0 0 ++ codeword 2 1 0 ++ false :: []
    let cut := between lumaTerms 882 890
    let low := { lumaTerms with plane := { lumaTerms.plane with maxc := 1 } }
    rdacLegal lumaTerms lumaTriples acBits = true ∧ RdacMet lumaTerms lumaTriples acBits none (lumaTerms.cur.bitpos.toNat + acBits.length) ∧
    rdacLegal cut [⟨0, 3, false⟩] one = true ∧ RdacMet cut [⟨0, 3, false⟩] one (some 3) 890 ∧
    rdacLegal low [] [] = true ∧
    RdacMet low [] [] none (low.cur.bitpos.toNat + ([] : List Bool).length + (codeword 0 0 0).length) :=
  ⟨by decide +kernel, ⟨acStream_four (by decide +kernel), .zeros (by decide +kernel) (by decide +kernel)⟩,
   by decide +kernel,
   ⟨⟨_, _, _, rfl, by decide, codes_of 0 0 0 (by decide +kernel), codes_of 2 1 0 (by decide +kernel), rfl⟩,
     .badLevel 1 3 890 (codeword 1 0 0) (codes_of 1 0 0 (by decide +kernel)) (by decide +kernel) (by decide +kernel)
       (by decide +kernel) (.endsInPrefix (by decide +kernel) (by decide +kernel) (by decide +kernel))⟩,
   by decide +kernel,
   ⟨rfl, .reduced 0 (codeword 0 0 0) (codes_of 0 0 0 (by decide +kernel)) (by decide +kernel) (by decide +kernel)
     (by decide +kernel) (by decide +kernel)⟩⟩

/-- An abandoned plane. -/
theorem witness_RdacDecodes_abandoned :
    let s := { lumaTerms with status := { lumaTerms.status with abandon := true } }
    Running s ∧ CursorsLegal s ∧ BpsLegal s ∧ MaxcLegal s ∧ s.status.abandon = true := by decide +kernel

theorem planeCodes_luma : planeCodes lumaEncode = [10, 4, 0, 5] := by decide +kernel

/-- Program 2's Y plane, with exactly the 18 bits its DC part takes. -/
theorem witness_WrdcWrites :
    let s := between lumaEncode 0 18
    Running s ∧ CursorsLegal s ∧ BpsLegal s ∧ s.cfg.wf = true ∧ s.memoriesWf ∧ DcCodes s.cfg (planeCodes s) dcBits ∧
    s.cur.bitpos.toNat + dcBits.length ≤ s.cur.bitend.toNat := by
  refine ⟨by decide +kernel, by decide +kernel, by decide +kernel, by decide +kernel, memoriesWf_of_ok (by decide +kernel), ?_,
    by decide +kernel⟩
  show DcCodes lumaEncode.cfg (planeCodes lumaEncode) dcBits
  rw [planeCodes_luma]
  exact dcStream_four

/-- Its last codeword one bit too long (V8.11), and a first term with no codeword. -/
theorem witness_WrdcWrites_fails :
    let s := between lumaEncode 0 17
    let l := codeword 0 5 10 ++ (codeword 0 3 4 ++ (codeword 0 2 0 ++ []))
    let u := { lumaEncode with coef := cells 32 [(0, 2 ^ 30)] }
    (CursorsLegal s ∧ planeCodes s = [10, 4, 0] ++ 5 :: [] ∧ DcCodes s.cfg [10, 4, 0] l ∧
      s.cur.bitpos.toNat + l.length ≤ s.cur.bitend.toNat ∧
      WriteFails (nextDcBook s.cfg [10, 4, 0]) (5 : Nat) (s.cur.bitpos.toNat + l.length) s.cur.bitend.toNat 3 2) ∧
    u.memoriesWf ∧ planeCodes u = [] ++ 2 ^ 31 :: [2 ^ 31 - 1, 0, 0] ∧ DcCodes u.cfg [] [] ∧
    WriteFails (nextDcBook u.cfg []) (2 ^ 31 : Nat) (u.cur.bitpos.toNat + ([] : List Bool).length) u.cur.bitend.toNat 5 2 :=
  ⟨⟨by decide +kernel, planeCodes_luma,
     ⟨_, _, rfl, codes_of 0 5 10 (by decide +kernel), _, _, rfl, codes_of 0 3 4 (by decide +kernel),
       _, _, rfl, codes_of 0 2 0 (by decide +kernel), rfl⟩, by decide +kernel,
     .noRoom (codeword 2 2 2) (codes_of 2 2 2 (by decide +kernel)) (by decide +kernel)⟩,
   memoriesWf_of_ok (by decide +kernel), by decide +kernel, rfl, .tooLarge (by decide +kernel) (by decide +kernel)⟩

theorem planeTriples_luma : planeTriples lumaEncode = lumaTriples := by decide +kernel

/-- Program 2's Y plane, with exactly the 29 bits its AC part takes. -/
theorem witness_WracWrites :
    let s := between lumaEncode 18 47
    Running s ∧ CursorsLegal s ∧ BpsLegal s ∧ MaxcLegal s ∧ s.cfg.wf = true ∧ s.memoriesWf ∧
    AcStream s.cfg.cbrom s.cfg.runCtxInit.val s.cfg.levCtxInit.val (planeTriples s) acBits ∧
    s.cur.bitpos.toNat + acBits.length ≤ s.cur.bitend.toNat := by
  refine ⟨by decide +kernel, by decide +kernel, by decide +kernel, by decide +kernel, by decide +kernel,
    memoriesWf_of_ok (by decide +kernel), ?_, by decide +kernel⟩
  show AcStream _ _ _ (planeTriples lumaEncode) _
  rw [planeTriples_luma]
  exact acStream_four (by decide +kernel)

/-- What a first triple of program 2's Y plane that fails meets, with `n` bits of room for it. -/
abbrev TripleCut (n : Nat) (part : List Bool) : Prop :=
  let s := between lumaEncode 18 (18 + n)
  planeTriples s = [] ++ ⟨0, 3, false⟩ :: lumaTriples.tail ∧ CursorsLegal s ∧
  TripleFails s.cfg.cbrom (lastRun s.cfg []) (lastLevel s.cfg []) ⟨0, 3, false⟩ (s.cur.bitpos.toNat + ([] : List Bool).length)
    s.cur.bitend.toNat part 3 2

/-- One bit too few for its run, its level and its sign (V8.11). -/
theorem witness_WracWrites_fails :
    TripleCut 0 [] ∧ TripleCut 4 (codeword 0 0 0) ∧ TripleCut 5 (codeword 0 0 0 ++ codeword 2 1 0) :=
  ⟨⟨planeTriples_luma, by decide +kernel,
     .run 3 2 (.noRoom (codeword 0 0 0) (codes_of 0 0 0 (by decide +kernel)) (by decide +kernel))⟩,
   ⟨planeTriples_luma, by decide +kernel,
     .level _ 3 2 (codes_of 0 0 0 (by decide +kernel)) (by decide +kernel)
       (.noRoom (codeword 2 1 0) (codes_of 2 1 0 (by decide +kernel)) (by decide +kernel))⟩,
   ⟨planeTriples_luma, by decide +kernel,
     .sign _ _ (codes_of 0 0 0 (by decide +kernel)) (codes_of 2 1 0 (by decide +kernel)) (by decide +kernel)⟩⟩

/-- A level with no codeword: that of the least `i32`. -/
theorem witness_WracWrites_tooLarge :
    let s := { lumaEncode with coef := cells 32 [(1, -2 ^ 31)] }
    planeTriples s = [] ++ ⟨0, 2 ^ 31, true⟩ :: [] ∧ s.memoriesWf ∧
    TripleFails s.cfg.cbrom (lastRun s.cfg []) (lastLevel s.cfg []) ⟨0, 2 ^ 31, true⟩ (s.cur.bitpos.toNat + ([] : List Bool).length)
      s.cur.bitend.toNat (codeword 0 0 0) 5 2 :=
  ⟨by decide +kernel, memoriesWf_of_ok (by decide +kernel),
   .level _ 5 2 (codes_of 0 0 0 (by decide +kernel)) (by decide +kernel) (.tooLarge (by decide +kernel) (by decide +kernel))⟩

theorem witness_PlaneRoundTrip :
    let s := lumaEncode
    Running s ∧ CursorsLegal s ∧ BpsLegal s ∧ MaxcLegal s ∧ s.cfg.wf = true ∧ s.memoriesWf ∧ s.cur.bitpos.toNat % 8 = 0 ∧
    (∀ i, i < 64 → s.qmsAt .luma i = 4) ∧
    (∀ blk, blk < 2 ^ s.plane.l2bps.toNat → (s.coefAt (64 * blk)).toInt.natAbs < 2 ^ 29) ∧
    exec .wrdc s = .next (after .wrdc s) ∧ Running (after .wrdc s) ∧
    exec .wrac (after .wrdc s) = .next (after .wrac (after .wrdc s)) ∧ Running (after .wrac (after .wrdc s)) ∧
    exec .alignw (after .wrac (after .wrdc s)) = .next (after .alignw (after .wrac (after .wrdc s))) ∧
    Running (after .alignw (after .wrac (after .wrdc s))) :=
  ⟨by decide +kernel, by decide +kernel, by decide +kernel, by decide +kernel, by decide +kernel,
   memoriesWf_of_ok (by decide +kernel), by decide +kernel, by decide +kernel, by decide +kernel, exec_after _ _,
   by decide +kernel, exec_after _ _, by decide +kernel, exec_after _ _, by decide +kernel⟩

/-- The payload of program 1's Y plane at two places, under different matrices, scans and earlier contexts. -/
theorem witness_ContextDeterminism :
    let s := lumaPlane
    let u := { stream [0xAB, 0x21, 0xA4, 0x72, 0x83, 0x4E] with
      plane := { l2bps := 2, maxc := 64, scansel := 1 }, ctx := { State.reset.ctx with prevdc := 9, prevrun := 7 } }
    Running s ∧ Running u ∧ CursorsLegal s ∧ CursorsLegal u ∧ BpsLegal s ∧ BpsLegal u ∧ MaxcLegal s ∧ s.strict = u.strict ∧
    s.plane.l2bps = u.plane.l2bps ∧ s.plane.maxc = u.plane.maxc ∧ s.cfg.cbrom = u.cfg.cbrom ∧
    s.cfg.dcCtxInit = u.cfg.dcCtxInit ∧ s.cfg.runCtxInit = u.cfg.runCtxInit ∧ s.cfg.levCtxInit = u.cfg.levCtxInit ∧
    s.cur.bitend.toNat - s.cur.bitpos.toNat = u.cur.bitend.toNat - u.cur.bitpos.toNat ∧
    (∀ k, k < s.cur.bitend.toNat - s.cur.bitpos.toNat →
      bsBit s.bs (s.cur.bitpos.toNat + k) = bsBit u.bs (u.cur.bitpos.toNat + k)) ∧
    Running (afterTimes (.dcsym .luma) 4 (after .dcinit s)) := by decide +kernel

theorem witness_FoldqFolds : Running encodeSlice ∧ 255 < 256 ∧ 1 ≤ 1 ∧ 1 < 224 ∧ 224 ≤ 224 := by decide +kernel

theorem witness_ScaleqScales : Running (encodeFrame 0) ∧ (encodeFrame 0).memoriesWf :=
  ⟨by decide +kernel, memoriesWf_of_ok (by decide +kernel)⟩

/-- An entry of 4 with the largest value that stays, a zero divisor, and one that is not. -/
theorem witness_ScalarQuantizer :
    Running (room 0x1FFFFFFF) ∧ (room 0x1FFFFFFF).val.toInt.natAbs < 2 ^ 29 ∧ (room 5).qmsAt .luma 63 = 4 ∧ ({ room 5 with qms := cells 32 [(0, 0)] } : State).qmsAt .luma 0 = 0 := by
  decide +kernel

theorem witness_QntpDivides :
    Running lumaPlane ∧ BpsLegal lumaPlane ∧ lumaPlane.memoriesWf ∧ (∀ i, i < 64 → lumaPlane.qmsAt .luma i ≠ 0) ∧
    let z := { lumaPlane with qms := cells 32 [(63, 0)] }
    z.memoriesWf ∧ 63 < 64 ∧ z.qmsAt .luma 63 = 0 ∧ ¬BpsLegal { z with plane := { z.plane with l2bps := 6 } } :=
  ⟨by decide +kernel, by decide +kernel, memoriesWf_of_ok (by decide +kernel), by decide +kernel,
   memoriesWf_of_ok (by decide +kernel), by decide +kernel⟩

/-- The smallest divisor, values of both signs, and the entry 7 of R237. -/
theorem witness_QuantizerLaws :
    let s := { room 0x80000000 with qms := cells 32 [(0, 7), (1, 1)] }
    Running s ∧ 1 ≤ (s.qmsAt .luma 1).toInt ∧ s.val.toInt < 0 ∧ 0 ≤ (room 0x7FFFFFFF).val.toInt ∧ s.qmsAt .luma 0 = 7 ∧
    1 ≤ (1 : Word).toInt ∧ (-6 : Word).toInt ≤ (13 : Word).toInt ∧ (1 : Word).toInt ≤ (7 : Word).toInt := by decide +kernel

theorem witness_MemoriesWfKept :
    (port 0x38000000 lumaEncode).memoriesWf ∧
    step (port 0x38000000 lumaEncode) = .next (stepTo (port 0x38000000 lumaEncode)) :=
  ⟨memoriesWf_of_ok (by decide +kernel), step_port _ _⟩

/-- A halted state with a record, one with a log, and a running one with neither. -/
theorem witness_RecordAgreesKept :
    (port 0 halted).recordAgrees ∧ (after (.rdac .chroma) (after (.rddc .chroma) corruptPlane)).recordAgrees ∧
    (port 0 lumaEncode).recordAgrees ∧ step (port 0 halted) = .next (stepTo (port 0 halted)) :=
  ⟨⟨by decide +kernel, by decide +kernel, by decide +kernel, by decide +kernel, by decide +kernel, by decide +kernel⟩,
   ⟨by decide +kernel, by decide +kernel, by decide +kernel, by decide +kernel, by decide +kernel, by decide +kernel⟩,
   ⟨by decide +kernel, by decide +kernel, by decide +kernel, by decide +kernel, by decide +kernel, by decide +kernel⟩,
   step_port _ _⟩

theorem witness_CommandFrames :
    lumaPlane.memoriesWf ∧ (∃ t, exec (.rddc .luma) lumaPlane = .next t) ∧ encodeSlice.memoriesWf ∧
    ∃ t, exec .wslc encodeSlice = .next t :=
  ⟨memoriesWf_of_ok (by decide +kernel), ⟨_, exec_after _ _⟩, memoriesWf_of_ok (by decide +kernel), ⟨_, exec_after _ _⟩⟩

end Sys2Proof.Tests
end

/-! PROOFS. What one step leaves of the five memories: every operation that stores to a memory keeps it canonical and differs from it
only below a bound (`DiffersBelow`). -/

namespace Sys2Proof.Machine

-- In order and not side by side: pending proofs hold memory, and the joined text is near the limit of check.sh.
set_option Elab.async false

open Sys2Proof.Claims

/-! ### A memory changed below a bound -/

/-- `m'` is in canonical form, lists nothing new at or beyond `n`, and reads as `m` does there. -/
structure DiffersBelow {w : Nat} (d : BitVec w) (n : Nat) (m m' : Memory w) : Prop where
  wf : Memory.wf d m'
  inside : ∀ size, n ≤ size → Memory.inside size m → Memory.inside size m'
  read : ∀ a, n ≤ a → Memory.read d m' a = Memory.read d m a

section
variable {w : Nat} {d : BitVec w} {n : Nat} {m m' m'' : Memory w}

theorem DiffersBelow.refl (h : Memory.wf d m) : DiffersBelow d n m m := ⟨h, fun _ _ => id, fun _ _ => rfl⟩

theorem DiffersBelow.trans (h : DiffersBelow d n m m') (k : DiffersBelow d n m' m'') : DiffersBelow d n m m'' :=
  ⟨k.wf, fun size hn hi => k.inside size hn (h.inside size hn hi), fun a ha => (k.read a ha).trans (h.read a ha)⟩

/-- An element that reads differently stands below the bound. -/
theorem DiffersBelow.lt_of_read_ne (h : DiffersBelow d n m m') {a : Nat} (ha : Memory.read d m' a ≠ Memory.read d m a) : a < n :=
  Nat.lt_of_not_le fun hn => ha (h.read a hn)

theorem differsBelow_write (hm : Memory.wf d m) {a : Nat} (ha : a < n) (v : BitVec w) :
    DiffersBelow d n m (Memory.write d m a v) :=
  ⟨Memory.wf_write d hm a v, fun _ hn hi => Memory.inside_write d hi (by omega) v,
    fun x hx => by rw [Memory.read_write d hm, if_neg (by omega)]⟩

theorem differsBelow_writeRange (hm : Memory.wf d m) {base k : Nat} (hk : base + k ≤ n) (f : Nat → BitVec w) :
    DiffersBelow d n m (Memory.writeRange d m base k f) :=
  ⟨Memory.wf_writeRange d hm base k f, fun _ hn hi => Memory.inside_writeRange d hi (by omega) f,
    fun x hx => by rw [Memory.read_writeRange d hm, if_neg (by omega)]⟩

/-- A memory emptied differs below its size. -/
theorem differsBelow_nil (hi : Memory.inside n m) : DiffersBelow d n m [] :=
  ⟨Memory.wf_nil d, fun size _ _ => Memory.inside_nil size, fun a ha =>
    (Memory.read_of_unlisted d fun c hc he => absurd (hi c hc) (by omega)).symm⟩

/-- A loop of changes below the bound is one. -/
theorem DiffersBelow.foldl {β : Type} {g : Memory w → β → Memory w} {l : List β} (h : DiffersBelow d n m m')
    (hg : ∀ x, Memory.wf d x → ∀ b ∈ l, DiffersBelow d n x (g x b)) : DiffersBelow d n m (l.foldl g m') := by
  induction l generalizing m' with
  | nil => exact h
  | cons b l ih =>
    exact ih (h.trans (hg m' h.wf b (by simp))) fun x hx c hc => hg x hx c (List.mem_cons_of_mem b hc)

end

/-! ### The stores of the header commands to BS -/

section
variable {n : Nat} {bs bs' : Memory 8}

theorem DiffersBelow.bsSetByte (h : DiffersBelow bsUnlisted n bs bs') {a : Nat} (ha : a < n) (b : Byte) :
    DiffersBelow bsUnlisted n bs (bsSetByte bs' a b) := h.trans (differsBelow_write h.wf ha b)

theorem DiffersBelow.memWrite (h : DiffersBelow bsUnlisted n bs bs') {a k : Nat} (ha : a + k ≤ n) (v : Nat) :
    DiffersBelow bsUnlisted n bs (memWrite k bs' a v) :=
  ⟨memWrite_wf h.wf k a v, fun size hn hi => memWrite_inside (h.inside size hn hi) (by omega) v,
    fun x hx => (memWrite_sameOutside h.wf k a v x (.inr (by omega))).trans (h.read x hx)⟩

theorem scanromAt_lt (rom : ScanRom) (sc : BitVec 1) (j : Nat) : scanromAt rom sc j < 64 := BitVec.isLt _

/-- The 28 fixed bytes of a frame header (30_encoding.md R111). -/
theorem differsBelow_storeFrameHeader (hw : Memory.wf bsUnlisted bs) {b : Nat} (hb : b + 28 ≤ n) (h : FrameHeader) :
    DiffersBelow bsUnlisted n bs (storeFrameHeader bs b h) := by
  simp only [storeFrameHeader]
  iterate 11 refine DiffersBelow.memWrite ?_ (by omega) _
  exact .refl hw

/-- A matrix of 64 bytes (42_header_codec.md R173). -/
theorem differsBelow_storeMatrix {s : State} (hw : Memory.wf bsUnlisted s.bs) (p : QMatrix) {off : Nat} (ho : off + 64 ≤ n)
    (sc : BitVec 1) : DiffersBelow bsUnlisted n s.bs (storeMatrix p off sc s).bs := by
  rw [storeMatrix, State.withBs_bs]
  exact (DiffersBelow.refl hw).foldl fun _ hx i _ =>
    (DiffersBelow.refl hx).bsSetByte (by have := scanromAt_lt s.cfg.scanrom sc i; omega) _

/-- A picture header and its slice size table (R180 step 5). -/
theorem differsBelow_storePicture {s : State} (hw : Memory.wf bsUnlisted s.bs) {b : Nat}
    (hb : b + 8 + 2 * s.ph.slicecount.toNat ≤ n) : DiffersBelow bsUnlisted n s.bs (storePicture b s) := by
  simp only [storePicture]
  refine .foldl ?_ fun x hx i hi => (DiffersBelow.refl hx).memWrite (by have := List.mem_range.1 hi; omega) _
  iterate 4 refine DiffersBelow.memWrite ?_ (by omega) _
  exact .refl hw

/-- A slice header of 6 or 8 bytes (R181 step 6). -/
theorem differsBelow_storeSliceHeader (hw : Memory.wf bsUnlisted bs) {b : Nat} {sl : Slice}
    (hs : sl.hdrsize.toNat = 6 ∨ sl.hdrsize.toNat = 8) (hb : b + sl.hdrsize.toNat ≤ n) :
    DiffersBelow bsUnlisted n bs (storeSliceHeader bs b sl) := by
  have fixed : DiffersBelow bsUnlisted n bs (Machine.memWrite 2 (Machine.memWrite 2 (Machine.memWrite 1 (Machine.memWrite 1 bs b
      (sl.hdrsize.toNat * 8)) (b + 1) sl.qsraw.toNat) (b + 2) sl.ysize.toNat) (b + 4) sl.usize.toNat) := by
    iterate 4 refine DiffersBelow.memWrite ?_ (by omega) _
    exact .refl hw
  simp only [storeSliceHeader]
  split
  · exact fixed.memWrite (by omega) _
  · exact fixed

end

end Sys2Proof.Machine

/-! PROOFS. What the pseudocode of one command may change, by its opcode: `ControlFrame` for the registers and flags, `MemoryFrame` for
the five memories, `BodyFrame` for both and for which commands can raise `CorruptSliceData`. One lemma for each shared update,
check and loop. -/

namespace Sys2Proof.Machine

-- In order and not side by side: pending proofs hold memory, and the joined text is near the limit of check.sh.
set_option Elab.async false

open Sys2Proof.Claims

/-! ### Which opcodes may change what (the lists of the statement `CommandFrames`) -/

/-- The opcodes that may write BS (20_memory.md R76). -/
abbrev bsWriters : List Nat := [0x12, 0x15, 0x28, 0x29, 0x2A, 0x38, 0x39]
/-- The opcodes that may write COEF. -/
abbrev coefWriters : List Nat := [0x30, 0x31, 0x32, 0x34, 0x35, 0x44]
/-- The opcodes that may write QM (10_state.md R42). -/
abbrev qmWriters : List Nat := [0x01, 0x21, 0x28]
/-- The opcodes that may write QMS (10_state.md R43). -/
abbrev qmsWriters : List Nat := [0x01, 0x41]
/-- The opcodes that may write SST (10_state.md R44). -/
abbrev sstWriters : List Nat := [0x22, 0x2A]
/-- The opcodes whose rules raise `CorruptSliceData` (60_exceptions.md R272). -/
abbrev corruptRaisers : List Nat := [0x11, 0x24, 0x31, 0x32, 0x34, 0x35]
/-- The opcodes of the column ABANDON of 10_state.md R25. -/
abbrev abandonWriters : List Nat := [0x01, 0x30, 0x31, 0x32, 0x34, 0x35]
/-- The opcodes of the column EOP. -/
abbrev eopWriters : List Nat := [0x01, 0x30, 0x31, 0x32, 0x33, 0x34, 0x35]
/-- The opcodes of the column EOS. -/
abbrev eosWriters : List Nat := [0x01, 0x22, 0x23, 0x29]
/-- The opcodes of the column SLOK. -/
abbrev slokWriters : List Nat := [0x01, 0x22, 0x23, 0x24, 0x29]

/-! ### Registers and flags -/

/-- What opcode `op` may leave in the registers and flags before any fault is taken: the fault record, HALT, CORRUPT and REJ are not its
to write (60_exceptions.md R269), and every other register and flag only where its rules say so (10_state.md R21 to R38). -/
structure ControlFrame (op : Nat) (s t : State) : Prop where
  cfg : t.cfg = s.cfg
  host : t.host = s.host
  record : t.record = s.record
  halt : t.status.halt = s.status.halt
  corrupt : t.status.corrupt = s.status.corrupt
  rej : t.status.rej = s.status.rej
  abandon : t.status.abandon ≠ s.status.abandon → op ∈ abandonWriters
  eop : t.status.eop ≠ s.status.eop → op ∈ eopWriters
  eos : t.status.eos ≠ s.status.eos → op ∈ eosWriters
  slok : t.status.slok ≠ s.status.slok → op ∈ slokWriters
  regs : ∀ r, r ≠ .status → t.readReg r ≠ s.readReg r → op ∈ writers r

section
variable {op : Nat} {s t u : State}

/-- A change seen across two steps is seen in one of them. -/
theorem ne_imp_trans {α : Type} {P : Prop} {a b c : α} (h : b ≠ a → P) (k : c ≠ b → P) (hc : c ≠ a) : P := by
  by_cases hb : b = a
  · exact k (hb ▸ hc)
  · exact h hb

theorem ControlFrame.trans (h : ControlFrame op s t) (k : ControlFrame op t u) : ControlFrame op s u where
  cfg := k.cfg.trans h.cfg
  host := k.host.trans h.host
  record := k.record.trans h.record
  halt := k.halt.trans h.halt
  corrupt := k.corrupt.trans h.corrupt
  rej := k.rej.trans h.rej
  abandon := ne_imp_trans h.abandon k.abandon
  eop := ne_imp_trans h.eop k.eop
  eos := ne_imp_trans h.eos k.eos
  slok := ne_imp_trans h.slok k.slok
  regs r hr := ne_imp_trans (h.regs r hr) (k.regs r hr)

/-- An update that leaves the flags alone and writes only registers of the opcode. -/
theorem ControlFrame.of_registers (l : List Reg) (hl : ∀ r ∈ l, op ∈ writers r) (h : ∀ r, r ∉ l → t.readReg r = s.readReg r)
    (cfg : t.cfg = s.cfg := by simp) (host : t.host = s.host := by simp) (record : t.record = s.record := by simp)
    (status : t.status = s.status := by simp) : ControlFrame op s t where
  cfg := cfg
  host := host
  record := record
  halt := by rw [status]
  corrupt := by rw [status]
  rej := by rw [status]
  abandon h := absurd (by rw [status]) h
  eop h := absurd (by rw [status]) h
  eos h := absurd (by rw [status]) h
  slok h := absurd (by rw [status]) h
  regs r _ hne := hl r (by_contra fun hr => hne (h r hr))

theorem ControlFrame.refl (s : State) : ControlFrame op s s := .of_registers [] (by simp) fun _ _ => rfl

/-- An update of STATUS that keeps HALT, CORRUPT and REJ. -/
theorem ControlFrame.of_status {f : Status} (halt : f.halt = s.status.halt) (corrupt : f.corrupt = s.status.corrupt)
    (rej : f.rej = s.status.rej) (abandon : f.abandon ≠ s.status.abandon → op ∈ abandonWriters)
    (eop : f.eop ≠ s.status.eop → op ∈ eopWriters) (eos : f.eos ≠ s.status.eos → op ∈ eosWriters)
    (slok : f.slok ≠ s.status.slok → op ∈ slokWriters) : ControlFrame op s (s.withStatus f) where
  cfg := rfl
  host := rfl
  record := rfl
  halt := halt
  corrupt := corrupt
  rej := rej
  abandon := abandon
  eop := eop
  eos := eos
  slok := slok
  regs r hr hne := by
    refine absurd ?_ hne
    cases r
    case status => exact absurd rfl hr
    all_goals rfl

variable (s)

theorem controlFrame_setEop (h : op ∈ eopWriters) : ControlFrame op s s.setEop :=
  .of_status rfl rfl rfl (absurd rfl) (fun _ => h) (absurd rfl) (absurd rfl)

theorem controlFrame_clearEop (h : op ∈ eopWriters) : ControlFrame op s s.clearEop :=
  .of_status rfl rfl rfl (absurd rfl) (fun _ => h) (absurd rfl) (absurd rfl)

theorem controlFrame_clearPlaneFlags (h : op ∈ abandonWriters) (h' : op ∈ eopWriters) : ControlFrame op s s.clearPlaneFlags :=
  .of_status rfl rfl rfl (fun _ => h) (fun _ => h') (absurd rfl) (absurd rfl)

theorem controlFrame_setEos (h : op ∈ eosWriters) : ControlFrame op s s.setEos :=
  .of_status rfl rfl rfl (absurd rfl) (absurd rfl) (fun _ => h) (absurd rfl)

theorem controlFrame_clearPictureFlags (h : op ∈ eosWriters) (h' : op ∈ slokWriters) : ControlFrame op s s.clearPictureFlags :=
  .of_status rfl rfl rfl (absurd rfl) (absurd rfl) (fun _ => h) (fun _ => h')

theorem controlFrame_setSlok (h : op ∈ slokWriters) : ControlFrame op s s.setSlok :=
  .of_status rfl rfl rfl (absurd rfl) (absurd rfl) (absurd rfl) (fun _ => h)

theorem controlFrame_clearSlok (h : op ∈ slokWriters) : ControlFrame op s s.clearSlok :=
  .of_status rfl rfl rfl (absurd rfl) (absurd rfl) (absurd rfl) (fun _ => h)

/-- The memories hold no register. -/
theorem controlFrame_memories (bs : Memory 8) (coef : Memory 32) (qm : Memory 8) (qms : Memory 32) (sst : Memory 16) :
    ControlFrame op s { s with bs := bs, coef := coef, qm := qm, qms := qms, sst := sst } :=
  .of_registers [] (by simp) fun r _ => by cases r <;> rfl

theorem controlFrame_withBs (x : Memory 8) : ControlFrame op s (s.withBs x) := controlFrame_memories s x _ _ _ _
theorem controlFrame_withCoef (x : Memory 32) : ControlFrame op s (s.withCoef x) := controlFrame_memories s _ x _ _ _
theorem controlFrame_withQms (x : Memory 32) : ControlFrame op s (s.withQms x) := controlFrame_memories s _ _ _ x _
theorem controlFrame_withSst (x : Memory 16) : ControlFrame op s (s.withSst x) := controlFrame_memories s _ _ _ _ x

theorem controlFrame_withVal (h : op ∈ writers .val) (v : Word) : ControlFrame op s (s.withVal v) :=
  .of_registers [.val] (by simpa using h) fun r => by cases r <;> simp [State.readReg]

theorem controlFrame_withBitpos (h : op ∈ writers .bitpos) (v : Nat) : ControlFrame op s (s.withBitpos v) :=
  .of_registers [.bitpos] (by simpa using h) fun r => by cases r <;> simp [State.readReg]

/-- The DC half of the coder context. -/
theorem controlFrame_withDcContext (h : op ∈ writers .ctxBlk) (blk : BitVec 18) (prevcode : Word) (sign : Bool) (prevdc : Word) :
    ControlFrame op s (s.withCtx { s.ctx with blk := blk, prevcode := prevcode, sign := sign, prevdc := prevdc }) :=
  .of_registers [.ctxBlk, .ctxPrevcode, .ctxSign, .ctxPrevdc] (by simpa [writers] using h)
    fun r => by cases r <;> simp [State.readReg]

/-- The AC half of the coder context. -/
theorem controlFrame_withAcContext (h : op ∈ writers .ctxPos) (pos prevrun prevlev : Word) :
    ControlFrame op s (s.withCtx { s.ctx with pos := pos, prevrun := prevrun, prevlev := prevlev }) :=
  .of_registers [.ctxPos, .ctxPrevrun, .ctxPrevlev] (by simpa [writers] using h) fun r => by cases r <;> simp [State.readReg]

variable {s}

/-- A part of a command that goes on after another. -/
theorem ControlFrame.bind {α β : Type} {x : Res α} {f : α → State → Res β} (h : ControlFrame op s x.state)
    (hf : ∀ a t, ControlFrame op t (f a t).state) : ControlFrame op s (x.bind f).state :=
  Res.bind_state h fun a t _ ht => ht.trans (hf a t)

/-! ### The loops of the coefficient commands -/

theorem readCodeword_control (h : op ∈ writers .bitpos) (cb : Codebook) (s : State) : ControlFrame op s (readCodeword cb s).state := by
  obtain ⟨v, hv⟩ := readCodeword_state cb s
  rw [hv]
  exact controlFrame_withBitpos s h v

theorem readBits_control (h : op ∈ writers .bitpos) (n : Nat) (s : State) : ControlFrame op s (readBits n s).state := by
  rcases readBits_cases n s with ⟨-, e⟩ | ⟨-, e⟩ <;> rw [e]
  · exact controlFrame_withBitpos s h _
  · exact .refl s

/-- The opcodes of the DC readers, DCSYM and RDDC, are among the writers of what they change. -/
theorem dcReader_writes : ∀ op ∈ [0x31, 0x32], op ∈ writers .bitpos ∧ op ∈ writers .ctxBlk ∧ op ∈ eopWriters := by decide

/-- As `dcReader_writes`, for ACSYM and RDAC. -/
theorem acReader_writes : ∀ op ∈ [0x34, 0x35], op ∈ writers .bitpos ∧ op ∈ writers .ctxPos ∧ op ∈ eopWriters := by decide

theorem storeDc_control (h : op ∈ [0x31, 0x32]) (p : QMatrix) (dc : Word) (s : State) : ControlFrame op s (storeDc p dc s) := by
  obtain ⟨-, hctx, heop⟩ := dcReader_writes op h
  have stored : ControlFrame op s ((s.setCoef (64 * s.ctx.blk.toNat) (dequant s p 0 dc)).withCtx
      { s.ctx with prevdc := dc, blk := s.ctx.blk + 1 }) :=
    (controlFrame_withCoef s _).trans (controlFrame_withDcContext _ hctx _ _ _ _)
  simp only [storeDc]
  split
  · exact stored.trans (controlFrame_setEop _ heop)
  · exact stored

theorem dcStep_control (h : op ∈ [0x31, 0x32]) (p : QMatrix) (s : State) : ControlFrame op s (dcStep p s).state := by
  obtain ⟨hpos, hctx, heop⟩ := dcReader_writes op h
  unfold dcStep
  split
  · exact .refl s
  split
  · exact controlFrame_setEop s heop
  split
  · refine (readCodeword_control hpos _ s).bind fun code t => ?_
    cases t.cfg.dcCtxInit with
    | const n => exact storeDc_control h p _ t
    | firstCode => exact (controlFrame_withDcContext t hctx _ _ _ _).trans (storeDc_control h p _ _)
  · exact (readCodeword_control hpos _ s).bind fun code t =>
      (controlFrame_withDcContext t hctx _ _ _ _).trans (storeDc_control h p _ _)

theorem dcLoop_control (h : op ∈ [0x31, 0x32]) (p : QMatrix) (n : Nat) (s : State) : ControlFrame op s (dcLoop p n s).state := by
  induction n generalizing s with
  | zero => exact .refl s
  | succ n ih =>
    rw [dcLoop]
    refine (dcStep_control h p s).bind fun _ t => ?_
    split
    · exact .refl t
    · exact ih t

theorem acStep_control (h : op ∈ [0x34, 0x35]) (p : QMatrix) (s : State) : ControlFrame op s (acStep p s).state := by
  obtain ⟨hpos, hctx, heop⟩ := acReader_writes op h
  unfold acStep
  split
  · exact .refl s
  split
  · exact controlFrame_setEop s heop
  refine (readCodeword_control hpos _ s).bind fun run t => ?_
  simp only
  split
  · exact .refl t
  split
  · exact controlFrame_setEop t heop
  refine (readCodeword_control hpos _ t).bind fun code t => (readBits_control hpos 1 t).bind fun sg t => ?_
  exact (controlFrame_withCoef t _).trans (controlFrame_withAcContext _ hctx _ _ _)

theorem acLoop_control (h : op ∈ [0x34, 0x35]) (p : QMatrix) (n : Nat) (s : State) : ControlFrame op s (acLoop p n s).state := by
  induction n generalizing s with
  | zero => exact .refl s
  | succ n ih =>
    rw [acLoop]
    refine (acStep_control h p s).bind fun _ t => ?_
    split
    · exact .refl t
    · exact ih t

theorem writeBits_control (h : op ∈ writers .bitpos) (n v : Nat) (s : State) : ControlFrame op s (writeBits n v s) :=
  (controlFrame_withBs s _).trans (controlFrame_withBitpos _ h _)

theorem writeCodeword_control (h : op ∈ writers .bitpos) (cb : Codebook) (v : Int) (s : State) :
    ControlFrame op s (writeCodeword cb v s).state := by
  unfold writeCodeword
  split
  · exact .refl s
  split
  · exact .refl s
  · exact (writeBits_control h _ _ s).trans ((writeBits_control h _ _ _).trans (writeBits_control h _ _ _))

theorem wrdcLoop_control (n blk : Nat) (s : State) : ControlFrame 0x38 s (wrdcLoop n blk s).state := by
  induction n generalizing blk s with
  | zero => exact .refl s
  | succ n ih =>
    rw [wrdcLoop]
    exact (writeCodeword_control (by decide) _ _ s).bind fun _ t =>
      (controlFrame_withDcContext t (by decide) _ _ _ _).trans (ih _ _)

theorem writeTriple_control (pos run : Nat) (c : Word) (s : State) : ControlFrame 0x39 s (writeTriple pos run c s).state := by
  refine (writeCodeword_control (by decide) _ _ s).bind fun _ t => (writeCodeword_control (by decide) _ _ t).bind fun _ u => ?_
  split
  · exact .refl u
  · exact (writeBits_control (by decide) _ _ u).trans (controlFrame_withAcContext _ (by decide) _ _ _)

theorem wracLoop_control (n pos run : Nat) (s : State) : ControlFrame 0x39 s (wracLoop n pos run s).state := by
  induction n generalizing pos run s with
  | zero => exact .refl s
  | succ n ih =>
    rw [wracLoop]
    split
    · exact ih _ _ s
    · exact (writeTriple_control _ _ _ s).bind fun _ t => ih _ _ t

end

end Sys2Proof.Machine

/-! PROOFS. Every command's pseudocode meets `BodyFrame`: the frames of the three command families in the order of the model, then
`body_frame` for all of them at once. -/

namespace Sys2Proof.Machine

-- In order and not side by side: pending proofs hold memory, and the joined text is near the limit of check.sh.
set_option Elab.async false

open Sys2Proof.Claims

/-! ### The memories -/

/-- What opcode `op`, started in `s`, may leave in the five memories: each as it was, or changed below its bound by an opcode whose rules
write it (20_memory.md R70, R76; 10_state.md R40 to R44). -/
structure MemoryFrame (op : Nat) (s t : State) : Prop where
  bs : t.bs = s.bs ∨ (op ∈ bsWriters ∧ BufferLegal s) ∧ DiffersBelow bsUnlisted s.cur.bsLen.toNat s.bs t.bs
  coef : t.coef = s.coef ∨ (op ∈ coefWriters ∧ BpsLegal s) ∧ DiffersBelow coefUnlisted (64 * s.bps) s.coef t.coef
  qm : t.qm = s.qm ∨ op ∈ qmWriters ∧ DiffersBelow qmUnlisted 128 s.qm t.qm
  qms : t.qms = s.qms ∨ op ∈ qmsWriters ∧ DiffersBelow qmsUnlisted 128 s.qms t.qms
  sst : t.sst = s.sst ∨ op ∈ sstWriters ∧ DiffersBelow sstUnlisted s.cfg.maxSlices s.sst t.sst

section
variable {op : Nat} {s t u : State}

/-- A memory left alone or changed below a bound inside its size stays canonical and inside its size. -/
theorem wf_inside_of_differsBelow {w n size : Nat} {d : BitVec w} {m m' : Memory w} {P : Prop} (hw : Memory.wf d m)
    (hi : Memory.inside size m) (hn : P → n ≤ size) (h : m' = m ∨ P ∧ DiffersBelow d n m m') :
    Memory.wf d m' ∧ Memory.inside size m' := by
  rcases h with rfl | ⟨hp, h⟩
  · exact ⟨hw, hi⟩
  · exact ⟨h.wf, h.inside size (hn hp) hi⟩

/-- `MemoryFrame` keeps the invariant of the memories (R76). -/
theorem MemoryFrame.memoriesWf (h : MemoryFrame op s t) (hw : s.memoriesWf) (hc : t.cfg = s.cfg) : t.memoriesWf := by
  obtain ⟨bs, bsI⟩ := wf_inside_of_differsBelow hw.bs hw.bsInside And.right h.bs
  have bps : op ∈ coefWriters ∧ BpsLegal s → 64 * s.bps ≤ 64 * 2 ^ s.cfg.log2MaxBps := fun hb =>
    Nat.mul_le_mul_left 64 (Nat.pow_le_pow_right (by decide) hb.2)
  obtain ⟨coef, coefI⟩ := wf_inside_of_differsBelow hw.coef hw.coefInside bps h.coef
  obtain ⟨qm, qmI⟩ := wf_inside_of_differsBelow hw.qm hw.qmInside (fun _ => le_rfl) h.qm
  obtain ⟨qms, qmsI⟩ := wf_inside_of_differsBelow hw.qms hw.qmsInside (fun _ => le_rfl) h.qms
  obtain ⟨sst, sstI⟩ := wf_inside_of_differsBelow hw.sst hw.sstInside (fun _ => le_rfl) h.sst
  exact ⟨bs, coef, qm, qms, sst, hc ▸ bsI, hc ▸ coefI, qmI, qmsI, hc ▸ sstI⟩

/-- A command that stores to no memory. -/
theorem MemoryFrame.of_eq (bs : t.bs = s.bs := by simp) (coef : t.coef = s.coef := by simp) (qm : t.qm = s.qm := by simp)
    (qms : t.qms = s.qms := by simp) (sst : t.sst = s.sst := by simp) : MemoryFrame op s t :=
  ⟨.inl bs, .inl coef, .inl qm, .inl qms, .inl sst⟩

/-- What a decode loop leaves in COEF. -/
theorem DecodeFrame.coefDiffers (h : DecodeFrame s t) (hw : Memory.wf coefUnlisted s.coef) :
    DiffersBelow coefUnlisted (64 * s.bps) s.coef t.coef :=
  ⟨h.coefWf hw, h.coefInside, h.coefOutside hw⟩

theorem DecodeFrame.memoryFrame (h : DecodeFrame s t) (hop : op ∈ coefWriters) (hb : BpsLegal s) (hw : s.memoriesWf) :
    MemoryFrame op s t :=
  ⟨.inl h.bs, .inr ⟨⟨hop, hb⟩, h.coefDiffers hw.coef⟩, .inl h.qm, .inl h.qms, .inl h.sst⟩

/-- The bits an encode loop stores from `BITPOS` up to `BITEND` stand in bytes below `BS_LEN` (41_entropy_coder.md R150). -/
theorem EncodeFrame.memoryFrame (h : EncodeFrame s t) (hop : op ∈ bsWriters) (hc : CursorsLegal s) : MemoryFrame op s t := by
  obtain ⟨hbuf, hend, -⟩ := hc
  refine ⟨.inr ⟨⟨hop, hbuf⟩, h.bsWf, fun size hs => h.bsInside size (by omega), fun a ha => ?_⟩, .inl h.coef, .inl h.qm,
    .inl h.qms, .inl h.sst⟩
  obtain ⟨l, hl, hstores⟩ := h.stores
  obtain ⟨h1, h2⟩ := h.bitpos
  rw [h.bitend] at h2
  exact hstores.bytes a (.inr (by omega))

/-! ### A command's pseudocode -/

/-- What the pseudocode of opcode `op`, started in `s`, may end in. -/
structure BodyFrame (op : Nat) (s : State) (x : Res Unit) : Prop where
  control : ControlFrame op s x.state
  memory : s.memoriesWf → MemoryFrame op s x.state
  raises : ∀ r t, x = .raised r t → r.recoverable = true → op ∈ corruptRaisers

theorem BodyFrame.ok (hc : ControlFrame op s t) (hm : s.memoriesWf → MemoryFrame op s t) : BodyFrame op s (.ok () t) :=
  ⟨hc, hm, fun _ _ h => nomatch h⟩

/-- A refusal by a fault that is not `CorruptSliceData`. -/
theorem BodyFrame.raised {r : Raise} (h : r.recoverable = false) : BodyFrame op s (.raised r s) :=
  ⟨.refl s, fun _ => .of_eq, fun _ _ e hr => by cases e; rw [h] at hr; cases hr⟩

/-- A check: it goes on with `P` known, or refuses by a fault that is not `CorruptSliceData`, and changes nothing. -/
def Checks (P : Prop) (s : State) (x : Res Unit) : Prop :=
  P ∧ x = .ok () s ∨ ∃ r : Raise, r.recoverable = false ∧ x = .raised r s

theorem BodyFrame.check {P : Prop} {x : Res Unit} {f : Unit → State → Res Unit} (h : Checks P s x)
    (hf : P → BodyFrame op s (f () s)) : BodyFrame op s (x.bind f) := by
  rcases h with ⟨hp, rfl⟩ | ⟨r, hr, rfl⟩
  · exact hf hp
  · exact .raised hr

theorem checks_buffer (s : State) : Checks (BufferLegal s) s (checkBuffer s) :=
  (checkBuffer_cases s).imp_right fun h => ⟨_, rfl, h.2⟩

theorem checks_cursors (s : State) : Checks (CursorsLegal s) s (checkCursors s) :=
  (checkCursors_cases s).imp_right fun h => ⟨_, rfl, h.2⟩

theorem checks_bps (s : State) : Checks (BpsLegal s) s (checkBps s) :=
  (checkBps_cases s).imp_right fun h => ⟨_, rfl, h.2⟩

theorem checks_maxc (s : State) : Checks (MaxcLegal s) s (checkMaxc s) :=
  (checkMaxc_cases s).imp_right fun h => ⟨_, rfl, h.2⟩

/-- One line of a rule's list of checks. -/
theorem Checks.unless {P c : Prop} [Decidable c] {r : Raise} {x : Res Unit} (hr : r.recoverable = false)
    (h : ¬c → Checks P s x) : Checks P s (if c then .raised r s else x) := by
  split
  · exact .inr ⟨r, hr, rfl⟩
  · exact h ‹_›

theorem BodyFrame.unless {c : Prop} [Decidable c] {r : Raise} {x : Res Unit} (hr : r.recoverable = false)
    (h : ¬c → BodyFrame op s x) : BodyFrame op s (if c then .raised r s else x) := by
  split
  · exact .raised hr
  · exact h ‹_›

/-- A loop that raises no `CorruptSliceData`. -/
def NeverCorrupt {α : Type} (x : Res α) : Prop := ∀ r t, x = .raised r t → r.recoverable = false

theorem NeverCorrupt.ok {α : Type} (a : α) (t : State) : NeverCorrupt (.ok a t) := fun _ _ h => nomatch h

theorem NeverCorrupt.raised {α : Type} {r : Raise} (h : r.recoverable = false) (t : State) : NeverCorrupt (.raised r t : Res α) :=
  fun _ _ e => by cases e; exact h

theorem NeverCorrupt.bind {α β : Type} {x : Res α} {f : α → State → Res β} (h : NeverCorrupt x)
    (hf : ∀ a t, NeverCorrupt (f a t)) : NeverCorrupt (x.bind f) := by
  cases x with
  | ok a t => exact hf a t
  | raised r t => exact .raised (h r t rfl) t

theorem writeCodeword_neverCorrupt (cb : Codebook) (v : Int) (s : State) : NeverCorrupt (writeCodeword cb v s) := by
  unfold writeCodeword
  split
  · exact .raised rfl s
  split
  · exact .raised rfl s
  · exact .ok _ _

theorem wrdcLoop_neverCorrupt (n blk : Nat) (s : State) : NeverCorrupt (wrdcLoop n blk s) := by
  induction n generalizing blk s with
  | zero => exact .ok _ _
  | succ n ih =>
    rw [wrdcLoop]
    exact (writeCodeword_neverCorrupt _ _ s).bind fun _ t => ih _ _

theorem writeTriple_neverCorrupt (pos run : Nat) (c : Word) (s : State) : NeverCorrupt (writeTriple pos run c s) := by
  refine (writeCodeword_neverCorrupt _ _ s).bind fun _ t => (writeCodeword_neverCorrupt _ _ t).bind fun _ u => ?_
  split
  · exact .raised rfl u
  · exact .ok _ _

theorem wracLoop_neverCorrupt (n pos run : Nat) (s : State) : NeverCorrupt (wracLoop n pos run s) := by
  induction n generalizing pos run s with
  | zero => exact .ok _ _
  | succ n ih =>
    rw [wracLoop]
    split
    · exact ih _ _ s
    · exact (writeTriple_neverCorrupt _ _ _ s).bind fun _ t => ih _ _ t

/-- An encoder's pseudocode past its checks: it stores bits below `BITEND` and raises no `CorruptSliceData`. -/
theorem BodyFrame.of_encode {x : Res Unit} (hop : op ∈ bsWriters) (hc : CursorsLegal s) (control : ControlFrame op s x.state)
    (frame : Memory.wf bsUnlisted s.bs → EncodeFrame s x.state) (never : NeverCorrupt x) : BodyFrame op s x :=
  ⟨control, fun hw => (frame hw.bs).memoryFrame hop hc, fun r t e hr => by rw [never r t e] at hr; cases hr⟩

/-- A decoder's pseudocode past its checks. -/
theorem BodyFrame.of_decode {x : Res Unit} (hop : op ∈ coefWriters) (hr : op ∈ corruptRaisers) (hb : BpsLegal s)
    (control : ControlFrame op s x.state) (frame : DecodeFrame s x.state) : BodyFrame op s x :=
  ⟨control, frame.memoryFrame hop hb, fun _ _ _ _ => hr⟩

/-! ### The codebook table, the entropy coder and the quantizer -/

variable (s)

theorem ldcbBody_frame (cls : SymClass) (ctx : BitVec 8) : BodyFrame 0x10 s (ldcbBody cls ctx s) :=
  .ok (.of_registers [.cbd, .cbgo, .cbgb, .cbrm] (by decide) fun r => by cases r <;> simp [State.readReg]) fun _ => .of_eq

theorem rdcwBody_frame : BodyFrame 0x11 s (rdcwBody s) :=
  .check (checks_cursors s) fun _ =>
    { control := (readCodeword_control (by decide) _ s).bind fun _ t => controlFrame_withVal t (by decide) _
      memory := fun _ => by
        obtain ⟨v, hv⟩ := readCodeword_state (codebookOfCbd s.cbd) s
        refine Res.bind_state (P := MemoryFrame 0x11 s) (hv ▸ .of_eq) fun _ t _ ht => ?_
        exact ⟨ht.bs, ht.coef, ht.qm, ht.qms, ht.sst⟩
      raises := fun _ _ _ _ => by decide }

theorem wrcwBody_frame : BodyFrame 0x12 s (wrcwBody s) :=
  .check (checks_cursors s) fun hc => .of_encode (by decide) hc (writeCodeword_control (by decide) _ _ s)
    (fun hw => writeCodeword_frame _ _ hw hc.2.2) (writeCodeword_neverCorrupt _ _ s)

theorem zzdecBody_frame : BodyFrame 0x13 s (zzdecBody s) := .ok (controlFrame_withVal s (by decide) _) fun _ => .of_eq

theorem zzencBody_frame : BodyFrame 0x14 s (zzencBody s) := .ok (controlFrame_withVal s (by decide) _) fun _ => .of_eq

theorem alignwBody_frame : BodyFrame 0x15 s (alignwBody s) :=
  .check (checks_cursors s) fun hc => .unless rfl fun hroom => .of_encode (by decide) hc (writeBits_control (by decide) _ _ s)
    (fun hw => writeBits_frame hw (by omega) _) (.ok _ _)

theorem foldqBody_frame : BodyFrame 0x40 s (foldqBody s) :=
  .ok (.of_registers [.qscale] (by decide) fun r => by cases r <;> simp [State.readReg]) fun _ => .of_eq

theorem scaleqBody_frame : BodyFrame 0x41 s (scaleqBody s) :=
  .ok (controlFrame_withQms s _) fun hw =>
    ⟨.inl rfl, .inl rfl, .inl rfl, .inr ⟨by decide, differsBelow_writeRange hw.qms (by omega) _⟩, .inl rfl⟩

theorem deqBody_frame (p : QMatrix) (idx : BitVec 6) : BodyFrame 0x42 s (deqBody p idx s) :=
  .ok (controlFrame_withVal s (by decide) _) fun _ => .of_eq

theorem qntBody_frame (p : QMatrix) (idx : BitVec 6) : BodyFrame 0x43 s (qntBody p idx s) :=
  .unless rfl fun _ => .ok (controlFrame_withVal s (by decide) _) fun _ => .of_eq

theorem qntpBody_frame (p : QMatrix) : BodyFrame 0x44 s (qntpBody p s) :=
  .check (checks_bps s) fun hb => .unless rfl fun _ => .ok (controlFrame_withCoef s _) fun hw =>
    ⟨.inl rfl, .inr ⟨⟨by decide, hb⟩, differsBelow_writeRange hw.coef (by omega) _⟩, .inl rfl, .inl rfl, .inl rfl⟩

/-! ### The coefficient coder -/

theorem dcInit_control (h : op ∈ [0x30, 0x32]) : ControlFrame op s (dcInit s) := by
  have writes : ∀ op ∈ [0x30, 0x32], op ∈ writers .ctxBlk ∧ op ∈ abandonWriters ∧ op ∈ eopWriters := by decide
  obtain ⟨hctx, ha, he⟩ := writes op h
  exact ((controlFrame_withCoef s _).trans (controlFrame_withDcContext _ hctx _ _ _ _)).trans
    (controlFrame_clearPlaneFlags _ ha he)

theorem dcInit_coefDiffers (hw : Memory.wf coefUnlisted s.coef) :
    DiffersBelow coefUnlisted (64 * s.bps) s.coef (dcInit s).coef := differsBelow_writeRange hw (by omega) _

theorem dcinitBody_frame : BodyFrame 0x30 s (dcinitBody s) :=
  .check (checks_bps s) fun hb => .ok (dcInit_control s (by decide)) fun hw =>
    ⟨.inl rfl, .inr ⟨⟨by decide, hb⟩, dcInit_coefDiffers s hw.coef⟩, .inl rfl, .inl rfl, .inl rfl⟩

theorem dcsymBody_frame (p : QMatrix) : BodyFrame 0x31 s (dcsymBody p s) :=
  .check (checks_cursors s) fun _ => .check (checks_bps s) fun hb =>
    .of_decode (by decide) (by decide) hb (dcStep_control (by decide) p s) (dcStep_frame p s)

theorem rddcBody_frame (p : QMatrix) : BodyFrame 0x32 s (rddcBody p s) :=
  .check (checks_cursors s) fun _ => .check (checks_bps s) fun hb =>
    { control := (dcInit_control s (by decide)).trans (dcLoop_control (by decide) p _ _)
      memory := fun hw =>
        have loop := dcLoop_frame p s.bps (dcInit s)
        have cleared := dcInit_coefDiffers s hw.coef
        ⟨.inl loop.bs, .inr ⟨⟨by decide, hb⟩, cleared.trans (loop.coefDiffers cleared.wf)⟩, .inl loop.qm, .inl loop.qms,
          .inl loop.sst⟩
      raises := fun _ _ _ _ => by decide }

theorem acContextAtStart_control (h : op ∈ writers .ctxPos) : ControlFrame op s (acContextAtStart s) := by
  unfold acContextAtStart
  exact controlFrame_withAcContext s h _ _ _

theorem acInit_control (h : op ∈ [0x33, 0x35]) : ControlFrame op s (acInit s) := by
  have writes : ∀ op ∈ [0x33, 0x35], op ∈ writers .ctxPos ∧ op ∈ eopWriters := by decide
  obtain ⟨hctx, he⟩ := writes op h
  exact (acContextAtStart_control s hctx).trans (controlFrame_clearEop _ he)

theorem acInit_memory : MemoryFrame op s (acInit s) := by
  unfold acInit acContextAtStart
  exact .of_eq

theorem acInit_frame : DecodeFrame s (acInit s) := by
  unfold acInit acContextAtStart
  exact (decodeFrame_withCtx s _).trans (decodeFrame_clearEop _)

theorem acinitBody_frame : BodyFrame 0x33 s (acinitBody s) :=
  .check (checks_bps s) fun _ => .ok (acInit_control s (by decide)) fun _ => acInit_memory s

theorem acsymBody_frame (p : QMatrix) : BodyFrame 0x34 s (acsymBody p s) :=
  .check (checks_cursors s) fun _ => .check (checks_bps s) fun hb => .check (checks_maxc s) fun _ =>
    .of_decode (by decide) (by decide) hb (acStep_control (by decide) p s) (acStep_frame p s)

theorem rdacBody_frame (p : QMatrix) : BodyFrame 0x35 s (rdacBody p s) :=
  .check (checks_cursors s) fun _ => .check (checks_bps s) fun hb => .check (checks_maxc s) fun _ =>
    .of_decode (by decide) (by decide) hb ((acInit_control s (by decide)).trans (acLoop_control (by decide) p _ _))
      ((acInit_frame s).trans (acLoop_frame p _ (acInit s)))

theorem wrdcBody_frame : BodyFrame 0x38 s (wrdcBody s) :=
  .check (checks_cursors s) fun hc => .check (checks_bps s) fun _ => .of_encode (by decide) hc
    ((writeCodeword_control (by decide) _ _ s).bind fun _ t =>
      (controlFrame_withDcContext t (by decide) _ _ _ _).trans (wrdcLoop_control _ _ _))
    (fun hw => Res.bind_state (writeCodeword_frame _ _ hw hc.2.2) fun _ _ _ hf =>
      (encodeFrame_withCtx hf _).trans (wrdcLoop_frame _ _ hf.bsWf hf.bitpos.2))
    ((writeCodeword_neverCorrupt _ _ s).bind fun _ _ => wrdcLoop_neverCorrupt _ _ _)

theorem acContextAtStart_frame (hw : Memory.wf bsUnlisted s.bs) (h : s.cur.bitpos.toNat ≤ s.cur.bitend.toNat) :
    EncodeFrame s (acContextAtStart s) := by
  unfold acContextAtStart
  exact encodeFrame_withCtx (.refl hw h) _

theorem wracBody_frame : BodyFrame 0x39 s (wracBody s) :=
  .check (checks_cursors s) fun hc => .check (checks_bps s) fun _ => .check (checks_maxc s) fun _ => .of_encode (by decide) hc
    ((acContextAtStart_control s (by decide)).trans (wracLoop_control _ _ _ _))
    (fun hw =>
      have started := acContextAtStart_frame s hw hc.2.2
      started.trans (wracLoop_frame _ _ _ started.bsWf started.bitpos.2))
    (wracLoop_neverCorrupt _ _ _ _)

/-! ### The header codec: reading -/

theorem probeBody_frame : BodyFrame 0x20 s (probeBody s) :=
  .check (checks_buffer s) fun _ => .ok (controlFrame_withVal s (by decide) _) fun _ => .of_eq

theorem checks_frame (b : Nat) (h : FrameHeader) : Checks True s (checkFrame b h s) :=
  .unless rfl fun _ => .unless rfl fun _ => .unless rfl fun _ => .unless rfl fun _ => .unless rfl fun _ => .unless rfl fun _ =>
    .inl ⟨trivial, rfl⟩

/-- One matrix of PFRM: loaded, or set flat when absent (42_header_codec.md R172 step 10). -/
theorem loadMatrix_or_flat (p : QMatrix) (off : Nat) (sc : BitVec 1) (present : Bool) :
    ∃ qm, (if present then loadMatrix p off sc s else flatMatrix p s) = s.withQm qm ∧
      (Memory.wf qmUnlisted s.qm → DiffersBelow qmUnlisted 128 s.qm qm) := by
  have room : matrixIndex p 0 + 64 ≤ 128 := by cases p <;> decide
  cases present with
  | true => exact ⟨_, rfl, fun hq => differsBelow_writeRange hq room _⟩
  | false => exact ⟨_, rfl, fun hq => differsBelow_writeRange hq room _⟩

/-- Both matrices of PFRM. -/
def loadMatrices (flags2 : BitVec 8) (b : Nat) (sc : BitVec 1) : State :=
  let t := if hasLuma flags2 then loadMatrix .luma (b + 28) sc s else flatMatrix .luma s
  if hasChroma flags2 then loadMatrix .chroma (chromaOffset b flags2) sc t else flatMatrix .chroma t

theorem loadMatrices_eq (flags2 : BitVec 8) (b : Nat) (sc : BitVec 1) :
    ∃ qm, loadMatrices s flags2 b sc = s.withQm qm ∧
      (Memory.wf qmUnlisted s.qm → DiffersBelow qmUnlisted 128 s.qm qm) := by
  obtain ⟨qm1, e1, h1⟩ := loadMatrix_or_flat s .luma (b + 28) sc (hasLuma flags2)
  obtain ⟨qm2, e2, h2⟩ := loadMatrix_or_flat (s.withQm qm1) .chroma (chromaOffset b flags2) sc (hasChroma flags2)
  refine ⟨qm2, ?_, fun hq => (h1 hq).trans (h2 (h1 hq).wf)⟩
  rw [loadMatrices, e1, e2]
  rfl

/-- PFRM and WFRM before the matrices (R172 steps 8 and 9, R179 steps 3 and 4). -/
def openFrame (h : FrameHeader) (bs : Memory 8) : State :=
  ((s.withFh h).withBs bs).withPlane { s.plane with scansel := scanOfFrameType (frameType h.flags1) }

/-- PFRM and WFRM after the matrices (R172 steps 11 and 12, R179 steps 6 and 7). -/
def closeFrame (b : Nat) (h : FrameHeader) : State :=
  (s.withPh { s.ph with mbh := BitVec.ofNat 13 (pictureRows (frameType h.flags1) h.height.toNat) }).withByteptr
    (b + 8 + h.hdrsize.toNat)

/-- The registers PFRM and WFRM leave, with what they leave in BS and QM. -/
def frameEntered (b : Nat) (h : FrameHeader) (bs qm : Memory 8) : State :=
  { s with
    fh := h
    plane := { s.plane with scansel := scanOfFrameType (frameType h.flags1) }
    ph := { s.ph with mbh := BitVec.ofNat 13 (pictureRows (frameType h.flags1) h.height.toNat) }
    cur := { s.cur with byteptr := BitVec.ofNat 32 (b + 8 + h.hdrsize.toNat) }
    bs := bs
    qm := qm }

theorem closeFrame_openFrame (b : Nat) (h : FrameHeader) (header bs qm : Memory 8) :
    closeFrame (((openFrame s h header).withBs bs).withQm qm) b h = frameEntered s b h bs qm := by
  simp only [closeFrame, openFrame, frameEntered, State.withByteptr, State.withCur, State.withPh, State.withPlane, State.withBs,
    State.withFh, State.withQm]

theorem commitFrame_eq_closeFrame (b : Nat) (h : FrameHeader) : commitFrame b h s =
    closeFrame (loadMatrices (openFrame s h s.bs) h.flags2 b (scanOfFrameType (frameType h.flags1))) b h := rfl

theorem commitFrame_eq (b : Nat) (h : FrameHeader) :
    ∃ qm, commitFrame b h s = frameEntered s b h s.bs qm ∧
      (Memory.wf qmUnlisted s.qm → DiffersBelow qmUnlisted 128 s.qm qm) := by
  obtain ⟨qm, e, hqm⟩ := loadMatrices_eq (openFrame s h s.bs) h.flags2 b (scanOfFrameType (frameType h.flags1))
  refine ⟨qm, ?_, hqm⟩
  rw [commitFrame_eq_closeFrame, e]
  exact closeFrame_openFrame s b h s.bs s.bs qm

theorem pfrmBody_frame : BodyFrame 0x21 s (pfrmBody s) := by
  refine .check (checks_buffer s) fun _ => .check (checks_frame s _ _) fun _ => ?_
  generalize frameHeaderAt s.bs s.cur.frameBase.toNat = h
  obtain ⟨qm, e, hqm⟩ := commitFrame_eq s s.cur.frameBase.toNat h
  rw [e]
  refine .ok (.of_registers [.byteptr, .scansel, .fhFramesize, .fhHdrsize, .fhVersion, .fhCreator, .fhWidth, .fhHeight,
    .fhFlags1, .fhColorHi, .fhColorLo, .fhFlags2, .fhPayload, .fhFrametype, .fhChromatype, .fhTff, .fhMbw, .picMbh] (by decide)
    (fun r => ?_) rfl rfl rfl rfl) fun hw => ⟨.inl rfl, .inl rfl, .inr ⟨by decide, hqm hw.qm⟩, .inl rfl, .inl rfl⟩
  cases r <;> simp [State.readReg, frameEntered]

/-- PPIC and WPIC start the schedule alike (R174, R180). -/
theorem startSchedule_control (h : op ∈ [0x22, 0x29]) (b sc l2 : Nat) : ControlFrame op s (startSchedule b sc l2 s) := by
  have writes : ∀ op ∈ [0x22, 0x29], (∀ r ∈ [Reg.byteptr, .picBase, .phSpr, .slIdx, .slMbx, .slMby, .slCur, .slPtr],
      op ∈ writers r) ∧ op ∈ eosWriters ∧ op ∈ slokWriters := by decide
  obtain ⟨hregs, he, hs⟩ := writes op h
  refine .trans (.of_registers _ hregs fun r => ?_) (controlFrame_clearPictureFlags _ he hs)
  cases r <;> simp [State.readReg]

theorem startSchedule_memories (b sc l2 : Nat) : (startSchedule b sc l2 s).bs = s.bs ∧ (startSchedule b sc l2 s).coef = s.coef ∧
    (startSchedule b sc l2 s).qm = s.qm ∧ (startSchedule b sc l2 s).qms = s.qms ∧ (startSchedule b sc l2 s).sst = s.sst :=
  ⟨rfl, rfl, rfl, rfl, rfl⟩

theorem checks_picture (b : Nat) : Checks (memRead s.bs (b + 5) 2 ≤ s.cfg.maxSlices) s (checkPicture b s) :=
  .unless rfl fun _ => .unless rfl fun hsc => .unless rfl fun _ => .unless rfl fun _ => .inl ⟨Nat.le_of_not_lt hsc, rfl⟩

theorem ppicBody_frame : BodyFrame 0x22 s (ppicBody s) := by
  refine .check (checks_buffer s) fun _ => .check (checks_picture s _) fun hsc => .ok ?_ fun hw => ?_
  · unfold commitPicture
    refine .trans (.trans (.of_registers [.phHdrsize, .phReserved, .phSlicecount, .phL2byte] (by decide) fun r => ?_)
      (controlFrame_withSst _ _)) (startSchedule_control _ (by decide) _ _ _)
    cases r <;> simp [State.readReg]
  · unfold commitPicture
    obtain ⟨bs, coef, qm, qms, sst⟩ := startSchedule_memories _ _ _ _
    refine ⟨.inl bs, .inl coef, .inl qm, .inl qms, .inr ⟨by decide, ?_⟩⟩
    rw [sst]
    exact differsBelow_writeRange hw.sst (by omega) _

theorem nxslBody_frame : BodyFrame 0x23 s (nxslBody s) := by
  refine .check (checks_buffer s) fun _ => ?_
  split
  · exact .ok (controlFrame_setEos s (by decide)) fun _ => .of_eq
  refine .unless rfl fun _ => .unless rfl fun _ => ?_
  unfold deliverSlice
  refine .ok ?_ fun _ => .of_eq
  refine .trans (.of_registers [.byteptr, .slIdx, .slMbx, .slMby, .slCur, .slPtr, .slBase, .slSize, .slX, .slY, .slMbcount,
    .slL2bpsY, .slL2bpsC] (by decide) fun r => ?_) (controlFrame_clearSlok _ (by decide))
  cases r <;> simp [State.readReg]

theorem pslcBody_frame : BodyFrame 0x24 s (pslcBody s) := by
  refine .check (checks_buffer s) fun _ => ?_
  have refused : BodyFrame 0x24 s (.raised (.corruptSliceData .sliceHdr) s.clearSlok) :=
    ⟨controlFrame_clearSlok s (by decide), fun _ => .of_eq, fun _ _ _ _ => by decide⟩
  simp only
  split
  · exact refused
  split
  · exact refused
  unfold commitSlice
  refine .ok ((controlFrame_clearSlok s (by decide)).trans (.trans (.of_registers [.byteptr, .slHdrsize, .slQsraw, .qscale,
    .slYsize, .slUsize, .slVsize] (by decide) fun r => ?_) (controlFrame_setSlok _ (by decide)))) fun _ => .of_eq
  cases r <;> simp [State.readReg]

theorem selplBody_frame (k : BitVec 2) : BodyFrame 0x25 s (selplBody k s) := by
  refine .check (checks_buffer s) fun _ => .unless rfl fun _ => .unless rfl fun _ => ?_
  unfold commitPlane
  refine .ok (.of_registers [.bitpos, .bitend, .l2bps, .slPlane] (by decide) fun r => ?_) fun _ => .of_eq
  cases r <;> simp [State.readReg]

/-! ### The header codec: writing -/

theorem withBs_withQm_self (x : Memory 8) : s.withBs x = (s.withBs x).withQm s.qm := rfl

/-- One matrix of WFRM: stored in BS, or set flat in QM when absent (R179 step 5). -/
theorem storeMatrix_or_flat (p : QMatrix) (off : Nat) (sc : BitVec 1) (present : Bool) :
    ∃ bs qm, (if present then storeMatrix p off sc s else flatMatrix p s) = (s.withBs bs).withQm qm ∧
      (∀ n, Memory.wf bsUnlisted s.bs → (present = true → off + 64 ≤ n) → DiffersBelow bsUnlisted n s.bs bs) ∧
      (Memory.wf qmUnlisted s.qm → DiffersBelow qmUnlisted 128 s.qm qm) := by
  have room : matrixIndex p 0 + 64 ≤ 128 := by cases p <;> decide
  cases present with
  | true =>
    have stored (n : Nat) (hb : Memory.wf bsUnlisted s.bs) (h : off + 64 ≤ n) := differsBelow_storeMatrix hb p h sc
    rw [storeMatrix, State.withBs_bs] at stored
    rw [if_pos rfl, storeMatrix]
    exact ⟨_, s.qm, withBs_withQm_self s _, fun n hb h => stored n hb (h rfl), fun hq => .refl hq⟩
  | false => exact ⟨s.bs, (flatMatrix p s).qm, rfl, fun _ hb _ => .refl hb, fun hq => differsBelow_writeRange hq room _⟩

/-- The matrices a header announces stand inside the size WFRM computes for it (30_encoding.md R111; R179 step 2). -/
theorem matrix_room {b n : Nat} {flags2 : BitVec 8} (h : b + 8 + writtenHdrsize flags2 ≤ n) :
    b + 28 ≤ n ∧ (hasLuma flags2 = true → b + 28 + 64 ≤ n) ∧ (hasChroma flags2 = true → chromaOffset b flags2 + 64 ≤ n) := by
  unfold writtenHdrsize matrixCount at h
  unfold chromaOffset
  revert h
  cases hasLuma flags2 <;> cases hasChroma flags2 <;> simp <;> omega

/-- Both matrices of WFRM. -/
def storeMatrices (flags2 : BitVec 8) (b : Nat) (sc : BitVec 1) : State :=
  let t := if hasLuma flags2 then storeMatrix .luma (b + 28) sc s else flatMatrix .luma s
  if hasChroma flags2 then storeMatrix .chroma (chromaOffset b flags2) sc t else flatMatrix .chroma t

theorem storeMatrices_eq (flags2 : BitVec 8) (b : Nat) (sc : BitVec 1) :
    ∃ bs qm, storeMatrices s flags2 b sc = (s.withBs bs).withQm qm ∧
      (∀ n, Memory.wf bsUnlisted s.bs → b + 8 + writtenHdrsize flags2 ≤ n → DiffersBelow bsUnlisted n s.bs bs) ∧
      (Memory.wf qmUnlisted s.qm → DiffersBelow qmUnlisted 128 s.qm qm) := by
  obtain ⟨bs1, qm1, e1, hb1, hq1⟩ := storeMatrix_or_flat s .luma (b + 28) sc (hasLuma flags2)
  obtain ⟨bs2, qm2, e2, hb2, hq2⟩ := storeMatrix_or_flat ((s.withBs bs1).withQm qm1) .chroma (chromaOffset b flags2) sc
    (hasChroma flags2)
  refine ⟨bs2, qm2, ?_, fun n hb room => ?_, fun hq => (hq1 hq).trans (hq2 (hq1 hq).wf)⟩
  · rw [storeMatrices, e1, e2]
    rfl
  · obtain ⟨-, luma, chroma⟩ := matrix_room room
    exact (hb1 n hb luma).trans (hb2 n (hb1 n hb luma).wf chroma)

theorem commitWriteFrame_eq_closeFrame (b : Nat) : commitWriteFrame b s =
    closeFrame (storeMatrices (openFrame s (writtenHeader s.fh) (storeFrameHeader s.bs b (writtenHeader s.fh))) s.fh.flags2 b
      (scanOfFrameType (frameType s.fh.flags1))) b (writtenHeader s.fh) := rfl

theorem commitWriteFrame_eq (b : Nat) :
    ∃ bs qm, commitWriteFrame b s = frameEntered s b (writtenHeader s.fh) bs qm ∧
      (∀ n, Memory.wf bsUnlisted s.bs → b + 8 + writtenHdrsize s.fh.flags2 ≤ n → DiffersBelow bsUnlisted n s.bs bs) ∧
      (Memory.wf qmUnlisted s.qm → DiffersBelow qmUnlisted 128 s.qm qm) := by
  have fixed (n : Nat) (hw : Memory.wf bsUnlisted s.bs) (room : b + 8 + writtenHdrsize s.fh.flags2 ≤ n) :=
    differsBelow_storeFrameHeader hw (matrix_room room).1 (writtenHeader s.fh)
  rw [commitWriteFrame_eq_closeFrame]
  generalize storeFrameHeader s.bs b (writtenHeader s.fh) = header at fixed ⊢
  obtain ⟨bs, qm, e, hbs, hqm⟩ := storeMatrices_eq (openFrame s (writtenHeader s.fh) header) s.fh.flags2 b
    (scanOfFrameType (frameType s.fh.flags1))
  refine ⟨bs, qm, ?_, fun n hw room => (fixed n hw room).trans (hbs n (fixed n hw room).wf room), hqm⟩
  rw [e]
  exact closeFrame_openFrame s b _ header bs qm

theorem wfrmBody_frame : BodyFrame 0x28 s (wfrmBody s) := by
  refine .check (checks_buffer s) fun hbuf => .unless rfl fun _ => .unless rfl fun hroom => ?_
  obtain ⟨bs, qm, e, hbs, hqm⟩ := commitWriteFrame_eq s s.cur.frameBase.toNat
  rw [e]
  refine .ok (.of_registers [.byteptr, .scansel, .fhHdrsize, .fhPayload, .picMbh] (by decide) (fun r => ?_) rfl rfl rfl rfl)
    fun hw => ⟨.inr ⟨⟨by decide, hbuf⟩, hbs _ hw.bs (by omega)⟩, .inl rfl, .inr ⟨by decide, hqm hw.qm⟩, .inl rfl, .inl rfl⟩
  cases r <;> simp [State.readReg, frameEntered, writtenHeader, FrameHeader.mbw]

theorem checks_writePicture (b : Nat) :
    Checks (b + 8 + 2 * s.ph.slicecount.toNat ≤ s.cur.bsLen.toNat) s (checkWritePicture b s) :=
  .unless rfl fun _ => .unless rfl fun _ => .unless rfl fun _ => .unless rfl fun hroom => .inl ⟨Nat.le_of_not_lt hroom, rfl⟩

theorem wpicBody_frame : BodyFrame 0x29 s (wpicBody s) := by
  refine .check (checks_buffer s) fun hbuf => .check (checks_writePicture s _) fun hroom => .ok
    ((controlFrame_withBs s _).trans (startSchedule_control _ (by decide) _ _ _)) fun hw => ?_
  obtain ⟨bs, coef, qm, qms, sst⟩ := startSchedule_memories (s.withBs (storePicture s.cur.byteptr.toNat s))
    s.cur.byteptr.toNat s.ph.slicecount.toNat (log2SliceMbWidth s.ph.l2byte)
  refine ⟨.inr ⟨⟨by decide, hbuf⟩, ?_⟩, .inl coef, .inl qm, .inl qms, .inl sst⟩
  rw [bs]
  exact differsBelow_storePicture hw.bs hroom

/-- What the checks of WSLC leave known (R181 steps 1 to 5). -/
theorem checks_writeSlice : Checks (s.sched.idx.toNat - 1 < s.cfg.maxSlices ∧ (s.slice.hdrsize.toNat = 6 ∨ s.slice.hdrsize.toNat = 8) ∧
    s.slice.base.toNat + writtenSliceSize s.slice ≤ s.cur.bsLen.toNat) s (checkWriteSlice s) :=
  .unless rfl fun _ => .unless rfl fun hidx => .unless rfl fun hhdr => .unless rfl fun _ => .unless rfl fun hroom =>
    .inl ⟨⟨by omega, by omega, by omega⟩, rfl⟩

theorem wslcBody_frame : BodyFrame 0x2A s (wslcBody s) := by
  refine .check (checks_buffer s) fun hbuf => .check (checks_writeSlice s) fun ⟨hidx, hhdr, hroom⟩ => ?_
  have header (hw : Memory.wf bsUnlisted s.bs) : DiffersBelow bsUnlisted s.cur.bsLen.toNat s.bs
      (storeSliceHeader s.bs s.slice.base.toNat s.slice) :=
    differsBelow_storeSliceHeader hw hhdr (by unfold writtenSliceSize at hroom; omega)
  simp only [commitWriteSlice]
  generalize storeSliceHeader s.bs s.slice.base.toNat s.slice = bs at header
  refine .ok (.of_registers [.byteptr, .slPtr, .slSize] (by decide) fun r => ?_) fun hw => ⟨.inr ⟨⟨by decide, hbuf⟩, ?_⟩,
    .inl (by simp), .inl (by simp), .inl (by simp), .inr ⟨by decide, ?_⟩⟩
  · cases r <;> simp [State.readReg]
  · simpa using header hw.bs
  · simpa using differsBelow_write hw.sst hidx _

theorem nopBody_frame : BodyFrame 0x00 s (nopBody s) := .ok (.refl s) fun _ => .of_eq

/-- Every command's pseudocode keeps to its opcode's frame. -/
theorem body_frame (i : Instr) : BodyFrame i.opcode.toNat s (Instr.body i s) := by
  cases i with
  | nop => exact nopBody_frame s
  | srst => exact .ok (.refl s) fun _ => .of_eq
  | clrf => exact .ok (.refl s) fun _ => .of_eq
  | ldcb cls ctx => exact ldcbBody_frame s cls ctx
  | rdcw => exact rdcwBody_frame s
  | wrcw => exact wrcwBody_frame s
  | zzdec => exact zzdecBody_frame s
  | zzenc => exact zzencBody_frame s
  | alignw => exact alignwBody_frame s
  | probe => exact probeBody_frame s
  | pfrm => exact pfrmBody_frame s
  | ppic => exact ppicBody_frame s
  | nxsl => exact nxslBody_frame s
  | pslc => exact pslcBody_frame s
  | selpl k => exact selplBody_frame s k
  | wfrm => exact wfrmBody_frame s
  | wpic => exact wpicBody_frame s
  | wslc => exact wslcBody_frame s
  | dcinit => exact dcinitBody_frame s
  | dcsym p => exact dcsymBody_frame s p
  | rddc p => exact rddcBody_frame s p
  | acinit => exact acinitBody_frame s
  | acsym p => exact acsymBody_frame s p
  | rdac p => exact rdacBody_frame s p
  | wrdc => exact wrdcBody_frame s
  | wrac => exact wracBody_frame s
  | foldq => exact foldqBody_frame s
  | scaleq => exact scaleqBody_frame s
  | deq p idx => exact deqBody_frame s p idx
  | qnt p idx => exact qntBody_frame s p idx
  | qntp p => exact qntpBody_frame s p

end

end Sys2Proof.Machine

/-! PROOFS. From the pseudocodes to whole commands and whole steps: taking a fault, the halted state, the illegal word and the two returns
(60_exceptions.md R269 to R275), then the host's actions; and the three statements about every step that rest on it. -/

namespace Sys2Proof.Machine

-- In order and not side by side: pending proofs hold memory, and the joined text is near the limit of check.sh.
set_option Elab.async false

open Sys2Proof.Claims

/-! ### A whole command -/

/-- What a command of opcode `op` may leave: `ControlFrame` and `MemoryFrame` with the fault record, HALT, CORRUPT and REJ of a fault
taken, of a rejection, and of the two returns. -/
structure CommandFrame (op : Nat) (s t : State) : Prop where
  cfg : t.cfg = s.cfg
  host : t.host = s.host
  memory : s.memoriesWf → MemoryFrame op s t
  regs : ∀ r, r ∉ [Reg.status, .fault, .faultPos] → t.readReg r ≠ s.readReg r → op ∈ writers r
  fatalRecord : t.record.fault ≠ s.record.fault ∨ t.record.faultPos ≠ s.record.faultPos →
    s.status.halt = false ∧ t.status.halt = true ∨ op ∈ [0x01, 0x02]
  halt : s.status.halt = true → t.status.halt = false → op ∈ [0x01, 0x02]
  corrupt : t.status.corrupt ≠ s.status.corrupt → op ∈ [0x01, 0x02, 0x11, 0x24, 0x31, 0x32, 0x34, 0x35]
  abandon : t.status.abandon ≠ s.status.abandon → op ∈ abandonWriters
  eop : t.status.eop ≠ s.status.eop → op ∈ eopWriters
  eos : t.status.eos ≠ s.status.eos → op ∈ eosWriters
  slok : t.status.slok ≠ s.status.slok → op ∈ slokWriters
  rej : t.status.rej ≠ s.status.rej → s.status.halt = true ∨ op ∈ [0x01, 0x02]

section
variable {op : Nat} {s t : State}

/-- A command that ends without a fault. -/
theorem ControlFrame.commandFrame (h : ControlFrame op s t) (hm : s.memoriesWf → MemoryFrame op s t) : CommandFrame op s t where
  cfg := h.cfg
  host := h.host
  memory := hm
  regs r hr := h.regs r fun e => hr (by simp [e])
  fatalRecord hne := by rw [h.record] at hne; simp at hne
  halt h1 h0 := by rw [h.halt, h1] at h0; cases h0
  corrupt hne := absurd h.corrupt hne
  abandon := h.abandon
  eop := h.eop
  eos := h.eos
  slok := h.slok
  rej hne := absurd h.rej hne

/-- Fatal fault entry writes the fatal record and HALT only (R270). -/
theorem readReg_enterFatal {r : Reg} (hr : r ∉ [Reg.status, .fault, .faultPos]) (opcode : BitVec 8) (pos : Word) (f : Raise)
    (t : State) : (enterFatal opcode pos f t).readReg r = t.readReg r := by
  revert hr
  cases r <;> simp [State.readReg, enterFatal]

/-- Recoverable fault entry writes the log, CORRUPT and ABANDON only (R272). -/
theorem readReg_enterConcealed {r : Reg} (hr : r ∉ [Reg.status, .log, .logPos, .logXy, .corruptCnt]) (opcode : BitVec 8)
    (pos : Word) (abandons : Bool) (f : Raise) (t : State) : (enterConcealed opcode pos abandons f t).readReg r = t.readReg r := by
  revert hr
  cases r <;> simp [State.readReg, enterConcealed]

/-- A fatal fault of a command that was running. -/
theorem commandFrame_enterFatal (hrun : Running s) (h : ControlFrame op s t) (hm : s.memoriesWf → MemoryFrame op s t)
    (opcode : BitVec 8) (pos : Word) (r : Raise) : CommandFrame op s (enterFatal opcode pos r t) where
  cfg := h.cfg
  host := h.host
  memory hw := by obtain ⟨bs, coef, qm, qms, sst⟩ := hm hw; exact ⟨bs, coef, qm, qms, sst⟩
  regs r hr hne := (h.commandFrame hm).regs r hr (by rwa [readReg_enterFatal hr] at hne)
  fatalRecord _ := .inl ⟨hrun, rfl⟩
  halt h1 _ := by rw [hrun] at h1; cases h1
  corrupt hne := absurd h.corrupt hne
  abandon := h.abandon
  eop := h.eop
  eos := h.eos
  slok := h.slok
  rej hne := absurd h.rej hne

/-- The commands whose corruption abandons the plane, by opcode (R272). -/
theorem abandons_eq (i : Instr) : Instr.abandons i = decide (i.opcode.toNat ∈ [0x31, 0x32, 0x34, 0x35]) := by cases i <;> rfl

/-- A concealed corruption. -/
theorem commandFrame_enterConcealed (h : ControlFrame op s t) (hm : s.memoriesWf → MemoryFrame op s t)
    (hop : op ∈ corruptRaisers) {abandons : Bool} (ha : abandons = true → op ∈ abandonWriters) (opcode : BitVec 8) (pos : Word)
    (r : Raise) : CommandFrame op s (enterConcealed opcode pos abandons r t) where
  cfg := h.cfg
  host := h.host
  memory hw := by obtain ⟨bs, coef, qm, qms, sst⟩ := hm hw; exact ⟨bs, coef, qm, qms, sst⟩
  regs r hr hne := by
    by_cases hlog : r ∈ [Reg.status, .log, .logPos, .logXy, .corruptCnt]
    · have log : op ∈ writers .log := List.mem_cons_of_mem _ (List.mem_cons_of_mem _ hop)
      simp only [List.mem_cons, List.not_mem_nil, or_false] at hlog hr
      rcases hlog with rfl | rfl | rfl | rfl | rfl
      · exact absurd (.inl rfl) hr
      all_goals exact log
    · rw [readReg_enterConcealed hlog] at hne
      exact (h.commandFrame hm).regs r hr hne
  fatalRecord hne := (h.commandFrame hm).fatalRecord hne
  halt h1 h0 := (h.commandFrame hm).halt h1 h0
  corrupt _ := List.mem_cons_of_mem _ (List.mem_cons_of_mem _ hop)
  abandon hne := by
    cases abandons with
    | true => exact ha rfl
    | false => exact h.abandon (by simpa [enterConcealed] using hne)
  eop := h.eop
  eos := h.eos
  slok := h.slok
  rej hne := absurd h.rej hne

/-- A command that ends in a fault (R270, R272, R273). -/
theorem commandFrame_takeFault {i : Instr} {r : Raise} (hrun : Running s) (h : BodyFrame i.opcode.toNat s (.raised r t)) :
    CommandFrame i.opcode.toNat s (takeFault i s r t) := by
  obtain ⟨control, memory, raises⟩ := h
  rcases takeFault_cases i s r t with ⟨hr, -, e⟩ | ⟨-, e⟩ <;> rw [e]
  · refine commandFrame_enterConcealed control memory (raises r t rfl hr) (fun ha => ?_) _ _ _
    rw [abandons_eq, decide_eq_true_iff] at ha
    exact List.mem_cons_of_mem _ (List.mem_cons_of_mem _ ha)
  · exact commandFrame_enterFatal hrun control memory _ _ _

/-- SRST may write every register (45_system_ops.md R251). -/
theorem srst_writes {r : Reg} (hr : r ∉ [Reg.status, .fault, .faultPos]) (hc : r ≠ .cmd) : 0x01 ∈ writers r := by
  revert hr hc
  cases r <;> decide

/-- Soft reset (R251): QM and QMS take their reset values, BS, COEF and SST stay. -/
theorem commandFrame_softReset (s : State) : CommandFrame 0x01 s (softReset s) where
  cfg := rfl
  host := rfl
  memory hw := ⟨.inl rfl, .inl rfl, .inr ⟨by decide, differsBelow_nil hw.qmInside⟩,
    .inr ⟨by decide, differsBelow_nil hw.qmsInside⟩, .inl rfl⟩
  regs r hr hne := srst_writes hr fun e => hne (by rw [e]; rfl)
  fatalRecord _ := .inr (by decide)
  halt _ _ := by decide
  corrupt _ := by decide
  abandon _ := by decide
  eop _ := by decide
  eos _ := by decide
  slok _ := by decide
  rej _ := .inr (by decide)

/-- The clearing of the record and the log (R252). -/
theorem commandFrame_clearFaults (s : State) : CommandFrame 0x02 s (clearFaults s) where
  cfg := rfl
  host := rfl
  memory _ := .of_eq rfl rfl rfl rfl rfl
  regs r hr hne := by
    revert hr hne
    cases r <;> simp [State.readReg, clearFaults, writers]
  fatalRecord _ := .inr (by decide)
  halt _ _ := by decide
  corrupt _ := by decide
  abandon hne := absurd rfl hne
  eop hne := absurd rfl hne
  eos hne := absurd rfl hne
  slok hne := absurd rfl hne
  rej _ := .inr (by decide)

/-- A rejected command (R271). -/
theorem commandFrame_setRej (hh : s.status.halt = true) : CommandFrame op s s.setRej where
  cfg := rfl
  host := rfl
  memory _ := .of_eq
  regs r hr hne := by
    refine absurd ?_ hne
    cases r
    case status => exact absurd (by simp) hr
    all_goals rfl
  fatalRecord hne := by simp at hne
  halt h1 h0 := by rw [State.setRej, State.withStatus_status, h1] at h0; cases h0
  corrupt hne := absurd rfl hne
  abandon hne := absurd rfl hne
  eop hne := absurd rfl hne
  eos hne := absurd rfl hne
  slok hne := absurd rfl hne
  rej _ := .inl hh

/-- Every command keeps to its opcode's frame. -/
theorem exec_frame {i : Instr} (h : exec i s = .next t) : CommandFrame i.opcode.toNat s t := by
  have body := body_frame s i
  rcases exec_cases h with ⟨rfl, rfl⟩ | ⟨rfl, rfl⟩ | ⟨hh, rfl⟩ | ⟨hrun, -, rfl⟩ | ⟨-, -, hb⟩ | ⟨hrun, -, r, u, hb, rfl⟩
  · exact commandFrame_softReset s
  · exact commandFrame_clearFaults s
  · exact commandFrame_setRej hh
  · rw [illegalWord, if_neg (by simp [hrun])]
    exact commandFrame_enterFatal hrun (.refl s) (fun _ => .of_eq) _ _ _
  · rw [hb] at body
    exact body.control.commandFrame body.memory
  · rw [hb] at body
    exact commandFrame_takeFault hrun body

end

/-! ### A whole step -/

/-- What a host write of a register leaves alone (10_state.md R25, R27, R39). -/
theorem writeReg_frame (s : State) (r : Reg) (v : Word) : (s.writeReg r v).cfg = s.cfg ∧ (s.writeReg r v).host = s.host ∧
    (s.writeReg r v).status = s.status ∧ (s.writeReg r v).record = s.record ∧ (s.writeReg r v).bs = s.bs ∧
    (s.writeReg r v).coef = s.coef ∧ (s.writeReg r v).qm = s.qm ∧ (s.writeReg r v).qms = s.qms ∧ (s.writeReg r v).sst = s.sst := by
  cases r <;> exact ⟨rfl, rfl, rfl, rfl, rfl, rfl, rfl, rfl, rfl⟩

/-- The same of a host write by number (R20). -/
theorem hostWrite_frame (s : State) (n : Nat) (v : Word) : (s.hostWrite n v).cfg = s.cfg ∧ (s.hostWrite n v).host = s.host ∧
    (s.hostWrite n v).status = s.status ∧ (s.hostWrite n v).record = s.record ∧ (s.hostWrite n v).bs = s.bs ∧
    (s.hostWrite n v).coef = s.coef ∧ (s.hostWrite n v).qm = s.qm ∧ (s.hostWrite n v).qms = s.qms ∧
    (s.hostWrite n v).sst = s.sst := by
  unfold State.hostWrite
  split
  · exact writeReg_frame s _ v
  · exact ⟨rfl, rfl, rfl, rfl, rfl, rfl, rfl, rfl, rfl⟩

/-- All that one step can do: nothing, a command, an illegal word, or one store of the host. -/
inductive StepCase (s t : State) : Prop where
  | idle (h : t = s)
  | command (rest : List HostAction) (i : Instr) (h : exec i (s.withHost rest) = .next t)
  | illegal (rest : List HostAction) (w : Word) (h : t = illegalWord w (s.withHost rest))
  | register (rest : List HostAction) (n : Nat) (v : Word) (h : t = (s.withHost rest).hostWrite n v)
  | bs (rest : List HostAction) (a : Nat) (b : Byte) (ha : a < s.cfg.bsBytes) (h : t = (s.withHost rest).withBs (bsSetByte s.bs a b))
  | coef (rest : List HostAction) (k : Nat) (v : Word) (hk : k < 64 * 2 ^ s.cfg.log2MaxBps) (h : t = (s.withHost rest).setCoef k v)
  | qm (rest : List HostAction) (p : QMatrix) (i : BitVec 6) (b : Byte)
      (h : t = (s.withHost rest).withQm (Memory.write qmUnlisted s.qm (matrixIndex p i.toNat) b))
  | sst (rest : List HostAction) (n : Nat) (v : BitVec 16) (hn : n < s.cfg.maxSlices) (h : t = (s.withHost rest).setSst n v)

theorem step_cases {s t : State} (h : step s = .next t) : StepCase s t := by
  unfold step at h
  split at h
  · exact .idle (Host.Outcome.next.inj h).symm
  · rename_i a rest _
    cases a with
    | writeReg n v =>
      simp only [hostStep] at h
      split at h
      · unfold Machine.command at h
        split at h
        · exact .command rest _ h
        · exact .illegal rest v (Host.Outcome.next.inj h).symm
      · exact .register rest n v (Host.Outcome.next.inj h).symm
    | writeBs a b =>
      simp only [hostStep] at h
      split at h
      · exact .bs rest a b ‹_› (Host.Outcome.next.inj h).symm
      · cases h
    | writeCoef k v =>
      simp only [hostStep] at h
      split at h
      · exact .coef rest k v ‹_› (Host.Outcome.next.inj h).symm
      · cases h
    | writeQm p i b => exact .qm rest p i b (Host.Outcome.next.inj h).symm
    | writeSst n v =>
      simp only [hostStep] at h
      split at h
      · exact .sst rest n v ‹_› (Host.Outcome.next.inj h).symm
      · cases h

/-! ### The memories -/

theorem CommandFrame.memoriesWf {op : Nat} {s t : State} (h : CommandFrame op s t) (hw : s.memoriesWf) : t.memoriesWf :=
  (h.memory hw).memoriesWf hw h.cfg

/-- Nothing but the memories and their sizes matters. -/
theorem memoriesWf_congr {s t : State} (h : s.memoriesWf) (cfg : t.cfg = s.cfg) (bs : t.bs = s.bs) (coef : t.coef = s.coef)
    (qm : t.qm = s.qm) (qms : t.qms = s.qms) (sst : t.sst = s.sst) : t.memoriesWf := by
  obtain ⟨h1, h2, h3, h4, h5, h6, h7, h8, h9, h10⟩ := h
  constructor <;> simpa only [cfg, bs, coef, qm, qms, sst]

/-- An illegal word writes no memory. -/
theorem illegalWord_memoriesWf {s : State} (hw : s.memoriesWf) (w : Word) : (illegalWord w s).memoriesWf := by
  unfold illegalWord
  split
  · exact memoriesWf_congr hw rfl rfl rfl rfl rfl rfl
  · exact memoriesWf_congr hw rfl rfl rfl rfl rfl rfl

/-- Settles O58: by the cases of a step, each command through `exec_frame`. -/
theorem memoriesWfKept : Obligations.MemoriesWfKept := by
  intro s t hw h
  have hw' (rest : List HostAction) : (s.withHost rest).memoriesWf := memoriesWf_congr hw rfl rfl rfl rfl rfl rfl
  cases step_cases h with
  | idle h => exact h ▸ hw
  | command rest i h => exact (exec_frame h).memoriesWf (hw' rest)
  | illegal rest w h => exact h ▸ illegalWord_memoriesWf (hw' rest) w
  | register rest n v h =>
    obtain ⟨cfg, -, -, -, bs, coef, qm, qms, sst⟩ := hostWrite_frame (s.withHost rest) n v
    exact h ▸ memoriesWf_congr (hw' rest) cfg bs coef qm qms sst
  | bs rest a b ha h =>
    exact h ▸ { hw' rest with bs := Memory.wf_write _ hw.bs a b, bsInside := Memory.inside_write _ hw.bsInside ha b }
  | coef rest k v hk h =>
    exact h ▸ { hw' rest with coef := Memory.wf_write _ hw.coef k v, coefInside := Memory.inside_write _ hw.coefInside hk v }
  | qm rest p i b h =>
    have hi : matrixIndex p i.toNat < 128 := by
      have := i.isLt
      cases p <;> simp only [matrixIndex, QMatrix.number] <;> omega
    exact h ▸ { hw' rest with qm := Memory.wf_write _ hw.qm _ b, qmInside := Memory.inside_write _ hw.qmInside hi b }
  | sst rest n v hn h =>
    exact h ▸ { hw' rest with sst := Memory.wf_write _ hw.sst n v, sstInside := Memory.inside_write _ hw.sstInside hn v }

/-! ### The fault record -/

/-- Nothing but the record and the three flags matters. -/
theorem recordAgrees_congr {s t : State} (h : s.recordAgrees) (record : t.record = s.record) (halt : t.status.halt = s.status.halt)
    (corrupt : t.status.corrupt = s.status.corrupt) (rej : t.status.rej = s.status.rej) : t.recordAgrees := by
  obtain ⟨h1, h2, h3, h4, h5, h6⟩ := h
  constructor <;> simpa only [record, halt, corrupt, rej]

theorem ControlFrame.recordAgrees {op : Nat} {s t : State} (h : ControlFrame op s t) (hr : s.recordAgrees) : t.recordAgrees :=
  recordAgrees_congr hr h.record h.halt h.corrupt h.rej

/-- No fault has code 0 (60_exceptions.md R261). -/
theorem code_pos (r : Raise) : 0 < r.code.toNat := by cases r <;> exact Nat.succ_pos _

/-- No fault has subcode 0 (R262). -/
theorem subcode_pos (r : Raise) : 0 < r.subcode.toNat := by
  cases r with
  | malformedHeader sub => cases sub <;> decide
  | corruptSliceData sub => cases sub <;> decide
  | bufferTooSmall sub => cases sub <;> decide
  | illegalCommand => decide
  | notRepresentable sub => cases sub <;> decide
  | divideByZero => decide
  | badOperand sub => cases sub <;> decide

theorem faultWord_ne_zero (opcode : BitVec 8) (r : Raise) : faultWord opcode r ≠ 0 := by
  intro h
  have e := congrArg BitVec.toNat h
  have := code_pos r
  rw [faultWord_eq, BitVec.toNat_ofNat] at e
  have zero : (0 : BitVec 24).toNat = 0 := rfl
  omega

theorem logWord_ne_zero (opcode : BitVec 8) (plane : BitVec 2) (r : Raise) : logWord opcode plane r ≠ 0 := by
  intro h
  have e := congrArg BitVec.toNat h
  have := subcode_pos r
  rw [logWord_eq, BitVec.toNat_ofNat] at e
  have zero : (0 : BitVec 24).toNat = 0 := rfl
  omega

theorem countUp_ne_zero (c : Word) : countUp c ≠ 0 := by
  intro h
  have e := congrArg BitVec.toNat h
  rw [countUp_eq, BitVec.toNat_ofNat] at e
  have zero : (0 : Word).toNat = 0 := rfl
  omega

theorem enterFatal_recordAgrees {s : State} (h : s.recordAgrees) (opcode : BitVec 8) (pos : Word) (r : Raise) :
    (enterFatal opcode pos r s).recordAgrees where
  halt := ⟨fun _ => faultWord_ne_zero opcode r, fun _ => rfl⟩
  pos h0 := by cases h0
  corrupt := h.corrupt
  log := h.log
  clean := h.clean
  rej _ := rfl

theorem enterConcealed_recordAgrees {s : State} (h : s.recordAgrees) (opcode : BitVec 8) (pos : Word) (abandons : Bool)
    (r : Raise) : (enterConcealed opcode pos abandons r s).recordAgrees where
  halt := h.halt
  pos := h.pos
  corrupt := ⟨fun _ => countUp_ne_zero _, fun _ => rfl⟩
  log := ⟨fun _ => logWord_ne_zero _ _ r, fun _ => rfl⟩
  clean h0 := by cases h0
  rej := h.rej

/-- A command rejected while halted (R271). -/
theorem setRej_recordAgrees {s : State} (h : s.recordAgrees) (hh : s.status.halt = true) : s.setRej.recordAgrees where
  halt := h.halt
  pos := h.pos
  corrupt := h.corrupt
  log := h.log
  clean := h.clean
  rej _ := hh

theorem illegalWord_recordAgrees {s : State} (h : s.recordAgrees) (w : Word) : (illegalWord w s).recordAgrees := by
  unfold illegalWord
  split
  · exact setRej_recordAgrees h ‹_›
  · exact enterFatal_recordAgrees h _ _ _

/-- An empty record with HALT, CORRUPT and REJ clear, as the two returns leave it (R275). -/
theorem recordAgrees_of_clear {s : State} (record : s.record = ⟨0, 0, 0, 0, 0, 0⟩) (halt : s.status.halt = false)
    (corrupt : s.status.corrupt = false) (rej : s.status.rej = false) : s.recordAgrees := by
  constructor <;> simp [record, halt, corrupt, rej]

theorem exec_recordAgrees {i : Instr} {s t : State} (hr : s.recordAgrees) (h : exec i s = .next t) : t.recordAgrees := by
  have body := (body_frame s i).control
  rcases exec_cases h with ⟨-, rfl⟩ | ⟨-, rfl⟩ | ⟨hh, rfl⟩ | ⟨-, -, rfl⟩ | ⟨-, -, hb⟩ | ⟨-, -, r, u, hb, rfl⟩
  · exact recordAgrees_of_clear rfl rfl rfl rfl
  · exact recordAgrees_of_clear rfl rfl rfl rfl
  · exact setRej_recordAgrees hr hh
  · exact illegalWord_recordAgrees hr _
  · rw [hb] at body
    exact body.recordAgrees hr
  · rw [hb] at body
    rcases takeFault_cases i s r u with ⟨-, -, e⟩ | ⟨-, e⟩ <;> rw [e]
    · exact enterConcealed_recordAgrees (body.recordAgrees hr) _ _ _ _
    · exact enterFatal_recordAgrees (body.recordAgrees hr) _ _ _

/-- Settles O59: by the cases of a step, each command through `exec_recordAgrees`. -/
theorem recordAgreesKept : Obligations.RecordAgreesKept := by
  intro s t hr h
  have hr' (rest : List HostAction) : (s.withHost rest).recordAgrees := recordAgrees_congr hr rfl rfl rfl rfl
  cases step_cases h with
  | idle h => exact h ▸ hr
  | command rest i h => exact exec_recordAgrees (hr' rest) h
  | illegal rest w h => exact h ▸ illegalWord_recordAgrees (hr' rest) w
  | register rest n v h =>
    obtain ⟨-, -, status, record, -⟩ := hostWrite_frame (s.withHost rest) n v
    exact h ▸ recordAgrees_congr (hr' rest) record (by rw [status]) (by rw [status]) (by rw [status])
  | bs rest a b ha h => exact h ▸ recordAgrees_congr (hr' rest) rfl rfl rfl rfl
  | coef rest k v hk h => exact h ▸ recordAgrees_congr (hr' rest) rfl rfl rfl rfl
  | qm rest p i b h => exact h ▸ recordAgrees_congr (hr' rest) rfl rfl rfl rfl
  | sst rest n v hn h => exact h ▸ recordAgrees_congr (hr' rest) rfl rfl rfl rfl

/-! ### The frames of the commands -/

/-- An element of a memory that reads differently: the memory was changed, below its bound. -/
theorem lt_of_read_ne {w n a : Nat} {d : BitVec w} {m m' : Memory w} {P : Prop} (h : m' = m ∨ P ∧ DiffersBelow d n m m')
    (ha : Memory.read d m' a ≠ Memory.read d m a) : a < n ∧ P := by
  rcases h with rfl | ⟨hp, h⟩
  · exact absurd rfl ha
  · exact ⟨h.lt_of_read_ne ha, hp⟩

/-- A register of the fatal record that reads differently was written. -/
theorem fatalRecord_ne {s t : State} {r : Reg} (hr : r ∈ [Reg.fault, .faultPos]) (h : t.readReg r ≠ s.readReg r) :
    t.record.fault ≠ s.record.fault ∨ t.record.faultPos ≠ s.record.faultPos := by
  simp only [List.mem_cons, List.not_mem_nil, or_false] at hr
  rcases hr with rfl | rfl
  · exact .inl fun e => h (by simp [State.readReg, e])
  · exact .inr h

/-- Settles O60: `exec_frame`, read off field by field. -/
theorem commandFrames : Obligations.CommandFrames := by
  intro i s t hw h
  have f := exec_frame h
  obtain ⟨bs, coef, qm, qms, sst⟩ := f.memory hw
  refine ⟨f.cfg, f.host, fun a ha => ?_, fun k hk => ?_, fun p j _ hj => (lt_of_read_ne qm hj).2,
    fun p j _ hj => (lt_of_read_ne qms hj).2, fun n hn => lt_of_read_ne sst hn, f.regs,
    fun r hr hne => f.fatalRecord (fatalRecord_ne hr hne), f.halt, f.corrupt, f.abandon, f.eop, f.eos, f.slok, f.rej⟩
  · obtain ⟨hlt, hop, -⟩ := lt_of_read_ne bs ha
    exact ⟨hlt, hop⟩
  · obtain ⟨hlt, hop, -⟩ := lt_of_read_ne coef hk
    exact ⟨hlt, hop⟩

end Sys2Proof.Machine

/-! PROOFS. The command port and reset, what taking a fault leaves in the words of the tables of 60_exceptions.md R261 and R262, and the
register file as the host reads and writes it (10_state.md R20). -/

namespace Sys2Proof.Machine

-- In order and not side by side: pending proofs hold memory, and the joined text is near the limit of check.sh.
set_option Elab.async false

open Sys2Proof.Claims

/-! ### The command port and reset -/

/-- Settles O5: a step serves the head of the host's list, and a write of CMD decodes its word. -/
theorem stepRunsDecoded : Obligations.StepRunsDecoded := by
  intro s w i rest hhost hdec
  have hport : step s = command w (s.withHost rest) := by
    rw [step, hhost]
    rfl
  rw [hport, command, hdec]
  rfl

/-- Settles O14: register by register, and QM and QMS list no entry. -/
theorem resetRegisters : Obligations.ResetRegisters :=
  ⟨fun r => by cases r <;> rfl, fun _ _ _ => ⟨rfl, rfl⟩⟩

/-! ### Taking a fault -/

/-- The table of R261 and R262 gives every fault its code and subcode, and no others. -/
theorem mem_causes {r : Raise} {code sub : Nat} : (r, code, sub) ∈ causes ↔ code = r.code.toNat ∧ sub = r.subcode.toNat := by
  constructor
  · have table : ∀ c ∈ causes, c.2.1 = c.1.code.toNat ∧ c.2.2 = c.1.subcode.toNat := by decide
    exact fun h => table _ h
  · rintro ⟨rfl, rfl⟩
    cases r with
    | malformedHeader sub => cases sub <;> decide
    | corruptSliceData sub => cases sub <;> decide
    | bufferTooSmall sub => cases sub <;> decide
    | illegalCommand => decide
    | notRepresentable sub => cases sub <;> decide
    | divideByZero => decide
    | badOperand sub => cases sub <;> decide

/-- `CorruptSliceData` is the fault with code 2 (R261). -/
theorem recoverable_iff_code (r : Raise) : r.recoverable = true ↔ r.code.toNat = 2 := by
  cases r <;> simp [Raise.recoverable, Raise.code]

/-- The cursor of a fault record, by the command's opcode (R270). -/
theorem faultCursor_eq (i : Instr) (start t : State) :
    faultCursor (Instr.posKind i) start t = recordCursor i.opcode.toNat start t := by
  cases i <;> rfl

theorem enterFatal_eq (opcode : BitVec 8) (pos : Word) (r : Raise) (t : State) :
    enterFatal opcode pos r t = fatal opcode.toNat r.code.toNat r.subcode.toNat pos t := by
  rw [enterFatal, faultWord_eq]
  rfl

theorem enterConcealed_eq (opcode : BitVec 8) (pos : Word) (abandons : Bool) (r : Raise) (t : State) :
    enterConcealed opcode pos abandons r t = concealed opcode.toNat r.subcode.toNat pos abandons t := by
  rw [enterConcealed, logWord_eq, logXYWord_eq, countUp_eq]
  rfl

/-- Settles O9: the two fault entries, in the words of the tables. -/
theorem faultEntry : Obligations.FaultEntry := by
  refine ⟨fun r => ⟨_, _, mem_causes.2 ⟨rfl, rfl⟩⟩, fun i start t r code sub h => ?_⟩
  obtain ⟨rfl, rfl⟩ := mem_causes.1 h
  rcases takeFault_cases i start r t with ⟨hr, ht, e⟩ | ⟨hr, e⟩ <;> rw [e]
  · rw [if_pos ⟨(recoverable_iff_code r).1 hr, ht⟩, enterConcealed_eq, faultCursor_eq, abandons_eq]
  · rw [if_neg, enterFatal_eq, faultCursor_eq]
    rintro ⟨hc, ht⟩
    have hr' := (recoverable_iff_code r).2 hc
    simp [hr', ht] at hr

/-! ### The register file -/

/-- The number of a register names it (10_state.md R20). -/
theorem ofNumber_number (r : Reg) : Reg.ofNumber r.number = some r := by cases r <;> rfl

theorem ofNumber_eq_some {n : Nat} {r : Reg} (h : Reg.ofNumber n = some r) : r.number = n := by
  simpa using List.find?_some h

/-- Only CMD has number 0. -/
theorem number_ne_zero {r : Reg} (h : r ≠ .cmd) : r.number ≠ 0 := by
  cases r
  case cmd => exact absurd rfl h
  all_goals decide

/-- A write to a register other than CMD, as a step. -/
theorem step_writeReg {s : State} {n : Nat} {v : Word} {rest : List HostAction} (h : s.host = .writeReg n v :: rest) (hn : n ≠ 0) :
    step s = .next ((s.withHost rest).hostWrite n v) := by
  simp only [step, h, hostStep, if_neg hn]

/-- The low bits of a word, read back zero-extended. -/
theorem setWidth_setWidth_eq (v : Word) (n : Nat) : (v.setWidth n).setWidth 32 = BitVec.ofNat 32 (v.toNat % 2 ^ n) := by
  apply BitVec.eq_of_toNat_eq
  simp

/-- All bits of a word. -/
theorem ofNat_toNat_mod (v : Word) : BitVec.ofNat 32 (v.toNat % 4294967296) = v := by
  rw [Nat.mod_eq_of_lt v.isLt, BitVec.ofNat_toNat, BitVec.setWidth_eq]

/-- Bit 0 of a word, read back as a register of one bit. -/
theorem ofNat_bit_zero (v : Word) : BitVec.ofNat 32 v[0].toNat = BitVec.ofNat 32 (v.toNat % 2) := by
  have bit : v[0] = decide (v.toNat % 2 = 1) := by
    rw [← BitVec.getLsbD_eq_getElem, BitVec.getLsbD, Nat.testBit_zero]
  rcases Nat.mod_two_eq_zero_or_one v.toNat with h | h <;> simp [bit, h]

/-- A read-write register reads back its low bits, the two `i16` ones sign-extended (R20, R39). -/
theorem readReg_writeReg_same (s : State) {r : Reg} (h : r.access = .rw) (v : Word) :
    (s.writeReg r v).readReg r = if r = .fhWidth ∨ r = .fhHeight then (v.setWidth 16).signExtend 32
      else BitVec.ofNat 32 (v.toNat % 2 ^ r.width) := by
  revert h
  cases r <;> simp [Reg.access, State.readReg, State.writeReg, Reg.width, setWidth_setWidth_eq, ofNat_toNat_mod, ofNat_bit_zero]

/-- The field of the state that a register is stored in or is a view of; CMD is in none (R20, R28). -/
inductive RegField where
  | none | status | strict | record | val | cbd | cur | plane | fh | ph | sched | slice | ctx

/-- The registers of each field. -/
def RegField.regs : RegField → List Reg
  | .none => [.cmd]
  | .status => [.status]
  | .strict => [.ctrl]
  | .record => [.fault, .faultPos, .log, .logPos, .logXy, .corruptCnt]
  | .val => [.val]
  | .cbd => [.cbd, .cbgo, .cbgb, .cbrm]
  | .cur => [.bitpos, .bitend, .byteptr, .bsLen, .frameBase]
  | .plane => [.l2bps, .maxc, .scansel]
  | .fh => [.fhFramesize, .fhHdrsize, .fhVersion, .fhCreator, .fhWidth, .fhHeight, .fhFlags1, .fhColorHi, .fhColorLo, .fhFlags2,
      .fhPayload, .fhFrametype, .fhChromatype, .fhTff, .fhMbw]
  | .ph => [.phHdrsize, .phReserved, .phSlicecount, .phL2byte, .picMbh, .picBase, .phSpr]
  | .sched => [.slIdx, .slMbx, .slMby, .slCur, .slPtr]
  | .slice => [.slBase, .slSize, .slX, .slY, .slMbcount, .slHdrsize, .slQsraw, .qscale, .slYsize, .slUsize, .slVsize, .slL2bpsY,
      .slL2bpsC, .slPlane]
  | .ctx => [.ctxBlk, .ctxPrevcode, .ctxSign, .ctxPrevdc, .ctxPos, .ctxPrevrun, .ctxPrevlev]

/-- The field of a register. -/
def fieldOf : Reg → RegField
  | .cmd => .none
  | .status => .status
  | .ctrl => .strict
  | .fault | .faultPos | .log | .logPos | .logXy | .corruptCnt => .record
  | .val => .val
  | .cbd | .cbgo | .cbgb | .cbrm => .cbd
  | .bitpos | .bitend | .byteptr | .bsLen | .frameBase => .cur
  | .l2bps | .maxc | .scansel => .plane
  | .fhFramesize | .fhHdrsize | .fhVersion | .fhCreator | .fhWidth | .fhHeight | .fhFlags1 | .fhColorHi | .fhColorLo | .fhFlags2
  | .fhPayload | .fhFrametype | .fhChromatype | .fhTff | .fhMbw => .fh
  | .phHdrsize | .phReserved | .phSlicecount | .phL2byte | .picMbh | .picBase | .phSpr => .ph
  | .slIdx | .slMbx | .slMby | .slCur | .slPtr => .sched
  | .slBase | .slSize | .slX | .slY | .slMbcount | .slHdrsize | .slQsraw | .qscale | .slYsize | .slUsize | .slVsize | .slL2bpsY
  | .slL2bpsC | .slPlane => .slice
  | .ctxBlk | .ctxPrevcode | .ctxSign | .ctxPrevdc | .ctxPos | .ctxPrevrun | .ctxPrevlev => .ctx

theorem mem_regs_fieldOf (r : Reg) : r ∈ (fieldOf r).regs := by cases r <;> decide

/-- Two states that agree on a field. -/
def RegField.Agrees (s t : State) : RegField → Prop
  | .none => True
  | .status => t.status = s.status
  | .strict => t.strict = s.strict
  | .record => t.record = s.record
  | .val => t.val = s.val
  | .cbd => t.cbd = s.cbd
  | .cur => t.cur = s.cur
  | .plane => t.plane = s.plane
  | .fh => t.fh = s.fh
  | .ph => t.ph = s.ph
  | .sched => t.sched = s.sched
  | .slice => t.slice = s.slice
  | .ctx => t.ctx = s.ctx

/-- A register reads what its field holds. -/
theorem readReg_of_agrees {s t : State} {r : Reg} (h : (fieldOf r).Agrees s t) : t.readReg r = s.readReg r := by
  revert h
  cases r <;> simp +contextual [fieldOf, RegField.Agrees, State.readReg]

/-- A write of a register reaches its own field only. -/
theorem writeReg_agrees (s : State) {r : Reg} {p : RegField} (h : p ≠ fieldOf r) (v : Word) : p.Agrees s (s.writeReg r v) := by
  revert h
  cases p <;> cases r <;> first | exact fun _ => rfl | exact fun _ => trivial | exact fun h => absurd rfl h

/-- Within its field it reaches its own register and the views of it. -/
theorem readReg_writeReg_sameField (s : State) (r : Reg) (v : Word) :
    ∀ r' ∈ (fieldOf r).regs, r' ≠ r → viewOf r' ≠ some r → (s.writeReg r v).readReg r' = s.readReg r' := by
  cases r <;> simp only [fieldOf, RegField.regs, List.forall_mem_cons, List.not_mem_nil, false_imp_iff, implies_true, and_true] <;>
    and_intros <;>
    first | exact fun _ _ => rfl | exact fun h => absurd rfl h | exact fun _ h => absurd rfl h

/-- A write of a register reaches no other one but its views (R29, R34). -/
theorem readReg_writeReg_other (s : State) {r r' : Reg} (hne : r' ≠ r) (hview : viewOf r' ≠ some r) (v : Word) :
    (s.writeReg r v).readReg r' = s.readReg r' := by
  by_cases hp : fieldOf r' = fieldOf r
  · exact readReg_writeReg_sameField s r v r' (hp ▸ mem_regs_fieldOf r') hne hview
  · exact readReg_of_agrees (writeReg_agrees s hp v)

/-- A write of a read-only register stores nothing (R20). -/
theorem writeReg_of_ro (s : State) {r : Reg} (h : r.access = .ro) (v : Word) : s.writeReg r v = s := by
  cases r <;> first | rfl | cases h

/-- A write of a read-only register, or of a reserved number, stores nothing (R20). -/
theorem hostWrite_of_ro (s : State) {n : Nat} (h : ∀ r : Reg, r.number = n → r.access = .ro) (v : Word) : s.hostWrite n v = s := by
  unfold State.hostWrite
  split
  · rename_i r hr
    exact writeReg_of_ro s (h r (ofNumber_eq_some hr)) v
  · rfl

/-- A reserved number reads 0 (R20). -/
theorem hostRead_reserved (s : State) {n : Nat} (h : ∀ r : Reg, r.number ≠ n) : s.hostRead n = 0 := by
  unfold State.hostRead
  split
  · rename_i r hr
    exact absurd (ofNumber_eq_some hr) (h r)
  · rfl

theorem hostRead_number (s : State) (r : Reg) : s.hostRead r.number = s.readReg r := by
  rw [State.hostRead, ofNumber_number]

/-! ### STATUS and the views -/

/-- The bits of STATUS (R25). -/
theorem getLsbD_statusWord (f : Status) (k : Nat) :
    f.word.getLsbD k = [f.halt, f.corrupt, f.abandon, f.eop, f.eos, f.slok, f.rej].getD k false := by
  have table : ∀ (a b c d e f g : Bool) (k : Fin 7),
      (Status.word ⟨a, b, c, d, e, f, g⟩).getLsbD k = [a, b, c, d, e, f, g].getD k false := by decide
  by_cases hk : k < 7
  · exact table _ _ _ _ _ _ _ ⟨k, hk⟩
  · rw [BitVec.getLsbD_of_ge _ _ (by omega), List.getD_eq_default _ _ (by simpa using hk)]

theorem getLsbD_hostRead_status (s : State) (k : Nat) :
    (s.hostRead 1).getLsbD k =
      [s.status.halt, s.status.corrupt, s.status.abandon, s.status.eop, s.status.eos, s.status.slok, s.status.rej].getD k false := by
  have hread : s.hostRead 1 = s.status.word.setWidth 32 := hostRead_number s .status
  rw [hread, BitVec.getLsbD_setWidth, getLsbD_statusWord]
  by_cases hk : k < 32
  · simp [hk]
  · rw [List.getD_eq_default _ _ (by simp; omega), Bool.and_false]

theorem frameType_eq (flags1 : BitVec 8) : frameType flags1 = flags1.toNat / 4 % 4 := by
  rw [frameType, BitVec.extractLsb'_toNat, Nat.shiftRight_eq_div_pow]

theorem chromaType_eq (flags1 : BitVec 8) : chromaType flags1 = flags1.toNat / 64 := by
  rw [chromaType, BitVec.extractLsb'_toNat, Nat.shiftRight_eq_div_pow]
  omega

theorem mbw_eq (fh : FrameHeader) : fh.mbw = (fh.width.toNat + 15) / 16 := by
  rw [FrameHeader.mbw, Nat.shiftRight_eq_div_pow]

/-- The views of FH_FLAGS1 and FH_WIDTH (R34). -/
theorem hostRead_views (s : State) :
    (s.hostRead 43).toNat = s.fh.flags1.toNat / 4 % 4 ∧ (s.hostRead 44).toNat = s.fh.flags1.toNat / 64 ∧
    (s.hostRead 45).toNat = (if s.fh.flags1.toNat / 4 % 4 = 1 then 1 else 0) ∧
    (s.hostRead 46).toNat = (s.fh.width.toNat + 15) / 16 := by
  have h43 : s.hostRead 43 = BitVec.ofNat 32 (frameType s.fh.flags1) := hostRead_number s .fhFrametype
  have h44 : s.hostRead 44 = BitVec.ofNat 32 (chromaType s.fh.flags1) := hostRead_number s .fhChromatype
  have h45 : s.hostRead 45 = BitVec.ofNat 32 (topFieldFirst s.fh.flags1).toNat := hostRead_number s .fhTff
  have h46 : s.hostRead 46 = BitVec.ofNat 32 s.fh.mbw := hostRead_number s .fhMbw
  rw [h43, h44, h45, h46, topFieldFirst, frameType_eq, chromaType_eq, mbw_eq]
  simp only [BitVec.toNat_ofNat]
  refine ⟨by omega, by omega, ?_, by omega⟩
  split <;> simp [*]

/-- Settles O16: a write in its own register, in the others and in the memories; then read-only and reserved numbers; then what STATUS
and the views read. -/
theorem hostWriteReadsBack : Obligations.HostWriteReadsBack := by
  refine ⟨fun s r v rest hrw hhost => ?_, fun s n v rest hhost hro => ⟨?_, hostRead_reserved s⟩, fun s => ?_⟩
  · have hcmd : r ≠ .cmd := by rintro rfl; cases hrw
    have hwrite : (s.withHost rest).hostWrite r.number v = (s.withHost rest).writeReg r v := by
      rw [State.hostWrite, ofNumber_number]
    obtain ⟨cfg, host, -, -, bs, coef, qm, qms, sst⟩ := writeReg_frame (s.withHost rest) r v
    refine ⟨_, step_writeReg hhost (number_ne_zero hcmd), ?_, fun r' hne hview => ?_, ?_⟩ <;> rw [hwrite]
    · rw [hostRead_number, readReg_writeReg_same _ hrw]
    · rw [readReg_writeReg_other _ hne hview]
      cases r' <;> rfl
    · exact ⟨cfg, host, bs, coef, qm, qms, sst⟩
  · have hn : n ≠ 0 := by rintro rfl; cases hro .cmd rfl
    rw [step_writeReg hhost hn, hostWrite_of_ro _ hro]
    rfl
  · obtain ⟨frametype, chromatype, tff, mbw⟩ := hostRead_views s
    exact ⟨hostRead_number s .cmd, getLsbD_hostRead_status s, frametype, chromatype, tff, mbw⟩

end Sys2Proof.Machine

/-! PROOFS. The memories as the host writes and reads them (20_memory.md R70, R89), and the one command of the entropy coder that stores to
BS under a codebook (R78; 41_entropy_coder.md R153, R154). -/

namespace Sys2Proof.Machine

-- In order and not side by side: pending proofs hold memory, and the joined text is near the limit of check.sh.
set_option Elab.async false

open Sys2Proof.Claims

/-! ### The host's stores, element by element -/

/-- A memory of `n` elements as the host reads it, after a store inside it: the stored element at its address, every other as before,
and still nothing outside the memory. -/
theorem Memory.sizedRead_write {w n a : Nat} {d : BitVec w} {m : Memory w} (hm : Memory.wf d m) (ha : a < n) (v : BitVec w) (x : Nat) :
    (if x < n then some (Memory.read d (Memory.write d m a v) x) else none) =
      if x = a then some v else if x < n then some (Memory.read d m x) else none := by
  by_cases hx : x = a
  · rw [if_pos (hx ▸ ha), if_pos hx, Memory.read_write d hm, if_pos hx]
  · rw [if_neg hx, Memory.read_write d hm, if_neg hx]

theorem hostReadBs_withBs {s : State} (hm : Memory.wf bsUnlisted s.bs) {a : Nat} (ha : a < s.cfg.bsBytes) (b : Byte) (x : Nat) :
    (s.withBs (bsSetByte s.bs a b)).hostReadBs x = if x = a then some b else s.hostReadBs x :=
  Memory.sizedRead_write hm ha b x

theorem hostReadCoef_setCoef {s : State} (hm : Memory.wf coefUnlisted s.coef) {k : Nat} (hk : k < 64 * 2 ^ s.cfg.log2MaxBps) (v : Word)
    (x : Nat) : (s.setCoef k v).hostReadCoef x = if x = k then some v else s.hostReadCoef x :=
  Memory.sizedRead_write hm hk v x

theorem hostReadSst_setSst {s : State} (hm : Memory.wf sstUnlisted s.sst) {n : Nat} (hn : n < s.cfg.maxSlices) (v : BitVec 16)
    (x : Nat) : (s.setSst n v).hostReadSst x = if x = n then some v else s.hostReadSst x :=
  Memory.sizedRead_write hm hn v x

theorem QMatrix.number_inj {p q : QMatrix} : QMatrix.number q = QMatrix.number p ↔ q = p := by
  cases p <;> cases q <;> decide

/-- No two entries of the matrices share a place in QM: an index is below 64 (10_state.md R42). -/
theorem matrixIndex_inj {p q : QMatrix} {i j : BitVec 6} : matrixIndex q j.toNat = matrixIndex p i.toNat ↔ q = p ∧ j = i := by
  have hi := i.isLt
  have hj := j.isLt
  rw [matrixIndex, matrixIndex, ← QMatrix.number_inj, ← BitVec.toNat_inj]
  omega

theorem hostReadQm_withQm {s : State} (hm : Memory.wf qmUnlisted s.qm) (p : QMatrix) (i : BitVec 6) (b : Byte) (q : QMatrix)
    (j : BitVec 6) : (s.withQm (Memory.write qmUnlisted s.qm (matrixIndex p i.toNat) b)).hostReadQm q j =
      if q = p ∧ j = i then b else s.hostReadQm q j := by
  have hread := Memory.read_write qmUnlisted hm (matrixIndex p i.toNat) (matrixIndex q j.toNat) b
  simp only [matrixIndex_inj] at hread
  exact hread

/-! ### The step that serves one action of the host -/

/-- With no action pending a step is idle (60_exceptions.md R287). -/
theorem step_idle {s : State} (h : s.host = []) : step s = .next s := by
  rw [step, h]

/-- A step serves the head of the host's list, on the state that holds the rest of it. -/
theorem step_serves {s : State} {a : HostAction} {rest : List HostAction} (h : s.host = a :: rest) :
    step s = hostStep a (s.withHost rest) := by
  rw [step, h]

/-- Settles O17: the idle step, then each memory in turn: inside it the store and what reads after it, outside it the fault; last the
host's reads outside a memory. -/
theorem hostActions : Obligations.HostActions := by
  refine ⟨fun s => step_idle, fun s a b rest hw h => ?bs, fun s k v rest hw h => ?coef, fun s p i b rest hw h => ?qm,
    fun s n v rest hw h => ?sst, fun s x => ?reads⟩
  case bs =>
    rw [step_serves h]
    split
    · exact ⟨_, if_pos ‹_›, rfl, hostReadBs_withBs (s := s.withHost rest) hw.bs ‹_› b⟩
    · exact if_neg ‹_›
  case coef =>
    rw [step_serves h]
    split
    · exact ⟨_, if_pos ‹_›, rfl, hostReadCoef_setCoef (s := s.withHost rest) hw.coef ‹_› v⟩
    · exact if_neg ‹_›
  case qm =>
    rw [step_serves h]
    exact ⟨_, rfl, rfl, hostReadQm_withQm (s := s.withHost rest) hw.qm p i b⟩
  case sst =>
    rw [step_serves h]
    split
    · exact ⟨_, if_pos ‹_›, rfl, hostReadSst_setSst (s := s.withHost rest) hw.sst ‹_› v⟩
    · exact if_neg ‹_›
  case reads =>
    simp only [← Nat.not_lt, ite_not]
    exact ⟨rfl, rfl, rfl⟩

/-! ### Storing a codeword -/

/-- The writer on a value with a codeword and room for it: the codeword stored, `BITPOS` past it (41_entropy_coder.md R153). -/
theorem writeCodeword_of_isCode {cb : Codebook} {s : State} {q n x : Nat} {v : Int} (hc : IsCode cb q n x v)
    (hwf : Memory.wf bsUnlisted s.bs) (hroom : s.cur.bitpos.toNat + (q + 1 + n) ≤ s.cur.bitend.toNat) :
    ∃ bs, writeCodeword cb v s = .ok () ((s.advance (q + 1 + n)).withBs bs) ∧
      StoresBits s.bs bs s.cur.bitpos.toNat (codeword q n x) ∧ Memory.wf bsUnlisted bs := by
  obtain ⟨bs, hwrite, hstores, hwf'⟩ := writeBits_codeword hwf (x := x) hroom
  refine ⟨bs, ?_, hstores, hwf'⟩
  simp only [writeCodeword, codewordOf_of_isCode hc]
  rw [if_neg (by omega), hwrite]

/-- WRCW on such a value, below legal cursors (R150, R154). -/
theorem exec_wrcw_of_isCode {s : State} {q n x : Nat} (hrun : Running s) (hcur : CursorsLegal s) (hwf : Memory.wf bsUnlisted s.bs)
    (hc : IsCode (codebookOfCbd s.cbd) q n x s.val.toInt) (hroom : s.cur.bitpos.toNat + (q + 1 + n) ≤ s.cur.bitend.toNat) :
    ∃ bs, exec .wrcw s = .next ((s.advance (q + 1 + n)).withBs bs) ∧
      StoresBits s.bs bs s.cur.bitpos.toNat (codeword q n x) ∧ Memory.wf bsUnlisted bs := by
  obtain ⟨bs, hwrite, hstores, hwf'⟩ := writeCodeword_of_isCode hc hwf hroom
  refine ⟨bs, ?_, hstores, hwf'⟩
  have hbody : wrcwBody s = .ok () ((s.advance (q + 1 + n)).withBs bs) := by
    rw [wrcwBody, checkCursors_ok hcur, Res.bind_ok, hwrite]
  exact runCommand_ok hrun hbody

/-- Settles O24: the bits of VAL's codeword go to BS at BITPOS, and the cursor moves by their number. -/
theorem wrcwWritesCodeword : Obligations.WrcwWritesCodeword := by
  rintro s _ hrun hcur hw ⟨q, n, x, hc, rfl⟩ hroom
  rw [codeword_length] at hroom ⊢
  obtain ⟨bs, hexec, hstores, -⟩ := exec_wrcw_of_isCode hrun hcur hw.bs hc hroom
  exact ⟨_, hexec, rfl, hstores⟩

end Sys2Proof.Machine

/-! PROOFS. The decoder and the encoder (30_encoding.md R100 to R104): each format as the operand bits it accepts, `decode` as the
inverse of `encode` on well-formed commands, and the opcode map. -/

namespace Sys2Proof.Machine

-- In order and not side by side: pending proofs hold memory, and the joined text is near the limit of check.sh.
set_option Elab.async false

open Sys2Proof.Claims

/-! ### The fields of a word -/

/-- Bits 23:0 of a word, the operands in every format (R101). -/
def operandField (w : Word) : BitVec 24 := w.extractLsb' 0 24

/-- A word is its opcode over its operands. -/
theorem opcodeField_append_operandField (w : Word) : opcodeField w ++ operandField w = w :=
  BitVec.extractLsb'_append_extractLsb'

@[simp] theorem opcodeField_append (x : BitVec 8) (y : BitVec 24) : opcodeField (x ++ y) = x :=
  BitVec.extractLsb'_append_eq_left

@[simp] theorem operandField_append (x : BitVec 8) (y : BitVec 24) : operandField (x ++ y) = y :=
  BitVec.extractLsb'_append_eq_right

/-- A field of a word is a concatenation when its two parts are. -/
theorem extractLsb'_eq_append_iff (w : Word) (a m n : Nat) {x : BitVec m} {y : BitVec n} :
    w.extractLsb' a (m + n) = x ++ y ↔ w.extractLsb' (a + n) m = x ∧ w.extractLsb' a n = y := by
  rw [← BitVec.extractLsb'_append_extractLsb'_eq_extractLsb' rfl]
  refine ⟨fun h => ⟨?_, ?_⟩, fun ⟨hx, hy⟩ => hx ▸ hy ▸ rfl⟩
  · simpa only [BitVec.extractLsb'_append_eq_left] using congrArg (BitVec.extractLsb' n m) h
  · simpa only [BitVec.extractLsb'_append_eq_right] using congrArg (BitVec.extractLsb' 0 n) h

/-! ### The operands as bits (R102) -/

theorem eq_bit_iff {w : Word} {p : QMatrix} : w.extractLsb' 0 1 = p.bit ↔ QMatrix.ofBit (w.getLsbD 0) = p := by
  have hbit : w.extractLsb' 0 1 = BitVec.ofBool (w.getLsbD 0) := by
    apply BitVec.eq_of_getLsbD_eq
    intro k hk
    simp [show k = 0 by omega]
  rw [hbit]
  cases w.getLsbD 0 <;> cases p <;> decide

theorem eq_bits_iff {x : BitVec 2} {c : SymClass} : x = c.bits ↔ SymClass.ofBits x = c := by
  revert x
  cases c <;> decide

/-! ### The formats (R101): the commands each reads, and from which operand bits -/

theorem formatN_eq_ok_iff {w : Word} {i j : Instr} : formatN w i = .ok j ↔ j = i ∧ operandField w = 0 := by
  unfold formatN operandField
  split <;> simp_all [eq_comm]

theorem formatP_eq_ok_iff {w : Word} {i : QMatrix → Instr} {j : Instr} :
    formatP w i = .ok j ↔ ∃ p, j = i p ∧ operandField w = (0 : BitVec 23) ++ p.bit := by
  have fields (p : QMatrix) : operandField w = (0 : BitVec 23) ++ p.bit ↔
      w.extractLsb' 1 23 = 0 ∧ QMatrix.ofBit (w.getLsbD 0) = p :=
    (extractLsb'_eq_append_iff w 0 23 1).trans (and_congr_right' eq_bit_iff)
  simp only [fields, formatP]
  split <;> simp_all [eq_comm]

theorem formatK_eq_ok_iff {w : Word} {i : BitVec 2 → Instr} {j : Instr} :
    formatK w i = .ok j ↔ ∃ k, planeLegal k = true ∧ j = i k ∧ operandField w = (0 : BitVec 22) ++ k := by
  have fields (k : BitVec 2) : operandField w = (0 : BitVec 22) ++ k ↔ w.extractLsb' 2 22 = 0 ∧ w.extractLsb' 0 2 = k :=
    extractLsb'_eq_append_iff w 0 22 2
  simp only [fields, formatK]
  split
  · split
    · exact ⟨fun h => ⟨_, ‹_›, (Except.ok.inj h).symm, ‹_›, rfl⟩, fun ⟨_, _, hj, _, hk⟩ => hj ▸ hk ▸ rfl⟩
    · exact ⟨fun h => (by cases h), fun ⟨_, hk, _, _, e⟩ => absurd (e ▸ hk) ‹_›⟩
  · simp_all

theorem formatC_eq_ok_iff {w : Word} {i : SymClass → BitVec 8 → Instr} {j : Instr} :
    formatC w i = .ok j ↔ ∃ c x, j = i c x ∧ operandField w = (0 : BitVec 14) ++ c.bits ++ x := by
  have fields (c : SymClass) (x : BitVec 8) : operandField w = (0 : BitVec 14) ++ c.bits ++ x ↔
      (w.extractLsb' 10 14 = 0 ∧ SymClass.ofBits (w.extractLsb' 8 2) = c) ∧ w.extractLsb' 0 8 = x :=
    (extractLsb'_eq_append_iff w 0 16 8).trans
      (and_congr_left' ((extractLsb'_eq_append_iff w 8 14 2).trans (and_congr_right' eq_bits_iff)))
  simp only [fields, formatC]
  split <;> simp_all [eq_comm]

theorem formatI_eq_ok_iff {w : Word} {i : QMatrix → BitVec 6 → Instr} {j : Instr} :
    formatI w i = .ok j ↔ ∃ p x, j = i p x ∧ operandField w = (0 : BitVec 10) ++ x ++ (0 : BitVec 7) ++ p.bit := by
  have fields (p : QMatrix) (x : BitVec 6) : operandField w = (0 : BitVec 10) ++ x ++ (0 : BitVec 7) ++ p.bit ↔
      ((w.extractLsb' 14 10 = 0 ∧ w.extractLsb' 8 6 = x) ∧ w.extractLsb' 1 7 = 0) ∧ QMatrix.ofBit (w.getLsbD 0) = p :=
    (extractLsb'_eq_append_iff w 0 23 1).trans (and_congr ((extractLsb'_eq_append_iff w 1 16 7).trans
      (and_congr_left' (extractLsb'_eq_append_iff w 8 10 6))) eq_bit_iff)
  simp only [fields, formatI]
  split <;> simp_all [eq_comm]

/-! ### Decoding and encoding -/

/-- What decodes is well formed, and its opcode and operand bits are those of the word (R101, R103). -/
theorem decode_fields {w : Word} {i : Instr} (h : decode w = .ok i) :
    WellFormed i = true ∧ i.opcode.toNat = (opcodeField w).toNat ∧ i.operandBits = operandField w := by
  unfold decode at h
  split at h
  all_goals first
    | obtain ⟨rfl, hw⟩ := formatN_eq_ok_iff.1 h
      exact ⟨rfl, Eq.symm ‹_›, hw.symm⟩
    | obtain ⟨p, rfl, hw⟩ := formatP_eq_ok_iff.1 h
      exact ⟨rfl, Eq.symm ‹_›, hw.symm⟩
    | obtain ⟨k, hk, rfl, hw⟩ := formatK_eq_ok_iff.1 h
      exact ⟨hk, Eq.symm ‹_›, hw.symm⟩
    | obtain ⟨c, x, rfl, hw⟩ := formatC_eq_ok_iff.1 h
      exact ⟨rfl, Eq.symm ‹_›, hw.symm⟩
    | obtain ⟨p, x, rfl, hw⟩ := formatI_eq_ok_iff.1 h
      exact ⟨rfl, Eq.symm ‹_›, hw.symm⟩
    | cases h

@[simp] theorem opcodeField_encode (i : Instr) : opcodeField (encode i) = i.opcode := opcodeField_append _ _

@[simp] theorem operandField_encode (i : Instr) : operandField (encode i) = i.operandBits := operandField_append _ _

theorem encode_of_decode {w : Word} {i : Instr} (h : decode w = .ok i) : encode i = w := by
  obtain ⟨-, hop, hbits⟩ := decode_fields h
  rw [encode, BitVec.eq_of_toNat_eq hop, hbits, opcodeField_append_operandField]

/-- Settles O2: the word's opcode and operand bits are those of what it decodes to. -/
theorem encodeDecode : Obligations.EncodeDecode :=
  fun _ _ h => ⟨encode_of_decode h, (decode_fields h).1⟩

/-- Settles O1: by the command's format, whose operands stand in the word's operand bits. -/
theorem decodeEncode : Obligations.DecodeEncode := by
  intro i hi
  have hop : (opcodeField (encode i)).toNat = i.opcode.toNat := by rw [opcodeField_encode]
  have hbits := operandField_encode i
  generalize encode i = w at hop hbits
  unfold decode
  rw [hop]
  cases i with
  | ldcb c x => exact formatC_eq_ok_iff.2 ⟨c, x, rfl, hbits⟩
  | selpl k => exact formatK_eq_ok_iff.2 ⟨k, hi, rfl, hbits⟩
  | dcsym p | rddc p | acsym p | rdac p | qntp p => exact formatP_eq_ok_iff.2 ⟨p, rfl, hbits⟩
  | deq p x | qnt p x => exact formatI_eq_ok_iff.2 ⟨p, x, rfl, hbits⟩
  | _ => exact formatN_eq_ok_iff.2 ⟨rfl, hbits⟩

/-- Settles O4: each word evaluated. -/
theorem decodeSanityWords : Obligations.DecodeSanityWords :=
  ⟨rfl, rfl, rfl, rfl, rfl, rfl, rfl, rfl, rfl, rfl, rfl, rfl, rfl⟩

/-! ### The opcode map (R103) -/

theorem matches_iff {r : OpcodeRow} {w : Word} : r.matches w = true ↔ w &&& r.mask = r.pattern := by
  simp [OpcodeRow.matches]

/-- A field that the mask covers is read from the pattern. -/
theorem extractLsb'_of_and {w m p : Word} (h : w &&& m = p) {a n : Nat} (hm : m.extractLsb' a n = BitVec.allOnes n) :
    w.extractLsb' a n = p.extractLsb' a n := by
  rw [← h, BitVec.extractLsb'_and, hm, BitVec.and_allOnes]

/-- A command of each row of the map, its operands zero, in the map's order. -/
def rowCommands : List Instr := [
  .nop, .srst, .clrf, .ldcb .firstDC 0, .rdcw, .wrcw, .zzdec, .zzenc, .alignw, .probe, .pfrm, .ppic, .nxsl, .pslc, .selpl 0,
  .wfrm, .wpic, .wslc, .dcinit, .dcsym .luma, .rddc .luma, .acinit, .acsym .luma, .rdac .luma, .wrdc, .wrac, .foldq, .scaleq,
  .deq .luma 0, .qnt .luma 0, .qntp .luma]

/-- A command with its operands zero. -/
def Instr.rowCommand : Instr → Instr
  | .ldcb _ _ => .ldcb .firstDC 0
  | .selpl _ => .selpl 0
  | .dcsym _ => .dcsym .luma
  | .rddc _ => .rddc .luma
  | .acsym _ => .acsym .luma
  | .rdac _ => .rdac .luma
  | .qntp _ => .qntp .luma
  | .deq _ _ => .deq .luma 0
  | .qnt _ _ => .qnt .luma 0
  | i => i

theorem rowCommand_mem (i : Instr) : Instr.rowCommand i ∈ rowCommands := by cases i <;> simp [Instr.rowCommand, rowCommands]

/-- A row of the map is told by the opcode and the format, and the operands belong to neither. -/
theorem rowCommand_row (i : Instr) : (Instr.rowCommand i).pattern = i.pattern ∧ (Instr.rowCommand i).mask = i.mask := by
  cases i <;> exact ⟨rfl, rfl⟩

/-- The rows of the map are the patterns and masks of their commands. -/
theorem rows_eq : opcodeMap.map (fun r => (r.pattern, r.mask)) = rowCommands.map fun i => (i.pattern, i.mask) := rfl

theorem exists_command_of_row {r : OpcodeRow} (hr : r ∈ opcodeMap) : ∃ i : Instr, r.pattern = i.pattern ∧ r.mask = i.mask := by
  obtain ⟨i, -, hi⟩ := List.mem_map.1 (rows_eq ▸ List.mem_map_of_mem hr)
  obtain ⟨hp, hm⟩ := Prod.mk.inj hi
  exact ⟨i, hp.symm, hm.symm⟩

theorem exists_row_of_command (i : Instr) : ∃ r ∈ opcodeMap, r.pattern = i.pattern ∧ r.mask = i.mask := by
  obtain ⟨r, hr, h⟩ := List.mem_map.1 (rows_eq ▸ List.mem_map_of_mem (rowCommand_mem i))
  obtain ⟨hp, hm⟩ := Prod.mk.inj h
  obtain ⟨hp', hm'⟩ := rowCommand_row i
  exact ⟨r, hr, hp.trans hp', hm.trans hm'⟩

/-- Every mask covers the opcode bits. -/
theorem opcodeField_mask (i : Instr) : opcodeField i.mask = BitVec.allOnes 8 := by
  cases i <;> (simp only [Instr.mask]; decide)

theorem opcodeField_of_and {w : Word} {i : Instr} (h : w &&& i.mask = i.pattern) : opcodeField w = i.opcode :=
  (extractLsb'_of_and h (opcodeField_mask i)).trans (opcodeField_append _ _)

/-- No two rows have one opcode. -/
theorem row_eq_of_opcode {r r' : OpcodeRow} (hr : r ∈ opcodeMap) (hr' : r' ∈ opcodeMap)
    (h : opcodeField r.pattern = opcodeField r'.pattern) : r = r' :=
  List.inj_on_of_nodup_map (f := fun r : OpcodeRow => opcodeField r.pattern) (by decide) hr hr' h

/-- A word that matches a row has the row's opcode. -/
theorem opcodeField_of_matches {r : OpcodeRow} (hr : r ∈ opcodeMap) {w : Word} (h : r.matches w = true) :
    opcodeField w = opcodeField r.pattern := by
  obtain ⟨i, hp, hm⟩ := exists_command_of_row hr
  rw [matches_iff, hp, hm] at h
  rw [opcodeField_of_and h, hp, Instr.pattern, opcodeField_append]

/-- Under its mask a command's word is its pattern, by the law of each command. -/
theorem encode_and_mask (i : Instr) : encode i &&& i.mask = i.pattern := by
  open Laws.EncodedWordMatchesItsRow in
  cases i with
  | ldcb c x => exact ldcb c x
  | selpl k => exact selpl k
  | dcsym p => exact dcsym p
  | rddc p => exact rddc p
  | acsym p => exact acsym p
  | rdac p => exact rdac p
  | qntp p => exact qntp p
  | deq p x => exact deq p x
  | qnt p x => exact qnt p x
  | _ => rfl

/-- A field that the mask covers below the opcode is zero: it is reserved (R101). -/
theorem reserved_of_and {w : Word} {i : Instr} (h : w &&& i.mask = i.pattern) (a n : Nat) (hn : a + n ≤ 24)
    (hm : i.mask.extractLsb' a n = BitVec.allOnes n) : w.extractLsb' a n = 0 := by
  rw [extractLsb'_of_and h hm, Instr.pattern, BitVec.extractLsb'_append_eq_of_add_le hn]
  exact BitVec.extractLsb'_zero

/-- A word that matches a command's row decodes, but for SELPL with `k = 3` (R104). -/
theorem decodes_of_and {w : Word} {i : Instr} (h : w &&& i.mask = i.pattern) (hne : w ≠ 0x25000003) :
    ∃ j, decode w = .ok j := by
  have hop : (opcodeField w).toNat = i.opcode.toNat := congrArg BitVec.toNat (opcodeField_of_and h)
  have reserved := reserved_of_and h
  unfold decode
  rw [hop]
  cases i with
  | ldcb c x => exact ⟨_, if_pos (reserved 10 14 (by decide) (by simp only [Instr.mask]; decide))⟩
  | selpl k =>
    have hlow : w.extractLsb' 2 22 = 0 := reserved 2 22 (by decide) (by simp only [Instr.mask]; decide)
    refine ⟨_, (if_pos hlow).trans (if_pos ?_)⟩
    rw [planeLegal, bne_iff_ne]
    intro hk
    apply hne
    rw [← opcodeField_append_operandField w, opcodeField_of_and h,
      show operandField w = (0 : BitVec 22) ++ (3 : BitVec 2) from (extractLsb'_eq_append_iff w 0 22 2).2 ⟨hlow, hk⟩]
    exact (by decide : (0x25 : BitVec 8) ++ ((0 : BitVec 22) ++ (3 : BitVec 2)) = (0x25000003 : Word))
  | dcsym p | rddc p | acsym p | rdac p | qntp p =>
    exact ⟨_, if_pos (reserved 1 23 (by decide) (by simp only [Instr.mask]; decide))⟩
  | deq p x | qnt p x =>
    exact ⟨_, if_pos ⟨reserved 14 10 (by decide) (by simp only [Instr.mask]; decide),
      reserved 1 7 (by decide) (by simp only [Instr.mask]; decide)⟩⟩
  | _ => exact ⟨_, if_pos (reserved 0 24 (by decide) (by simp only [Instr.mask]; decide))⟩

/-- Settles O3: rows are told apart by their opcodes; a matching word decodes by its row's format, and a decoded one is an encoding. -/
theorem decodeMatchesOpcodeMap : Obligations.DecodeMatchesOpcodeMap := by
  intro w
  have row {i : Instr} (h : decode w = .ok i) : w &&& i.mask = i.pattern := encode_of_decode h ▸ encode_and_mask i
  refine ⟨fun r hr r' hr' h h' => ?_, ⟨fun ⟨i, h⟩ => ⟨?_, ?_⟩, fun ⟨⟨r, hr, h⟩, hne⟩ => ?_⟩, fun i h =>
    ⟨row h, exists_row_of_command i⟩⟩
  · exact row_eq_of_opcode hr hr' ((opcodeField_of_matches hr h).symm.trans (opcodeField_of_matches hr' h'))
  · obtain ⟨r, hr, hp, hm⟩ := exists_row_of_command i
    exact ⟨r, hr, matches_iff.2 (hp ▸ hm ▸ row h)⟩
  · rintro rfl
    cases h
  · obtain ⟨i, hp, hm⟩ := exists_command_of_row hr
    exact decodes_of_and (i := i) (hp ▸ hm ▸ matches_iff.1 h) hne

/-! ### Words that are no command (R104) -/

/-- Settles O6: the step serves the write of CMD, whose word is refused. -/
theorem illegalWordFaults : Obligations.IllegalWordFaults := by
  intro s w e rest hhost hdec hrun
  have hop : (opcodeField w).toNat = w.toNat / 2 ^ 24 := by
    rw [opcodeField, BitVec.extractLsb'_toNat, Nat.shiftRight_eq_div_pow]
    have := w.isLt
    omega
  have hserve : step s = command w (s.withHost rest) := by
    rw [step_serves hhost]
    rfl
  have hhalt : ¬(s.withHost rest).status.halt = true := by simp [hrun]
  rw [hserve, command, hdec]
  simp only [illegalWord, if_neg hhalt, enterFatal_eq, hop]
  rfl

end Sys2Proof.Machine

/-! PROOFS. Reading one codeword (41_entropy_coder.md R151, R152): what the reader answers, and exactly when. -/

namespace Sys2Proof.Machine

-- In order and not side by side: pending proofs hold memory, and the joined text is near the limit of check.sh.
set_option Elab.async false

open Sys2Proof.Claims

/-- The reader on a bit string that is a codeword below `BITEND` (R151). -/
theorem readCodeword_of_codes {cb : Codebook} {s : State} {v : Int} {l : List Bool} (hc : Codes cb v l)
    (hb : holdsBits s.bs s.cur.bitpos.toNat l = true) (hr : s.cur.bitpos.toNat + l.length ≤ s.cur.bitend.toNat) :
    readCodeword cb s = .ok v (s.advance l.length) := by
  obtain ⟨q, n, x, hc, rfl⟩ := hc
  rw [codeword_length] at hr ⊢
  exact readCodeword_of_code hc hb hr

/-- A value is answered for a codeword of it only (R151). -/
theorem codes_of_readCodeword_ok {cb : Codebook} {s t : State} {v : Int} (hcur : s.cur.bitpos.toNat ≤ s.cur.bitend.toNat)
    (h : readCodeword cb s = .ok v t) :
    ∃ l, Codes cb v l ∧ holdsBits s.bs s.cur.bitpos.toNat l = true ∧ s.cur.bitpos.toNat + l.length ≤ s.cur.bitend.toNat ∧
      t = s.advance l.length := by
  rcases readCodeword_cases cb hcur with ⟨q, n, x, v', hc, hb, hr, e⟩ | ⟨sub, pos, -, e⟩ <;> rw [e] at h <;> cases h
  rw [← codeword_length q n x] at hr ⊢
  exact ⟨_, ⟨q, n, x, hc, rfl⟩, hb, hr, rfl⟩

/-- A fault is raised at a corruption only (R151). -/
theorem corruptAt_of_readCodeword_raised {cb : Codebook} {s t : State} {r : Raise} (hcur : s.cur.bitpos.toNat ≤ s.cur.bitend.toNat)
    (h : readCodeword cb s = .raised r t) :
    ∃ sub pos, CorruptAt cb s.bs s.cur.bitpos.toNat s.cur.bitend.toNat sub pos ∧ r = corruptionOf sub ∧ t = s.withBitpos pos := by
  rcases readCodeword_cases cb hcur with ⟨q, n, x, v', -, -, -, e⟩ | ⟨sub, pos, hc, e⟩ <;> rw [e] at h <;> cases h
  exact ⟨sub, pos, hc, rfl, rfl⟩

/-- The subcode of a corruption names the reader's fault in the tables of R261 and R262. -/
theorem mem_causes_corruption {cb : Codebook} {bs : Memory 8} {a e sub pos : Nat} (h : CorruptAt cb bs a e sub pos) (r : Raise) :
    (r, 2, sub) ∈ causes ↔ r = corruptionOf sub := by
  have table : ∀ sub ∈ [1, 2, 3], ∀ c ∈ causes, c.2 = (2, sub) → c.1 = corruptionOf sub := by decide
  have hsub : sub ∈ [1, 2, 3] := by cases h <;> decide
  refine ⟨fun hm => table sub hsub _ hm rfl, ?_⟩
  rintro rfl
  cases h <;> decide

/-- Settles O22: both answers of the reader, each from the case it can only come from. -/
theorem codewordOrCorrupt : Obligations.CodewordOrCorrupt := by
  rintro cb s ⟨-, -, hcur⟩
  refine ⟨fun v t => ⟨codes_of_readCodeword_ok hcur, ?_⟩, fun r t => ⟨fun h => ?_, ?_⟩⟩
  · rintro ⟨l, hc, hb, hr, rfl⟩
    exact readCodeword_of_codes hc hb hr
  · obtain ⟨sub, pos, hc, hr, rfl⟩ := corruptAt_of_readCodeword_raised hcur h
    exact ⟨sub, pos, hc, (mem_causes_corruption hc r).2 hr, rfl⟩
  · rintro ⟨sub, pos, hc, hr, rfl⟩
    rw [(mem_causes_corruption hc r).1 hr]
    exact readCodeword_of_corrupt hc

/-- Settles O20: RDCW's checks pass, and it stores what the reader answers. -/
theorem rdcwReadsCodeword : Obligations.RdcwReadsCodeword := by
  intro s v l hrun hcur hc hb hr
  have hbody : rdcwBody s = .ok () ((s.advance l.length).withVal (s32 v)) := by
    rw [rdcwBody, checkCursors_ok hcur, Res.bind_ok, readCodeword_of_codes hc hb hr, Res.bind_ok]
  exact runCommand_ok hrun hbody

end Sys2Proof.Machine

/-! PROOFS. The slice commands that parse and select (42_header_codec.md R177, R178): PSLC and SELPL. -/

namespace Sys2Proof.Machine

-- In order and not side by side: pending proofs hold memory, and the joined text is near the limit of check.sh.
set_option Elab.async false

open Sys2Proof.Claims

/-! ### Faults in the words of the tables -/

/-- A fault other than `CorruptSliceData` is fatal in both modes (60_exceptions.md R270). -/
theorem takeFault_fatal (i : Instr) (start t : State) {r : Raise} (h : r.recoverable = false) :
    takeFault i start r t =
      fatal i.opcode.toNat r.code.toNat r.subcode.toNat (faultCursor (Instr.posKind i) start t) t := by
  rcases takeFault_cases i start r t with ⟨hr, -, -⟩ | ⟨-, e⟩
  · rw [h] at hr
    cases hr
  · rw [e, enterFatal_eq]

/-- `CorruptSliceData` is taken as the mode says (R272, R273). -/
theorem takeFault_corrupt (i : Instr) (start t : State) (sub : CorruptSub) :
    takeFault i start (.corruptSliceData sub) t =
      corrupt i.opcode.toNat (Raise.corruptSliceData sub).subcode.toNat (faultCursor (Instr.posKind i) start t)
        (Instr.abandons i) t := by
  rcases takeFault_cases i start (.corruptSliceData sub) t with ⟨-, ht, e⟩ | ⟨hr | ht, e⟩
  · rw [e, enterConcealed_eq, corrupt, ht]
    rfl
  · cases hr
  · rw [e, enterFatal_eq, corrupt, ht]
    rfl

/-! ### SELPL -/

theorem plane_cases {k : BitVec 2} (h : k ≠ 3) : k = 0 ∨ k = 1 ∨ k = 2 := by
  revert k
  decide

/-- The planes of a slice follow its header (30_encoding.md R116). -/
theorem planeOffset_eq (sl : Slice) {k : BitVec 2} (h : k ≠ 3) : planeOffset sl k = planeStart sl k.toNat := by
  rcases plane_cases h with rfl | rfl | rfl
  · rfl
  · rfl
  · exact Nat.add_assoc _ _ _

theorem planeSize_eq (sl : Slice) {k : BitVec 2} (h : k ≠ 3) : planeSize sl k = planeBytes sl k.toNat := by
  rcases plane_cases h with rfl | rfl | rfl <;> rfl

theorem exec_selpl {k : BitVec 2} (h : k ≠ 3) (s : State) : exec (.selpl k) s = runCommand (.selpl k) s (selplBody k) :=
  exec_eq_runCommand (by simpa [WellFormed, planeLegal] using h) (fun e => by cases e) (fun e => by cases e) s

/-- Settles O39: the two refusals in the order of R178, then the commit. -/
theorem selplSelects : Obligations.SelplSelects := by
  intro s k hk hrun hbuf
  rw [exec_selpl hk, ← planeOffset_eq s.slice hk, ← planeSize_eq s.slice hk]
  have hbody : selplBody k s = if s.status.slok = false then .raised (.badOperand .noSlice) s
      else if s.cur.bsLen.toNat < planeOffset s.slice k + planeSize s.slice k then .raised (.badOperand .cursor) s
      else .ok () (commitPlane k s) := by
    simp only [selplBody, checkBuffer_ok hbuf, Res.bind_ok, Bool.not_eq_eq_eq_not, Bool.not_true, gt_iff_lt]
  split
  · rw [runCommand_raised hrun (hbody.trans (if_pos ‹_›)), takeFault_fatal _ _ _ rfl]
    rfl
  rw [if_neg ‹_›] at hbody
  split
  · rw [runCommand_raised hrun (hbody.trans (if_pos ‹_›)), takeFault_fatal _ _ _ rfl]
    rfl
  · exact runCommand_ok hrun (hbody.trans (if_neg ‹_›))

/-! ### PSLC -/

theorem memRead_one_lt (bs : Memory 8) (a : Nat) : memRead bs a 1 < 256 := memRead_lt bs a 1

theorem memRead_two_lt (bs : Memory 8) (a : Nat) : memRead bs a 2 < 65536 := memRead_lt bs a 2

theorem sliceFits_iff {f : SliceFields} {sz : Nat} : sliceFits f sz = true ↔ 6 ≤ f.hdrsize ∧ f.hdrsize ≤ sz ∧
    (if f.hdrsize ≥ 8 then f.hdrsize + f.ysize + f.usize + f.vsize ≤ sz else f.hdrsize + f.ysize + f.usize ≤ sz) :=
  decide_eq_true_iff

/-- The checks of PSLC are those of R177, steps 1 to 4. -/
theorem sliceLegal_iff (s : State) : SliceLegal s ↔
    ¬(s.slice.size.toNat < 6 ∨ s.slice.base.toNat + s.slice.size.toNat > s.cur.bsLen.toNat) ∧
      sliceFits (sliceFieldsAt s.bs s.slice.base.toNat s.slice.size.toNat) s.slice.size.toNat = true := by
  simp only [SliceLegal, sliceFits_iff, sliceFieldsAt]
  split <;> omega

theorem pslcBody_of_legal {s : State} (hbuf : BufferLegal s) (h : SliceLegal s) : pslcBody s = .ok ()
    (commitSlice s.slice.base.toNat (sliceFieldsAt s.bs s.slice.base.toNat s.slice.size.toNat) s.clearSlok) := by
  obtain ⟨hroom, hfits⟩ := (sliceLegal_iff s).1 h
  rw [pslcBody, checkBuffer_ok hbuf, Res.bind_ok]
  exact (if_neg hroom).trans (if_neg (by simp [hfits]))

theorem pslcBody_of_illegal {s : State} (hbuf : BufferLegal s) (h : ¬SliceLegal s) :
    pslcBody s = .raised (.corruptSliceData .sliceHdr) s.clearSlok := by
  rw [sliceLegal_iff, not_and_or, not_not] at h
  rw [pslcBody, checkBuffer_ok hbuf, Res.bind_ok]
  rcases h with hroom | hfits
  · exact if_pos hroom
  · exact (if_congr Iff.rfl rfl (if_pos (by simpa using hfits))).trans (ite_self _)

/-- Settles O38: a header that passes the checks is committed; else the corruption is taken with SLOK clear. -/
theorem pslcParses : Obligations.PslcParses := by
  intro s hrun hbuf b sz hs qs ys us
  have hscale : foldScale (BitVec.ofNat 8 qs) = foldOf qs := by
    rw [foldScale_eq, BitVec.toNat_ofNat, Nat.mod_eq_of_lt (memRead_one_lt s.bs (b + 1))]
  split
  · rw [← hscale]
    exact runCommand_ok hrun (pslcBody_of_legal hbuf ‹_›)
  · exact (runCommand_raised hrun (pslcBody_of_illegal hbuf ‹_›)).trans (congrArg _ (takeFault_corrupt .pslc s s.clearSlok .sliceHdr))

end Sys2Proof.Machine

/-! PROOFS. The header commands that parse (42_header_codec.md R172 to R174; 30_encoding.md R111 to R115): the fields of a header byte as
numbers, the two matrices, then PPIC and PFRM on a header that passes its checks. -/

namespace Sys2Proof.Machine

-- In order and not side by side: pending proofs hold memory, and the joined text is near the limit of check.sh.
set_option Elab.async false

open Sys2Proof.Claims

/-! ### Fields of a header byte, as numbers -/

theorem log2SliceMbWidth_eq (x : BitVec 8) : log2SliceMbWidth x = x.toNat / 16 := by
  rw [log2SliceMbWidth, BitVec.extractLsb'_toNat, Nat.shiftRight_eq_div_pow]
  omega

theorem hasLuma_iff {x : BitVec 8} : hasLuma x = true ↔ x.toNat / 2 % 2 = 1 := by
  rw [hasLuma, BitVec.getLsbD, Nat.testBit_eq_decide_div_mod_eq, decide_eq_true_iff]

theorem hasChroma_iff {x : BitVec 8} : hasChroma x = true ↔ x.toNat % 2 = 1 := by
  rw [hasChroma, BitVec.getLsbD, Nat.testBit_zero, decide_eq_true_iff]

/-- The matrices a `flags2` byte announces (30_encoding.md R113). -/
theorem matrixCount_eq (x : BitVec 8) : matrixCount x = x.toNat / 2 % 2 + x.toNat % 2 := by
  have bit : ∀ {b : Bool} {n : Nat}, (b = true ↔ n % 2 = 1) → b.toNat = n % 2 := by
    intro b n h
    cases b <;> simp_all
  rw [matrixCount, bit hasLuma_iff, bit hasChroma_iff]

/-- The chroma matrix follows the luma matrix when that is present (R111). -/
theorem chromaOffset_eq (b : Nat) (x : BitVec 8) : chromaOffset b x = chromaPlace b x.toNat := by
  rw [chromaOffset, chromaPlace, if_congr hasLuma_iff rfl rfl]
  split <;> omega

theorem dimensionLegal_iff {v : Nat} : dimensionLegal v = true ↔ v ≠ 0 ∧ v < 0x8000 := decide_eq_true_iff

theorem typesLegal_iff {x : BitVec 8} : typesLegal x = true ↔ x.toNat / 4 % 4 ≠ 3 ∧ 2 ≤ x.toNat / 64 := by
  rw [← frameType_eq, ← chromaType_eq]
  exact decide_eq_true_iff

theorem scanOfFrameType_eq (x : BitVec 8) : scanOfFrameType (frameType x) = if x.toNat / 4 % 4 = 0 then 0 else 1 := by
  rw [frameType_eq, scanOfFrameType]

theorem pictureRows_eq (x : BitVec 8) (ht : Nat) :
    pictureRows (frameType x) ht = if x.toNat / 4 % 4 = 0 then (ht + 15) / 16 else (ht + 31) / 32 := by
  rw [frameType_eq, pictureRows, Nat.shiftRight_eq_div_pow, Nat.shiftRight_eq_div_pow]

/-- A byte read from BS, as a register of 8 bits. -/
theorem toNat_ofNat_memRead_one (bs : Memory 8) (a : Nat) : (BitVec.ofNat 8 (memRead bs a 1)).toNat = memRead bs a 1 :=
  Nat.mod_eq_of_lt (memRead_lt bs a 1)

theorem toNat_ofNat_memRead_two (bs : Memory 8) (a : Nat) : (BitVec.ofNat 16 (memRead bs a 2)).toNat = memRead bs a 2 :=
  Nat.mod_eq_of_lt (memRead_lt bs a 2)

theorem toNat_ofNat_memRead_four (bs : Memory 8) (a : Nat) : (BitVec.ofNat 32 (memRead bs a 4)).toNat = memRead bs a 4 :=
  Nat.mod_eq_of_lt (memRead_lt bs a 4)

/-! ### PPIC -/

/-- The start of the schedule, field by field (42_header_codec.md R174 steps 6, 8, 9; R180 step 6). -/
theorem startSchedule_eq (b sc l2 : Nat) (s : State) : startSchedule b sc l2 s = { s with
    ph := { s.ph with base := BitVec.ofNat 32 b, spr := BitVec.ofNat 16 (slicesPerRow s.fh.mbw l2) }
    sched := { idx := 0, mbx := 0, mby := 0, cur := BitVec.ofNat 16 (2 ^ l2), ptr := BitVec.ofNat 32 (b + 8 + 2 * sc) }
    cur := { s.cur with byteptr := BitVec.ofNat 32 (b + 8 + 2 * sc) }
    status := { s.status with eos := false, slok := false } } := by
  rw [startSchedule, Nat.one_shiftLeft]
  rfl

theorem ofNat_toNat_word (x : Word) : BitVec.ofNat 32 x.toNat = x := by simp

/-- A list of checks finds nothing when its first finds nothing and the rest finds nothing. -/
theorem ite_some_eq_none_iff {α : Type} {c : Prop} [Decidable c] {a : α} {x : Option α} :
    (if c then some a else x) = none ↔ ¬c ∧ x = none := by
  split <;> simp [*]

/-- The checks of PPIC pass when none of R174 fails. -/
theorem checkPicture_ok {s : State} (h : pictureFault s = none) : checkPicture s.cur.byteptr.toNat s = .ok () s := by
  simp only [pictureFault, ite_some_eq_none_iff] at h
  obtain ⟨hroom, hsst, htable, htiling, -⟩ := h
  simp only [checkPicture, log2SliceMbWidth_eq, toNat_ofNat_memRead_one]
  rw [if_neg hroom, if_neg hsst, if_neg htable, if_neg htiling]

/-- Settles O34: the commit, whose table of slice sizes is one range of SST. -/
theorem ppicParses : Obligations.PpicParses := by
  intro s hrun hbuf hw hnone b sc lb
  have hbody : ppicBody s = .ok () (commitPicture b s) := by
    rw [ppicBody, checkBuffer_ok hbuf, Res.bind_ok, checkPicture_ok hnone, Res.bind_ok]
  refine ⟨_, runCommand_ok hrun hbody, ?_, fun n => ?_⟩
  · simp only [commitPicture, startSchedule_eq, log2SliceMbWidth_eq, toNat_ofNat_memRead_one, b, ofNat_toNat_word]
    rfl
  · have hread := Memory.read_writeRange sstUnlisted hw.sst 0 sc (fun n => BitVec.ofNat 16 (memRead s.bs (b + 8 + 2 * n) 2)) n
    simp only [Nat.zero_le, true_and, Nat.zero_add, Nat.sub_zero] at hread
    exact hread

/-! ### The matrices -/

/-- One matrix replaced: its entries, and the other's (10_state.md R42). -/
theorem qmAt_setQm {s : State} (hw : Memory.wf qmUnlisted s.qm) (p q : QMatrix) (f : Nat → Byte) {i : Nat} (hi : i < 64) :
    (s.setQm p f).qmAt q i = if q = p then f i else s.qmAt q i := by
  have hread := Memory.read_writeRange qmUnlisted hw (matrixIndex p 0) 64 f (matrixIndex q i)
  rw [State.qmAt, State.setQm_qm, hread]
  by_cases hq : q = p
  · subst hq
    simp [matrixIndex, hi]
  · have hne : QMatrix.number q ≠ QMatrix.number p := fun h => hq (QMatrix.number_inj.1 h)
    rw [if_neg hq, if_neg (by unfold matrixIndex; omega)]
    rfl

theorem wf_setQm {s : State} (hw : Memory.wf qmUnlisted s.qm) (p : QMatrix) (f : Nat → Byte) :
    Memory.wf qmUnlisted (s.setQm p f).qm := Memory.wf_writeRange qmUnlisted hw _ _ _

/-- A matrix of PFRM, loaded or flat, is one matrix of QM replaced (R172 step 10, R173). -/
theorem loadMatrix_or_flat_eq (p : QMatrix) (off : Nat) (sc : BitVec 1) (s : State) (present : Bool) :
    (if present then loadMatrix p off sc s else flatMatrix p s) =
      s.setQm p fun i => if present then bsByte s.bs (off + scanromAt s.cfg.scanrom sc i) else 4 := by
  cases present <;> rfl

/-- The entries of both matrices after PFRM. -/
theorem qmAt_loadMatrices {s : State} (hw : Memory.wf qmUnlisted s.qm) (flags2 : BitVec 8) (b : Nat) (sc : BitVec 1) {i : Nat}
    (hi : i < 64) :
    (loadMatrices s flags2 b sc).qmAt .luma i =
      (if hasLuma flags2 then bsByte s.bs (b + 28 + scanromAt s.cfg.scanrom sc i) else 4) ∧
    (loadMatrices s flags2 b sc).qmAt .chroma i =
      (if hasChroma flags2 then bsByte s.bs (chromaOffset b flags2 + scanromAt s.cfg.scanrom sc i) else 4) := by
  simp only [loadMatrices, loadMatrix_or_flat_eq]
  rw [qmAt_setQm (wf_setQm hw _ _) _ _ _ hi, qmAt_setQm hw _ _ _ hi, qmAt_setQm (wf_setQm hw _ _) _ _ _ hi]
  exact ⟨rfl, rfl⟩

/-! ### PFRM -/

/-- The checks of PFRM pass when none of R172 fails. -/
theorem checkFrame_ok {s : State} (h : frameFault s = none) :
    checkFrame s.cur.frameBase.toNat (frameHeaderAt s.bs s.cur.frameBase.toNat) s = .ok () s := by
  simp only [frameFault, ite_some_eq_none_iff] at h
  obtain ⟨hroom, hsig, hdim, htypes, hhdr, hsize, -⟩ := h
  have sig : memRead s.bs (s.cur.frameBase.toNat + 4) 4 = frameSignature :=
    memRead_of_holdsBytes (v := frameSignature) (Bool.of_not_eq_false hsig)
  have dim : (dimensionLegal (memRead s.bs (s.cur.frameBase.toNat + 16) 2) &&
      dimensionLegal (memRead s.bs (s.cur.frameBase.toNat + 18) 2)) = true := by
    rw [Bool.and_eq_true, dimensionLegal_iff, dimensionLegal_iff]
    omega
  have types : typesLegal (BitVec.ofNat 8 (memRead s.bs (s.cur.frameBase.toNat + 20) 1)) = true := by
    rw [typesLegal_iff, toNat_ofNat_memRead_one]
    omega
  simp only [checkFrame, frameHeaderAt, toNat_ofNat_memRead_one, toNat_ofNat_memRead_two, toNat_ofNat_memRead_four, matrixCount_eq,
    dim, types]
  rw [if_neg hroom, if_neg (not_not.2 sig), if_neg (by decide), if_neg (by decide), if_neg hhdr, if_neg hsize]

/-- A frame header that passes the checks fits its frame (R172 step 7). -/
theorem headerFits_of_none {s : State} (h : frameFault s = none) :
    8 + memRead s.bs (s.cur.frameBase.toNat + 8) 2 ≤ memRead s.bs s.cur.frameBase.toNat 4 := by
  simp only [frameFault, ite_some_eq_none_iff] at h
  obtain ⟨-, -, -, -, -, hsize, -⟩ := h
  omega

/-- The size of a frame's payload when the header fits the frame (10_state.md R34). -/
theorem payloadSize_eq {fs hs : Nat} (hhs : hs < 65536) (hfs : fs < 2 ^ 32) (h : 8 + hs ≤ fs) :
    payloadSize (BitVec.ofNat 32 fs) (BitVec.ofNat 16 hs) = BitVec.ofNat 32 (fs - 8 - hs) := by
  have eight : (8 : Word).toNat = 8 := rfl
  apply BitVec.eq_of_toNat_eq
  simp only [payloadSize, BitVec.toNat_sub, BitVec.toNat_setWidth, BitVec.toNat_ofNat, eight]
  omega

/-- Settles O30: the commit, whose two matrices are two ranges of QM. -/
theorem pfrmParses : Obligations.PfrmParses := by
  intro s hrun hbuf hw hnone b fs hs ht f1 f2 sc
  have hbody : pfrmBody s = .ok () (commitFrame b (frameHeaderAt s.bs b) s) := by
    rw [pfrmBody, checkBuffer_ok hbuf, Res.bind_ok, checkFrame_ok hnone, Res.bind_ok]
  refine ⟨_, runCommand_ok hrun hbody, ?_, fun i hi => ?_⟩
  · obtain ⟨qm, e, -⟩ := commitFrame_eq s b (frameHeaderAt s.bs b)
    rw [e, frameEntered]
    simp only [frameHeaderAt, pictureRows_eq, scanOfFrameType_eq, toNat_ofNat_memRead_one, toNat_ofNat_memRead_two,
      payloadSize_eq (memRead_two_lt s.bs (b + 8)) (memRead_lt s.bs b 4) (headerFits_of_none hnone)]
    rfl
  · have matrices := qmAt_loadMatrices (s := openFrame s (frameHeaderAt s.bs b) s.bs) hw.qm (BitVec.ofNat 8 f2) b
      (scanOfFrameType (frameType (BitVec.ofNat 8 f1))) hi
    simp only [hasLuma_iff, hasChroma_iff, chromaOffset_eq, scanOfFrameType_eq, f1, f2, toNat_ofNat_memRead_one] at matrices
    rw [commitFrame_eq_closeFrame]
    simp only [frameHeaderAt, scanOfFrameType_eq, toNat_ofNat_memRead_one]
    exact matrices

end Sys2Proof.Machine

/-! PROOFS. The header commands that write (42_header_codec.md R179 to R181): a list of bytes stored in BS piece by piece, a matrix
stored in scan order, then WSLC, WPIC and WFRM on registers that pass their checks. -/

namespace Sys2Proof.Machine

-- In order and not side by side: pending proofs hold memory, and the joined text is near the limit of check.sh.
set_option Elab.async false

open Sys2Proof.Claims

/-! ### Bytes stored one field after another -/

/-- `bs'` is `bs` with the bytes of the list stored from byte address `a`, in canonical form. -/
structure StoresBytes (bs bs' : Memory 8) (a : Nat) (l : List Byte) : Prop where
  stored : holdsBytes bs' a l = true
  others : SameBytesOutside bs bs' a l.length
  wf : Memory.wf bsUnlisted bs'

section
variable {bs bs' bs'' : Memory 8} {a : Nat} {l m : List Byte}

theorem StoresBytes.nil (h : Memory.wf bsUnlisted bs) (a : Nat) : StoresBytes bs bs a [] := ⟨rfl, fun _ _ => rfl, h⟩

/-- Two neighbouring stores. -/
theorem StoresBytes.append (h : StoresBytes bs bs' a l) (k : StoresBytes bs' bs'' (a + l.length) m) :
    StoresBytes bs bs'' a (l ++ m) := by
  refine ⟨?_, fun x hx => ?_, k.wf⟩
  · rw [holdsBytes_append, k.stored, Bool.and_true, ← h.stored]
    exact holdsBytes_congr fun x _ hx => k.others x (.inl hx)
  · rw [List.length_append] at hx
    rw [k.others x (by omega), h.others x (by omega)]

/-- `MemWrite` of the field that follows (20_memory.md R75). -/
theorem StoresBytes.memWrite (h : StoresBytes bs bs' a l) {c : Nat} (hc : c = a + l.length) (n v : Nat) :
    StoresBytes bs (memWrite n bs' c v) a (l ++ bigEndian n v) := by
  subst hc
  exact h.append ⟨holdsBytes_memWrite h.wf n _ v, by simpa using memWrite_sameOutside h.wf n _ v, memWrite_wf h.wf n _ v⟩

/-- A loop of `MemWrite`s of two bytes each. -/
theorem StoresBytes.table (h : StoresBytes bs bs' a l) {c : Nat} (hc : c = a + l.length) (f : Nat → Nat) (n : Nat) :
    StoresBytes bs ((List.range n).foldl (fun bs i => Machine.memWrite 2 bs (c + 2 * i) (f i)) bs') a
      (l ++ (List.range n).flatMap fun i => bigEndian 2 (f i)) := by
  have len (n : Nat) : ((List.range n).flatMap fun i => bigEndian 2 (f i)).length = 2 * n := by
    simp [List.length_flatMap, Nat.mul_comm]
  induction n with
  | zero => simpa using h
  | succ n ih =>
    rw [List.range_succ, List.foldl_append, List.flatMap_append, ← List.append_assoc]
    simpa using ih.memWrite (by rw [hc, List.length_append, len, Nat.add_assoc]) 2 (f n)

end

/-! ### WSLC -/

theorem bigEndian_one (v : Nat) : bigEndian 1 v = [BitVec.ofNat 8 v] := by simp [bigEndian]

/-- The slice header of R181 step 6, as its bytes. -/
theorem storesBytes_storeSliceHeader {bs : Memory 8} (hw : Memory.wf bsUnlisted bs) (b : Nat) (sl : Slice) :
    StoresBytes bs (storeSliceHeader bs b sl) b (sliceBytes sl) := by
  have fixed : StoresBytes bs (memWrite 2 (memWrite 2 (memWrite 1 (memWrite 1 bs b (sl.hdrsize.toNat * 8)) (b + 1) sl.qsraw.toNat)
      (b + 2) sl.ysize.toNat) (b + 4) sl.usize.toNat) b
      ([BitVec.ofNat 8 (sl.hdrsize.toNat * 8), sl.qsraw] ++ bigEndian 2 sl.ysize.toNat ++ bigEndian 2 sl.usize.toNat) := by
    have stores := (((StoresBytes.nil hw b).memWrite rfl 1 (sl.hdrsize.toNat * 8)).memWrite (c := b + 1) rfl 1 sl.qsraw.toNat)
    rw [bigEndian_one, bigEndian_one, BitVec.ofNat_toNat, BitVec.setWidth_eq] at stores
    exact (stores.memWrite (c := b + 2) rfl 2 sl.ysize.toNat).memWrite (c := b + 4) rfl 2 sl.usize.toNat
  have size : sl.hdrsize.toNat = 8 ↔ sl.hdrsize = 8 := BitVec.toNat_inj (y := 8)
  simp only [storeSliceHeader, sliceBytes, size, Nat.mul_comm 8]
  split
  · exact fixed.memWrite rfl 2 _
  · simpa using fixed

theorem sliceBytes_length {sl : Slice} (h : sl.hdrsize = 6 ∨ sl.hdrsize = 8) : (sliceBytes sl).length = sl.hdrsize.toNat := by
  rcases h with h | h <;> simp [sliceBytes, h]

/-- The checks of WSLC pass on what R181 asks, steps 1 to 5. -/
theorem checkWriteSlice_ok {s : State} (h : SliceWritable s) : checkWriteSlice s = .ok () s := by
  obtain ⟨hidx, hmax, hhdr, hsize, hroom⟩ := h
  have hdr : ¬(s.slice.hdrsize.toNat ≠ 6 ∧ s.slice.hdrsize.toNat ≠ 8) := by
    rcases hhdr with h | h <;> simp [h]
  have size : writtenSliceSize s.slice = sliceSize s.slice := rfl
  rw [checkWriteSlice, size, if_neg (by omega), if_neg (by omega), if_neg hdr, if_neg (by omega), if_neg (by omega)]

/-- The commit of WSLC, field by field (R181 steps 6 and 7). -/
theorem commitWriteSlice_eq (s : State) : commitWriteSlice s = { s with
    slice := { s.slice with size := BitVec.ofNat 16 (sliceSize s.slice) }
    sched := { s.sched with ptr := BitVec.ofNat 32 (s.slice.base.toNat + sliceSize s.slice) }
    cur := { s.cur with byteptr := BitVec.ofNat 32 (s.slice.base.toNat + sliceSize s.slice) }
    bs := storeSliceHeader s.bs s.slice.base.toNat s.slice
    sst := Memory.write sstUnlisted s.sst (s.sched.idx.toNat - 1) (BitVec.ofNat 16 (sliceSize s.slice)) } := by
  have size : writtenSliceSize s.slice = sliceSize s.slice := rfl
  simp only [commitWriteSlice, size]
  generalize storeSliceHeader s.bs s.slice.base.toNat s.slice = bs
  generalize sliceSize s.slice = sz
  rfl

/-- Settles O40: the commit, whose header is a list of bytes and whose size is one entry of SST. -/
theorem wslcWrites : Obligations.WslcWrites := by
  intro s hrun hbuf hw hwritable b sz
  have hbody : wslcBody s = .ok () (commitWriteSlice s) := by
    rw [wslcBody, checkBuffer_ok hbuf, Res.bind_ok, checkWriteSlice_ok hwritable, Res.bind_ok]
  rw [commitWriteSlice_eq] at hbody
  obtain ⟨hidx, -, hhdr, -, -⟩ := hwritable
  have stores := storesBytes_storeSliceHeader hw.bs b s.slice
  refine ⟨_, runCommand_ok hrun hbody, rfl, stores.stored, sliceBytes_length hhdr ▸ stores.others, fun n => ?_⟩
  have entry : n = s.sched.idx.toNat - 1 ↔ n + 1 = s.sched.idx.toNat := by omega
  exact (Memory.read_write sstUnlisted hw.sst _ n _).trans (if_congr entry rfl rfl)

/-! ### WPIC -/

/-- The picture header and table of R180 step 5, as their bytes. -/
theorem storesBytes_storePicture {s : State} (hw : Memory.wf bsUnlisted s.bs) (b : Nat) :
    StoresBytes s.bs (storePicture b s) b (pictureBytes s) := by
  have header := ((((StoresBytes.nil hw b).memWrite rfl 1 0x40).memWrite (c := b + 1) rfl 4 s.ph.reserved.toNat).memWrite
    (c := b + 5) rfl 2 s.ph.slicecount.toNat).memWrite (c := b + 7) rfl 1 s.ph.l2byte.toNat
  rw [bigEndian_one s.ph.l2byte.toNat, BitVec.ofNat_toNat, BitVec.setWidth_eq] at header
  exact header.table rfl (fun n => (s.sstAt n).toNat) s.ph.slicecount.toNat

theorem pictureBytes_length (s : State) : (pictureBytes s).length = 8 + 2 * s.ph.slicecount.toNat := by
  simp [pictureBytes, List.length_flatMap]
  omega

/-- The checks of WPIC pass on what R180 asks, steps 1 to 4. -/
theorem checkWritePicture_ok {s : State} (h : PictureWritable s) : checkWritePicture s.cur.byteptr.toNat s = .ok () s := by
  obtain ⟨hhdr, hsst, htiling, hroom⟩ := h
  have hdr : ¬s.ph.hdrsize.toNat ≠ 8 := by simp [hhdr]
  simp only [checkWritePicture, log2SliceMbWidth_eq]
  rw [if_neg hdr, if_neg (Nat.not_lt.2 hsst), if_neg (not_not.2 htiling), if_neg (Nat.not_lt.2 hroom)]

/-- Settles O35: the commit, whose header and table are one list of bytes. -/
theorem wpicWrites : Obligations.WpicWrites := by
  intro s hrun hbuf hw hwritable b sc l2
  have hbody : wpicBody s = .ok () (startSchedule b sc l2 (s.withBs (storePicture b s))) := by
    rw [wpicBody, checkBuffer_ok hbuf, Res.bind_ok, checkWritePicture_ok hwritable, Res.bind_ok, log2SliceMbWidth_eq]
  have stores := storesBytes_storePicture hw.bs b
  refine ⟨_, runCommand_ok hrun hbody, ?_, stores.stored, pictureBytes_length s ▸ stores.others⟩
  rw [startSchedule_eq]
  simp only [b, ofNat_toNat_word]
  rfl

/-! ### A matrix stored in scan order -/

/-- A scan table names no position twice (10_state.md R46). -/
theorem table_get_inj {t : Vector (BitVec 6) 64} (h : scanTableLegal t = true) {i j : Nat} (hi : i < 64) (hj : j < 64)
    (e : t.get (Fin.ofNat 64 i) = t.get (Fin.ofNat 64 j)) : i = j := by
  obtain ⟨-, hnodup⟩ := of_decide_eq_true h
  have entry {k : Nat} (hk : k < 64) : t.get (Fin.ofNat 64 k) = t.toList[k]'(by simpa using hk) := by
    simp [Vector.get_eq_getElem, Nat.mod_eq_of_lt hk]
  rw [entry hi, entry hj] at e
  exact (hnodup.getElem_inj_iff).1 e

theorem scanromAt_inj {cfg : Config} (h : cfg.wf = true) (sc : BitVec 1) {i j : Nat} (hi : i < 64) (hj : j < 64)
    (e : scanromAt cfg.scanrom sc i = scanromAt cfg.scanrom sc j) : i = j := by
  obtain ⟨-, -, -, -, -, progressive, interlaced⟩ := of_decide_eq_true h
  have e := BitVec.eq_of_toNat_eq e
  split at e
  · exact table_get_inj progressive hi hj e
  · exact table_get_inj interlaced hi hj e

/-- Bytes stored at distinct places, one by one. -/
theorem foldl_bsSetByte {bs : Memory 8} (hw : Memory.wf bsUnlisted bs) (place : Nat → Nat) (f : Nat → Byte) (n : Nat)
    (inj : ∀ i, i < n → ∀ j, j < n → place i = place j → i = j) :
    ∃ bs', (List.range n).foldl (fun bs i => bsSetByte bs (place i) (f i)) bs = bs' ∧ Memory.wf bsUnlisted bs' ∧
      (∀ i, i < n → bsByte bs' (place i) = f i) ∧ ∀ x, (∀ i, i < n → x ≠ place i) → bsByte bs' x = bsByte bs x := by
  induction n with
  | zero => exact ⟨bs, rfl, hw, fun i hi => absurd hi (Nat.not_lt_zero i), fun _ _ => rfl⟩
  | succ n ih =>
    obtain ⟨bs', e, wf, stored, others⟩ := ih fun i hi j hj => inj i (by omega) j (by omega)
    refine ⟨bsSetByte bs' (place n) (f n), ?_, bsSetByte_wf wf _ _, fun i hi => ?_, fun x hx => ?_⟩
    · rw [List.range_succ, List.foldl_append, e]
      rfl
    · rw [bsByte_bsSetByte wf]
      split
      · rw [inj i hi n (by omega) ‹_›]
      · exact stored i (Nat.lt_of_le_of_ne (by omega) fun h => ‹¬place i = place n› (congrArg place h))
    · rw [bsByte_bsSetByte wf, if_neg (hx n (by omega))]
      exact others x fun i hi => hx i (by omega)

/-- What WFRM leaves of one matrix: in BS in scan order when present, else flat 4 in QM (42_header_codec.md R173, R179 step 5). -/
structure MatrixWritten (p : QMatrix) (present : Bool) (off : Nat) (sc : BitVec 1) (s t : State) : Prop where
  cfg : t.cfg = s.cfg
  bsWf : Memory.wf bsUnlisted t.bs
  qmWf : Memory.wf qmUnlisted t.qm
  stored : present = true → ∀ i, i < 64 → bsByte t.bs (off + scanromAt s.cfg.scanrom sc i) = s.qmAt p i
  others : SameBytesOutside s.bs t.bs off (64 * present.toNat)
  entries : ∀ q i, i < 64 → t.qmAt q i = if q = p ∧ present = false then 4 else s.qmAt q i

theorem matrixWritten {s : State} (hb : Memory.wf bsUnlisted s.bs) (hq : Memory.wf qmUnlisted s.qm) (hcfg : s.cfg.wf = true)
    (p : QMatrix) (present : Bool) (off : Nat) (sc : BitVec 1) :
    MatrixWritten p present off sc s (if present then storeMatrix p off sc s else flatMatrix p s) := by
  cases present with
  | true =>
    obtain ⟨bs', e, wf, stored, others⟩ := foldl_bsSetByte hb (fun i => off + scanromAt s.cfg.scanrom sc i) (s.qmAt p) 64
      fun i hi j hj e => scanromAt_inj hcfg sc hi hj (Nat.add_left_cancel e)
    rw [if_pos rfl, storeMatrix, e]
    refine ⟨rfl, wf, hq, fun _ => stored, fun x hx => others x fun i _ => ?_, fun q i _ => (if_neg (by simp)).symm⟩
    have := scanromAt_lt s.cfg.scanrom sc i
    simp only [Bool.toNat_true] at hx
    omega
  | false =>
    refine ⟨rfl, hb, wf_setQm hq _ _, (fun h => nomatch h), fun _ _ => rfl, fun q i hi => ?_⟩
    exact (qmAt_setQm hq p q _ hi).trans (if_congr (by simp) rfl rfl)

theorem chromaOffset_eq_add (b : Nat) (x : BitVec 8) : chromaOffset b x = b + 28 + 64 * (hasLuma x).toNat := by
  rw [chromaOffset]
  cases hasLuma x <;> rfl

/-- Both matrices of WFRM: neither touches what the other stores. -/
theorem storeMatrices_written {s : State} (hb : Memory.wf bsUnlisted s.bs) (hq : Memory.wf qmUnlisted s.qm) (hcfg : s.cfg.wf = true)
    (flags2 : BitVec 8) (b : Nat) (sc : BitVec 1) :
    let t := storeMatrices s flags2 b sc
    SameBytesOutside s.bs t.bs (b + 28) (64 * matrixCount flags2) ∧ ∀ i, i < 64 →
      (hasLuma flags2 = true → bsByte t.bs (b + 28 + scanromAt s.cfg.scanrom sc i) = s.qmAt .luma i) ∧
      (hasChroma flags2 = true → bsByte t.bs (chromaOffset b flags2 + scanromAt s.cfg.scanrom sc i) = s.qmAt .chroma i) ∧
      t.qmAt .luma i = (if hasLuma flags2 = true then s.qmAt .luma i else 4) ∧
      t.qmAt .chroma i = (if hasChroma flags2 = true then s.qmAt .chroma i else 4) := by
  have luma := matrixWritten hb hq hcfg .luma (hasLuma flags2) (b + 28) sc
  have chroma := matrixWritten luma.bsWf luma.qmWf (luma.cfg ▸ hcfg) .chroma (hasChroma flags2) (chromaOffset b flags2) sc
  intro t
  change MatrixWritten _ _ _ _ _ t at chroma
  generalize t = t at chroma
  generalize (if hasLuma flags2 then storeMatrix .luma (b + 28) sc s else flatMatrix .luma s) = u at luma chroma
  have hoff := chromaOffset_eq_add b flags2
  refine ⟨fun x hx => ?_, fun i hi => ⟨fun hl => ?_, fun hc => ?_, ?_, ?_⟩⟩
  · rw [matrixCount] at hx
    rw [chroma.others x (by omega), luma.others x (by omega)]
  · have hscan := scanromAt_lt s.cfg.scanrom sc i
    rw [hl, Bool.toNat_true] at hoff
    rw [chroma.others _ (by omega), luma.stored hl i hi]
  · rw [← luma.cfg, chroma.stored hc i hi, luma.entries .chroma i hi, if_neg (by simp)]
  · rw [chroma.entries .luma i hi, if_neg (by simp), luma.entries .luma i hi]
    cases hasLuma flags2 <;> simp
  · rw [chroma.entries .chroma i hi, luma.entries .chroma i hi]
    cases hasChroma flags2 <;> simp

/-! ### WFRM -/

/-- The fixed bytes of R179 step 4. -/
theorem storesBytes_storeFrameHeader {bs : Memory 8} (hw : Memory.wf bsUnlisted bs) (b : Nat) (h : FrameHeader) :
    StoresBytes bs (storeFrameHeader bs b h) b (frameBytes h h.hdrsize.toNat) := by
  have stores := StoresBytes.nil hw b
  exact ((((((((((stores.memWrite rfl 4 h.framesize.toNat).memWrite (c := b + 4) rfl 4 frameSignature).memWrite
    (c := b + 8) rfl 2 h.hdrsize.toNat).memWrite (c := b + 10) rfl 2 h.version.toNat).memWrite
    (c := b + 12) rfl 4 h.creator.toNat).memWrite (c := b + 16) rfl 2 h.width.toNat).memWrite
    (c := b + 18) rfl 2 h.height.toNat).memWrite (c := b + 20) rfl 1 h.flags1.toNat).memWrite
    (c := b + 21) rfl 2 h.colorHi.toNat).memWrite (c := b + 23) rfl 4 h.colorLo.toNat).memWrite
    (c := b + 27) rfl 1 h.flags2.toNat

theorem writtenHdrsize_eq (x : BitVec 8) : writtenHdrsize x = 20 + 64 * (x.toNat / 2 % 2 + x.toNat % 2) := by
  rw [writtenHdrsize, matrixCount_eq]

/-- The computed header size stays in its register (R179 step 3). -/
theorem writtenHeader_hdrsize (h : FrameHeader) : (writtenHeader h).hdrsize.toNat = writtenHdrsize h.flags2 := by
  have := writtenHdrsize_eq h.flags2
  exact Nat.mod_eq_of_lt (by omega)

/-- The header registers after WFRM (10_state.md R34; R179 step 3). -/
theorem writtenHeader_eq (h : FrameHeader) : writtenHeader h = { h with
    hdrsize := BitVec.ofNat 16 (writtenHdrsize h.flags2)
    payload := h.framesize - BitVec.ofNat 32 (8 + writtenHdrsize h.flags2) } := by
  have size : (BitVec.ofNat 16 (writtenHdrsize h.flags2)).setWidth 32 = BitVec.ofNat 32 (writtenHdrsize h.flags2) := by
    have := writtenHdrsize_eq h.flags2
    apply BitVec.eq_of_toNat_eq
    simp only [BitVec.toNat_setWidth, BitVec.toNat_ofNat]
    omega
  rw [writtenHeader, payloadSize, size, BitVec.sub_sub, BitVec.ofNat_add]
  rfl

/-- The checks of WFRM pass on what R179 asks, steps 1 and 2. -/
theorem wfrmBody_ok {s : State} (hbuf : BufferLegal s) (h : FrameWritable s) :
    wfrmBody s = .ok () (commitWriteFrame s.cur.frameBase.toNat s) := by
  obtain ⟨hw, hw', hh, hh', ht, ht', hroom⟩ := h
  have legal : (dimensionLegal s.fh.width.toNat && dimensionLegal s.fh.height.toNat && typesLegal s.fh.flags1) = true := by
    rw [Bool.and_eq_true, Bool.and_eq_true, dimensionLegal_iff, dimensionLegal_iff, typesLegal_iff]
    omega
  rw [wfrmBody, checkBuffer_ok hbuf, Res.bind_ok, legal, if_neg (by decide), if_neg]
  rw [writtenHdrsize_eq]
  omega

theorem frameBytes_length (h : FrameHeader) (hs : Nat) : (frameBytes h hs).length = 28 := by simp [frameBytes]

/-- The commit of WFRM: its registers, the bytes it stores and the matrices (R179 steps 3 to 7). -/
theorem commitWriteFrame_written {s : State} (hw : s.memoriesWf) (hcfg : s.cfg.wf = true) (b : Nat) :
    ∃ bs qm, commitWriteFrame b s = frameEntered s b (writtenHeader s.fh) bs qm ∧
      holdsBytes bs b (frameBytes s.fh (writtenHdrsize s.fh.flags2)) = true ∧
      SameBytesOutside s.bs bs b (8 + writtenHdrsize s.fh.flags2) ∧ ∀ i, i < 64 →
        (hasLuma s.fh.flags2 = true → bsByte bs (b + 28 +
          scanromAt s.cfg.scanrom (scanOfFrameType (frameType s.fh.flags1)) i) = s.qmAt .luma i) ∧
        (hasChroma s.fh.flags2 = true → bsByte bs (chromaOffset b s.fh.flags2 +
          scanromAt s.cfg.scanrom (scanOfFrameType (frameType s.fh.flags1)) i) = s.qmAt .chroma i) ∧
        (s.withQm qm).qmAt .luma i = (if hasLuma s.fh.flags2 = true then s.qmAt .luma i else 4) ∧
        (s.withQm qm).qmAt .chroma i = (if hasChroma s.fh.flags2 = true then s.qmAt .chroma i else 4) := by
  have fixed : StoresBytes s.bs (storeFrameHeader s.bs b (writtenHeader s.fh)) b
      (frameBytes s.fh (writtenHeader s.fh).hdrsize.toNat) := storesBytes_storeFrameHeader hw.bs b _
  rw [writtenHeader_hdrsize] at fixed
  rw [commitWriteFrame_eq_closeFrame]
  generalize storeFrameHeader s.bs b (writtenHeader s.fh) = header at fixed ⊢
  generalize scanOfFrameType (frameType s.fh.flags1) = sc
  generalize writtenHeader s.fh = h
  obtain ⟨bs, qm, e, -, -⟩ := storeMatrices_eq (openFrame s h header) s.fh.flags2 b sc
  have written := storeMatrices_written (s := openFrame s h header) fixed.wf hw.qm hcfg s.fh.flags2 b sc
  rw [e] at written ⊢
  obtain ⟨others, entries⟩ := written
  refine ⟨bs, qm, closeFrame_openFrame s b _ header bs qm, ?_, fun x hx => ?_, entries⟩
  · rw [← fixed.stored]
    exact holdsBytes_congr fun x _ hx => others x (.inl (by rwa [frameBytes_length] at hx))
  · rw [writtenHdrsize] at hx
    exact (others x (by omega)).trans (fixed.others x (by rw [frameBytes_length]; omega))

/-- Settles O32: the commit, in the words of the statement. -/
theorem wfrmWrites : Obligations.WfrmWrites := by
  intro s hrun hbuf hw hcfg hwritable b f1 f2 hs ht sc
  obtain ⟨bs, qm, e, stored, others, entries⟩ := commitWriteFrame_written hw hcfg b
  have hbody := wfrmBody_ok hbuf hwritable
  rw [e] at hbody
  rw [writtenHdrsize_eq] at stored others
  simp only [hasLuma_iff, hasChroma_iff, chromaOffset_eq, scanOfFrameType_eq] at entries
  refine ⟨_, runCommand_ok hrun hbody, ?_, stored, others, entries⟩
  rw [frameEntered, writtenHeader_hdrsize, writtenHeader_eq, writtenHdrsize_eq, scanOfFrameType_eq, pictureRows_eq]

end Sys2Proof.Machine

/-! PROOFS. RDDC on a whole DC part (43_coefficient_coder.md R203, R204; 30_encoding.md R117): the state after the DC codes of the first
blocks, one step of the decoder from there, and the loop by induction on the codes still to come. -/

namespace Sys2Proof.Machine

-- In order and not side by side: pending proofs hold memory, and the joined text is near the limit of check.sh.
set_option Elab.async false

open Sys2Proof.Claims

/-! ### A DC code as a number (R203) -/

theorem s32_natCast (n : Nat) : s32 (n : Int) = BitVec.ofNat 32 n := BitVec.ofInt_natCast 32 n

/-- A codeword's value is a natural number that stays in 32 bits (41_entropy_coder.md R160). -/
theorem codes_lt {cb : Codebook} {c : Nat} {l : List Bool} (h : Codes cb c l) : c < 2 ^ 31 := by
  obtain ⟨q, n, x, hc, -⟩ := h
  have := isCode_bounds hc
  omega

/-- `toSigned` of a code: even codes are half the code, odd ones the negative of half the next (R157). -/
theorem toSigned_ofNat {c : Nat} (h : c < 2 ^ 31) : toSigned (BitVec.ofNat 32 c) = BitVec.ofInt 32 (signedOf c) := by
  have hmsb : (BitVec.ofNat 32 c).msb = false := by
    rw [BitVec.msb_eq_decide, BitVec.toNat_ofNat]
    simp only [decide_eq_false_iff_not]
    omega
  have hbit : (BitVec.ofNat 32 c).getLsbD 0 = decide (c % 2 = 1) := by
    rw [BitVec.getLsbD_ofNat, Nat.testBit_zero]
    rfl
  rw [toSigned, BitVec.sshiftRight_eq_of_msb_false hmsb, hbit, signedOf]
  apply BitVec.eq_of_toNat_eq
  rcases Nat.mod_two_eq_zero_or_one c with h2 | h2 <;> rw [h2]
  · simp [Nat.shiftRight_eq_div_pow]
    omega
  · rw [if_pos (by decide), BitVec.xor_allOnes]
    simp [BitVec.toNat_ofInt, Nat.shiftRight_eq_div_pow]
    omega

theorem nextSign_natCast (sign : Bool) (c : Nat) : nextSign sign (c : Int) = signAfter sign c := by
  have zero : (c : Int) = 0 ↔ c = 0 := by omega
  have odd : (c : Int) % 2 = 1 ↔ c % 2 = 1 := by omega
  simp only [nextSign, signAfter, zero, odd]
  by_cases h : c % 2 = 1 <;> simp [h]

/-- The running DC after a delta's code. -/
theorem add_s32_magnitude (sign : Bool) (dc : Word) (c : Nat) :
    dc + s32 (if signAfter sign c then -(((c : Int) + 1) / 2) else ((c : Int) + 1) / 2) = dcAfter sign dc c := by
  have mag : ((c : Int) + 1) / 2 = ((c + 1) / 2 : Nat) := by omega
  rw [dcAfter, mag]
  split
  · rw [s32, BitVec.ofInt_neg, BitVec.ofInt_natCast, BitVec.sub_eq_add_neg]
  · rw [s32_natCast]

theorem dequant_zero (s : State) (p : QMatrix) (i : Nat) : dequant s p i 0 = 0 := by
  simp [dequant]

/-! ### The terms and the context after one more code -/

/-- Running sign and running DC of every block of the codes, as `dcTerms`, for any number of codes. -/
def dcTermsOf : List Nat → List (Bool × Word)
  | [] => []
  | c0 :: cs => dcTerms c0 cs

/-- Running sign and running DC of the block that follows the codes, when its code is `c` (R203). -/
def nextDcTerm (s : State) (codes : List Nat) (c : Nat) : Bool × Word :=
  match codes with
  | [] => (false, BitVec.ofInt 32 (signedOf c))
  | _ :: _ => (signAfter (dcContext s codes).sign c, dcAfter (dcContext s codes).sign (dcContext s codes).prevdc c)

theorem dcRun_snoc (sign : Bool) (dc : Word) (cs : List Nat) (c : Nat) :
    dcRun sign dc (cs ++ [c]) = dcRun sign dc cs ++
      [(signAfter (((sign, dc) :: dcRun sign dc cs).getLast (by simp)).1 c,
        dcAfter (((sign, dc) :: dcRun sign dc cs).getLast (by simp)).1 (((sign, dc) :: dcRun sign dc cs).getLast (by simp)).2 c)] := by
  induction cs generalizing sign dc with
  | nil => rfl
  | cons d cs ih =>
    simp only [List.cons_append, dcRun, ih, List.getLast_cons_cons]

theorem dcTermsOf_snoc (s : State) (codes : List Nat) (c : Nat) :
    dcTermsOf (codes ++ [c]) = dcTermsOf codes ++ [nextDcTerm s codes c] := by
  cases codes with
  | nil => rfl
  | cons c0 cs =>
    have last : (dcTerms c0 cs).getLast? = some ((dcTerms c0 cs).getLast (by simp [dcTerms])) := List.getLast?_eq_getLast_of_ne_nil _
    simp only [List.cons_append, dcTermsOf, nextDcTerm, dcContext, last, Option.map_some, Option.getD_some]
    simp only [dcTerms, dcRun_snoc, List.cons_append]

theorem dcTermsOf_length (codes : List Nat) : (dcTermsOf codes).length = codes.length := by
  have run (sign : Bool) (dc : Word) (cs : List Nat) : (dcRun sign dc cs).length = cs.length := by
    induction cs generalizing sign dc with
    | nil => rfl
    | cons c cs ih => simp [dcRun, ih]
  cases codes <;> simp [dcTermsOf, dcTerms, run]

theorem dcWord_eq (s : State) (p : QMatrix) (codes : List Nat) (k : Nat) :
    dcWord s p codes k = if k % 64 = 0 then dequant s p 0 (((dcTermsOf codes)[k / 64]?.map Prod.snd).getD 0) else 0 := by
  cases codes with
  | nil =>
    show 0 = if k % 64 = 0 then dequant s p 0 0 else 0
    rw [dequant_zero, ite_self]
  | cons c0 cs => rfl

/-- One more block decoded: its DC word, and no other. -/
theorem dcWord_snoc (s : State) (p : QMatrix) (codes : List Nat) (c k : Nat) :
    dcWord s p (codes ++ [c]) k =
      if k = 64 * codes.length then dequant s p 0 (nextDcTerm s codes c).2 else dcWord s p codes k := by
  have len := dcTermsOf_length codes
  rw [dcWord_eq, dcWord_eq, dcTermsOf_snoc s]
  split
  · rename_i h64
    rw [List.getElem?_append]
    by_cases hk : k = 64 * codes.length
    · rw [if_pos hk, if_neg (by omega), len, show k / 64 - codes.length = 0 by omega]
      rfl
    · rw [if_neg hk]
      split
      · rfl
      · rw [List.getElem?_eq_none (by simp; omega), List.getElem?_eq_none (by omega)]
  · rw [if_neg (by omega)]

/-- The context after one more code (R202, R203). -/
theorem dcContext_snoc (s : State) (codes : List Nat) (c : Nat) :
    dcContext s (codes ++ [c]) = { dcContext s codes with
      blk := BitVec.ofNat 18 (codes.length + 1)
      prevcode := BitVec.ofNat 32 (if codes = [] then dcFirstContext s.cfg.dcCtxInit c else c)
      sign := (nextDcTerm s codes c).1
      prevdc := (nextDcTerm s codes c).2 } := by
  have terms := dcTermsOf_snoc s codes c
  cases codes with
  | nil => rfl
  | cons c0 cs =>
    rw [List.cons_append, dcTermsOf] at terms
    simp [dcContext, terms]

theorem dcContext_blk (s : State) (codes : List Nat) : (dcContext s codes).blk = BitVec.ofNat 18 codes.length := by
  cases codes <;> rfl

/-! ### One step of the decoder -/

/-- The state after the DC codes of the first blocks, `n` bits of the payload, with what they leave in COEF. -/
def dcReached (s : State) (codes : List Nat) (n : Nat) (coef : Memory 32) : State := { s with
  cur := { s.cur with bitpos := BitVec.ofNat 32 (s.cur.bitpos.toNat + n) }
  ctx := dcContext s codes
  status := { s.status with abandon := false, eop := decide (codes.length = s.bps) }
  coef := coef }

/-- The COEF after the DC codes of the first blocks. -/
structure DcStored (s : State) (p : QMatrix) (codes : List Nat) (coef : Memory 32) : Prop where
  wf : Memory.wf coefUnlisted coef
  read : ∀ k, Memory.read coefUnlisted coef k = if k < 64 * s.bps then dcWord s p codes k else s.coefAt k

theorem bps_le {s : State} (hb : BpsLegal s) (hcfg : s.cfg.wf = true) : s.bps ≤ 2 ^ 17 := by
  obtain ⟨-, -, hmax, -⟩ := of_decide_eq_true hcfg
  exact Nat.pow_le_pow_right (by decide) (Nat.le_trans hb hmax)

/-- The start of the plane (R202). -/
theorem dcInit_eq (s : State) : dcInit s =
    dcReached s [] 0 (Memory.writeRange coefUnlisted s.coef 0 (64 * s.bps) fun _ => 0) := by
  have hbps : (0 : Nat) ≠ s.bps := (Nat.two_pow_pos _).ne
  have hctx : dcCtxAtStart s.cfg.dcCtxInit = BitVec.ofNat 32 (dcFirstContext s.cfg.dcCtxInit 0) := by
    cases s.cfg.dcCtxInit <;> rfl
  simp only [dcInit, dcReached, dcContext, hctx, List.length_nil, hbps, decide_false, Nat.add_zero, ofNat_toNat_word]
  rfl

theorem dcStored_nil {s : State} (hw : Memory.wf coefUnlisted s.coef) (p : QMatrix) :
    DcStored s p [] (Memory.writeRange coefUnlisted s.coef 0 (64 * s.bps) fun _ => 0) := by
  refine ⟨Memory.wf_writeRange _ hw _ _ _, fun k => ?_⟩
  rw [Memory.read_writeRange _ hw, Nat.zero_add]
  simp only [Nat.zero_le, true_and]
  rfl

/-- Scaling depends on QMS only (44_quantizer.md R232). -/
theorem dequant_congr {s t : State} (h : t.qms = s.qms) (p : QMatrix) (i : Nat) (c : Word) : dequant t p i c = dequant s p i c := by
  rw [dequant, dequant, State.qmsAt, State.qmsAt, h]

/-- Storing the next block's term, whatever the context but for its block number (R203 steps 4 to 7). -/
theorem storeDc_reached {s : State} {codes : List Nat} {n : Nat} {coef : Memory 32} {x : CoderContext} (p : QMatrix) (dc : Word)
    (hlt : codes.length < s.bps) (hbps : s.bps ≤ 2 ^ 17) (hx : x.blk = BitVec.ofNat 18 codes.length) :
    storeDc p dc ((dcReached s codes n coef).withCtx x) =
      { dcReached s codes n (Memory.write coefUnlisted coef (64 * codes.length) (dequant s p 0 dc)) with
        ctx := { x with prevdc := dc, blk := BitVec.ofNat 18 (codes.length + 1) }
        status := { s.status with abandon := false, eop := decide (codes.length + 1 = s.bps) } } := by
  have hblk : x.blk.toNat = codes.length := by
    rw [hx, BitVec.toNat_ofNat]
    omega
  have hadd : x.blk + 1 = BitVec.ofNat 18 (codes.length + 1) := by rw [hx, BitVec.ofNat_add]; rfl
  have hq : dequant ((dcReached s codes n coef).withCtx x) p 0 dc = dequant s p 0 dc := dequant_congr rfl p 0 dc
  simp only [storeDc, State.withCtx_ctx, hblk, hadd, hq]
  by_cases h : codes.length + 1 = s.bps
  · rw [decide_eq_true h]
    exact if_pos h
  · have heop : decide (codes.length + 1 = s.bps) = decide (codes.length = s.bps) :=
      (decide_eq_false h).trans (decide_eq_false hlt.ne).symm
    rw [heop]
    exact if_neg h

/-- The codeword of the next code, read from the state reached (R151). -/
theorem readCodeword_dcReached {s : State} {codes : List Nat} {n : Nat} {coef : Memory 32} {cb : Codebook} {c : Int}
    {l : List Bool} (hc : Codes cb c l) (hbits : holdsBits s.bs (s.cur.bitpos.toNat + n) l = true)
    (hroom : s.cur.bitpos.toNat + n + l.length ≤ s.cur.bitend.toNat) :
    readCodeword cb (dcReached s codes n coef) = .ok c (dcReached s codes (n + l.length) coef) := by
  have hend := s.cur.bitend.isLt
  have hpos : (dcReached s codes n coef).cur.bitpos.toNat = s.cur.bitpos.toNat + n := Nat.mod_eq_of_lt (by omega)
  rw [readCodeword_of_codes hc (by rw [hpos]; exact hbits) (by rw [hpos]; exact hroom), State.advance, hpos, Nat.add_assoc]
  rfl

/-- A context with the block of the next code is a state with one more code. -/
theorem dcReached_snoc {s : State} {codes : List Nat} {n c : Nat} {coef : Memory 32} {x : CoderContext}
    (hx : dcContext s (codes ++ [c]) = { x with
      prevdc := (nextDcTerm s codes c).2, blk := BitVec.ofNat 18 (codes.length + 1) }) :
    dcReached s (codes ++ [c]) n coef = { dcReached s codes n coef with
      ctx := { x with prevdc := (nextDcTerm s codes c).2, blk := BitVec.ofNat 18 (codes.length + 1) }
      status := { s.status with abandon := false, eop := decide (codes.length + 1 = s.bps) } } := by
  rw [dcReached, hx, List.length_append]
  rfl

/-- The first block's term (R203 step 3). -/
theorem firstDc_reached {s : State} {p : QMatrix} {n c : Nat} {coef : Memory 32} {l : List Bool} (hbps : s.bps ≤ 2 ^ 17)
    (hc : Codes (cbromAt s.cfg.cbrom .firstDC 0) c l) (hbits : holdsBits s.bs (s.cur.bitpos.toNat + n) l = true)
    (hroom : s.cur.bitpos.toNat + n + l.length ≤ s.cur.bitend.toNat) :
    firstDc p (dcReached s [] n coef) = .ok () (dcReached s [c] (n + l.length)
      (Memory.write coefUnlisted coef 0 (dequant s p 0 (BitVec.ofInt 32 (signedOf c))))) := by
  have hread := readCodeword_dcReached (codes := []) (coef := coef) hc hbits hroom
  have context : (match s.cfg.dcCtxInit with
      | .const _ => dcReached s [] (n + l.length) coef
      | .firstCode => (dcReached s [] (n + l.length) coef).withCtx
          { (dcReached s [] (n + l.length) coef).ctx with prevcode := BitVec.ofNat 32 c }) =
      (dcReached s [] (n + l.length) coef).withCtx
        { dcContext s [] with prevcode := BitVec.ofNat 32 (dcFirstContext s.cfg.dcCtxInit c) } := by
    cases h : s.cfg.dcCtxInit <;> simp [dcReached, dcContext, dcFirstContext, State.withCtx, h]
  rw [firstDc]
  refine (congrArg (Res.bind · _) hread).trans ?_
  rw [Res.bind_ok, s32_natCast, toSigned_ofNat (codes_lt hc)]
  refine (congrArg (fun t => Res.ok () (storeDc p _ t)) context).trans ?_
  rw [storeDc_reached (codes := []) p _ (Nat.two_pow_pos _) hbps rfl]
  exact congrArg _ (dcReached_snoc (codes := []) (dcContext_snoc s [] c)).symm

/-- A later block's term (R203 step 3). -/
theorem deltaDc_reached {s : State} {p : QMatrix} {c0 : Nat} {cs : List Nat} {n c : Nat} {coef : Memory 32} {l : List Bool}
    (hbps : s.bps ≤ 2 ^ 17) (hlt : (c0 :: cs).length < s.bps) (hsmall : ∀ c ∈ c0 :: cs, c < 2 ^ 31)
    (hc : Codes (nextDcBook s.cfg (c0 :: cs)) c l) (hbits : holdsBits s.bs (s.cur.bitpos.toNat + n) l = true)
    (hroom : s.cur.bitpos.toNat + n + l.length ≤ s.cur.bitend.toNat) :
    deltaDc p (dcReached s (c0 :: cs) n coef) = .ok () (dcReached s (c0 :: cs ++ [c]) (n + l.length)
      (Memory.write coefUnlisted coef (64 * (c0 :: cs).length) (dequant s p 0 (nextDcTerm s (c0 :: cs) c).2))) := by
  have hprev : (dcReached s (c0 :: cs) n coef).ctx.prevcode.toNat = cs.getLast?.getD (dcFirstContext s.cfg.dcCtxInit c0) := by
    refine Nat.mod_eq_of_lt ?_
    cases hl : cs.getLast? with
    | none =>
      have := hsmall c0 (by simp)
      cases s.cfg.dcCtxInit with
      | const m => simp [dcFirstContext]; omega
      | firstCode => simp [dcFirstContext]; omega
    | some d =>
      have := hsmall d (List.mem_cons_of_mem _ (List.mem_of_getLast? hl))
      simp; omega
  have hread := readCodeword_dcReached (codes := c0 :: cs) (coef := coef) hc hbits hroom
  rw [deltaDc, hprev]
  refine (congrArg (Res.bind · _) hread).trans ?_
  rw [Res.bind_ok]
  simp only [nextSign_natCast, s32_natCast, add_s32_magnitude]
  have stored := storeDc_reached (n := n + l.length) (coef := coef)
    (x := { dcContext s (c0 :: cs) with sign := (nextDcTerm s (c0 :: cs) c).1, prevcode := BitVec.ofNat 32 c })
    p (nextDcTerm s (c0 :: cs) c).2 hlt hbps (dcContext_blk s _)
  refine congrArg (Res.ok ()) (stored.trans (dcReached_snoc ?_).symm)
  rw [dcContext_snoc, if_neg (List.cons_ne_nil c0 cs)]

/-- One step of the decoder: the next block's term in its DC word, and the context after its code (R203). -/
theorem dcStep_reached {s : State} {p : QMatrix} {codes : List Nat} {n c : Nat} {coef : Memory 32} {l : List Bool}
    (hbps : s.bps ≤ 2 ^ 17) (hlt : codes.length < s.bps) (hsmall : ∀ c ∈ codes, c < 2 ^ 31)
    (hc : Codes (nextDcBook s.cfg codes) c l) (hbits : holdsBits s.bs (s.cur.bitpos.toNat + n) l = true)
    (hroom : s.cur.bitpos.toNat + n + l.length ≤ s.cur.bitend.toNat) :
    dcStep p (dcReached s codes n coef) = .ok () (dcReached s (codes ++ [c]) (n + l.length)
      (Memory.write coefUnlisted coef (64 * codes.length) (dequant s p 0 (nextDcTerm s codes c).2))) := by
  have hblk : (dcReached s codes n coef).ctx.blk.toNat = codes.length := by
    rw [dcReached, dcContext_blk, BitVec.toNat_ofNat]
    omega
  have hflags : ¬((dcReached s codes n coef).status.abandon || (dcReached s codes n coef).status.eop) = true := by
    simp [dcReached, hlt.ne]
  have hroom' : ¬(dcReached s codes n coef).ctx.blk.toNat ≥ (dcReached s codes n coef).bps := by
    rw [hblk]
    exact Nat.not_le.2 hlt
  rw [dcStep, if_neg hflags, if_neg hroom']
  cases codes with
  | nil => exact (if_pos rfl).trans (firstDc_reached hbps hc hbits hroom)
  | cons c0 cs =>
    have hne : ¬(dcReached s (c0 :: cs) n coef).ctx.blk = 0 := fun h => by
      rw [h] at hblk
      simp at hblk
    exact (if_neg hne).trans (deltaDc_reached hbps hlt hsmall hc hbits hroom)

theorem DcStored.snoc {s : State} {p : QMatrix} {codes : List Nat} {coef : Memory 32} (h : DcStored s p codes coef) (c : Nat)
    (hlt : codes.length < s.bps) :
    DcStored s p (codes ++ [c])
      (Memory.write coefUnlisted coef (64 * codes.length) (dequant s p 0 (nextDcTerm s codes c).2)) := by
  refine ⟨Memory.wf_write _ h.wf _ _, fun k => ?_⟩
  rw [Memory.read_write _ h.wf, h.read, dcWord_snoc]
  by_cases hk : k = 64 * codes.length
  · rw [if_pos hk, if_pos (by omega), if_pos hk]
  · rw [if_neg hk, if_neg hk]

/-! ### The loop -/

/-- The bit string is the codewords of further DC codes, after the given ones of the plane. -/
def DcCodesAfter (cfg : Config) : List Nat → List Nat → List Bool → Prop
  | _, [], l => l = []
  | codes, c :: rest, l => ∃ l₁ l₂, l = l₁ ++ l₂ ∧ Codes (nextDcBook cfg codes) c l₁ ∧ DcCodesAfter cfg (codes ++ [c]) rest l₂

theorem dcCodesAfter_of_deltaStream {cfg : Config} {c0 prev : Nat} {cs rest : List Nat} {l : List Bool}
    (hprev : cs.getLast?.getD (dcFirstContext cfg.dcCtxInit c0) = prev) (h : DeltaStream cfg.cbrom prev rest l) :
    DcCodesAfter cfg (c0 :: cs) rest l := by
  induction rest generalizing prev cs l with
  | nil => exact h
  | cons c rest ih =>
    obtain ⟨l₁, l₂, hl, hc, hrest⟩ := h
    subst hprev
    exact ⟨l₁, l₂, hl, hc, ih (cs := cs ++ [c]) (by simp) hrest⟩

/-- The DC part of a payload, code by code (30_encoding.md R117). -/
theorem dcCodesAfter_nil {cfg : Config} {codes : List Nat} {l : List Bool} (h : DcCodes cfg codes l) :
    DcCodesAfter cfg [] codes l := by
  cases codes with
  | nil => exact h
  | cons c0 cs =>
    obtain ⟨l₁, l₂, hl, hc, hrest⟩ := h
    exact ⟨l₁, l₂, hl, hc, dcCodesAfter_of_deltaStream (cs := []) rfl hrest⟩

/-- The loop over the codes that complete the plane (R204). -/
theorem dcLoop_reached {s : State} {p : QMatrix} (hbps : s.bps ≤ 2 ^ 17) {rest : List Nat} (hrest : rest ≠ []) {codes : List Nat}
    {n : Nat} {coef : Memory 32} {l : List Bool} (hlen : codes.length + rest.length = s.bps) (hsmall : ∀ c ∈ codes, c < 2 ^ 31)
    (hcoef : DcStored s p codes coef) (hc : DcCodesAfter s.cfg codes rest l)
    (hbits : holdsBits s.bs (s.cur.bitpos.toNat + n) l = true)
    (hroom : s.cur.bitpos.toNat + n + l.length ≤ s.cur.bitend.toNat) :
    ∃ coef', dcLoop p rest.length (dcReached s codes n coef) = .ok () (dcReached s (codes ++ rest) (n + l.length) coef') ∧
      DcStored s p (codes ++ rest) coef' := by
  induction rest generalizing codes n coef l with
  | nil => exact absurd rfl hrest
  | cons c rest ih =>
    obtain ⟨l₁, l₂, rfl, hc₁, hc₂⟩ := hc
    rw [holdsBits_append, Bool.and_eq_true] at hbits
    rw [List.length_append] at hroom
    rw [List.length_cons] at hlen
    have hlt : codes.length < s.bps := by omega
    have stored := hcoef.snoc c hlt
    have len : (codes ++ [c]).length = codes.length + 1 := List.length_append
    rw [List.length_cons, dcLoop, dcStep_reached hbps hlt hsmall hc₁ hbits.1 (by omega), Res.bind_ok]
    cases rest with
    | nil =>
      subst hc₂
      have heop : (codes ++ [c]).length = s.bps := len.trans hlen
      rw [if_pos (by simp [dcReached, heop]), List.append_nil]
      exact ⟨_, rfl, stored⟩
    | cons d rest =>
      have heop : codes.length + 1 ≠ s.bps := by simp only [List.length_cons] at hlen; omega
      rw [if_neg (by simp [dcReached, heop])]
      have later := ih (List.cons_ne_nil d rest) (by omega) (fun x hx => ?_) stored hc₂ (by rw [← Nat.add_assoc]; exact hbits.2)
        (by omega)
      · rw [List.append_assoc] at later
        rw [List.length_append, ← Nat.add_assoc]
        exact later
      · rcases List.mem_append.1 hx with hx | hx
        · exact hsmall x hx
        · rw [List.mem_singleton.1 hx]
          exact codes_lt hc₁

/-- Settles O44: the loop from the start of the plane, over all its codes. -/
theorem rddcDecodes : Obligations.RddcDecodes := by
  intro s p codes l hrun hcur hb hcfg hw hlen hc hbits hroom
  have hlen : codes.length = s.bps := hlen
  have hne : codes ≠ [] := fun h => by
    rw [h] at hlen
    exact absurd hlen (Nat.two_pow_pos _).ne
  obtain ⟨coef, hloop, hstored⟩ := dcLoop_reached (bps_le hb hcfg) hne (codes := []) (n := 0) ((Nat.zero_add _).trans hlen)
    (by simp) (dcStored_nil hw.coef p) (dcCodesAfter_nil hc) hbits hroom
  rw [← dcInit_eq, hlen, Nat.zero_add] at hloop
  have hbody : rddcBody p s = .ok () (dcReached s codes l.length coef) := by
    rw [rddcBody, checkCursors_ok hcur, Res.bind_ok, checkBps_ok hb, Res.bind_ok, hloop]
    rfl
  refine ⟨_, runCommand_ok hrun hbody, ?_, hstored.read⟩
  rw [dcReached, decide_eq_true hlen]

end Sys2Proof.Machine

/-! PROOFS. RDAC on the triples of an AC part and what ends it (43_coefficient_coder.md R206, R207; 30_encoding.md R117): one step of the
decoder at a triple and at an end, the state after the triples decoded so far, and the loop by induction on those still to come. -/

namespace Sys2Proof.Machine

-- In order and not side by side: pending proofs hold memory, and the joined text is near the limit of check.sh.
set_option Elab.async false

open Sys2Proof.Claims

/-! ### One step of the decoder, from any state (R206) -/

section
variable {s : State} {p : QMatrix}

theorem State.withBitpos_self (s : State) : s.withBitpos s.cur.bitpos.toNat = s := State.advance_zero s

/-- A codeword has a `1`, so the payload does not end where one stands (30_encoding.md R117). -/
theorem payloadEnded_of_codes {cb : Codebook} {v : Int} {l : List Bool} (hc : Codes cb v l)
    (hbits : holdsBits s.bs s.cur.bitpos.toNat l = true) (hroom : s.cur.bitpos.toNat + l.length ≤ s.cur.bitend.toNat) :
    payloadEnded s = false := by
  obtain ⟨q, n, x, -, rfl⟩ := hc
  rw [codeword_length] at hroom
  exact allZero_of_codeword hbits (by omega)

/-- After a run: the plane overrun, a reduced decode ended, or level and sign to read (R206 steps 4 to 7). -/
theorem acStep_of_run {r : Nat} {l : List Bool} (ha : s.status.abandon = false) (he : s.status.eop = false)
    (hc : Codes (cbromAt s.cfg.cbrom .acRun s.ctx.prevrun.toNat) r l) (hbits : holdsBits s.bs s.cur.bitpos.toNat l = true)
    (hroom : s.cur.bitpos.toNat + l.length ≤ s.cur.bitend.toNat) :
    acStep p s = if s.ctx.pos.toNat + r + 1 ≥ 64 * s.bps then .raised (.corruptSliceData .runOverrun) (s.advance l.length)
      else if (s.ctx.pos.toNat + r + 1) / s.bps ≥ s.plane.maxc.toNat then .ok () (s.advance l.length).setEop
      else acLevelSign p (s.ctx.pos.toNat + r + 1) r (s.advance l.length) := by
  have hnp : ((s.ctx.pos.toNat : Int) + r + 1).toNat = s.ctx.pos.toNat + r + 1 := by omega
  rw [acStep, if_neg (by simp [ha, he]), payloadEnded_of_codes hc hbits hroom, if_neg (by decide),
    readCodeword_of_codes hc hbits hroom, Res.bind_ok]
  simp only [State.advance_ctx, hnp]
  rfl

/-- The position of a triple in the part of the plane that is decoded. -/
theorem acStep_of_run_inside {r : Nat} {l : List Bool} (ha : s.status.abandon = false) (he : s.status.eop = false)
    (hmaxc : MaxcLegal s) (hc : Codes (cbromAt s.cfg.cbrom .acRun s.ctx.prevrun.toNat) r l)
    (hbits : holdsBits s.bs s.cur.bitpos.toNat l = true) (hroom : s.cur.bitpos.toNat + l.length ≤ s.cur.bitend.toNat)
    (hnear : s.ctx.pos.toNat + r + 1 < s.plane.maxc.toNat * s.bps) :
    acStep p s = acLevelSign p (s.ctx.pos.toNat + r + 1) r (s.advance l.length) := by
  have h64 : s.plane.maxc.toNat * s.bps ≤ 64 * s.bps := Nat.mul_le_mul_right _ hmaxc.2
  rw [acStep_of_run ha he hc hbits hroom, if_neg (by omega), if_neg]
  exact Nat.not_le.2 ((Nat.div_lt_iff_lt_mul (Nat.two_pow_pos _)).2 hnear)

/-- The sign of a triple is the bit after its level. -/
theorem bitsValue_one (bs : Memory 8) (a : Nat) : bitsValue bs a 1 = (bsBit bs a).toNat := by simp [bitsValue]

/-- Level and sign of a triple (R206 steps 7 to 11). -/
theorem acLevelSign_of_codes {np level : Nat} {run : Int} {negative : Bool} {l : List Bool} (hlevel : 1 ≤ level)
    (hc : Codes (cbromAt s.cfg.cbrom .acLevel s.ctx.prevlev.toNat) (level - 1 : Nat) l)
    (hbits : holdsBits s.bs s.cur.bitpos.toNat (l ++ [negative]) = true)
    (hroom : s.cur.bitpos.toNat + (l ++ [negative]).length ≤ s.cur.bitend.toNat) :
    acLevelSign p np run s = .ok () (storeAc p np run level negative (s.advance (l ++ [negative]).length)) := by
  have hend := s.cur.bitend.isLt
  rw [List.length_append, List.length_singleton] at hroom ⊢
  rw [holdsBits_append, Bool.and_eq_true] at hbits
  have hpos : (s.advance l.length).cur.bitpos.toNat = s.cur.bitpos.toNat + l.length := s.advance_bitpos (by omega)
  have hsign : bitsValue s.bs (s.cur.bitpos.toNat + l.length) 1 = negative.toNat := by
    rw [bitsValue_one, beq_iff_eq.1 (Bool.and_eq_true_iff.1 hbits.2).1]
  have hvalue : ((level - 1 : Nat) : Int) + 1 = level := by omega
  rw [acLevelSign, readCodeword_of_codes hc hbits.1 (by omega), Res.bind_ok]
  rcases readBits_cases 1 (s.advance l.length) with ⟨-, e⟩ | ⟨h, -⟩
  · rw [e, Res.bind_ok, hpos, State.advance_bs, hsign, hvalue, State.advance_advance _ _ (by omega)]
    cases negative <;> rfl
  · rw [hpos, State.advance_bitend] at h
    omega

/-- A whole triple (R206 steps 3 to 11). -/
theorem acStep_of_triple {t : Triple} {l₁ l₂ : List Bool} (ha : s.status.abandon = false) (he : s.status.eop = false)
    (hmaxc : MaxcLegal s) (hlevel : 1 ≤ t.level) (hrun : Codes (cbromAt s.cfg.cbrom .acRun s.ctx.prevrun.toNat) t.run l₁)
    (hlev : Codes (cbromAt s.cfg.cbrom .acLevel s.ctx.prevlev.toNat) (t.level - 1 : Nat) l₂)
    (hbits : holdsBits s.bs s.cur.bitpos.toNat (l₁ ++ (l₂ ++ [t.negative])) = true)
    (hroom : s.cur.bitpos.toNat + (l₁ ++ (l₂ ++ [t.negative])).length ≤ s.cur.bitend.toNat)
    (hnear : s.ctx.pos.toNat + t.run + 1 < s.plane.maxc.toNat * s.bps) :
    acStep p s = .ok () (storeAc p (s.ctx.pos.toNat + t.run + 1) t.run t.level t.negative
      (s.advance (l₁ ++ (l₂ ++ [t.negative])).length)) := by
  have hend := s.cur.bitend.isLt
  rw [List.length_append] at hroom ⊢
  rw [holdsBits_append, Bool.and_eq_true] at hbits
  have hpos : (s.advance l₁.length).cur.bitpos.toNat = s.cur.bitpos.toNat + l₁.length := s.advance_bitpos (by omega)
  rw [acStep_of_run_inside ha he hmaxc hrun hbits.1 (by omega) hnear,
    acLevelSign_of_codes (s := s.advance l₁.length) hlevel hlev (by rw [hpos]; exact hbits.2)
      (by rw [hpos, State.advance_bitend]; omega), State.advance_advance _ _ (by omega)]

/-- What the decoder answers where it decodes no triple: `EOP` set at a normal end, else the corruption of the subcode (R206). -/
def AcStopped (sub : Option Nat) (next : Nat) (t : State) (r : Res Unit) : Prop :=
  match sub with
  | none => r = .ok () (t.withBitpos next).setEop
  | some c => ∃ k, (Raise.corruptSliceData k).subcode.toNat = c ∧ r = .raised (.corruptSliceData k) (t.withBitpos next)

/-- The fault of the reader has the subcode of the corruption (60_exceptions.md R261). -/
theorem corruptionOf_subcode {cb : Codebook} {bs : Memory 8} {a e sub pos : Nat} (h : CorruptAt cb bs a e sub pos) :
    ∃ k, (Raise.corruptSliceData k).subcode.toNat = sub ∧ corruptionOf sub = .corruptSliceData k := by
  cases h <;> exact ⟨_, rfl, rfl⟩

/-- Every end of the triples (R206 steps 2 to 8). -/
theorem acStep_of_end {sub : Option Nat} {next : Nat} (ha : s.status.abandon = false) (he : s.status.eop = false)
    (hmaxc : MaxcLegal s) (h : AcEnd s.cfg.cbrom s.bs s.cur.bitend.toNat s.bps s.plane.maxc.toNat s.ctx.prevrun.toNat
      s.ctx.prevlev.toNat s.ctx.pos.toNat s.cur.bitpos.toNat sub next) : AcStopped sub next s (acStep p s) := by
  have hend := s.cur.bitend.isLt
  have hflags : ¬(s.status.abandon || s.status.eop) = true := by simp [ha, he]
  cases h with
  | zeros room bits =>
    have ended : payloadEnded s = true := (allZero_eq _ _ _).trans bits
    rw [AcStopped, acStep, if_neg hflags, if_pos ended, State.withBitpos_self]
  | badRun c next bits corrupt =>
    obtain ⟨k, hk, hcause⟩ := corruptionOf_subcode corrupt
    have started : ¬payloadEnded s = true := by rw [payloadEnded, allZero_eq, bits]; decide
    refine ⟨k, hk, ?_⟩
    rw [acStep, if_neg hflags, if_neg started, readCodeword_of_corrupt corrupt, hcause]
    rfl
  | overrun r l code bits room far =>
    refine ⟨.runOverrun, rfl, ?_⟩
    rw [acStep_of_run ha he code bits room, if_pos far]
    rfl
  | reduced r l code bits room inside far =>
    have beyond : (s.ctx.pos.toNat + r + 1) / s.bps ≥ s.plane.maxc.toNat := (Nat.le_div_iff_mul_le (Nat.two_pow_pos _)).2 far
    rw [AcStopped, acStep_of_run ha he code bits room, if_neg (Nat.not_le.2 inside), if_pos beyond]
    rfl
  | badLevel r c next l code bits room near corrupt =>
    obtain ⟨k, hk, hcause⟩ := corruptionOf_subcode corrupt
    have hpos : (s.advance l.length).cur.bitpos.toNat = s.cur.bitpos.toNat + l.length := s.advance_bitpos (by omega)
    have raised := readCodeword_of_corrupt (s := s.advance l.length) (hpos.symm ▸ corrupt)
    refine ⟨k, hk, ?_⟩
    rw [acStep_of_run_inside ha he hmaxc code bits room near, acLevelSign]
    refine (congrArg (Res.bind · _) raised).trans ?_
    rw [hcause]
    rfl
  | noSign r v l₁ l₂ code code' bits near full =>
    rw [holdsBits_append, Bool.and_eq_true] at bits
    rw [List.length_append] at full
    have hpos₁ : (s.advance l₁.length).cur.bitpos.toNat = s.cur.bitpos.toNat + l₁.length := s.advance_bitpos (by omega)
    have hpos₂ : (s.advance (l₁.length + l₂.length)).cur.bitpos.toNat = s.cur.bitend.toNat := by
      rw [s.advance_bitpos (by omega), full]
    have level := readCodeword_of_codes (s := s.advance l₁.length) code' (by rw [hpos₁]; exact bits.2)
      (by rw [hpos₁, State.advance_bitend]; omega)
    rw [State.advance_advance _ _ (by omega)] at level
    refine ⟨.pastEnd, rfl, ?_⟩
    rw [acStep_of_run_inside ha he hmaxc code bits.1 (by omega) near, acLevelSign]
    refine (congrArg (Res.bind · _) level).trans ?_
    rw [Res.bind_ok]
    rcases readBits_cases 1 (s.advance (l₁.length + l₂.length)) with ⟨h, -⟩ | ⟨-, e⟩
    · rw [hpos₂, State.advance_bitend] at h
      omega
    · rw [e, ← full, Nat.add_assoc]
      rfl

end

/-! ### The positions of the triples (R200, R206) -/

theorem lt_of_mem_acPositions {pos np : Nat} {ts : List Triple} (h : np ∈ acPositions pos ts) : pos < np := by
  induction ts generalizing pos with
  | nil => cases h
  | cons t ts ih =>
    rcases List.mem_cons.1 h with rfl | h
    · omega
    · have := ih h
      omega

/-- A plane has no more triples than positions. -/
theorem length_lt_of_acPositions {pos n : Nat} {ts : List Triple} (hpos : pos < n) (h : ∀ np ∈ acPositions pos ts, np < n) :
    pos + ts.length < n := by
  induction ts generalizing pos with
  | nil => exact hpos
  | cons t ts ih =>
    have := ih (h _ (List.mem_cons_self ..)) fun np hnp => h np (List.mem_cons_of_mem _ hnp)
    rw [List.length_cons]
    omega

/-- Two positions of a plane are two words of COEF (R200). -/
theorem coefIndexOf_inj {s : State} (hcfg : s.cfg.wf = true) {i j : Nat} (hi : i < 64 * s.bps) (hj : j < 64 * s.bps)
    (h : coefIndexOf s i = coefIndexOf s j) : i = j := by
  have hdiv {k : Nat} (hk : k < 64 * s.bps) : k / s.bps < 64 := Nat.div_lt_of_lt_mul (by rwa [Nat.mul_comm])
  have hli := scan_lt s (i / s.bps)
  have hlj := scan_lt s (j / s.bps)
  have index : 64 * (i % s.bps) + s.scan (i / s.bps) = 64 * (j % s.bps) + s.scan (j / s.bps) := h
  have block : i % s.bps = j % s.bps := by omega
  have raster : i / s.bps = j / s.bps := scanromAt_inj hcfg s.plane.scansel (hdiv hi) (hdiv hj) (by
    have : s.scan (i / s.bps) = s.scan (j / s.bps) := by omega
    exact this)
  rw [← Nat.div_add_mod i s.bps, ← Nat.div_add_mod j s.bps, block, raster]

/-! ### The state after some triples -/

/-- The context after triples, from any context (R206 step 11). -/
def acContextFrom (c : CoderContext) (ts : List Triple) : CoderContext :=
  { c with
    pos := BitVec.ofNat 32 ((acPositions c.pos.toNat ts).getLast?.getD c.pos.toNat)
    prevrun := BitVec.ofNat 32 ((ts.getLast?.map Triple.run).getD c.prevrun.toNat)
    prevlev := BitVec.ofNat 32 ((ts.getLast?.map Triple.level).getD c.prevlev.toNat) }

theorem acContextFrom_nil (c : CoderContext) : acContextFrom c [] = c := by
  simp [acContextFrom, acPositions]

/-- The decoder after one triple (R206 steps 10 and 11). -/
def acDecoded (p : QMatrix) (t : Triple) (n : Nat) (s : State) : State :=
  storeAc p (s.ctx.pos.toNat + t.run + 1) t.run t.level t.negative (s.advance n)

section
variable (s : State) (p : QMatrix) (t : Triple) (n : Nat)

theorem acDecoded_eq : acDecoded p t n s = { s with
    cur := { s.cur with bitpos := BitVec.ofNat 32 (s.cur.bitpos.toNat + n) }
    ctx := acContextFrom s.ctx [t]
    coef := Memory.write coefUnlisted s.coef (coefIndexOf s (s.ctx.pos.toNat + t.run + 1))
      (dequant s p (s.scan ((s.ctx.pos.toNat + t.run + 1) / s.bps)) t.value) } := by
  simp only [acDecoded, storeAc, acContextFrom, acPositions, List.getLast?_singleton, Option.map_some, Option.getD_some, s32_natCast]
  rfl

variable {s t n}

/-- The numbers the next triple is read with (R206 steps 3 to 7). -/
theorem acDecoded_ctx (hpos : s.ctx.pos.toNat + t.run + 1 < 2 ^ 32) (hlevel : t.level < 2 ^ 32) :
    (acDecoded p t n s).ctx.pos.toNat = s.ctx.pos.toNat + t.run + 1 ∧ (acDecoded p t n s).ctx.prevrun.toNat = t.run ∧
      (acDecoded p t n s).ctx.prevlev.toNat = t.level := by
  rw [acDecoded_eq]
  exact ⟨Nat.mod_eq_of_lt hpos, Nat.mod_eq_of_lt (show t.run < 2 ^ 32 by omega), Nat.mod_eq_of_lt hlevel⟩

theorem acContextFrom_acDecoded (hpos : s.ctx.pos.toNat + t.run + 1 < 2 ^ 32) (hlevel : t.level < 2 ^ 32) (ts : List Triple) :
    acContextFrom (acDecoded p t n s).ctx ts = acContextFrom s.ctx (t :: ts) := by
  obtain ⟨pos, run, level⟩ := acDecoded_ctx p (n := n) hpos hlevel
  rw [acContextFrom, pos, run, level, acDecoded_eq]
  simp only [acContextFrom, acPositions, List.getLast?_cons, Option.map_some, Option.getD_some, Option.getD_map]

end

/-- COEF after the triples: the scaled coefficient of each in the word of its position, every other word as before (R206). -/
structure AcStored (s : State) (p : QMatrix) (ts : List Triple) (coef : Memory 32) : Prop where
  stored : ∀ (j np : Nat) (x : Triple), (acPositions s.ctx.pos.toNat ts)[j]? = some np → ts[j]? = some x →
    Memory.read coefUnlisted coef (coefIndexOf s np) = dequant s p (s.scan (np / s.bps)) x.value
  kept : ∀ k, (∀ np ∈ acPositions s.ctx.pos.toNat ts, k ≠ coefIndexOf s np) → Memory.read coefUnlisted coef k = s.coefAt k

theorem acStored_nil (s : State) (p : QMatrix) : AcStored s p [] s.coef :=
  ⟨fun _ _ _ h => by simp [acPositions] at h, fun _ _ => rfl⟩

/-- A triple before others: they store at later positions, which are other words. -/
theorem AcStored.cons {s : State} {p : QMatrix} {t : Triple} {ts : List Triple} {n : Nat} {coef : Memory 32}
    (hcfg : s.cfg.wf = true) (hw : Memory.wf coefUnlisted s.coef)
    (hpos : (acDecoded p t n s).ctx.pos.toNat = s.ctx.pos.toNat + t.run + 1)
    (hnear : ∀ np ∈ acPositions s.ctx.pos.toNat (t :: ts), np < 64 * s.bps)
    (h : AcStored (acDecoded p t n s) p ts coef) : AcStored s p (t :: ts) coef := by
  obtain ⟨stored, kept⟩ := h
  rw [hpos] at stored kept
  have index (np : Nat) : coefIndexOf (acDecoded p t n s) np = coefIndexOf s np := rfl
  have before (k : Nat) : (acDecoded p t n s).coefAt k = if k = coefIndexOf s (s.ctx.pos.toNat + t.run + 1)
      then dequant s p (s.scan ((s.ctx.pos.toNat + t.run + 1) / s.bps)) t.value else s.coefAt k := by
    rw [acDecoded_eq]
    exact Memory.read_write coefUnlisted hw _ _ _
  refine ⟨fun j np x hj hx => ?_, fun k hk => ?_⟩
  · cases j with
    | zero =>
      cases hj
      cases hx
      rw [← index, kept, index, before, if_pos rfl]
      intro np hnp e
      have := coefIndexOf_inj hcfg (hnear _ (List.mem_cons_self ..)) (hnear np (List.mem_cons_of_mem _ hnp)) e
      have := lt_of_mem_acPositions hnp
      omega
    | succ j => exact (stored j np x hj hx).trans (dequant_congr rfl p _ _)
  · rw [kept k fun np hnp => hk np (List.mem_cons_of_mem _ hnp), before, if_neg (hk _ (List.mem_cons_self ..))]

/-! ### The loop -/

theorem acLoop_of_stopped {s : State} {p : QMatrix} {sub : Option Nat} {next : Nat} (m : Nat)
    (h : AcStopped sub next s (acStep p s)) : AcStopped sub next s (acLoop p (m + 1) s) := by
  cases sub with
  | none =>
    rw [AcStopped] at h ⊢
    rw [acLoop, h, Res.bind_ok]
    rfl
  | some c =>
    obtain ⟨k, hk, h⟩ := h
    refine ⟨k, hk, ?_⟩
    rw [acLoop, h]
    rfl

/-- The decoder overwrites `BITPOS` at the end, so where it was does not matter. -/
theorem AcStopped.congr {s t : State} {sub : Option Nat} {next : Nat} {r : Res Unit} (h : AcStopped sub next s r)
    (e : s.withBitpos 0 = t.withBitpos 0) : AcStopped sub next t r := by
  have same : s.withBitpos next = t.withBitpos next := by
    rw [← State.withBitpos_withBitpos s 0, e, State.withBitpos_withBitpos]
  cases sub with
  | none => exact h.trans (by rw [same])
  | some c =>
    obtain ⟨k, hk, h⟩ := h
    exact ⟨k, hk, h.trans (by rw [same])⟩

/-- The loop over the triples and what ends them (R207). -/
theorem acLoop_of_stream {p : QMatrix} {ts : List Triple} {sub : Option Nat} {next : Nat} (m : Nat) {s : State} {l : List Bool}
    (ha : s.status.abandon = false) (he : s.status.eop = false) (hmaxc : MaxcLegal s) (hbps : s.bps ≤ 2 ^ 17)
    (hcfg : s.cfg.wf = true) (hw : Memory.wf coefUnlisted s.coef)
    (hc : AcStream s.cfg.cbrom s.ctx.prevrun.toNat s.ctx.prevlev.toNat ts l)
    (hnear : ∀ np ∈ acPositions s.ctx.pos.toNat ts, np < s.plane.maxc.toNat * s.bps)
    (hbits : holdsBits s.bs s.cur.bitpos.toNat l = true) (hroom : s.cur.bitpos.toNat + l.length ≤ s.cur.bitend.toNat)
    (hend : AcEnd s.cfg.cbrom s.bs s.cur.bitend.toNat s.bps s.plane.maxc.toNat
      ((ts.getLast?.map Triple.run).getD s.ctx.prevrun.toNat) ((ts.getLast?.map Triple.level).getD s.ctx.prevlev.toNat)
      ((acPositions s.ctx.pos.toNat ts).getLast?.getD s.ctx.pos.toNat) (s.cur.bitpos.toNat + l.length) sub next) :
    ∃ coef, AcStored s p ts coef ∧
      AcStopped sub next { s with ctx := acContextFrom s.ctx ts, coef := coef } (acLoop p (ts.length + m + 1) s) := by
  induction ts generalizing s l with
  | nil =>
    subst hc
    refine ⟨s.coef, acStored_nil s p, ?_⟩
    rw [acContextFrom_nil]
    exact acLoop_of_stopped _ (acStep_of_end ha he hmaxc hend)
  | cons t ts ih =>
    obtain ⟨l₁, l₂, l₃, rfl, hlevel, hrun, hlev, hrest⟩ := hc
    have hword := s.cur.bitend.isLt
    have h64 : s.plane.maxc.toNat * s.bps ≤ 64 * s.bps := Nat.mul_le_mul_right _ hmaxc.2
    have hnear₁ := hnear _ (List.mem_cons_self ..)
    have hsmall := codes_lt hlev
    have split : l₁ ++ l₂ ++ t.negative :: l₃ = l₁ ++ (l₂ ++ [t.negative]) ++ l₃ := by simp
    rw [split, List.length_append] at hroom hend
    rw [split, holdsBits_append, Bool.and_eq_true] at hbits
    have step := acStep_of_triple (p := p) ha he hmaxc hlevel hrun hlev hbits.1 (by omega) hnear₁
    generalize (l₁ ++ (l₂ ++ [t.negative])).length = n at *
    obtain ⟨pos, run, level⟩ := acDecoded_ctx p (s := s) (t := t) (n := n) (by omega) (by omega)
    have context := acContextFrom_acDecoded p (s := s) (t := t) (n := n) (by omega) (by omega) ts
    have bitpos : (acDecoded p t n s).cur.bitpos.toNat = s.cur.bitpos.toNat + n := Nat.mod_eq_of_lt (by omega)
    have later := ih (s := acDecoded p t n s) (l := l₃) ha he hmaxc hbps hcfg
      (by rw [acDecoded_eq]; exact Memory.wf_write _ hw _ _) (by rw [run, level]; exact hrest)
      (by rw [pos]; exact fun np hnp => hnear np (List.mem_cons_of_mem _ hnp)) (by rw [bitpos]; exact hbits.2)
      (by rw [bitpos, Nat.add_assoc]; exact hroom)
      (by
        simp only [acPositions, List.getLast?_cons, Option.map_some, Option.getD_some] at hend
        simp only [pos, run, level, bitpos, Nat.add_assoc, Option.getD_map] at hend ⊢
        exact hend)
    obtain ⟨coef, stored, stopped⟩ := later
    refine ⟨coef, stored.cons hcfg hw pos fun np hnp => Nat.lt_of_lt_of_le (hnear np hnp) h64, ?_⟩
    rw [context] at stopped
    have running : ¬((acDecoded p t n s).status.eop || (acDecoded p t n s).status.abandon) = true := by
      rw [acDecoded_eq]
      simp [ha, he]
    have loop : acLoop p ((t :: ts).length + m + 1) s = acLoop p (ts.length + m + 1) (acDecoded p t n s) := by
      rw [List.length_cons, Nat.add_right_comm ts.length 1 m, acLoop, step, Res.bind_ok]
      exact if_neg running
    rw [loop]
    exact stopped.congr (by rw [acDecoded_eq]; rfl)

/-! ### The command (R207) -/

/-- The start of the AC part (R205). -/
theorem acInit_eq (s : State) : acInit s = { s with ctx := acContext s [], status := { s.status with eop := false } } := rfl

/-- On an abandoned plane the loop decodes nothing (60_exceptions.md R273). -/
theorem acLoop_of_abandoned {s : State} (p : QMatrix) (n : Nat) (ha : s.status.abandon = true) : acLoop p (n + 1) s = .ok () s := by
  have stays : acStep p s = .ok () s := if_pos (by simp [ha])
  rw [acLoop, stays, Res.bind_ok, if_pos (by simp [ha])]

theorem rdacBody_of_legal {s : State} (p : QMatrix) (hcur : CursorsLegal s) (hb : BpsLegal s) (hmaxc : MaxcLegal s) :
    rdacBody p s = acLoop p (63 * s.bps + 1) (acInit s) := by
  rw [rdacBody, checkCursors_ok hcur, Res.bind_ok, checkBps_ok hb, Res.bind_ok, checkMaxc_ok hmaxc, Res.bind_ok]

/-- What stops the loop is what RDAC ends with: `EOP`, or the corruption taken at the `BITPOS` it leaves (R272, R273). -/
theorem runCommand_rdac_of_stopped {s t : State} {p : QMatrix} {sub : Option Nat} {next : Nat} (hrun : Running s)
    (h : AcStopped sub next t (rdacBody p s)) :
    runCommand (.rdac p) s (rdacBody p) = .next (acEnded 0x35 sub next t) := by
  cases sub with
  | none => exact runCommand_ok hrun h
  | some c =>
    obtain ⟨k, rfl, h⟩ := h
    have hop : (Instr.rdac p).opcode.toNat = 0x35 := by cases p <;> rfl
    rw [runCommand_raised hrun h, takeFault_corrupt, hop]
    rfl

/-- The numbers the first triple is read with (R205). -/
theorem acInit_ctx {s : State} (hbps : s.bps ≤ 2 ^ 17) : (acInit s).ctx.pos.toNat = s.bps - 1 ∧
    (acInit s).ctx.prevrun.toNat = s.cfg.runCtxInit.val ∧ (acInit s).ctx.prevlev.toNat = s.cfg.levCtxInit.val :=
  ⟨Nat.mod_eq_of_lt (by omega), Nat.mod_eq_of_lt (by omega), Nat.mod_eq_of_lt (by omega)⟩

/-- Settles O48: the loop from the start of the AC part, over its triples and what ends them; on an abandoned plane it stops at once. -/
theorem rdacDecodes : Obligations.RdacDecodes := by
  constructor
  · intro s p hrun hcur hb hmaxc ha
    exact runCommand_ok hrun ((rdacBody_of_legal p hcur hb hmaxc).trans (acLoop_of_abandoned p _ ha))
  · intro s p ts l sub next hrun hcur hb hmaxc hcfg hw ha hc bps places hnear hbits hroom hend
    have hpow : 0 < s.bps := Nat.two_pow_pos _
    have h64 : s.plane.maxc.toNat * s.bps ≤ 64 * s.bps := Nat.mul_le_mul_right _ hmaxc.2
    obtain ⟨pos, run, level⟩ := acInit_ctx (bps_le hb hcfg)
    have context : acContextFrom (acInit s).ctx ts = acContext s ts := by
      rw [acContextFrom, pos, run, level]
      rfl
    have count : s.bps - 1 + ts.length < 64 * s.bps :=
      length_lt_of_acPositions (by omega) fun np hnp => Nat.lt_of_lt_of_le (hnear np hnp) h64
    obtain ⟨coef, ⟨stored, kept⟩, stopped⟩ := acLoop_of_stream (p := p) (63 * s.bps - ts.length) (s := acInit s) (ts := ts)
      ha rfl hmaxc (bps_le hb hcfg) hcfg hw.coef (by rw [run, level]; exact hc) (by rw [pos]; exact hnear) hbits hroom
      (by rw [pos, run, level]; exact hend)
    rw [show ts.length + (63 * s.bps - ts.length) = 63 * s.bps by omega, context] at stopped
    have stopped := (rdacBody_of_legal p hcur hb hmaxc).symm ▸ stopped
    rw [pos] at stored kept
    exact ⟨_, runCommand_rdac_of_stopped hrun stopped, rfl, stored, kept⟩

end Sys2Proof.Machine

/-! PROOFS. The codebook table (40_codebook_table.md): the registers that read the derived values of CBD (R140), and LDCB (R143). -/

namespace Sys2Proof.Machine

-- In order and not side by side: pending proofs hold memory, and the joined text is near the limit of check.sh.
set_option Elab.async false

open Sys2Proof.Claims

/-! ### The fields of CBD and the values derived from them (10_state.md R29; 40_codebook_table.md R140) -/

section
variable (cbd : BitVec 12) (cb : Codebook)

theorem codebookOfCbd_riceOrder : (codebookOfCbd cbd).riceOrder.toNat = cbd.toNat % 16 := by
  rw [codebookOfCbd, BitVec.extractLsb'_toNat, Nat.shiftRight_zero]

theorem codebookOfCbd_expOrder : (codebookOfCbd cbd).expOrder.toNat = cbd.toNat / 16 % 16 := by
  rw [codebookOfCbd, BitVec.extractLsb'_toNat, Nat.shiftRight_eq_div_pow]

theorem codebookOfCbd_switchBits : (codebookOfCbd cbd).switchBits.toNat = cbd.toNat / 256 := by
  have width := cbd.isLt
  rw [codebookOfCbd, BitVec.extractLsb'_toNat, Nat.shiftRight_eq_div_pow]
  omega

/-- The bounds of `golombBits`, reached where one of the fields is 0 and the other 15. -/
theorem golombBits_mem_Icc : golombBits cb ∈ Set.Icc (-16) 14 := by
  have expo := cb.expOrder.isLt
  have switch := cb.switchBits.isLt
  rw [golombBits, Set.mem_Icc]
  omega

theorem riceMask_lt : riceMask cb < 2 ^ 32 :=
  calc riceMask cb
    _ ≤ 2 ^ cb.riceOrder.toNat := Nat.sub_le ..
    _ < 2 ^ 32 := Nat.pow_lt_pow_right (by decide) (by omega)

end

/-! ### What the three views read -/

/-- A mathematical integer in the range of `i32` is the one its 32-bit pattern reads as (00_scope.md R11). -/
theorem s32_toInt {x : Int} (hlo : -2 ^ 31 ≤ x) (hhi : x < 2 ^ 31) : (s32 x).toInt = x :=
  BitVec.toInt_ofInt_eq_self (by decide) hlo hhi

section
variable (s : State)

theorem readReg_cbgo : (s.readReg .cbgo).toInt = golombOffset (codebookOfCbd s.cbd) :=
  have hlo := golombOffset_ge (codebookOfCbd s.cbd)
  have hhi := golombOffset_le (codebookOfCbd s.cbd)
  s32_toInt (by omega) (by omega)

theorem readReg_cbgb : (s.readReg .cbgb).toInt = golombBits (codebookOfCbd s.cbd) :=
  have ⟨hlo, hhi⟩ := golombBits_mem_Icc (codebookOfCbd s.cbd)
  s32_toInt (by omega) (by omega)

theorem readReg_cbrm : (s.readReg .cbrm).toNat = riceMask (codebookOfCbd s.cbd) :=
  Nat.mod_eq_of_lt (riceMask_lt _)

end

/-- Settles O19: each view reads its derived value, which is in range; the values are then those of the fields of CBD. -/
theorem codebookViews : Obligations.CodebookViews := by
  refine ⟨fun s => ?_, fun cb q hq => golombBits_escape hq⟩
  intro rice expo switch
  have hlo := golombOffset_ge (codebookOfCbd s.cbd)
  have hhi := golombOffset_le (codebookOfCbd s.cbd)
  obtain ⟨hlo', hhi'⟩ := golombBits_mem_Icc (codebookOfCbd s.cbd)
  rw [readReg_cbgo, readReg_cbgb, readReg_cbrm]
  refine ⟨?_, hlo, hhi, ?_, hlo', hhi', ?_⟩
  · rw [golombOffset, codebookOfCbd_expOrder, codebookOfCbd_switchBits, codebookOfCbd_riceOrder]
  · rw [golombBits, codebookOfCbd_expOrder, codebookOfCbd_switchBits]
  · rw [riceMask, codebookOfCbd_riceOrder]

/-! ### LDCB (R141, R143) -/

/-- The entry at an index clamped to the last one is in the table. -/
theorem getElem?_min {α : Type} {n : Nat} (v : Vector α (n + 1)) (k : Nat) :
    v[min k n]? = some (v.get (Fin.ofNat (n + 1) (min k n))) := by
  have hk : min k n < n + 1 := by omega
  rw [Vector.getElem?_eq_getElem hk, Vector.get_eq_getElem]
  simp [Nat.mod_eq_of_lt hk]

/-- The pseudocode of LDCB writes CBD alone, with the fields of the table's codebook where R29 places them. -/
theorem ldcbBody_eq (cls : SymClass) (ctx : BitVec 8) (s : State) :
    let cb := cbromAt s.cfg.cbrom cls ctx.toNat
    ldcbBody cls ctx s = .ok () { s with
      cbd := BitVec.ofNat 12 (256 * cb.switchBits.toNat + 16 * cb.expOrder.toNat + cb.riceOrder.toNat) } := by
  intro cb
  rw [ldcbBody, cbdOfCodebook_eq, State.withCbd]

/-- Settles O18: class by class the clamped context is an index of the table, and the pseudocode stores the codebook there. -/
theorem ldcbLoadsTable : Obligations.LdcbLoadsTable := by
  intro s cls ctx hrun
  refine ⟨cbromAt s.cfg.cbrom cls ctx.toNat, ?_, runCommand_ok (i := .ldcb cls ctx) hrun (ldcbBody_eq cls ctx s)⟩
  cases cls with
  | firstDC => rfl
  | dcDelta => exact getElem?_min s.cfg.cbrom.dcDelta ctx.toNat
  | acRun => exact getElem?_min s.cfg.cbrom.acRun ctx.toNat
  | acLevel => exact getElem?_min s.cfg.cbrom.acLevel ctx.toNat

end Sys2Proof.Machine

/-! PROOFS. The codewords of a codebook as a bijection (41_entropy_coder.md R153 to R156, R160): which values have one and what range they
span, then RDCW and WRCW as inverses of each other. -/

namespace Sys2Proof.Machine

-- In order and not side by side: pending proofs hold memory, and the joined text is near the limit of check.sh.
set_option Elab.async false

open Sys2Proof.Claims

/-! ### Which values have a codeword (R153, R155) -/

section
variable (cb : Codebook)

/-- The exponent of `vmax` is at least `expOrder`: with `riceOrder` and `switchBits` up to 15 the Rice form always fits. -/
theorem expOrder_le_vmaxExponent : (cb.expOrder.toNat : Int) ≤ min 17 (16 + golombBits cb) := by
  have expo := cb.expOrder.isLt
  have switch := cb.switchBits.isLt
  unfold golombBits
  omega

/-- Every value of the Rice form is representable. -/
theorem riceLimit_le_vmax : ((cb.switchBits.toNat + 1) * 2 ^ cb.riceOrder.toNat : Nat) ≤ vmax cb + 1 := by
  have hexp := expOrder_le_vmaxExponent cb
  have hpow : (2 : Int) ^ cb.expOrder.toNat ≤ 2 ^ (min 17 (16 + golombBits cb)).toNat := by
    exact_mod_cast Nat.pow_le_pow_right (by decide) (by omega)
  unfold vmax golombOffset
  push_cast
  omega

/-- The limits on an escape codeword, 16 suffix bits and 15 zeros, are one limit on the value (R155). -/
theorem escape_tooLarge_iff {v : Int} (h : ((cb.switchBits.toNat + 1) * 2 ^ cb.riceOrder.toNat : Nat) ≤ v) :
    (Nat.log2 (v + golombOffset cb).toNat > escMaxBits ∨
      (Nat.log2 (v + golombOffset cb).toNat - golombBits cb).toNat > lookahead - 1) ↔ vmax cb < v := by
  have hexp := expOrder_le_vmaxExponent cb
  have hpos : (0 : Int) < 2 ^ cb.expOrder.toNat := by positivity
  have hoff : golombOffset cb = 2 ^ cb.expOrder.toNat - ((cb.switchBits.toNat + 1) * 2 ^ cb.riceOrder.toNat : Nat) := by
    unfold golombOffset
    push_cast
    rfl
  obtain ⟨w, hw⟩ : ∃ w : Nat, v + golombOffset cb = w := Int.eq_ofNat_of_zero_le (by omega)
  have hlog := Nat.le_log2 (n := w) (k := (min 17 (16 + golombBits cb)).toNat) (by omega)
  have hcast : ((2 ^ (min 17 (16 + golombBits cb)).toNat : Nat) : Int) = 2 ^ (min 17 (16 + golombBits cb)).toNat := by push_cast; rfl
  rw [hw, Int.toNat_natCast]
  unfold vmax escMaxBits lookahead
  rw [← hcast]
  constructor
  · intro hl
    have := hlog.1 (by omega)
    omega
  · intro hv
    have := hlog.2 (by omega)
    omega

/-- All that the writer's choice of a codeword can answer, by the value alone (R153, R155). -/
theorem codewordOf_cases (v : Int) :
    (v < 0 ∧ codewordOf cb v = .error .negative) ∨ (0 ≤ v ∧ v ≤ vmax cb ∧ ∃ c, codewordOf cb v = .ok c) ∨
    (0 ≤ v ∧ vmax cb < v ∧ codewordOf cb v = .error .tooLarge) := by
  have hrice := riceLimit_le_vmax cb
  unfold codewordOf
  by_cases hneg : v < 0
  · exact .inl ⟨hneg, if_pos hneg⟩
  rw [if_neg hneg]
  by_cases hlow : v < ((cb.switchBits.toNat + 1) * 2 ^ cb.riceOrder.toNat : Nat)
  · exact .inr (.inl ⟨by omega, by omega, _, if_pos hlow⟩)
  rw [if_neg hlow]
  have hlarge := escape_tooLarge_iff cb (v := v) (by omega)
  by_cases hmax : vmax cb < v
  · exact .inr (.inr ⟨by omega, hmax, if_pos (hlarge.2 hmax)⟩)
  · exact .inr (.inl ⟨by omega, by omega, _, if_neg (mt hlarge.1 hmax)⟩)

variable {cb}

theorem codewordOf_of_neg {v : Int} (h : v < 0) : codewordOf cb v = .error .negative := if_pos h

/-- A representable value has a codeword. -/
theorem exists_isCode {v : Int} (h0 : 0 ≤ v) (h : v ≤ vmax cb) : ∃ q n x, IsCode cb q n x v := by
  rcases codewordOf_cases cb v with ⟨hneg, -⟩ | ⟨-, -, c, hc⟩ | ⟨-, hlarge, -⟩
  · omega
  · exact ⟨_, _, _, codewordOf_isCode hc⟩
  · omega

theorem codewordOf_of_vmax_lt {v : Int} (h0 : 0 ≤ v) (h : vmax cb < v) : codewordOf cb v = .error .tooLarge := by
  rcases codewordOf_cases cb v with ⟨hneg, -⟩ | ⟨-, hle, -⟩ | ⟨-, -, e⟩
  · omega
  · omega
  · exact e

/-- A codeword is at most 32 bits long (30_encoding.md R110). -/
theorem isCode_length_le {q n x : Nat} {v : Int} (h : IsCode cb q n x v) : q + 1 + n ≤ 32 := by
  have hq := h.prefixLegal
  have hn := isCode_bits_le h
  omega

end

/-! ### Reading and writing back (R156) -/

/-- Bits stored where they already stand leave BS as it is. -/
theorem storesBits_eq_of_holdsBits {bs bs' : Memory 8} {a : Nat} {l : List Bool} (h : StoresBits bs bs' a l)
    (hw : Memory.wf bsUnlisted bs) (hw' : Memory.wf bsUnlisted bs') (hb : holdsBits bs a l = true) : bs' = bs := by
  have same : ∀ b, bsBit bs' b = bsBit bs b := by
    intro b
    by_cases hin : b < a ∨ a + l.length ≤ b
    · exact h.bits b hin
    · obtain ⟨i, rfl⟩ : ∃ i, b = a + i := Nat.exists_eq_add_of_le (by omega)
      have hi : i < l.length := by omega
      rw [holdsBits_iff.1 h.stored i hi, holdsBits_iff.1 hb i hi]
  exact Memory.ext_read bsUnlisted hw' hw fun x => bsByte_ext fun k _ => same _

/-- A codeword's value is its 32-bit pattern read as `i32` (R160). -/
theorem codes_toInt {cb : Codebook} {v : Int} {l : List Bool} (h : Codes cb v l) : (BitVec.ofInt 32 v).toInt = v := by
  obtain ⟨q, n, x, hc, -⟩ := h
  have ⟨hlo, hhi⟩ := isCode_bounds hc
  exact s32_toInt (by omega) (by omega)

/-- RDCW on what WRCW wrote. -/
theorem rdcw_after_wrcw {s : State} (x : Word) (hrun : Running s) (hw : s.memoriesWf) (hcur : CursorsLegal s)
    (hroom : s.cur.bitpos.toNat + 32 ≤ s.cur.bitend.toNat) (h0 : 0 ≤ s.val.toInt) (h : s.val.toInt ≤ vmax (codebookOfCbd s.cbd)) :
    ∃ t u, exec .wrcw s = .next t ∧ exec .rdcw { t with val := x, cur := { t.cur with bitpos := s.cur.bitpos } } = .next u ∧
      u.val = s.val ∧ u.cur = t.cur ∧ Running u := by
  obtain ⟨q, n, y, hc⟩ := exists_isCode h0 h
  have hfits : s.cur.bitpos.toNat + (q + 1 + n) ≤ s.cur.bitend.toNat := by
    have := isCode_length_le hc
    omega
  obtain ⟨bs, hexec, hstores, -⟩ := exec_wrcw_of_isCode hrun hcur hw.bs hc hfits
  have hread := rdcwReadsCodeword { s with bs := bs, val := x } s.val.toInt (codeword q n y) hrun hcur ⟨q, n, y, hc, rfl⟩
    hstores.stored ((codeword_length q n y).symm ▸ hfits)
  rw [codeword_length, BitVec.ofInt_toInt] at hread
  exact ⟨_, _, hexec, hread, rfl, rfl, hrun⟩

/-- WRCW on what RDCW accepted. -/
theorem wrcw_after_rdcw {s : State} {v : Int} {l : List Bool} (hrun : Running s) (hw : s.memoriesWf) (hcur : CursorsLegal s)
    (hc : Codes (codebookOfCbd s.cbd) v l) (hb : holdsBits s.bs s.cur.bitpos.toNat l = true)
    (hroom : s.cur.bitpos.toNat + l.length ≤ s.cur.bitend.toNat) :
    ∃ t, exec .rdcw s = .next t ∧ t.val.toInt = v ∧
      exec .wrcw { t with cur := { t.cur with bitpos := s.cur.bitpos } } = .next t := by
  have hval := codes_toInt hc
  have hread := rdcwReadsCodeword s v l hrun hcur hc hb hroom
  obtain ⟨q, n, x, hc, rfl⟩ := hc
  rw [codeword_length] at hroom hread
  rw [← hval] at hc
  obtain ⟨bs, hexec, hstores, hwf⟩ := exec_wrcw_of_isCode (s := { s with val := BitVec.ofInt 32 v }) hrun hcur hw.bs hc hroom
  rw [storesBits_eq_of_holdsBits hstores hw.bs hwf hb] at hexec
  exact ⟨_, hread, hval, hexec⟩

/-- Settles O26: the two round trips, and one codeword for one value. -/
theorem codewordBijection : Obligations.CodewordBijection := by
  refine ⟨fun s x hrun hw hbuf hroom hend => rdcw_after_wrcw x hrun hw ⟨hbuf, hend, by omega⟩ hroom,
    fun s v l => wrcw_after_rdcw, ?_⟩
  rintro cb v _ _ ⟨q, n, x, hc, rfl⟩ ⟨q', n', x', hc', rfl⟩
  obtain ⟨rfl, rfl, rfl⟩ := isCode_unique hc hc'
  rfl

end Sys2Proof.Machine

/-! PROOFS. The refusals (41_entropy_coder.md R150 to R154; 42_header_codec.md R170, R176, R179 to R181; 43_coefficient_coder.md R211): the
preconditions the commands share, the checks of the writers and NXSL, and RDCW where no codeword stands. -/

namespace Sys2Proof.Machine

-- In order and not side by side: pending proofs hold memory, and the joined text is near the limit of check.sh.
set_option Elab.async false

open Sys2Proof.Claims

/-! ### A command that refuses before it changes anything (60_exceptions.md R269, R270) -/

/-- The opcodes of the stream commands: those that check the cursors. -/
abbrev streamOpcodes : List Nat := [0x11, 0x12, 0x15, 0x31, 0x32, 0x34, 0x35, 0x38, 0x39]
/-- The opcodes of the coefficient commands that check `L2BPS` after the cursors. -/
abbrev coefficientOpcodes : List Nat := [0x31, 0x32, 0x34, 0x35, 0x38, 0x39]
/-- The opcodes of the AC commands that check `MAXC` after `L2BPS`. -/
abbrev acOpcodes : List Nat := [0x34, 0x35, 0x39]
/-- The opcodes of the header commands: those that check `BS_LEN`. -/
abbrev headerOpcodes : List Nat := [0x20, 0x21, 0x22, 0x23, 0x24, 0x25, 0x28, 0x29, 0x2A]

section
variable {i : Instr} {s : State} (r : Raise)

/-- SELPL is the only command with an illegal operand (30_encoding.md R104). -/
theorem wellFormed_of_opcode_ne (h : i.opcode.toNat ≠ 0x25) : WellFormed i = true := by
  cases i
  case selpl => exact absurd rfl h
  all_goals rfl

/-- A raised fault other than `CorruptSliceData`, with nothing written before it. -/
theorem exec_of_body_raised (hwf : WellFormed i = true) (hsys : i.opcode.toNat ∉ [0x01, 0x02]) (hrun : Running s)
    (hbody : Instr.body i s = .raised r s) (hr : r.recoverable = false) :
    exec i s = .next (fatal i.opcode.toNat r.code.toNat r.subcode.toNat (recordCursor i.opcode.toNat s s) s) := by
  have hsrst : i ≠ .srst := by
    rintro rfl
    exact hsys (by decide)
  have hclrf : i ≠ .clrf := by
    rintro rfl
    exact hsys (by decide)
  rw [exec_eq_runCommand hwf hsrst hclrf, runCommand_raised hrun hbody, takeFault_fatal _ _ _ hr, faultCursor_eq]

/-- Such a fault of a stream command records `BITPOS`. -/
theorem exec_stream_of_body_raised (hop : i.opcode.toNat ∈ streamOpcodes) (hrun : Running s)
    (hbody : Instr.body i s = .raised r s) (hr : r.recoverable = false) :
    exec i s = .next (fatal i.opcode.toNat r.code.toNat r.subcode.toNat s.cur.bitpos s) := by
  have disjoint : ∀ op ∈ streamOpcodes, op ≠ 0x25 ∧ op ∉ [0x01, 0x02] := by decide
  have cursor : ∀ op ∈ streamOpcodes, recordCursor op s s = s.cur.bitpos := by simp [recordCursor]
  obtain ⟨hselpl, hsys⟩ := disjoint _ hop
  rw [exec_of_body_raised r (wellFormed_of_opcode_ne hselpl) hsys hrun hbody hr, cursor _ hop]

/-- Such a fault of a header command records `BYTEPTR`. -/
theorem exec_header_of_body_raised (hwf : WellFormed i = true) (hop : i.opcode.toNat ∈ headerOpcodes) (hrun : Running s)
    (hbody : Instr.body i s = .raised r s) (hr : r.recoverable = false) :
    exec i s = .next (fatal i.opcode.toNat r.code.toNat r.subcode.toNat s.cur.byteptr s) := by
  have disjoint : ∀ op ∈ headerOpcodes, op ∉ [0x01, 0x02] := by decide
  have cursor : ∀ op ∈ headerOpcodes, recordCursor op s s = s.cur.byteptr := by simp [recordCursor]
  rw [exec_of_body_raised r hwf (disjoint _ hop) hrun hbody hr, cursor _ hop]

end

/-! ### The preconditions (R150, R170, R211) -/

section
variable {i : Instr}

/-- A stream command checks the cursors first. -/
theorem body_checks_cursors (h : i.opcode.toNat ∈ streamOpcodes) : ∃ f, ∀ s, Instr.body i s = (checkCursors s).bind f := by
  cases i
  case rdcw | wrcw | alignw | dcsym | rddc | acsym | rdac | wrdc | wrac => exact ⟨_, fun _ => rfl⟩
  all_goals exact absurd h (by simp [Instr.opcode])

/-- A coefficient command checks `L2BPS` next. -/
theorem body_checks_bps (h : i.opcode.toNat ∈ coefficientOpcodes) :
    ∃ f, ∀ s, Instr.body i s = (checkCursors s).bind fun _ s => (checkBps s).bind f := by
  cases i
  case dcsym | rddc | acsym | rdac | wrdc | wrac => exact ⟨_, fun _ => rfl⟩
  all_goals exact absurd h (by simp [Instr.opcode])

/-- An AC command checks `MAXC` last. -/
theorem body_checks_maxc (h : i.opcode.toNat ∈ acOpcodes) :
    ∃ f, ∀ s, Instr.body i s = (checkCursors s).bind fun _ s => (checkBps s).bind fun _ s => (checkMaxc s).bind f := by
  cases i
  case acsym | rdac | wrac => exact ⟨_, fun _ => rfl⟩
  all_goals exact absurd h (by simp [Instr.opcode])

/-- A header command checks `BS_LEN` first. -/
theorem body_checks_buffer (h : i.opcode.toNat ∈ headerOpcodes) : ∃ f, ∀ s, Instr.body i s = (checkBuffer s).bind f := by
  cases i
  case probe | pfrm | ppic | nxsl | pslc | selpl | wfrm | wpic | wslc => exact ⟨_, fun _ => rfl⟩
  all_goals exact absurd h (by simp [Instr.opcode])

end

section
variable {s : State}

theorem checkCursors_raised (h : ¬CursorsLegal s) : checkCursors s = .raised (.badOperand .cursor) s := by
  rcases checkCursors_cases s with ⟨hl, -⟩ | ⟨-, e⟩
  · exact absurd hl h
  · exact e

theorem checkBps_raised (h : ¬BpsLegal s) : checkBps s = .raised (.badOperand .bps) s := by
  rcases checkBps_cases s with ⟨hl, -⟩ | ⟨-, e⟩
  · exact absurd hl h
  · exact e

theorem checkMaxc_raised (h : ¬MaxcLegal s) : checkMaxc s = .raised (.badOperand .maxc) s := by
  rcases checkMaxc_cases s with ⟨hl, -⟩ | ⟨-, e⟩
  · exact absurd hl h
  · exact e

theorem checkBuffer_raised (h : ¬BufferLegal s) : checkBuffer s = .raised (.badOperand .cursor) s := by
  rcases checkBuffer_cases s with ⟨hl, -⟩ | ⟨-, e⟩
  · exact absurd hl h
  · exact e

end

/-- Settles O11: each precondition is a check the pseudocode begins with, after the ones named before it. -/
theorem operandFaults : Obligations.OperandFaults := by
  have isStream : ∀ op ∈ coefficientOpcodes, op ∈ streamOpcodes := by decide
  have isCoefficient : ∀ op ∈ acOpcodes, op ∈ coefficientOpcodes := by decide
  intro s i hrun
  refine ⟨fun hop hcur => ?_, fun hop hcur hbps => ?_, fun hop hcur hbps hmaxc => ?_, fun hwf hop hbuf => ?_⟩
  · obtain ⟨f, hf⟩ := body_checks_cursors hop
    exact exec_stream_of_body_raised (.badOperand .cursor) hop hrun (by rw [hf, checkCursors_raised hcur, Res.bind_raised]) rfl
  · obtain ⟨f, hf⟩ := body_checks_bps hop
    exact exec_stream_of_body_raised (.badOperand .bps) (isStream _ hop) hrun
      (by rw [hf, checkCursors_ok hcur, Res.bind_ok, checkBps_raised hbps, Res.bind_raised]) rfl
  · obtain ⟨f, hf⟩ := body_checks_maxc hop
    exact exec_stream_of_body_raised (.badOperand .maxc) (isStream _ (isCoefficient _ hop)) hrun
      (by rw [hf, checkCursors_ok hcur, Res.bind_ok, checkBps_ok hbps, Res.bind_ok, checkMaxc_raised hmaxc, Res.bind_raised]) rfl
  · obtain ⟨f, hf⟩ := body_checks_buffer hop
    exact exec_header_of_body_raised (.badOperand .cursor) hwf hop hrun (by rw [hf, checkBuffer_raised hbuf, Res.bind_raised]) rfl

/-! ### RDCW where no codeword stands (R151, R152) -/

/-- Settles O21: the reader's corruption, taken as the mode says. -/
theorem rdcwCorrupt : Obligations.RdcwCorrupt := by
  intro s sub pos hrun hcur hc
  have hbody : rdcwBody s = .raised (corruptionOf sub) (s.withBitpos pos) := by
    rw [rdcwBody, checkCursors_ok hcur, Res.bind_ok, readCodeword_of_corrupt hc, Res.bind_raised]
  obtain ⟨k, hsub, hk⟩ := corruptionOf_subcode hc
  have htake := takeFault_corrupt .rdcw s (s.withBitpos pos) k
  rw [hsub, ← hk] at htake
  exact (runCommand_raised hrun hbody).trans (congrArg _ htake)

/-! ### WRCW (R153, R154) -/

/-- WRCW on a value with no codeword. -/
theorem exec_wrcw_of_codewordOf_error {s : State} {e : RepresentSub} (hrun : Running s) (hcur : CursorsLegal s)
    (h : codewordOf (codebookOfCbd s.cbd) s.val.toInt = .error e) :
    exec .wrcw s = .next (fatal 0x12 5 (Raise.notRepresentable e).subcode.toNat s.cur.bitpos s) := by
  refine exec_stream_of_body_raised (i := .wrcw) (.notRepresentable e) (by decide) hrun ?_ rfl
  show wrcwBody s = _
  rw [wrcwBody, checkCursors_ok hcur, Res.bind_ok, writeCodeword, h]

/-- WRCW on a codeword that does not fit. -/
theorem exec_wrcw_of_noRoom {s : State} {l : List Bool} (hrun : Running s) (hcur : CursorsLegal s)
    (h : Codes (codebookOfCbd s.cbd) s.val.toInt l) (hroom : s.cur.bitend.toNat < s.cur.bitpos.toNat + l.length) :
    exec .wrcw s = .next (fatal 0x12 3 2 s.cur.bitpos s) := by
  obtain ⟨q, n, x, hc, rfl⟩ := h
  rw [codeword_length] at hroom
  refine exec_stream_of_body_raised (i := .wrcw) (.bufferTooSmall .stream) (by decide) hrun ?_ rfl
  show wrcwBody s = _
  rw [wrcwBody, checkCursors_ok hcur, Res.bind_ok, writeCodeword, codewordOf_of_isCode hc]
  simp only
  exact if_pos (by omega)

/-! ### The header writers (42_header_codec.md R179 to R181) and NXSL (R176) -/

section
variable {s : State}

/-- A field of the frame header that the parser would refuse (R172 steps 4 and 5). -/
abbrev FieldRefused (h : FrameHeader) : Prop :=
  h.width = 0 ∨ 0x8000 ≤ h.width.toNat ∨ h.height = 0 ∨ 0x8000 ≤ h.height.toNat ∨
    h.flags1.toNat / 4 % 4 = 3 ∨ h.flags1.toNat / 64 < 2

theorem fieldRefused_iff_toNat (h : FrameHeader) : FieldRefused h ↔ h.width.toNat = 0 ∨ 0x8000 ≤ h.width.toNat ∨
    h.height.toNat = 0 ∨ 0x8000 ≤ h.height.toNat ∨ h.flags1.toNat / 4 % 4 = 3 ∨ h.flags1.toNat / 64 < 2 := by
  have zero (x : BitVec 16) : x = 0 ↔ x.toNat = 0 := BitVec.toNat_inj.symm
  rw [FieldRefused, zero, zero]

/-- The first check of WFRM fails on such a field (R179 step 1). -/
theorem fieldRefused_iff (h : FrameHeader) :
    (!(dimensionLegal h.width.toNat && dimensionLegal h.height.toNat && typesLegal h.flags1)) = true ↔ FieldRefused h := by
  rw [Bool.not_eq_true', ← Bool.not_eq_true, Bool.and_eq_true, Bool.and_eq_true, dimensionLegal_iff, dimensionLegal_iff,
    typesLegal_iff, fieldRefused_iff_toNat]
  omega

/-- Where the fields are legal, what WFRM lacks is room (R179 step 2). -/
theorem noRoom_of_not_frameWritable (h : ¬FrameWritable s) (hfield : ¬FieldRefused s.fh) :
    s.cur.frameBase.toNat + 8 + writtenHdrsize s.fh.flags2 > s.cur.bsLen.toNat := by
  rw [fieldRefused_iff_toNat] at hfield
  rw [writtenHdrsize_eq]
  omega

/-- WFRM on what fails a check of R179. -/
theorem exec_wfrm_of_not_writable (hrun : Running s) (hbuf : BufferLegal s) (h : ¬FrameWritable s) :
    exec .wfrm s = .next (
      if FieldRefused s.fh then fatal 0x28 7 6 s.cur.byteptr s else fatal 0x28 3 1 s.cur.byteptr s) := by
  by_cases hfield : FieldRefused s.fh
  · have hbody : wfrmBody s = .raised (.badOperand .field) s := by
      rw [wfrmBody, checkBuffer_ok hbuf, Res.bind_ok, if_pos ((fieldRefused_iff _).2 hfield)]
    rw [if_pos hfield, exec_header_of_body_raised (i := .wfrm) _ rfl (by decide) hrun hbody rfl]
    rfl
  · have hbody : wfrmBody s = .raised (.bufferTooSmall .header) s := by
      rw [wfrmBody, checkBuffer_ok hbuf, Res.bind_ok, if_neg (mt (fieldRefused_iff _).1 hfield),
        if_pos (noRoom_of_not_frameWritable h hfield)]
    rw [if_neg hfield, exec_header_of_body_raised (i := .wfrm) _ rfl (by decide) hrun hbody rfl]
    rfl

/-- The first check of R180 that fails. -/
theorem checkWritePicture_of_not_writable (h : ¬PictureWritable s) :
    checkWritePicture s.cur.byteptr.toNat s = .raised (
      if s.ph.hdrsize ≠ 8 then .badOperand .hdrsize
      else if s.cfg.maxSlices < s.ph.slicecount.toNat then .bufferTooSmall .sst
      else if s.ph.slicecount.toNat ≠ slicesPerRow s.fh.mbw (s.ph.l2byte.toNat / 16) * s.ph.mbh.toNat then .badOperand .tiling
      else .bufferTooSmall .header) s := by
  have hdr : s.ph.hdrsize.toNat ≠ 8 ↔ s.ph.hdrsize ≠ 8 := not_congr (BitVec.toNat_inj (y := 8))
  simp only [checkWritePicture, log2SliceMbWidth_eq, hdr]
  split_ifs with hhdr hsst htiling hroom
  · rfl
  · rfl
  · rfl
  · rfl
  · exact absurd ⟨not_not.1 hhdr, Nat.not_lt.1 hsst, not_not.1 htiling, Nat.not_lt.1 hroom⟩ h

theorem wpicBody_of_check_raised {r : Raise} (hbuf : BufferLegal s)
    (h : checkWritePicture s.cur.byteptr.toNat s = .raised r s) : wpicBody s = .raised r s := by
  rw [wpicBody, checkBuffer_ok hbuf, Res.bind_ok, h, Res.bind_raised]

/-- WPIC on what fails a check of R180. -/
theorem exec_wpic_of_not_writable (hrun : Running s) (hbuf : BufferLegal s) (h : ¬PictureWritable s) :
    exec .wpic s = .next (
      if s.ph.hdrsize ≠ 8 then fatal 0x29 7 5 s.cur.byteptr s
      else if s.cfg.maxSlices < s.ph.slicecount.toNat then fatal 0x29 3 3 s.cur.byteptr s
      else if s.ph.slicecount.toNat ≠ slicesPerRow s.fh.mbw (s.ph.l2byte.toNat / 16) * s.ph.mbh.toNat then
        fatal 0x29 7 7 s.cur.byteptr s
      else fatal 0x29 3 1 s.cur.byteptr s) := by
  have hbody := wpicBody_of_check_raised hbuf (checkWritePicture_of_not_writable h)
  rw [exec_header_of_body_raised (i := .wpic) _ rfl (by decide) hrun hbody (by split_ifs <;> rfl)]
  split_ifs <;> rfl

/-- The first check of R181 that fails. -/
theorem checkWriteSlice_of_not_writable (h : ¬SliceWritable s) :
    checkWriteSlice s = .raised (
      if s.sched.idx = 0 then .badOperand .noSlice
      else if s.cfg.maxSlices < s.sched.idx.toNat then .bufferTooSmall .sst
      else if s.slice.hdrsize ≠ 6 ∧ s.slice.hdrsize ≠ 8 then .badOperand .hdrsize
      else if 65535 < sliceSize s.slice then .badOperand .field
      else .bufferTooSmall .header) s := by
  have idx : s.sched.idx.toNat = 0 ↔ s.sched.idx = 0 := BitVec.toNat_inj (y := 0)
  have hdr : s.slice.hdrsize.toNat ≠ 6 ∧ s.slice.hdrsize.toNat ≠ 8 ↔ s.slice.hdrsize ≠ 6 ∧ s.slice.hdrsize ≠ 8 :=
    and_congr (not_congr (BitVec.toNat_inj (y := 6))) (not_congr (BitVec.toNat_inj (y := 8)))
  have size : writtenSliceSize s.slice = sliceSize s.slice := rfl
  simp only [checkWriteSlice, idx, hdr, size]
  by_cases hidx : s.sched.idx = 0
  · rw [if_pos hidx, if_pos hidx]
  have hpos : 1 ≤ s.sched.idx.toNat := Nat.pos_of_ne_zero (mt idx.1 hidx)
  have sst : s.sched.idx.toNat - 1 ≥ s.cfg.maxSlices ↔ s.cfg.maxSlices < s.sched.idx.toNat := by omega
  simp only [sst, if_neg hidx]
  split_ifs with hsst hhdr hsize hroom
  · rfl
  · rfl
  · rfl
  · rfl
  · exact absurd ⟨hpos, Nat.not_lt.1 hsst, by tauto, Nat.not_lt.1 hsize, Nat.not_lt.1 hroom⟩ h

theorem wslcBody_of_check_raised {r : Raise} (hbuf : BufferLegal s) (h : checkWriteSlice s = .raised r s) :
    wslcBody s = .raised r s := by
  rw [wslcBody, checkBuffer_ok hbuf, Res.bind_ok, h, Res.bind_raised]

/-- WSLC on what fails a check of R181. -/
theorem exec_wslc_of_not_writable (hrun : Running s) (hbuf : BufferLegal s) (h : ¬SliceWritable s) :
    exec .wslc s = .next (
      if s.sched.idx = 0 then fatal 0x2A 7 4 s.cur.byteptr s
      else if s.cfg.maxSlices < s.sched.idx.toNat then fatal 0x2A 3 3 s.cur.byteptr s
      else if s.slice.hdrsize ≠ 6 ∧ s.slice.hdrsize ≠ 8 then fatal 0x2A 7 5 s.cur.byteptr s
      else if 65535 < sliceSize s.slice then fatal 0x2A 7 6 s.cur.byteptr s
      else fatal 0x2A 3 1 s.cur.byteptr s) := by
  have hbody := wslcBody_of_check_raised hbuf (checkWriteSlice_of_not_writable h)
  rw [exec_header_of_body_raised (i := .wslc) _ rfl (by decide) hrun hbody (by split_ifs <;> rfl)]
  split_ifs <;> rfl

/-- A width of the schedule is a power of two (R176 step 3). -/
theorem scheduleWidth_eq_false {c : Nat} (h : ∀ k, c ≠ 2 ^ k) : scheduleWidth c = false := by
  simp [scheduleWidth, h]

theorem nxslBody_of_index_lt (hbuf : BufferLegal s) (h : s.sched.idx.toNat < s.ph.slicecount.toNat) :
    nxslBody s = if s.sched.idx.toNat ≥ s.cfg.maxSlices then .raised (.bufferTooSmall .sst) s
      else if s.fh.mbw = 0 ∨ s.sched.mbx.toNat ≥ s.fh.mbw ∨ !scheduleWidth s.sched.cur.toNat then .raised (.badOperand .tiling) s
      else .ok () (deliverSlice (nextWidth s) s) := by
  rw [nxslBody, checkBuffer_ok hbuf, Res.bind_ok, if_neg (Nat.not_le.2 h)]

/-- NXSL beyond the entries of SST (R176 step 2). -/
theorem exec_nxsl_of_maxSlices_le (hrun : Running s) (hbuf : BufferLegal s) (h : s.sched.idx.toNat < s.ph.slicecount.toNat)
    (hsst : s.cfg.maxSlices ≤ s.sched.idx.toNat) : exec .nxsl s = .next (fatal 0x23 3 3 s.cur.byteptr s) :=
  exec_header_of_body_raised (i := .nxsl) (.bufferTooSmall .sst) rfl (by decide) hrun
    ((nxslBody_of_index_lt hbuf h).trans (if_pos hsst)) rfl

/-- NXSL on a schedule that is not sound (R176 step 3). -/
theorem exec_nxsl_of_unsound (hrun : Running s) (hbuf : BufferLegal s) (h : s.sched.idx.toNat < s.ph.slicecount.toNat)
    (hsst : s.sched.idx.toNat < s.cfg.maxSlices) (hunsound : s.fh.mbw ≤ s.sched.mbx.toNat ∨ ∀ k, s.sched.cur.toNat ≠ 2 ^ k) :
    exec .nxsl s = .next (fatal 0x23 7 7 s.cur.byteptr s) := by
  have hbody := (nxslBody_of_index_lt hbuf h).trans (if_neg (Nat.not_le.2 hsst))
  have hcond : s.fh.mbw = 0 ∨ s.sched.mbx.toNat ≥ s.fh.mbw ∨ (!scheduleWidth s.sched.cur.toNat) = true := by
    rcases hunsound with hrow | hwidth
    · exact .inr (.inl hrow)
    · exact .inr (.inr (by rw [scheduleWidth_eq_false hwidth]; rfl))
  rw [if_pos hcond] at hbody
  exact exec_header_of_body_raised (i := .nxsl) (.badOperand .tiling) rfl (by decide) hrun hbody rfl

end

/-- Settles O12: each command in turn. -/
theorem writerFaults : Obligations.WriterFaults :=
  ⟨fun _ => exec_wfrm_of_not_writable, fun _ => exec_wpic_of_not_writable,
    fun _ hrun hbuf hidx => ⟨exec_nxsl_of_maxSlices_le hrun hbuf hidx, exec_nxsl_of_unsound hrun hbuf hidx⟩,
    fun _ => exec_wslc_of_not_writable, fun _ _ => exec_wrcw_of_noRoom⟩

end Sys2Proof.Machine

/-! PROOFS. The rest of the entropy coder (41_entropy_coder.md): the range of the reader (R160), the values WRCW can write (R155), the
signed mapping (R157, R158) and ALIGNW (R159). -/

namespace Sys2Proof.Machine

-- In order and not side by side: pending proofs hold memory, and the joined text is near the limit of check.sh.
set_option Elab.async false

open Sys2Proof.Claims

/-! ### The range of the reader (R160) -/

section
variable {cb : Codebook} {q n x : Nat} {v : Int}

/-- The Rice form: at most 15 zeros over at most 15 suffix bits. -/
theorem isCode_rice_le (h : IsCode cb q n x v) (hq : q ≤ cb.switchBits.toNat) : v ≤ 524287 := by
  obtain ⟨hn, rfl⟩ := h.riceForm hq
  have hn15 : n ≤ 15 := by have := cb.riceOrder.isLt; omega
  have hsuffix := h.suffixFits
  have hpow : 2 ^ n ≤ 2 ^ 15 := Nat.pow_le_pow_right (by decide) hn15
  have hprefix : q * 2 ^ n ≤ 15 * 2 ^ 15 := Nat.mul_le_mul h.prefixLegal hpow
  omega

/-- The escape form: beyond every value of the Rice form. -/
theorem riceLimit_le_of_escape (h : IsCode cb q n x v) (hq : cb.switchBits.toNat < q) :
    ((cb.switchBits.toNat + 1) * 2 ^ cb.riceOrder.toNat : Nat) ≤ v := by
  obtain ⟨hn, -, rfl⟩ := h.suffixLegal hq
  have hpow : (2 : Int) ^ cb.expOrder.toNat ≤ 2 ^ n := by
    have := golombBits_escape hq
    exact_mod_cast Nat.pow_le_pow_right (by decide) (by omega)
  unfold golombOffset
  push_cast
  omega

end

/-- Past `BITEND` the window is empty: the reader takes it for the end (R151 step 4). -/
theorem readCodeword_of_past_end (cb : Codebook) {s : State} (h : s.cur.bitend.toNat < s.cur.bitpos.toNat) :
    readCodeword cb s = .raised (.corruptSliceData .pastEnd) s := by
  have window : min lookahead (s.cur.bitend.toNat - s.cur.bitpos.toNat) = 0 := by omega
  simp only [readCodeword, window]
  exact (if_pos rfl).trans (if_neg (by decide))

/-- Wherever the cursors stand, a value is answered for a codeword of it at `BITPOS` only. -/
theorem exists_isCode_of_readCodeword_ok {cb : Codebook} {s t : State} {v : Int} (h : readCodeword cb s = .ok v t) :
    ∃ q n x, IsCode cb q n x v ∧ holdsBits s.bs s.cur.bitpos.toNat (codeword q n x) = true := by
  rcases Nat.lt_or_ge s.cur.bitend.toNat s.cur.bitpos.toNat with hpast | hcur
  · rw [readCodeword_of_past_end cb hpast] at h
    cases h
  · obtain ⟨_, ⟨q, n, x, hc, rfl⟩, hb, -⟩ := codes_of_readCodeword_ok hcur h
    exact ⟨q, n, x, hc, hb⟩

/-- Nothing raises the reserved subcode NEGATIVE (60_exceptions.md R267). -/
theorem readCodeword_ne_negative (cb : Codebook) (s t : State) : readCodeword cb s ≠ .raised (.corruptSliceData .negative) t := by
  intro h
  rcases Nat.lt_or_ge s.cur.bitend.toNat s.cur.bitpos.toNat with hpast | hcur
  · rw [readCodeword_of_past_end cb hpast] at h
    cases h
  · obtain ⟨sub, pos, hc, hr, -⟩ := corruptAt_of_readCodeword_raised hcur h
    cases hc <;> cases hr

/-- Settles O23: the bounds of the codeword that stands at `BITPOS`, form by form. -/
theorem readCodewordRange : Obligations.ReadCodewordRange := by
  refine fun cb s t => ⟨fun v h => ?_, readCodeword_ne_negative cb s t⟩
  obtain ⟨q, n, x, hc, hb⟩ := exists_isCode_of_readCodeword_ok h
  obtain ⟨hlo, hhi⟩ := isCode_bounds hc
  obtain ⟨hzeros, hone, -⟩ := holdsBits_codeword.1 hb
  refine ⟨hlo, hhi, codes_toInt ⟨q, n, x, hc, rfl⟩, q, hc.prefixLegal, holdsBits_codeword.2 ⟨hzeros, hone, rfl⟩,
    isCode_rice_le hc, fun hq => ?_⟩
  have hlimit := riceLimit_le_of_escape hc hq
  have hpos : 0 < (cb.switchBits.toNat + 1) * 2 ^ cb.riceOrder.toNat := by positivity
  exact ⟨hlimit, by omega⟩

/-! ### The values WRCW can write (R153, R155) -/

/-- WRCW on a codeword that fits, BS in any form. -/
theorem exec_wrcw_of_codewordOf_ok {s : State} {c : Codeword} (hrun : Running s) (hcur : CursorsLegal s)
    (h : codewordOf (codebookOfCbd s.cbd) s.val.toInt = .ok c)
    (hroom : s.cur.bitpos.toNat + c.zeros + 1 + c.bits ≤ s.cur.bitend.toNat) :
    exec .wrcw s = .next (writeBits c.bits c.suffix (writeBits 1 1 (writeBits c.zeros 0 s))) := by
  refine runCommand_ok hrun ?_
  rw [wrcwBody, checkCursors_ok hcur, Res.bind_ok, writeCodeword, h]
  exact if_neg (Nat.not_lt.2 hroom)

/-- Settles O25: the three answers of the writer, by the value; then the codebooks of the default table. -/
theorem representable : Obligations.Representable := by
  refine ⟨fun s hrun hcur hroom => ⟨fun h0 h => ?_, fun h => ?_, fun h0 h => ?_⟩, by decide⟩
  · obtain ⟨q, n, x, hc⟩ := exists_isCode h0 h
    have hlen := isCode_length_le hc
    exact ⟨_, exec_wrcw_of_codewordOf_ok hrun hcur (codewordOf_of_isCode hc) (by simp only; omega), hrun⟩
  · exact exec_wrcw_of_codewordOf_error (e := .negative) hrun hcur (codewordOf_of_neg h)
  · exact exec_wrcw_of_codewordOf_error (e := .tooLarge) hrun hcur (codewordOf_of_vmax_lt h0 h)

/-! ### The signed mapping (R157, R158) -/

/-- All ones against a pattern: its negative less 1. -/
theorem ofInt_xor_allOnes (x : Int) : BitVec.ofInt 32 x ^^^ BitVec.allOnes 32 = BitVec.ofInt 32 (-x - 1) := by
  rw [BitVec.xor_allOnes, BitVec.not_eq_neg_add, Int.sub_eq_add_neg, BitVec.ofInt_add, BitVec.ofInt_neg, BitVec.sub_eq_add_neg]
  rfl

theorem getLsbD_zero_iff_odd (c : Word) : c.getLsbD 0 = true ↔ c.toInt % 2 = 1 := by
  rw [BitVec.getLsbD, Nat.testBit_zero, decide_eq_true_iff, BitVec.toInt_eq_toNat_cond]
  split <;> omega

/-- `toSigned` on `i32` (R157). -/
theorem toSigned_eq (c : Word) :
    toSigned c = BitVec.ofInt 32 (if c.toInt % 2 = 0 then c.toInt / 2 else -((c.toInt + 1) / 2)) := by
  have half : c.sshiftRight 1 = BitVec.ofInt 32 (c.toInt / 2) := by
    rw [BitVec.sshiftRight_eq, Int.shiftRight_eq_div_pow]
    rfl
  rw [toSigned, half, if_congr (getLsbD_zero_iff_odd c) rfl rfl]
  by_cases hodd : c.toInt % 2 = 1
  · rw [if_pos hodd, if_neg (by omega), ofInt_xor_allOnes]
    congr 1
    omega
  · rw [if_neg hodd, if_pos (by omega)]
    exact BitVec.xor_zero

/-- `toGolomb` on `i32`, wrapping (R158). -/
theorem toGolomb_eq (v : Word) :
    toGolomb v = BitVec.ofInt 32 (if 0 ≤ v.toInt then 2 * v.toInt else -(2 * v.toInt) - 1) := by
  have double : v <<< 1 = BitVec.ofInt 32 (2 * v.toInt) := by
    rw [BitVec.shiftLeft_eq_mul_twoPow, BitVec.ofInt_mul, BitVec.ofInt_toInt, BitVec.mul_comm]
    rfl
  have sign : v.sshiftRight 31 = if 0 ≤ v.toInt then 0 else BitVec.allOnes 32 := by
    have lo := BitVec.le_toInt v
    have hi := BitVec.toInt_lt (x := v)
    rw [BitVec.sshiftRight_eq, Int.shiftRight_eq_div_pow]
    split
    · rw [show v.toInt / (2 ^ 31 : Nat) = 0 by omega]
      rfl
    · rw [show v.toInt / (2 ^ 31 : Nat) = -1 by omega]
      rfl
  rw [toGolomb, double, sign]
  split
  · exact BitVec.xor_zero
  · exact ofInt_xor_allOnes _

section
variable {v : Word}

/-- The values whose double fits: `-2^30` to `2^30 - 1`. -/
abbrev GolombRange (v : Word) : Prop := -2 ^ 30 ≤ v.toInt ∧ v.toInt ≤ 2 ^ 30 - 1

theorem toInt_toGolomb (h : GolombRange v) :
    (toGolomb v).toInt = if 0 ≤ v.toInt then 2 * v.toInt else -(2 * v.toInt) - 1 := by
  rw [toGolomb_eq]
  exact s32_toInt (by split <;> omega) (by split <;> omega)

/-- Outside the range the double wraps. -/
theorem toInt_toGolomb_of_outside (h : ¬GolombRange v) :
    (toGolomb v).toInt = (if 0 ≤ v.toInt then 2 * v.toInt else -(2 * v.toInt) - 1) - 2 ^ 32 := by
  have lo := BitVec.le_toInt v
  have hi := BitVec.toInt_lt (x := v)
  have wraps (x : Int) : BitVec.ofInt 32 x = s32 (x - 2 ^ 32) := by
    rw [s32, Int.sub_eq_add_neg, BitVec.ofInt_add]
    exact (BitVec.add_zero _).symm
  rw [toGolomb_eq, wraps]
  exact s32_toInt (by split <;> omega) (by split <;> omega)

theorem toSigned_toGolomb (h : GolombRange v) : toSigned (toGolomb v) = v := by
  rw [toSigned_eq, toInt_toGolomb h]
  conv_rhs => rw [← BitVec.ofInt_toInt (x := v)]
  congr 1
  split <;> split <;> omega

/-- Outside the range ZZDEC misses the value by `2^31`. -/
theorem toSigned_toGolomb_ne (h : ¬GolombRange v) : toSigned (toGolomb v) ≠ v := by
  have lo := BitVec.le_toInt v
  have hi := BitVec.toInt_lt (x := v)
  have missed : toSigned (toGolomb v) = s32 (if 0 ≤ v.toInt then v.toInt - 2 ^ 31 else v.toInt + 2 ^ 31) := by
    rw [toSigned_eq, toInt_toGolomb_of_outside h, s32]
    congr 1
    split <;> split <;> omega
  intro e
  have value := s32_toInt (x := if 0 ≤ v.toInt then v.toInt - 2 ^ 31 else v.toInt + 2 ^ 31) (by split <;> omega) (by split <;> omega)
  rw [← missed, e] at value
  split at value <;> omega

theorem toGolomb_toSigned {c : Word} (h : 0 ≤ c.toInt) : toGolomb (toSigned c) = c := by
  have hi := BitVec.toInt_lt (x := c)
  have signed : (toSigned c).toInt = if c.toInt % 2 = 0 then c.toInt / 2 else -((c.toInt + 1) / 2) := by
    rw [toSigned_eq]
    exact s32_toInt (by split <;> omega) (by split <;> omega)
  rw [toGolomb_eq, signed]
  conv_rhs => rw [← BitVec.ofInt_toInt (x := c)]
  congr 1
  split <;> split <;> omega

end

section
variable {s : State}

theorem exec_zzdec (hrun : Running s) : exec .zzdec s = .next (s.withVal (toSigned s.val)) :=
  runCommand_ok (i := .zzdec) (body := zzdecBody) hrun rfl

theorem exec_zzenc (hrun : Running s) : exec .zzenc s = .next (s.withVal (toGolomb s.val)) :=
  runCommand_ok (i := .zzenc) (body := zzencBody) hrun rfl

/-- ZZDEC undoes ZZENC where the double fits. -/
theorem zzdec_after_zzenc (hrun : Running s) (h : GolombRange s.val) :
    ∃ t, exec .zzenc s = .next t ∧ 0 ≤ t.val.toInt ∧ exec .zzdec t = .next s := by
  refine ⟨_, exec_zzenc hrun, ?_, ?_⟩
  · rw [State.withVal_val, toInt_toGolomb h]
    split <;> omega
  · rw [exec_zzdec (s := s.withVal (toGolomb s.val)) hrun, State.withVal_val, toSigned_toGolomb h]
    rfl

/-- Where it does not fit, the code reads as negative: ZZDEC does not restore the value and WRCW refuses the code. -/
theorem zzenc_outside (hrun : Running s) (hcur : CursorsLegal s) (h : ¬GolombRange s.val) :
    ∃ t u, exec .zzenc s = .next t ∧ t.val.toInt < 0 ∧ exec .zzdec t = .next u ∧ u.val ≠ s.val ∧
      exec .wrcw t = .next (fatal 0x12 5 1 t.cur.bitpos t) := by
  have negative : (toGolomb s.val).toInt < 0 := by
    have lo := BitVec.le_toInt s.val
    have hi := BitVec.toInt_lt (x := s.val)
    rw [toInt_toGolomb_of_outside h]
    split <;> omega
  exact ⟨_, _, exec_zzenc hrun, negative, exec_zzdec hrun, toSigned_toGolomb_ne h,
    exec_wrcw_of_codewordOf_error (s := s.withVal (toGolomb s.val)) (e := .negative) hrun hcur (codewordOf_of_neg negative)⟩

/-- ZZENC undoes ZZDEC on a code that is not negative. -/
theorem zzenc_after_zzdec (hrun : Running s) (h : 0 ≤ s.val.toInt) : ∃ t, exec .zzdec s = .next t ∧ exec .zzenc t = .next s := by
  refine ⟨_, exec_zzdec hrun, ?_⟩
  rw [exec_zzenc (s := s.withVal (toSigned s.val)) hrun, State.withVal_val, toGolomb_toSigned h]
  rfl

end

/-- Settles O27: the two maps, then each round trip. -/
theorem zigzagMaps : Obligations.ZigzagMaps := by
  refine ⟨by decide, fun s hrun => ?_, fun s hrun => ?_, fun s hrun hlo hhi => zzdec_after_zzenc hrun ⟨hlo, hhi⟩,
    fun s hrun hcur h => zzenc_outside hrun hcur (by omega), fun s => zzenc_after_zzdec⟩
  · rw [← toSigned_eq]
    exact exec_zzdec hrun
  · rw [← toGolomb_eq]
    exact exec_zzenc hrun

/-! ### ALIGNW (R159) -/

/-- ALIGNW with room for the padding. -/
theorem alignw_pads {s : State} (hrun : Running s) (hcur : CursorsLegal s) (hw : s.memoriesWf)
    (hroom : s.cur.bitpos.toNat + paddingBits s.cur.bitpos.toNat ≤ s.cur.bitend.toNat) :
    ∃ bs, exec .alignw s = .next ((s.advance (paddingBits s.cur.bitpos.toNat)).withBs bs) ∧
      StoresBits s.bs bs s.cur.bitpos.toNat (List.replicate (paddingBits s.cur.bitpos.toNat) false) := by
  have hstores := bsWriteBits_stores hw.bs (paddingBits s.cur.bitpos.toNat) s.cur.bitpos.toNat 0
  rw [msbBits_zero] at hstores
  refine ⟨_, runCommand_ok hrun ?_, hstores⟩
  rw [alignwBody, checkCursors_ok hcur, Res.bind_ok, if_neg (Nat.not_lt.2 hroom)]
  rfl

/-- Settles O28: the cursors, then the room, then the zeros. -/
theorem alignwPads : Obligations.AlignwPads := by
  refine ⟨by decide, fun s hrun hcur => (operandFaults s .alignw hrun).1 (by decide) hcur, fun s hrun hcur hw => ?_⟩
  intro n
  split
  · rename_i hroom
    obtain ⟨bs, hexec, hstores⟩ := alignw_pads hrun hcur hw hroom
    refine ⟨_, hexec, rfl, hstores, ?_⟩
    have hend := s.cur.bitend.isLt
    show (s.advance n).cur.bitpos.toNat % 8 = 0
    rw [State.advance_bitpos _ (by omega)]
    omega
  · rename_i hroom
    refine exec_stream_of_body_raised (i := .alignw) (.bufferTooSmall .stream) (by decide) hrun ?_ rfl
    show alignwBody s = _
    rw [alignwBody, checkCursors_ok hcur, Res.bind_ok]
    exact if_pos (Nat.not_le.1 hroom)

end Sys2Proof.Machine

/-! PROOFS. PROBE (42_header_codec.md R171), and the headers PFRM and PPIC refuse (R172, R174): the signature in BS as a number and as its
bytes, then each check of the commands in the words of the statements. -/

namespace Sys2Proof.Machine

-- In order and not side by side: pending proofs hold memory, and the joined text is near the limit of check.sh.
set_option Elab.async false

open Sys2Proof.Claims

/-! ### The signature (30_encoding.md R111) -/

theorem signature_eq_bigEndian : ([0x69, 0x63, 0x70, 0x66] : List Byte) = bigEndian 4 frameSignature := by decide

/-- What `MemRead` reads stands in BS (20_memory.md R74). -/
theorem holdsBytes_memRead (bs : Memory 8) (a n : Nat) : holdsBytes bs a (bigEndian n (memRead bs a n)) = true := by
  rw [holdsBytes_iff]
  intro i hi
  rw [bigEndian_getElem]
  rw [bigEndian_length] at hi
  induction n with
  | zero => exact absurd hi (Nat.not_lt_zero i)
  | succ n ih =>
    rw [memRead]
    rcases Nat.lt_or_eq_of_le (Nat.le_of_lt_succ hi) with hlt | rfl
    · have place : n + 1 - 1 - i = n - 1 - i + 1 := by omega
      have before : (memRead bs a n * 256 + (bsByte bs (a + n)).toNat) / 256 = memRead bs a n := by omega
      rw [ih hlt, place, pow_succ', ← Nat.div_div_eq_div_mul, before]
    · have last : (memRead bs a i * 256 + (bsByte bs (a + i)).toNat) % 256 = (bsByte bs (a + i)).toNat := by omega
      apply BitVec.eq_of_toNat_eq
      rw [Nat.add_sub_cancel, Nat.sub_self, pow_zero, Nat.div_one, BitVec.toNat_ofNat]
      exact last.symm

theorem memRead_signature_iff (bs : Memory 8) (a : Nat) :
    memRead bs a 4 = frameSignature ↔ holdsBytes bs a [0x69, 0x63, 0x70, 0x66] = true := by
  rw [signature_eq_bigEndian]
  exact ⟨fun h => h ▸ holdsBytes_memRead bs a 4, memRead_of_holdsBytes⟩

/-! ### PROBE (R171) -/

theorem frameFound_iff (s : State) : frameFound s = true ↔ s.cur.frameBase.toNat + 8 ≤ s.cur.bsLen.toNat ∧
    holdsBytes s.bs (s.cur.frameBase.toNat + 4) [0x69, 0x63, 0x70, 0x66] = true := by
  rw [← memRead_signature_iff]
  exact decide_eq_true_iff

/-- Settles O29: the buffer's check, then the answer. -/
theorem probeAnswers : Obligations.ProbeAnswers := by
  refine ⟨by decide, fun s hrun => ?_⟩
  split
  · rename_i hbuf
    rw [← if_congr (frameFound_iff s) rfl rfl]
    refine runCommand_ok hrun ?_
    rw [probeBody, checkBuffer_ok hbuf, Res.bind_ok]
    rfl
  · rename_i hbuf
    obtain ⟨-, -, -, refused⟩ := operandFaults s .probe hrun
    exact refused rfl (by decide) hbuf

/-! ### Headers that fail a check (R172, R174) -/

/-- A fatal fault raised with nothing written before it, by its code and subcode (60_exceptions.md R264). -/
def Refuses (x : Res Unit) (s : State) (code sub : Nat) : Prop :=
  ∃ r, x = .raised r s ∧ r.recoverable = false ∧ r.code.toNat = code ∧ r.subcode.toNat = sub

theorem exec_header_of_refuses {i : Instr} {s : State} {code sub : Nat} (hwf : WellFormed i = true)
    (hop : i.opcode.toNat ∈ headerOpcodes) (hrun : Running s) (h : Refuses (Instr.body i s) s code sub) :
    exec i s = .next (fatal i.opcode.toNat code sub s.cur.byteptr s) := by
  obtain ⟨r, hbody, hr, rfl, rfl⟩ := h
  exact exec_header_of_body_raised r hwf hop hrun hbody hr

/-- A check that raises ends its command. -/
theorem Refuses.bind {x : Res Unit} {s : State} {code sub : Nat} (h : Refuses x s code sub) (f : Unit → State → Res Unit) :
    Refuses (x.bind f) s code sub := by
  obtain ⟨r, rfl, raised⟩ := h
  exact ⟨r, rfl, raised⟩

theorem refused_dimensions_iff {wd ht : Nat} : (!(dimensionLegal wd && dimensionLegal ht)) = true ↔
    wd = 0 ∨ wd ≥ 0x8000 ∨ ht = 0 ∨ ht ≥ 0x8000 := by
  rw [Bool.not_eq_true', ← Bool.not_eq_true, Bool.and_eq_true, dimensionLegal_iff, dimensionLegal_iff]
  omega

theorem refused_types_iff {x : BitVec 8} : (!typesLegal x) = true ↔ x.toNat / 4 % 4 = 3 ∨ x.toNat / 64 < 2 := by
  rw [Bool.not_eq_true', ← Bool.not_eq_true, typesLegal_iff]
  omega

theorem refused_signature_iff {bs : Memory 8} {a : Nat} :
    memRead bs a 4 ≠ frameSignature ↔ holdsBytes bs a [0x69, 0x63, 0x70, 0x66] = false := by
  rw [Ne, memRead_signature_iff, Bool.not_eq_true]

/-- The first check of PFRM that fails is the one raised. -/
theorem checkFrame_refuses {s : State} {sub : Nat} (h : frameFault s = some sub) :
    Refuses (checkFrame s.cur.frameBase.toNat (frameHeaderAt s.bs s.cur.frameBase.toNat) s) s 1 sub := by
  simp only [frameFault] at h
  simp only [checkFrame, frameHeaderAt, toNat_ofNat_memRead_one, toNat_ofNat_memRead_two, toNat_ofNat_memRead_four, matrixCount_eq,
    refused_signature_iff, refused_dimensions_iff, refused_types_iff]
  split_ifs at h ⊢ <;> cases h <;> exact ⟨_, rfl, rfl, rfl, rfl⟩

/-- The first check of PPIC that fails is the one raised. -/
theorem checkPicture_refuses {s : State} {code sub : Nat} (h : pictureFault s = some (code, sub)) :
    Refuses (checkPicture s.cur.byteptr.toNat s) s code sub := by
  simp only [pictureFault] at h
  simp only [checkPicture, log2SliceMbWidth_eq, toNat_ofNat_memRead_one]
  split_ifs at h ⊢ <;> cases h <;> exact ⟨_, rfl, rfl, rfl, rfl⟩

/-- Settles O31: each command ends at its first check that fails. -/
theorem headerFaults : Obligations.HeaderFaults := by
  refine ⟨fun s sub hrun hbuf h => ?_, fun s code sub hrun hbuf h => ?_⟩
  · refine exec_header_of_refuses (i := .pfrm) rfl (by decide) hrun ?_
    show Refuses (pfrmBody s) s 1 sub
    rw [pfrmBody, checkBuffer_ok hbuf, Res.bind_ok]
    exact (checkFrame_refuses h).bind _
  · refine exec_header_of_refuses (i := .ppic) rfl (by decide) hrun ?_
    show Refuses (ppicBody s) s code sub
    rw [ppicBody, checkBuffer_ok hbuf, Res.bind_ok]
    exact (checkPicture_refuses h).bind _

end Sys2Proof.Machine

/-! PROOFS. The header writers and their parsers (42_header_codec.md R179, R181): what a command that ended well had checked, then PFRM
after WFRM, whose matrices go through BS, and PSLC after WSLC. -/

namespace Sys2Proof.Machine

-- In order and not side by side: pending proofs hold memory, and the joined text is near the limit of check.sh.
set_option Elab.async false

open Sys2Proof.Claims

/-! ### What a header command that ended well had checked (R170, R179, R181) -/

section
variable {s t : State}

theorem not_running_fatal (op code sub : Nat) (pos : Word) (u : State) : ¬Running (fatal op code sub pos u) := Bool.noConfusion

theorem bufferLegal_of_running {i : Instr} (hwf : WellFormed i = true) (hop : i.opcode.toNat ∈ headerOpcodes) (hrun : Running s)
    (h : exec i s = .next t) (ht : Running t) : BufferLegal s := by
  by_contra hbuf
  obtain ⟨-, -, -, refused⟩ := operandFaults s i hrun
  cases h.symm.trans (refused hwf hop hbuf)
  exact not_running_fatal _ _ _ _ _ ht

theorem frameWritable_of_running (hrun : Running s) (hbuf : BufferLegal s) (h : exec .wfrm s = .next t) (ht : Running t) :
    FrameWritable s := by
  by_contra hw
  have refused := h.symm.trans (exec_wfrm_of_not_writable hrun hbuf hw)
  split_ifs at refused <;> cases refused <;> exact not_running_fatal _ _ _ _ _ ht

theorem sliceWritable_of_running (hrun : Running s) (hbuf : BufferLegal s) (h : exec .wslc s = .next t) (ht : Running t) :
    SliceWritable s := by
  by_contra hw
  have refused := h.symm.trans (exec_wslc_of_not_writable hrun hbuf hw)
  split_ifs at refused <;> cases refused <;> exact not_running_fatal _ _ _ _ _ ht

end

/-! ### The header registers read back (R172 step 2) -/

section
variable {bs : Memory 8} {a n : Nat}

/-- A register whose bytes stand in BS is what `MemRead` of them gives it. -/
theorem ofNat_memRead_of_holdsBytes {w : Nat} (x : BitVec w) (hn : 256 ^ n = 2 ^ w)
    (h : holdsBytes bs a (bigEndian n x.toNat) = true) : BitVec.ofNat w (memRead bs a n) = x := by
  rw [memRead_of_holdsBytes h, hn, Nat.mod_eq_of_lt x.isLt, BitVec.ofNat_toNat, BitVec.setWidth_eq]

/-- The fixed bytes of a frame header read back as its registers (30_encoding.md R111), beside the signature. -/
theorem frameHeaderAt_of_holdsBytes {b hs : Nat} {h : FrameHeader} (hb : holdsBytes bs b (frameBytes h hs) = true) :
    memRead bs (b + 4) 4 = frameSignature ∧ frameHeaderAt bs b = { h with
      hdrsize := BitVec.ofNat 16 hs
      payload := payloadSize h.framesize (BitVec.ofNat 16 hs) } := by
  rw [frameBytes, signature_eq_bigEndian] at hb
  simp only [holdsBytes_append, Bool.and_eq_true, bigEndian_length, List.length_append] at hb
  obtain ⟨⟨⟨⟨⟨⟨⟨⟨⟨⟨framesize, icpf⟩, hdrsize⟩, version⟩, creator⟩, width⟩, height⟩, flags1⟩, colorHi⟩, colorLo⟩, flags2⟩ := hb
  have size : BitVec.ofNat 16 (memRead bs (b + 8) 2) = BitVec.ofNat 16 hs :=
    (congrArg (BitVec.ofNat 16) (memRead_of_holdsBytes hdrsize)).trans (BitVec.eq_of_toNat_eq (by simp))
  refine ⟨memRead_of_holdsBytes icpf, ?_⟩
  rw [frameHeaderAt, size, ofNat_memRead_of_holdsBytes h.framesize rfl framesize, ofNat_memRead_of_holdsBytes h.version rfl version,
    ofNat_memRead_of_holdsBytes h.creator rfl creator, ofNat_memRead_of_holdsBytes h.width rfl width,
    ofNat_memRead_of_holdsBytes h.height rfl height, ofNat_memRead_of_holdsBytes h.flags1 rfl flags1,
    ofNat_memRead_of_holdsBytes h.colorHi rfl colorHi, ofNat_memRead_of_holdsBytes h.colorLo rfl colorLo,
    ofNat_memRead_of_holdsBytes h.flags2 rfl flags2]

end

/-! ### The commit of PFRM on what stands already -/

/-- A place of QM is an entry of a matrix (10_state.md R42). -/
theorem exists_matrixIndex {a : Nat} (ha : a < 128) : ∃ p i, i < 64 ∧ a = matrixIndex p i := by
  by_cases h : a < 64
  · exact ⟨.luma, a, h, by simp [matrixIndex, QMatrix.number]⟩
  · exact ⟨.chroma, a - 64, by omega, by simp only [matrixIndex, QMatrix.number]; omega⟩

/-- QM changed to the same entries is the same. -/
theorem DiffersBelow.qm_eq {s t : State} (hw : Memory.wf qmUnlisted s.qm) (h : DiffersBelow qmUnlisted 128 s.qm t.qm)
    (entries : ∀ p i, i < 64 → t.qmAt p i = s.qmAt p i) : t.qm = s.qm := by
  refine Memory.ext_read qmUnlisted h.wf hw fun a => ?_
  by_cases ha : a < 128
  · obtain ⟨p, i, hi, rfl⟩ := exists_matrixIndex ha
    exact entries p i hi
  · exact h.read a (Nat.le_of_not_lt ha)

/-- PFRM's commit finds its registers entered and its matrices loaded: nothing changes. -/
theorem commitFrame_eq_self {s : State} {b : Nat} {h : FrameHeader} (hw : Memory.wf qmUnlisted s.qm)
    (registers : frameEntered s b h s.bs s.qm = s)
    (matrices : ∀ i, i < 64 →
      s.qmAt .luma i = (if hasLuma h.flags2 then
        bsByte s.bs (b + 28 + scanromAt s.cfg.scanrom (scanOfFrameType (frameType h.flags1)) i) else 4) ∧
      s.qmAt .chroma i = (if hasChroma h.flags2 then
        bsByte s.bs (chromaOffset b h.flags2 + scanromAt s.cfg.scanrom (scanOfFrameType (frameType h.flags1)) i) else 4)) :
    commitFrame b h s = s := by
  have loaded (p : QMatrix) (i : Nat) (hi : i < 64) : (commitFrame b h s).qmAt p i = s.qmAt p i := by
    obtain ⟨luma, chroma⟩ := qmAt_loadMatrices (s := openFrame s h s.bs) hw h.flags2 b (scanOfFrameType (frameType h.flags1)) hi
    obtain ⟨luma', chroma'⟩ := matrices i hi
    rw [commitFrame_eq_closeFrame]
    cases p
    · exact luma.trans luma'.symm
    · exact chroma.trans chroma'.symm
  obtain ⟨qm, e, differs⟩ := commitFrame_eq s b h
  rw [e] at loaded ⊢
  have same : qm = s.qm := (differs hw).qm_eq hw (t := frameEntered s b h s.bs qm) loaded
  rw [same, registers]

theorem pfrmBody_eq_self {s : State} {h : FrameHeader} (hbuf : BufferLegal s) (header : frameHeaderAt s.bs s.cur.frameBase.toNat = h)
    (passes : checkFrame s.cur.frameBase.toNat h s = .ok () s) (commits : commitFrame s.cur.frameBase.toNat h s = s) :
    pfrmBody s = .ok () s := by
  rw [pfrmBody, checkBuffer_ok hbuf, Res.bind_ok, header, passes, Res.bind_ok, header, commits]

/-! ### PFRM after WFRM -/

/-- The checks of PFRM pass on a header that WFRM wrote in a frame that fits (R172 steps 1 to 7). -/
theorem checkFrame_writtenHeader {s : State} (hwritable : FrameWritable s) {t : State} (hlen : t.cur.bsLen = s.cur.bsLen)
    (signature : memRead t.bs (s.cur.frameBase.toNat + 4) 4 = frameSignature)
    (hsize : 8 + (writtenHeader s.fh).hdrsize.toNat ≤ s.fh.framesize.toNat)
    (hroom : s.cur.frameBase.toNat + s.fh.framesize.toNat ≤ s.cur.bsLen.toNat) :
    checkFrame s.cur.frameBase.toNat (writtenHeader s.fh) t = .ok () t := by
  obtain ⟨hw, hw', hh, hh', ht, ht', hfits⟩ := hwritable
  have fixed : ¬s.cur.frameBase.toNat + 28 > t.cur.bsLen.toNat := by
    rw [hlen]
    omega
  have dim : ¬(!(dimensionLegal (writtenHeader s.fh).width.toNat && dimensionLegal (writtenHeader s.fh).height.toNat)) = true := by
    rw [refused_dimensions_iff]
    simp only [writtenHeader]
    omega
  have types : ¬(!typesLegal (writtenHeader s.fh).flags1) = true := by
    rw [refused_types_iff]
    simp only [writtenHeader]
    omega
  have hdr : ¬(writtenHeader s.fh).hdrsize.toNat < 20 + 64 * matrixCount (writtenHeader s.fh).flags2 := by
    rw [writtenHeader_hdrsize]
    exact Nat.lt_irrefl _
  have frame : ¬((writtenHeader s.fh).framesize.toNat < 8 + (writtenHeader s.fh).hdrsize.toNat ∨
      s.cur.frameBase.toNat + (writtenHeader s.fh).framesize.toNat > t.cur.bsLen.toNat) := by
    rw [hlen]
    exact not_or.2 ⟨Nat.not_lt.2 hsize, Nat.not_lt.2 hroom⟩
  rw [checkFrame, if_neg fixed, if_neg (not_not.2 signature), if_neg dim, if_neg types, if_neg hdr, if_neg frame]

/-- Settles O33: the header reads back as the registers WFRM left, and each matrix as the entries WFRM stored or set. -/
theorem wfrmPfrmRestores : Obligations.WfrmPfrmRestores := by
  intro s t hrun hw hcfg h ht hsize hroom
  have hbuf := bufferLegal_of_running (i := .wfrm) rfl (by decide) hrun h ht
  have hwritable := frameWritable_of_running hrun hbuf h ht
  have hw' : t.memoriesWf := (exec_frame h).memoriesWf hw
  obtain ⟨bs, qm, e, stored, -, matrices⟩ := commitWriteFrame_written hw hcfg s.cur.frameBase.toNat
  have hbody := wfrmBody_ok hbuf hwritable
  rw [e] at hbody
  cases h.symm.trans (runCommand_ok hrun hbody)
  obtain ⟨signature, header⟩ := frameHeaderAt_of_holdsBytes stored
  refine runCommand_ok ht (pfrmBody_eq_self (h := writtenHeader s.fh) hbuf header
    (checkFrame_writtenHeader hwritable rfl signature hsize hroom) (commitFrame_eq_self hw'.qm rfl fun i hi => ?_))
  obtain ⟨luma, chroma, lumaEntry, chromaEntry⟩ := matrices i hi
  exact ⟨lumaEntry.trans (ite_congr rfl (fun present => (luma present).symm) fun _ => rfl),
    chromaEntry.trans (ite_congr rfl (fun present => (chroma present).symm) fun _ => rfl)⟩

/-! ### PSLC after WSLC (R177, R181) -/

/-- The fields of a slice header as its registers hold them. -/
def sliceFields (sl : Slice) : SliceFields where
  hdrsize := sl.hdrsize.toNat
  qscale := sl.qsraw.toNat
  ysize := sl.ysize.toNat
  usize := sl.usize.toNat
  vsize := sl.vsize.toNat

/-- The bytes of a slice header read back as its registers (30_encoding.md R116). -/
theorem sliceFieldsAt_of_holdsBytes {bs : Memory 8} {b : Nat} {sl : Slice} (hdr : sl.hdrsize = 6 ∨ sl.hdrsize = 8)
    (stored : holdsBytes bs b (sliceBytes sl) = true) : sliceFieldsAt bs b (sliceSize sl) = sliceFields sl := by
  have bytes : sliceBytes sl = bigEndian 1 (8 * sl.hdrsize.toNat) ++ bigEndian 1 sl.qsraw.toNat ++ bigEndian 2 sl.ysize.toNat ++
      bigEndian 2 sl.usize.toNat ++ if sl.hdrsize = 8 then bigEndian 2 sl.vsize.toNat else [] := by
    rw [bigEndian_one, bigEndian_one, BitVec.ofNat_toNat, BitVec.setWidth_eq]
    rfl
  rw [bytes] at stored
  simp only [holdsBytes_append, Bool.and_eq_true, bigEndian_length, List.length_append] at stored
  obtain ⟨⟨⟨⟨hdrsize, qsraw⟩, ysize⟩, usize⟩, vsize⟩ := stored
  have hs : memRead bs b 1 / 8 = sl.hdrsize.toNat := by
    have := sl.hdrsize.isLt
    rw [memRead_of_holdsBytes hdrsize]
    omega
  have qs : memRead bs (b + 1) 1 = sl.qsraw.toNat := (memRead_of_holdsBytes qsraw).trans (Nat.mod_eq_of_lt sl.qsraw.isLt)
  have ys : memRead bs (b + 2) 2 = sl.ysize.toNat := (memRead_of_holdsBytes ysize).trans (Nat.mod_eq_of_lt sl.ysize.isLt)
  have us : memRead bs (b + 4) 2 = sl.usize.toNat := (memRead_of_holdsBytes usize).trans (Nat.mod_eq_of_lt sl.usize.isLt)
  have vs : (if 8 ≤ sl.hdrsize.toNat then memRead bs (b + 6) 2
      else sliceSize sl - sl.hdrsize.toNat - sl.ysize.toNat - sl.usize.toNat) = sl.vsize.toNat := by
    rcases hdr with hdr | hdr
    · rw [if_neg (by simp [hdr]), sliceSize]
      omega
    · rw [if_pos hdr] at vsize
      rw [if_pos (by simp [hdr])]
      exact (memRead_of_holdsBytes vsize).trans (Nat.mod_eq_of_lt sl.vsize.isLt)
  simp only [sliceFieldsAt, hs, qs, ys, us, vs, sliceFields]

/-- The registers of a slice fit the size WSLC gives it. -/
theorem sliceFits_sliceFields {sl : Slice} (hdr : sl.hdrsize = 6 ∨ sl.hdrsize = 8) :
    sliceFits (sliceFields sl) (sliceSize sl) = true := by
  rw [sliceFits_iff]
  simp only [sliceFields, sliceSize]
  rcases hdr with hdr | hdr <;> simp [hdr] <;> omega

/-- The commit of PSLC on the registers themselves: the folded scale, `BYTEPTR` and `SLOK`. -/
theorem commitSlice_sliceFields (s : State) : commitSlice s.slice.base.toNat (sliceFields s.slice) s.clearSlok = { s with
    slice := { s.slice with qscale := BitVec.ofNat 32 (foldOf s.slice.qsraw.toNat) }
    cur := { s.cur with byteptr := BitVec.ofNat 32 (s.slice.base.toNat + s.slice.hdrsize.toNat) }
    status := { s.status with slok := true } } := by
  simp only [commitSlice, sliceFields, BitVec.ofNat_toNat, BitVec.setWidth_eq, foldScale_eq]
  rfl

/-- PSLC on a slice whose header stands in BS as its registers give it. -/
theorem exec_pslc_of_stored {s : State} (hrun : Running s) (hbuf : BufferLegal s) (hdr : s.slice.hdrsize = 6 ∨ s.slice.hdrsize = 8)
    (size : s.slice.size.toNat = sliceSize s.slice) (room : s.slice.base.toNat + sliceSize s.slice ≤ s.cur.bsLen.toNat)
    (stored : holdsBytes s.bs s.slice.base.toNat (sliceBytes s.slice) = true) :
    exec .pslc s = .next { s with
      slice := { s.slice with qscale := BitVec.ofNat 32 (foldOf s.slice.qsraw.toNat) }
      cur := { s.cur with byteptr := BitVec.ofNat 32 (s.slice.base.toNat + s.slice.hdrsize.toNat) }
      status := { s.status with slok := true } } := by
  have fields := sliceFieldsAt_of_holdsBytes hdr stored
  have fits := sliceFits_sliceFields hdr
  have legal : SliceLegal s := by
    rw [sliceLegal_iff, size, fields]
    obtain ⟨low, high, -⟩ := sliceFits_iff.1 fits
    exact ⟨by omega, fits⟩
  rw [← commitSlice_sliceFields, ← fields, ← size]
  exact runCommand_ok hrun (pslcBody_of_legal hbuf legal)

/-- Settles O41: WSLC leaves the header in BS as the registers give it. -/
theorem wslcPslcRestores : Obligations.WslcPslcRestores := by
  intro s t hrun hw h ht
  have hbuf := bufferLegal_of_running (i := .wslc) rfl (by decide) hrun h ht
  have hwritable := sliceWritable_of_running hrun hbuf h ht
  obtain ⟨t', h', e, stored, -, -⟩ := wslcWrites s hrun hbuf hw hwritable
  cases h.symm.trans h'
  obtain ⟨-, -, hdr, hsize, room⟩ := hwritable
  have slice : t.slice = { s.slice with size := BitVec.ofNat 16 (sliceSize s.slice) } := congrArg State.slice e
  have len : t.cur.bsLen = s.cur.bsLen := congrArg (fun u => u.cur.bsLen) e
  have cfg : t.cfg = s.cfg := congrArg (fun u => u.cfg) e
  refine exec_pslc_of_stored ht ?_ ?_ ?_ ?_ ?_
  · rwa [BufferLegal, len, cfg]
  · rwa [slice]
  · rw [slice]
    exact Nat.mod_eq_of_lt (Nat.lt_succ_of_le hsize)
  · rwa [slice, len]
  · rwa [slice]

end Sys2Proof.Machine

/-! PROOFS. NXSL and the schedule of a row (42_header_codec.md R175, R176, R182): the slice widths of a row as a list that each delivery
takes one from, the halving of the candidate width, and the commands of one row from its start to the next. -/

namespace Sys2Proof.Machine

-- In order and not side by side: pending proofs hold memory, and the joined text is near the limit of check.sh.
set_option Elab.async false

open Sys2Proof.Claims

/-! ### The widths of a row (R175) -/

/-- The slice widths of less than a whole `2^l2`: one for each set bit below `l2`, the highest first. -/
def setBitWidths (r l2 : Nat) : List Nat :=
  (List.range l2).reverse.filterMap fun k => if r.testBit k then some (2 ^ k) else none

theorem setBitWidths_succ (r k : Nat) :
    setBitWidths r (k + 1) = (if r.testBit k then [2 ^ k] else []) ++ setBitWidths r k := by
  rw [setBitWidths, List.range_succ, List.reverse_append, List.reverse_singleton, List.singleton_append, List.filterMap_cons]
  split <;> split <;> simp_all [setBitWidths]

/-- Only the bits below `l2` count. -/
theorem setBitWidths_mod (r l2 : Nat) : setBitWidths (r % 2 ^ l2) l2 = setBitWidths r l2 := by
  refine List.filterMap_congr fun k hk => ?_
  have hk : k < l2 := by simpa using hk
  rw [Nat.testBit_mod_two_pow, decide_eq_true hk, Bool.true_and]

theorem setBitWidths_length (r l2 : Nat) : (setBitWidths r l2).length = (List.range l2).countP fun k => r.testBit k := by
  induction l2 with
  | zero => rfl
  | succ l2 ih =>
    rw [setBitWidths_succ, List.length_append, ih, List.range_succ, List.countP_append, Nat.add_comm]
    split <;> simp_all

theorem rowWidths_eq (mbw l2 : Nat) : rowWidths mbw l2 = List.replicate (mbw / 2 ^ l2) (2 ^ l2) ++ setBitWidths mbw l2 := by
  rw [← setBitWidths_mod]
  rfl

theorem rowWidths_zero (l2 : Nat) : rowWidths 0 l2 = [] := by
  simp [rowWidths]

/-- A candidate that does not fit is halved: the list is that of the half (R176 step 4). -/
theorem rowWidths_succ_of_lt {mbw k : Nat} (h : mbw < 2 ^ (k + 1)) : rowWidths mbw (k + 1) = rowWidths mbw k := by
  have hpos : 0 < 2 ^ k := Nat.two_pow_pos k
  rw [rowWidths_eq, rowWidths_eq, Nat.div_eq_of_lt h, setBitWidths_succ, List.replicate_zero, List.nil_append]
  congr 1
  by_cases hk : mbw < 2 ^ k
  · rw [Nat.testBit_lt_two_pow hk, Nat.div_eq_of_lt hk]
    rfl
  · have one : mbw / 2 ^ k = 1 := Nat.div_eq_of_lt_le (by omega) (by rw [pow_succ] at h; omega)
    rw [Nat.testBit_eq_decide_div_mod_eq, one]
    rfl

/-- A candidate that fits is the first width. -/
theorem rowWidths_of_le {mbw k : Nat} (h : 2 ^ k ≤ mbw) : rowWidths mbw k = 2 ^ k :: rowWidths (mbw - 2 ^ k) k := by
  have hdiv : mbw / 2 ^ k = (mbw - 2 ^ k) / 2 ^ k + 1 := Nat.div_eq_sub_div (Nat.two_pow_pos k) h
  rw [rowWidths, rowWidths, hdiv, Nat.mod_eq_sub_mod h, List.replicate_succ, List.cons_append]

/-- `2^m` is the width NXSL delivers of `rem` macroblocks: the candidate `2^k` halved until it fits (R176 step 4). -/
structure WidthFits (k rem m : Nat) : Prop where
  halved : m ≤ k
  fits : 2 ^ m ≤ rem
  largest : m < k → rem < 2 ^ (m + 1)

theorem exists_widthFits (k : Nat) {rem : Nat} (h : rem ≠ 0) : ∃ m, WidthFits k rem m := by
  have low : 2 ^ min k rem.log2 ≤ rem := (Nat.pow_le_pow_right (by decide) (min_le_right _ _)).trans (Nat.log2_self_le h)
  refine ⟨min k rem.log2, min_le_left _ _, low, fun hm => ?_⟩
  rw [min_eq_right (by omega)]
  exact Nat.lt_log2_self

/-- The list gives the width NXSL delivers, then the widths of what it leaves. -/
theorem rowWidths_eq_cons {k rem m : Nat} (h : WidthFits k rem m) : rowWidths rem k = 2 ^ m :: rowWidths (rem - 2 ^ m) m := by
  obtain ⟨halved, fits, largest⟩ := h
  rw [← rowWidths_of_le fits]
  induction k, halved using Nat.le_induction with
  | base => rfl
  | succ k hk ih =>
    have lt : rem < 2 ^ (m + 1) := largest (by omega)
    rw [rowWidths_succ_of_lt (lt.trans_le (Nat.pow_le_pow_right (by decide) (by omega))), ih fun _ => lt]

/-- The widths add up to the row. -/
theorem rowWidths_sum (mbw l2 : Nat) : (rowWidths mbw l2).sum = mbw := by
  induction mbw using Nat.strong_induction_on generalizing l2 with
  | _ mbw ih =>
    rcases Nat.eq_zero_or_pos mbw with rfl | hpos
    · rw [rowWidths_zero, List.sum_nil]
    · obtain ⟨m, hm⟩ := exists_widthFits l2 hpos.ne'
      have := hm.fits
      have := Nat.two_pow_pos m
      rw [rowWidths_eq_cons hm, List.sum_cons, ih _ (by omega)]
      omega

/-- No bit is set from `l2` on. -/
theorem countP_testBit_eq {r l2 n : Nat} (hr : r < 2 ^ l2) (hn : l2 ≤ n) :
    (List.range n).countP (fun k => r.testBit k) = (List.range l2).countP fun k => r.testBit k := by
  induction n, hn using Nat.le_induction with
  | base => rfl
  | succ n hn ih =>
    have clear : r.testBit n = false := Nat.testBit_lt_two_pow (hr.trans_le (Nat.pow_le_pow_right (by decide) hn))
    rw [List.range_succ, List.countP_append, ih, List.countP_singleton, clear]
    rfl

/-- `SlicesPerRow` counts the widths. -/
theorem slicesPerRow_eq_length {mbw l2 : Nat} (h : l2 ≤ 16) : slicesPerRow mbw l2 = (rowWidths mbw l2).length := by
  rw [slicesPerRow, popcount16, countP_testBit_eq (Nat.mod_lt _ (Nat.two_pow_pos l2)) h, ← setBitWidths_length, setBitWidths_mod,
    rowWidths_eq, List.length_append, List.length_replicate]

theorem slicesPerRow_zero (l2 : Nat) : slicesPerRow 0 l2 = 0 := by
  rw [slicesPerRow, Nat.zero_div, Nat.zero_mod]
  decide

/-! ### NXSL (R176) -/

/-- The candidate is halved until it fits. -/
theorem halveToFit_eq {fuel k rem m : Nat} (h : WidthFits k rem m) (hfuel : k ≤ m + fuel) : halveToFit fuel (2 ^ k) rem = 2 ^ m := by
  induction fuel generalizing k with
  | zero => rw [halveToFit, Nat.le_antisymm h.halved hfuel]
  | succ fuel ih =>
    rcases Nat.eq_or_lt_of_le h.halved with rfl | hm
    · exact if_neg (Nat.not_lt.2 h.fits)
    · obtain ⟨j, rfl⟩ : ∃ j, k = j + 1 := ⟨k - 1, by omega⟩
      have half : 2 ^ (j + 1) / 2 = 2 ^ j := by rw [pow_succ, Nat.mul_div_cancel _ (by decide)]
      have long : rem < 2 ^ (j + 1) := (h.largest hm).trans_le (Nat.pow_le_pow_right (by decide) hm)
      rw [halveToFit, if_pos long, half]
      exact ih ⟨by omega, h.fits, fun _ => h.largest hm⟩ (by omega)

theorem scheduleWidth_two_pow {k : Nat} (h : k < 16) : scheduleWidth (2 ^ k) = true := by
  rw [scheduleWidth, List.any_eq_true]
  exact ⟨k, List.mem_range.2 h, decide_eq_true rfl⟩

/-- A slice is left, the schedule is sound, and its candidate halves to `2^m` (R176 steps 1 to 4). -/
structure Deliverable (s : State) (k m : Nat) : Prop where
  running : Running s
  buffer : BufferLegal s
  counted : s.sched.idx.toNat < s.ph.slicecount.toNat
  stored : s.sched.idx.toNat < s.cfg.maxSlices
  inRow : s.sched.mbx.toNat < s.fh.mbw
  candidate : s.sched.cur.toNat = 2 ^ k
  width : WidthFits k (s.fh.mbw - s.sched.mbx.toNat) m

/-- The state after a slice of `2^m` macroblocks is delivered (R176 steps 5 and 6). -/
def delivered (m : Nat) (s : State) : State :=
  let last : Bool := s.fh.mbw ≤ s.sched.mbx.toNat + 2 ^ m
  { s with
    slice := { s.slice with
      mbcount := BitVec.ofNat 16 (2 ^ m)
      x := s.sched.mbx
      y := s.sched.mby
      base := s.sched.ptr
      size := s.sstAt s.sched.idx.toNat
      l2bpsY := BitVec.ofNat 5 (m + 2)
      l2bpsC := BitVec.ofNat 5 (m + (if s.fh.flags1.toNat / 64 = 3 then 2 else 1)) }
    sched := {
      idx := s.sched.idx + 1
      mbx := if last then 0 else BitVec.ofNat 13 (s.sched.mbx.toNat + 2 ^ m)
      mby := if last then s.sched.mby + 1 else s.sched.mby
      cur := if last then BitVec.ofNat 16 (2 ^ (s.ph.l2byte.toNat / 16)) else BitVec.ofNat 16 (2 ^ m)
      ptr := s.sched.ptr + BitVec.ofNat 32 (s.sstAt s.sched.idx.toNat).toNat }
    cur := { s.cur with byteptr := s.sched.ptr }
    status := { s.status with slok := false } }

section
variable {s : State} {k m : Nat}

theorem lt_sixteen_of_candidate {x : BitVec 16} (h : x.toNat = 2 ^ k) : k < 16 :=
  (Nat.pow_lt_pow_iff_right (by decide)).1 (h ▸ x.isLt)

theorem deliverSlice_eq (m : Nat) (s : State) : deliverSlice (2 ^ m) s = delivered m s := by
  have chroma : chromaBlocksLog2 s.fh.flags1 = if s.fh.flags1.toNat / 64 = 3 then 2 else 1 := by
    rw [chromaBlocksLog2, chromaType_eq]
  have schedule : nextSchedule (2 ^ m) (s.sstAt s.sched.idx.toNat) s = (delivered m s).sched := by
    simp only [nextSchedule, delivered, Nat.one_shiftLeft, log2SliceMbWidth_eq, BitVec.ofNat_toNat, ge_iff_le,
      decide_eq_true_eq]
    split <;> rfl
  simp only [deliverSlice, schedule, chroma, Nat.log2_two_pow, State.withByteptr, ofNat_toNat_word]
  rfl

theorem exec_nxsl_of_deliverable (h : Deliverable s k m) : exec .nxsl s = .next (delivered m s) := by
  have hk : k < 16 := lt_sixteen_of_candidate h.candidate
  have width : nextWidth s = 2 ^ m := by
    rw [nextWidth, h.candidate]
    exact halveToFit_eq h.width (by omega)
  have sound : ¬(s.fh.mbw = 0 ∨ s.sched.mbx.toNat ≥ s.fh.mbw ∨ (!scheduleWidth s.sched.cur.toNat) = true) := by
    rw [h.candidate, scheduleWidth_two_pow hk]
    have := h.inRow
    simp
    omega
  refine runCommand_ok h.running ?_
  rw [nxslBody_of_index_lt h.buffer h.counted, if_neg (Nat.not_le.2 h.stored), if_neg sound, width, deliverSlice_eq]

/-- NXSL with no slice left (R176 step 1). -/
theorem exec_nxsl_of_slicecount_le (hrun : Running s) (hbuf : BufferLegal s) (h : s.ph.slicecount.toNat ≤ s.sched.idx.toNat) :
    exec .nxsl s = .next s.setEos := by
  refine runCommand_ok hrun ?_
  rw [nxslBody, checkBuffer_ok hbuf, Res.bind_ok, if_pos h]

end

/-- Settles O36: no slice left, and a slice delivered. -/
theorem nxslDelivers : Obligations.NxslDelivers :=
  ⟨fun _ => exec_nxsl_of_slicecount_le, fun _ _ _ running buffer counted stored inRow candidate halved fits largest =>
    exec_nxsl_of_deliverable ⟨running, buffer, counted, stored, inRow, candidate, halved, fits, largest⟩⟩

/-! ### The commands of one row (R175, R182) -/

theorem after_eq {i : Instr} {s t : State} (h : exec i s = .next t) : after i s = t := by rw [after, h]

/-- The macroblocks of the row not yet delivered. -/
abbrev restOfRow (s : State) : Nat := s.fh.mbw - s.sched.mbx.toNat

/-- Inside a row, with the candidate `2^k` and as many slices left in the table as the rest of the row takes. -/
structure InsideRow (s : State) (k : Nat) : Prop where
  running : Running s
  buffer : BufferLegal s
  inRow : s.sched.mbx.toNat < s.fh.mbw
  candidate : s.sched.cur.toNat = 2 ^ k
  counted : s.sched.idx.toNat + (rowWidths (restOfRow s) k).length ≤ s.ph.slicecount.toNat
  stored : s.sched.idx.toNat + (rowWidths (restOfRow s) k).length ≤ s.cfg.maxSlices

/-- At the start of the row after that of `s`, `n` slices further. -/
structure NextRow (n : Nat) (s t : State) : Prop where
  idx : t.sched.idx.toNat = s.sched.idx.toNat + n
  mbx : t.sched.mbx = 0
  mby : t.sched.mby = s.sched.mby + 1
  cur : t.sched.cur = BitVec.ofNat 16 (2 ^ (s.ph.l2byte.toNat / 16))

section
variable {s : State} {k m n : Nat}

theorem InsideRow.exists_width (h : InsideRow s k) : ∃ m, WidthFits k (restOfRow s) m :=
  exists_widthFits k (Nat.sub_ne_zero_of_lt h.inRow)

theorem InsideRow.deliverable (h : InsideRow s k) (hm : WidthFits k (restOfRow s) m) : Deliverable s k m := by
  obtain ⟨running, buffer, inRow, candidate, counted, stored⟩ := h
  rw [rowWidths_eq_cons hm, List.length_cons] at counted stored
  exact ⟨running, buffer, by omega, by omega, inRow, candidate, hm⟩

theorem delivered_mbcount (h : m < 16) : (delivered m s).slice.mbcount.toNat = 2 ^ m :=
  Nat.mod_eq_of_lt (Nat.pow_lt_pow_right (by decide) h)

/-- `SL_IDX` does not wrap (R182). -/
theorem delivered_idx (h : s.sched.idx.toNat < s.ph.slicecount.toNat) :
    (delivered m s).sched.idx.toNat = s.sched.idx.toNat + 1 := by
  have := s.ph.slicecount.isLt
  show (s.sched.idx + 1).toNat = _
  rw [BitVec.toNat_add]
  exact Nat.mod_eq_of_lt (by simp; omega)

/-- The last slice of a row leaves the schedule at the start of the next. -/
theorem delivered_last (hidx : s.sched.idx.toNat < s.ph.slicecount.toNat) (hlast : s.fh.mbw ≤ s.sched.mbx.toNat + 2 ^ m) :
    NextRow 1 s (delivered m s) := by
  refine ⟨delivered_idx hidx, ?_, ?_, ?_⟩ <;> simp [delivered, hlast]

/-- `SL_MBX` after a slice that is not the last of its row does not wrap (R182). -/
theorem delivered_mbx (hmore : s.sched.mbx.toNat + 2 ^ m < s.fh.mbw) :
    (delivered m s).sched.mbx.toNat = s.sched.mbx.toNat + 2 ^ m := by
  have hwidth := s.fh.width.isLt
  have hmbw := mbw_eq s.fh
  have mbx : (delivered m s).sched.mbx = BitVec.ofNat 13 (s.sched.mbx.toNat + 2 ^ m) := by simp [delivered, hmore]
  rw [mbx]
  exact Nat.mod_eq_of_lt (by omega)

theorem delivered_restOfRow (hmore : s.sched.mbx.toNat + 2 ^ m < s.fh.mbw) :
    restOfRow (delivered m s) = restOfRow s - 2 ^ m := by
  rw [restOfRow, delivered_mbx hmore, ← Nat.sub_sub]
  rfl

theorem delivered_mby (hmore : s.sched.mbx.toNat + 2 ^ m < s.fh.mbw) : (delivered m s).sched.mby = s.sched.mby := by
  simp [delivered, hmore]

/-- Any other slice leaves it inside the row, the delivered width the next candidate. -/
theorem insideRow_delivered (h : InsideRow s k) (hm : WidthFits k (restOfRow s) m)
    (hmore : s.sched.mbx.toNat + 2 ^ m < s.fh.mbw) : InsideRow (delivered m s) m := by
  have hk := lt_sixteen_of_candidate h.candidate
  have hidx := delivered_idx (m := m) (h.deliverable hm).counted
  have hmbx := delivered_mbx hmore
  have rest := delivered_restOfRow hmore
  have candidate : (delivered m s).sched.cur = BitVec.ofNat 16 (2 ^ m) := by simp [delivered, hmore]
  obtain ⟨running, buffer, -, -, counted, stored⟩ := h
  rw [rowWidths_eq_cons hm, List.length_cons] at counted stored
  refine ⟨running, buffer, hmbx ▸ hmore, ?_, ?_, ?_⟩
  · rw [candidate]
    exact Nat.mod_eq_of_lt (Nat.pow_lt_pow_right (by decide) (hm.halved.trans_lt hk))
  · rw [rest, hidx, Nat.add_assoc, Nat.add_comm 1]
    exact counted
  · rw [rest, hidx, Nat.add_assoc, Nat.add_comm 1]
    exact stored

/-- The next row is that of the slice before, one slice further. -/
theorem NextRow.of_delivered {t : State} (h : NextRow n (delivered m s) t)
    (hidx : s.sched.idx.toNat < s.ph.slicecount.toNat) (hmore : s.sched.mbx.toNat + 2 ^ m < s.fh.mbw) : NextRow (n + 1) s t := by
  obtain ⟨idx, mbx, mby, cur⟩ := h
  rw [delivered_idx hidx] at idx
  rw [delivered_mby hmore] at mby
  exact ⟨by omega, mbx, mby, cur⟩

/-- The commands that deliver the rest of a row, one for each of its widths. -/
theorem deliveredWidths_of_insideRow (h : InsideRow s k) (hn : (rowWidths (restOfRow s) k).length = n) :
    deliveredWidths n s = rowWidths (restOfRow s) k ∧ NextRow n s (afterTimes .nxsl n s) := by
  induction n generalizing s k with
  | zero =>
    obtain ⟨m, hm⟩ := h.exists_width
    rw [rowWidths_eq_cons hm] at hn
    cases hn
  | succ n ih =>
    obtain ⟨m, hm⟩ := h.exists_width
    have hm16 : m < 16 := hm.halved.trans_lt (lt_sixteen_of_candidate h.candidate)
    have hdel := h.deliverable hm
    rw [rowWidths_eq_cons hm, List.length_cons, Nat.add_right_cancel_iff] at hn
    rw [deliveredWidths, afterTimes, after_eq (exec_nxsl_of_deliverable hdel), delivered_mbcount hm16, rowWidths_eq_cons hm]
    rcases Nat.lt_or_ge (s.sched.mbx.toNat + 2 ^ m) s.fh.mbw with hmore | hlast
    · rw [← delivered_restOfRow hmore] at hn ⊢
      obtain ⟨widths, next⟩ := ih (insideRow_delivered h hm hmore) hn
      exact ⟨congrArg _ widths, next.of_delivered hdel.counted hmore⟩
    · rw [show restOfRow s - 2 ^ m = 0 by unfold restOfRow; omega, rowWidths_zero] at hn ⊢
      subst hn
      exact ⟨rfl, delivered_last hdel.counted hlast⟩

end

/-- Settles O37: the closed form counts a list that adds up to the row, and the commands of a row deliver it. -/
theorem rowSchedule : Obligations.RowSchedule := by
  refine ⟨fun mbw l2 h => ⟨slicesPerRow_eq_length (by omega), rowWidths_sum mbw l2⟩, slicesPerRow_zero, ?_⟩
  intro s hrun hbuf hmbw hmbx hcur n hcount hstore
  have hl2 : s.ph.l2byte.toNat / 16 < 16 := by omega
  have hn : n = (rowWidths s.fh.mbw (s.ph.l2byte.toNat / 16)).length := slicesPerRow_eq_length hl2.le
  have hrest : restOfRow s = s.fh.mbw := by simp [restOfRow, hmbx]
  have start : InsideRow s (s.ph.l2byte.toNat / 16) := by
    refine ⟨hrun, hbuf, ?_, ?_, ?_, ?_⟩
    · rw [hmbx]
      exact hmbw
    · rw [hcur]
      exact Nat.mod_eq_of_lt (Nat.pow_lt_pow_right (by decide) hl2)
    · rwa [hrest, ← hn]
    · rwa [hrest, ← hn]
  obtain ⟨widths, idx, mbx, mby, cur⟩ := deliveredWidths_of_insideRow start (n := n) (by rw [hrest, hn])
  exact ⟨hrest ▸ widths, idx, mbx, mby, cur.trans hcur.symm⟩

end Sys2Proof.Machine

/-! PROOFS. The coefficient commands that take one step (43_coefficient_coder.md R202, R203, R205, R206): DCINIT and ACINIT, DCSYM as the
reading of one codeword and what its code leaves, ACSYM on a triple and at an end. -/

namespace Sys2Proof.Machine

-- In order and not side by side: pending proofs hold memory, and the joined text is near the limit of check.sh.
set_option Elab.async false

open Sys2Proof.Claims

/-! ### The start of a plane (R202, R205) -/

/-- DCINIT with a legal `L2BPS`. -/
theorem exec_dcinit_of_legal {s : State} (hrun : Running s) (hb : BpsLegal s) : exec .dcinit s = .next (dcInit s) := by
  have hbody : dcinitBody s = .ok () (dcInit s) := by rw [dcinitBody, checkBps_ok hb, Res.bind_ok]
  exact runCommand_ok hrun hbody

/-- Settles O42: the check of `L2BPS`, then each command's effect. -/
theorem planeStarts : Obligations.PlaneStarts := by
  refine ⟨by decide, fun s hrun hb => ⟨?_, ?_⟩, fun s hrun hb hw => ?_, fun s hrun hb => ?_⟩
  · refine exec_of_body_raised (i := .dcinit) (.badOperand .bps) rfl (by decide) hrun ?_ rfl
    show dcinitBody s = _
    rw [dcinitBody, checkBps_raised hb, Res.bind_raised]
  · refine exec_of_body_raised (i := .acinit) (.badOperand .bps) rfl (by decide) hrun ?_ rfl
    show acinitBody s = _
    rw [acinitBody, checkBps_raised hb, Res.bind_raised]
  · refine ⟨_, exec_dcinit_of_legal hrun hb, ?_, fun k => ?_⟩
    · have hbps : (0 : Nat) ≠ s.bps := (Nat.two_pow_pos _).ne
      rw [dcInit_eq]
      simp only [dcReached, List.length_nil, hbps, decide_false, Nat.add_zero, ofNat_toNat_word]
      rfl
    · rw [dcInit_eq]
      exact (dcStored_nil hw.coef .luma).read k
  · have hbody : acinitBody s = .ok () (acInit s) := by rw [acinitBody, checkBps_ok hb, Res.bind_ok]
    exact runCommand_ok hrun hbody

/-! ### A corruption ends a command of the coder (60_exceptions.md R272, R273) -/

/-- A decode command that raises `CorruptSliceData` takes it where it left `BITPOS`, and the plane is abandoned. -/
theorem runCommand_of_corrupt {i : Instr} {s t : State} {k : CorruptSub} {body : State → Res Unit} (hpos : Instr.posKind i = .stream)
    (habandons : Instr.abandons i = true) (hrun : Running s) (h : body s = .raised (.corruptSliceData k) t) :
    runCommand i s body =
      .next (corrupt i.opcode.toNat (Raise.corruptSliceData k).subcode.toNat t.cur.bitpos true t) := by
  rw [runCommand_raised hrun h, takeFault_corrupt, hpos, habandons]
  rfl

/-! ### One DC code (R203) -/

/-- The codebook of the code of the block `CTX_BLK` names (R203 step 3). -/
def dcBookAt (s : State) : Codebook :=
  if s.ctx.blk = 0 then cbromAt s.cfg.cbrom .firstDC 0 else cbromAt s.cfg.cbrom .dcDelta s.ctx.prevcode.toNat

/-- The context after a DC code: the first block's, or a later one's (R203 steps 3 and 5). -/
def dcContextAfter (init : DcCtxInit) (code : Int) (c : CoderContext) : CoderContext :=
  if c.blk = 0 then { c with
    blk := c.blk + 1
    prevdc := toSigned (s32 code)
    prevcode := if init = .firstCode then s32 code else c.prevcode }
  else { c with
    blk := c.blk + 1
    prevdc := c.prevdc + s32 (if nextSign c.sign code then -((code + 1) / 2) else (code + 1) / 2)
    sign := nextSign c.sign code
    prevcode := s32 code }

/-- The state after a DC code, its bits passed (R203 steps 3 to 7). -/
def dcDecoded (p : QMatrix) (code : Int) (s : State) : State := { s with
  ctx := dcContextAfter s.cfg.dcCtxInit code s.ctx
  coef := Memory.write coefUnlisted s.coef (64 * s.ctx.blk.toNat)
    (dequant s p 0 (dcContextAfter s.cfg.dcCtxInit code s.ctx).prevdc)
  status := { s.status with eop := s.status.eop || decide (s.ctx.blk.toNat + 1 = s.bps) } }

section
variable {s t : State} (p : QMatrix)

/-- Storing the term: the word, the context, and `EOP` at the last block (R203 steps 4 to 7). -/
theorem storeDc_eq (dc : Word) (s : State) : storeDc p dc s = { s with
    ctx := { s.ctx with prevdc := dc, blk := s.ctx.blk + 1 }
    coef := Memory.write coefUnlisted s.coef (64 * s.ctx.blk.toNat) (dequant s p 0 dc)
    status := { s.status with eop := s.status.eop || decide (s.ctx.blk.toNat + 1 = s.bps) } } := by
  rw [storeDc]
  by_cases h : s.ctx.blk.toNat + 1 = s.bps
  · rw [decide_eq_true h, Bool.or_true]
    exact if_pos h
  · rw [decide_eq_false h, Bool.or_false]
    exact if_neg h

/-- The reader moves `BITPOS` only. -/
theorem readCodeword_ok_eq {cb : Codebook} {v : Int} (h : readCodeword cb s = .ok v t) : ∃ n, t = s.withBitpos n := by
  obtain ⟨n, e⟩ := readCodeword_state cb s
  rw [h] at e
  exact ⟨n, e⟩

/-- Storing the term that a code gives, in the context its sign and `CTX_PREVCODE` are already in. -/
theorem storeDc_withCtx {x : CoderContext} {code : Int} {dc : Word} (hblk : x.blk = s.ctx.blk)
    (hx : dcContextAfter s.cfg.dcCtxInit code s.ctx = { x with prevdc := dc, blk := s.ctx.blk + 1 }) :
    storeDc p dc (s.withCtx x) = dcDecoded p code s := by
  rw [storeDc_eq, dcDecoded, hx, State.withCtx_ctx, hblk]
  rfl

/-- The first block's step is one codeword read and what its code leaves. -/
theorem firstDc_eq (hblk : s.ctx.blk = 0) :
    firstDc p s = (readCodeword (dcBookAt s) s).bind fun code t => .ok () (dcDecoded p code t) := by
  rw [firstDc, dcBookAt, if_pos hblk]
  cases hread : readCodeword (cbromAt s.cfg.cbrom .firstDC 0) s with
  | raised r t => rfl
  | ok code t =>
    obtain ⟨n, rfl⟩ := readCodeword_ok_eq hread
    have context : (match s.cfg.dcCtxInit with
        | .const _ => s.withBitpos n
        | .firstCode => (s.withBitpos n).withCtx { s.ctx with prevcode := s32 code }) =
        (s.withBitpos n).withCtx
          { s.ctx with prevcode := if s.cfg.dcCtxInit = .firstCode then s32 code else s.ctx.prevcode } := by
      cases s.cfg.dcCtxInit <;> rfl
    rw [Res.bind_ok, Res.bind_ok]
    refine (congrArg (fun t => Res.ok () (storeDc p (toSigned (s32 code)) t)) context).trans (congrArg _ ?_)
    exact storeDc_withCtx (s := s.withBitpos n) p rfl (if_pos hblk)

/-- The same of a later block's step. -/
theorem deltaDc_eq (hblk : s.ctx.blk ≠ 0) :
    deltaDc p s = (readCodeword (dcBookAt s) s).bind fun code t => .ok () (dcDecoded p code t) := by
  rw [deltaDc, dcBookAt, if_neg hblk]
  cases hread : readCodeword (cbromAt s.cfg.cbrom .dcDelta s.ctx.prevcode.toNat) s with
  | raised r t => rfl
  | ok code t =>
    obtain ⟨n, rfl⟩ := readCodeword_ok_eq hread
    exact congrArg (Res.ok ()) (storeDc_withCtx (s := s.withBitpos n) p rfl (if_neg hblk))

/-- Where a block is left and the plane neither abandoned nor ended, DCSYM's step is one codeword read and what its code leaves. -/
theorem dcStep_eq (ha : s.status.abandon = false) (he : s.status.eop = false) (hblk : s.ctx.blk.toNat < s.bps) :
    dcStep p s = (readCodeword (dcBookAt s) s).bind fun code t => .ok () (dcDecoded p code t) := by
  rw [dcStep, if_neg (by simp [ha, he]), if_neg (Nat.not_le.2 hblk)]
  by_cases h : s.ctx.blk = 0
  · rw [if_pos h, firstDc_eq p h]
  · rw [if_neg h, deltaDc_eq p h]

theorem dcStep_of_ended (h : s.status.abandon = true ∨ s.status.eop = true) : dcStep p s = .ok () s :=
  if_pos (by simpa using h)

/-- Past the last block (R203 step 2). -/
theorem dcStep_of_full (ha : s.status.abandon = false) (he : s.status.eop = false) (hblk : s.bps ≤ s.ctx.blk.toNat) :
    dcStep p s = .ok () s.setEop := by
  rw [dcStep, if_neg (by simp [ha, he]), if_pos hblk]

theorem dcStep_of_corrupt {sub pos : Nat} (ha : s.status.abandon = false) (he : s.status.eop = false) (hblk : s.ctx.blk.toNat < s.bps)
    (h : CorruptAt (dcBookAt s) s.bs s.cur.bitpos.toNat s.cur.bitend.toNat sub pos) :
    dcStep p s = .raised (corruptionOf sub) (s.withBitpos pos) := by
  rw [dcStep_eq p ha he hblk, readCodeword_of_corrupt h, Res.bind_raised]

theorem dcsymBody_of_legal (hcur : CursorsLegal s) (hb : BpsLegal s) : dcsymBody p s = dcStep p s := by
  rw [dcsymBody, checkCursors_ok hcur, Res.bind_ok, checkBps_ok hb, Res.bind_ok]

/-- The context after a code that is a natural number, in the terms of the statement. -/
theorem dcContextAfter_natCast (init : DcCtxInit) (x : CoderContext) {c : Nat} (hc : c < 2 ^ 31) :
    dcContextAfter init c x = { x with
      blk := x.blk + 1
      prevdc := if x.blk = 0 then BitVec.ofInt 32 (signedOf c) else dcAfter x.sign x.prevdc c
      sign := if x.blk = 0 then x.sign else signAfter x.sign c
      prevcode := if x.blk = 0 ∧ init ≠ .firstCode then x.prevcode else BitVec.ofNat 32 c } := by
  rw [dcContextAfter]
  by_cases hblk : x.blk = 0
  · by_cases hinit : init = .firstCode <;> simp [hblk, hinit, s32_natCast, toSigned_ofNat hc]
  · simp only [hblk, false_and, if_false, nextSign_natCast, s32_natCast, add_s32_magnitude]

end

/-- Settles O43: the cases of the step, and the code that stands at `BITPOS` read and stored. -/
theorem dcsymDecodes : Obligations.DcsymDecodes := by
  intro s p hrun hcur hb hw
  have hop : (Instr.dcsym p).opcode.toNat = 0x31 := rfl
  have hbody := dcsymBody_of_legal p hcur hb
  refine ⟨fun h => runCommand_ok hrun (hbody.trans (dcStep_of_ended p h)), fun ha he => ⟨fun hblk => ?_, ?_, ?_⟩⟩
  · exact runCommand_ok hrun (hbody.trans (dcStep_of_full p ha he hblk))
  · intro sub pos hblk hcorrupt
    obtain ⟨k, rfl, hcause⟩ := corruptionOf_subcode hcorrupt
    have hraised := hbody.trans (dcStep_of_corrupt p ha he hblk hcorrupt)
    rw [hcause] at hraised
    exact runCommand_of_corrupt (i := .dcsym p) rfl rfl hrun hraised
  · intro c l hblk hc hbits hroom dc
    have hread := readCodeword_of_codes (cb := dcBookAt s) hc hbits hroom
    have hok : dcsymBody p s = .ok () (dcDecoded p c (s.advance l.length)) := by
      rw [hbody, dcStep_eq p ha he hblk, hread, Res.bind_ok]
    have context := dcContextAfter_natCast s.cfg.dcCtxInit s.ctx (codes_lt hc)
    refine ⟨_, runCommand_ok hrun hok, ?_, fun k => ?_⟩
    · have heop : (s.advance l.length).status.eop = false := he
      simp only [dcDecoded, heop, Bool.false_or, State.advance_ctx, State.advance_cfg, context]
      rfl
    · have term : (dcContextAfter s.cfg.dcCtxInit c s.ctx).prevdc = dc := by rw [context]
      rw [← term]
      exact Memory.read_write coefUnlisted hw.coef _ _ _

/-! ### One AC triple, or none (R206) -/

theorem acsymBody_of_legal {s : State} (p : QMatrix) (hcur : CursorsLegal s) (hb : BpsLegal s) (hmaxc : MaxcLegal s) :
    acsymBody p s = acStep p s := by
  rw [acsymBody, checkCursors_ok hcur, Res.bind_ok, checkBps_ok hb, Res.bind_ok, checkMaxc_ok hmaxc, Res.bind_ok]

/-- Settles O46: one step at a triple, and what it stores. -/
theorem acsymDecodes : Obligations.AcsymDecodes := by
  intro s p x l₁ l₂ hrun hcur hb hmaxc hw ha he hlevel hrunCode hlevelCode hbits hroom bps np hnear
  rw [List.append_assoc] at hbits hroom ⊢
  have hok := (acsymBody_of_legal p hcur hb hmaxc).trans
    (acStep_of_triple ha he hmaxc hlevel hrunCode hlevelCode hbits hroom hnear)
  refine ⟨acDecoded p x _ s, runCommand_ok hrun hok, ?_, fun k => ?_⟩
  · rw [acDecoded_eq]
    rfl
  · rw [acDecoded_eq]
    exact Memory.read_write coefUnlisted hw.coef _ _ _

/-- Settles O47: nothing to do, or every end of the triples. -/
theorem acsymStops : Obligations.AcsymStops := by
  intro s p hrun hcur hb hmaxc
  have hbody := acsymBody_of_legal p hcur hb hmaxc
  refine ⟨fun h => runCommand_ok hrun (hbody.trans (if_pos (by simpa using h))), fun sub next ha he hend => ?_⟩
  have stopped := hbody ▸ acStep_of_end (p := p) ha he hmaxc hend
  cases sub with
  | none => exact runCommand_ok hrun stopped
  | some c =>
    obtain ⟨k, rfl, hraised⟩ := stopped
    exact runCommand_of_corrupt (i := .acsym p) rfl rfl hrun hraised

end Sys2Proof.Machine

/-! PROOFS. RDDC on a DC part that is corrupt at a block (43_coefficient_coder.md R204; 60_exceptions.md R272 to R274): the loop up to that
block, the corruption taken there, and the RDAC that follows. -/

namespace Sys2Proof.Machine

-- In order and not side by side: pending proofs hold memory, and the joined text is near the limit of check.sh.
set_option Elab.async false

open Sys2Proof.Claims

/-- A corruption leaves `BITPOS` between where it stood and `BITEND` (41_entropy_coder.md R151). -/
theorem corruptAt_bounds {cb : Codebook} {bs : Memory 8} {a e sub pos : Nat} (h : CorruptAt cb bs a e sub pos) : a ≤ pos ∧ pos ≤ e := by
  cases h <;> omega

/-! ### The loop up to a block -/

section
variable {s : State} {p : QMatrix}

/-- The code the next codebook is selected by, as a number. -/
theorem dcReached_prevcode {c0 : Nat} {cs : List Nat} (hsmall : ∀ c ∈ c0 :: cs, c < 2 ^ 31) (n : Nat) (coef : Memory 32) :
    (dcReached s (c0 :: cs) n coef).ctx.prevcode.toNat = cs.getLast?.getD (dcFirstContext s.cfg.dcCtxInit c0) := by
  refine Nat.mod_eq_of_lt ?_
  cases hl : cs.getLast? with
  | some d =>
    have := hsmall d (List.mem_cons_of_mem _ (List.mem_of_getLast? hl))
    simp
    omega
  | none =>
    have := hsmall c0 (List.mem_cons_self ..)
    cases s.cfg.dcCtxInit with
    | const m => simp [dcFirstContext]; omega
    | firstCode => simp [dcFirstContext]; omega

theorem dcReached_blk {codes : List Nat} (hlt : codes.length < 2 ^ 18) (n : Nat) (coef : Memory 32) :
    (dcReached s codes n coef).ctx.blk.toNat = codes.length := by
  rw [dcReached, dcContext_blk]
  exact Nat.mod_eq_of_lt hlt

/-- The codebook of the next block's code. -/
theorem dcBookAt_dcReached {codes : List Nat} (hlt : codes.length < 2 ^ 18) (hsmall : ∀ c ∈ codes, c < 2 ^ 31) (n : Nat)
    (coef : Memory 32) : dcBookAt (dcReached s codes n coef) = nextDcBook s.cfg codes := by
  cases codes with
  | nil => rfl
  | cons c0 cs =>
    have hne : ¬(dcReached s (c0 :: cs) n coef).ctx.blk = 0 := fun h => by
      have hblk := dcReached_blk (s := s) hlt n coef
      rw [h] at hblk
      cases hblk
    rw [dcBookAt, if_neg hne, dcReached_prevcode hsmall]
    rfl

/-- The loop over the codes of blocks that do not complete the plane goes on after them (R204). -/
theorem dcLoop_passes (hbps : s.bps ≤ 2 ^ 17) (m : Nat) {rest codes : List Nat} {n : Nat} {coef : Memory 32} {l : List Bool}
    (hlen : codes.length + rest.length < s.bps) (hsmall : ∀ c ∈ codes, c < 2 ^ 31) (hcoef : DcStored s p codes coef)
    (hc : DcCodesAfter s.cfg codes rest l) (hbits : holdsBits s.bs (s.cur.bitpos.toNat + n) l = true)
    (hroom : s.cur.bitpos.toNat + n + l.length ≤ s.cur.bitend.toNat) :
    ∃ coef', dcLoop p (rest.length + m) (dcReached s codes n coef) = dcLoop p m (dcReached s (codes ++ rest) (n + l.length) coef') ∧
      DcStored s p (codes ++ rest) coef' ∧ ∀ c ∈ codes ++ rest, c < 2 ^ 31 := by
  induction rest generalizing codes n coef l with
  | nil =>
    subst hc
    rw [List.append_nil, List.length_nil, List.length_nil, Nat.zero_add]
    exact ⟨coef, rfl, hcoef, hsmall⟩
  | cons c rest ih =>
    obtain ⟨l₁, l₂, rfl, hc₁, hc₂⟩ := hc
    rw [holdsBits_append, Bool.and_eq_true] at hbits
    rw [List.length_append] at hroom
    rw [List.length_cons] at hlen
    have hlt : codes.length < s.bps := by omega
    have len : (codes ++ [c]).length = codes.length + 1 := List.length_append
    have small : ∀ x ∈ codes ++ [c], x < 2 ^ 31 := fun x hx =>
      (List.mem_append.1 hx).elim (hsmall x) fun h => List.mem_singleton.1 h ▸ codes_lt hc₁
    have heop : codes.length + 1 ≠ s.bps := by omega
    have later := ih (by omega) small (hcoef.snoc c hlt) hc₂ (by rw [← Nat.add_assoc]; exact hbits.2) (by omega)
    rw [List.append_assoc, List.singleton_append] at later
    rw [List.length_cons, Nat.add_right_comm, dcLoop, dcStep_reached hbps hlt hsmall hc₁ hbits.1 (by omega), Res.bind_ok,
      if_neg (by simp [dcReached, heop]), List.length_append, ← Nat.add_assoc]
    exact later

/-- The loop at a block that is corrupt. -/
theorem dcLoop_of_corrupt (hbps : s.bps ≤ 2 ^ 17) (m : Nat) {codes : List Nat} {n sub pos : Nat} {coef : Memory 32}
    (hlt : codes.length < s.bps) (hsmall : ∀ c ∈ codes, c < 2 ^ 31) (hroom : s.cur.bitpos.toNat + n ≤ s.cur.bitend.toNat)
    (h : CorruptAt (nextDcBook s.cfg codes) s.bs (s.cur.bitpos.toNat + n) s.cur.bitend.toNat sub pos) :
    dcLoop p (m + 1) (dcReached s codes n coef) = .raised (corruptionOf sub) ((dcReached s codes n coef).withBitpos pos) := by
  have hend := s.cur.bitend.isLt
  have hpos : (dcReached s codes n coef).cur.bitpos.toNat = s.cur.bitpos.toNat + n := Nat.mod_eq_of_lt (by omega)
  have hblk : (dcReached s codes n coef).ctx.blk.toNat < s.bps := by rwa [dcReached_blk (by omega)]
  have hcorrupt : CorruptAt (dcBookAt (dcReached s codes n coef)) s.bs (dcReached s codes n coef).cur.bitpos.toNat
      s.cur.bitend.toNat sub pos := by
    rwa [dcBookAt_dcReached (by omega) hsmall, hpos]
  rw [dcLoop, dcStep_of_corrupt p rfl (decide_eq_false hlt.ne) hblk hcorrupt, Res.bind_raised]

end

/-! ### The command, and the RDAC that follows -/

/-- The state a DC part leaves that is corrupt after some codes, before the corruption is taken. -/
def dcBroken (s : State) (codes : List Nat) (pos : Nat) (coef : Memory 32) : State := { s with
  cur := { s.cur with bitpos := BitVec.ofNat 32 pos }
  ctx := dcContext s codes
  status := { s.status with abandon := false, eop := false }
  coef := coef }

theorem rddcBody_of_corrupt {s : State} {p : QMatrix} {codes : List Nat} {l : List Bool} {sub pos : Nat} (hcur : CursorsLegal s)
    (hb : BpsLegal s) (hcfg : s.cfg.wf = true) (hw : s.memoriesWf) (hlen : codes.length < s.bps) (hc : DcCodes s.cfg codes l)
    (hbits : holdsBits s.bs s.cur.bitpos.toNat l = true) (hroom : s.cur.bitpos.toNat + l.length ≤ s.cur.bitend.toNat)
    (h : CorruptAt (nextDcBook s.cfg codes) s.bs (s.cur.bitpos.toNat + l.length) s.cur.bitend.toNat sub pos) :
    ∃ coef, rddcBody p s = .raised (corruptionOf sub) (dcBroken s codes pos coef) ∧ DcStored s p codes coef := by
  have hbps := bps_le hb hcfg
  obtain ⟨m, hm⟩ : ∃ m, s.bps = codes.length + (m + 1) := ⟨s.bps - codes.length - 1, by omega⟩
  obtain ⟨coef, hloop, hstored, hsmall⟩ := dcLoop_passes (p := p) hbps (m + 1) (codes := []) (n := 0)
    ((Nat.zero_add _).trans_lt hlen) (by simp) (dcStored_nil hw.coef p) (dcCodesAfter_nil hc) hbits hroom
  rw [List.nil_append, Nat.zero_add] at hloop
  refine ⟨coef, ?_, hstored⟩
  have heop : decide (codes.length = s.bps) = false := decide_eq_false hlen.ne
  rw [rddcBody, checkCursors_ok hcur, Res.bind_ok, checkBps_ok hb, Res.bind_ok, dcInit_eq]
  refine (congrArg (fun k => dcLoop p k _) hm).trans (hloop.trans ?_)
  rw [dcLoop_of_corrupt hbps m hlen hsmall hroom h, dcReached, heop]
  rfl

/-- Settles O45: the loop up to the corrupt block; on the abandoned plane it leaves, RDAC restarts the AC context (O48). -/
theorem rddcConceals : Obligations.RddcConceals := by
  intro s p codes l sub pos hrun hcur hb hcfg hw hlen hc hbits hroom h
  obtain ⟨coef, hbody, hstored⟩ := rddcBody_of_corrupt (p := p) hcur hb hcfg hw hlen hc hbits hroom h
  obtain ⟨k, rfl, hcause⟩ := corruptionOf_subcode h
  rw [hcause] at hbody
  refine ⟨_, runCommand_of_corrupt (i := .rddc p) rfl rfl hrun hbody, rfl, hstored.read, fun hconceal hmaxc => ?_⟩
  intro u
  have hu : u = concealed 0x32 (Raise.corruptSliceData k).subcode.toNat (BitVec.ofNat 32 pos) true (dcBroken s codes pos coef) :=
    if_neg (by simp [dcBroken, hconceal])
  have habandon : u.status.abandon = true := by rw [hu]; rfl
  have heop : ({ u.status with eop := false } : Status) = u.status := by rw [hu]; rfl
  have hlegal : CursorsLegal u := by
    obtain ⟨hbuf, hlast, -⟩ := hcur
    have hend := s.cur.bitend.isLt
    obtain ⟨-, hle⟩ := corruptAt_bounds h
    rw [hu]
    exact ⟨hbuf, hlast, (Nat.mod_eq_of_lt (show pos < 2 ^ 32 by omega)).trans_le hle⟩
  have follows := rdacDecodes.1 u p (by rw [hu]; exact hrun) hlegal (by rw [hu]; exact hb) (by rw [hu]; exact hmaxc) habandon
  rw [heop] at follows
  exact ⟨habandon, follows⟩

end Sys2Proof.Machine

/-! PROOFS. WRDC (43_coefficient_coder.md R208): the codes of the plane's DC terms one by one, what writing one of them leaves, and the
loop over those that have a codeword with room for it. -/

namespace Sys2Proof.Machine

-- In order and not side by side: pending proofs hold memory, and the joined text is near the limit of check.sh.
set_option Elab.async false

open Sys2Proof.Claims

/-! ### Writing a codeword, or refusing to (41_entropy_coder.md R153) -/

section
variable {cb : Codebook} {s : State} {v : Int}

/-- The writer on a value whose bit string fits. -/
theorem writeCodeword_of_codes {l : List Bool} (hc : Codes cb v l) (hwf : Memory.wf bsUnlisted s.bs)
    (hroom : s.cur.bitpos.toNat + l.length ≤ s.cur.bitend.toNat) :
    ∃ bs, writeCodeword cb v s = .ok () ((s.advance l.length).withBs bs) ∧ StoresBits s.bs bs s.cur.bitpos.toNat l ∧
      Memory.wf bsUnlisted bs := by
  obtain ⟨q, n, x, hc, rfl⟩ := hc
  rw [codeword_length] at hroom ⊢
  exact writeCodeword_of_isCode hc hwf hroom

/-- The writer where the statement's table says that it fails: nothing is written. -/
theorem writeCodeword_of_fails {code sub : Nat} (h : WriteFails cb v s.cur.bitpos.toNat s.cur.bitend.toNat code sub) :
    Refuses (writeCodeword cb v s) s code sub := by
  cases h with
  | negative below => exact ⟨.notRepresentable .negative, by rw [writeCodeword, codewordOf_of_neg below], rfl, rfl, rfl⟩
  | tooLarge legal above =>
    exact ⟨.notRepresentable .tooLarge, by rw [writeCodeword, codewordOf_of_vmax_lt legal above], rfl, rfl, rfl⟩
  | noRoom l hc past =>
    obtain ⟨q, n, x, hc, rfl⟩ := hc
    rw [codeword_length] at past
    refine ⟨.bufferTooSmall .stream, ?_, rfl, rfl, rfl⟩
    simp only [writeCodeword, codewordOf_of_isCode hc]
    exact if_pos (by omega)

/-- A value that is not negative is written or refused: nothing else occurs. -/
theorem codes_or_fails (cb : Codebook) {v : Int} (h0 : 0 ≤ v) (a e : Nat) :
    (∃ l, Codes cb v l ∧ a + l.length ≤ e) ∨ ∃ code sub, WriteFails cb v a e code sub := by
  by_cases hv : v ≤ vmax cb
  · obtain ⟨q, n, x, hc⟩ := exists_isCode h0 hv
    by_cases hroom : a + (codeword q n x).length ≤ e
    · exact .inl ⟨_, ⟨q, n, x, hc, rfl⟩, hroom⟩
    · exact .inr ⟨3, 2, .noRoom _ ⟨q, n, x, hc, rfl⟩ (by omega)⟩
  · exact .inr ⟨5, 2, .tooLarge h0 (by omega)⟩

/-- An encode command refused part-way: its fault is fatal and records `BITPOS` as its writes left it (60_exceptions.md R270, R277). -/
theorem runCommand_of_refused {i : Instr} {s t : State} {code sub : Nat} {body : State → Res Unit}
    (hpos : Instr.posKind i = .stream) (hrun : Running s) (h : Refuses (body s) t code sub) :
    runCommand i s body = .next (fatal i.opcode.toNat code sub t.cur.bitpos t) := by
  obtain ⟨r, hraised, hr, rfl, rfl⟩ := h
  rw [runCommand_raised hrun hraised, takeFault_fatal _ _ _ hr, hpos]
  rfl

end

/-! ### The codes of a plane (R208) -/

/-- The code of a DC difference under a running sign. -/
def deltaCodeOf (sign : Bool) (d : Word) : Nat :=
  if d = 0 then 0 else 2 * d.toInt.natAbs - (if sign ≠ d.slt 0 then 1 else 0)

/-- The difference between a block's DC term and that of the block before; the first block's is 0. -/
def dcDelta (s : State) (blk : Nat) : Word := s.coefAt (64 * blk) - s.coefAt (64 * (blk - 1))

/-- The writer's code is the statement's. -/
theorem deltaCode_eq (sign : Bool) (d : Word) : deltaCode sign d = deltaCodeOf sign d := by
  rw [deltaCode, deltaCodeOf]
  split
  · rfl
  · rename_i hd
    have hne : d.toInt ≠ 0 := fun h => hd (BitVec.eq_of_toInt_eq h)
    have hsign : (sign ^^ d.slt 0) = decide (sign ≠ d.slt 0) := by cases sign <;> cases d.slt 0 <;> rfl
    rw [hsign]
    simp only [decide_eq_true_eq]
    split <;> omega

theorem deltaCodes_cons (sign : Bool) (d : Word) (ds : List Word) :
    deltaCodes sign (d :: ds) = deltaCodeOf sign d :: deltaCodes (d.slt 0) ds := rfl

theorem dcDeltas_succ (s : State) (n blk : Nat) : dcDeltas s (n + 1) blk = dcDelta s blk :: dcDeltas s n (blk + 1) := rfl

theorem deltaCodes_length (sign : Bool) (ds : List Word) : (deltaCodes sign ds).length = ds.length := by
  induction ds generalizing sign with
  | nil => rfl
  | cons d ds ih => rw [deltaCodes_cons, List.length_cons, List.length_cons, ih]

theorem dcDeltas_length (s : State) (n blk : Nat) : (dcDeltas s n blk).length = n := by
  induction n generalizing blk with
  | zero => rfl
  | succ n ih => rw [dcDeltas_succ, List.length_cons, ih]

/-- Each code is that of its block's difference, under the sign of the difference before. -/
theorem getElem?_deltaCodes_dcDeltas (s : State) {n i : Nat} (blk : Nat) (hi : i < n) :
    (deltaCodes ((dcDelta s blk).slt 0) (dcDeltas s n (blk + 1)))[i]? =
      some (deltaCodeOf ((dcDelta s (blk + i)).slt 0) (dcDelta s (blk + i + 1))) := by
  induction n generalizing blk i with
  | zero => exact absurd hi (Nat.not_lt_zero i)
  | succ n ih =>
    rw [dcDeltas_succ, deltaCodes_cons]
    cases i with
    | zero => rfl
    | succ i =>
      rw [List.getElem?_cons_succ, ih (blk + 1) (by omega), Nat.add_right_comm blk 1 i]
      rfl

section
variable (s : State)

theorem dcDelta_zero_slt : (dcDelta s 0).slt 0 = false := by
  rw [dcDelta, Nat.zero_sub, BitVec.sub_self]
  rfl

theorem planeCodes_eq : planeCodes s = (toGolomb (s.coefAt 0)).toNat :: deltaCodes false (dcDeltas s (s.bps - 1) 1) := by
  rw [toGolomb_eq]
  rfl

theorem planeCodes_length : (planeCodes s).length = s.bps := by
  have hpos : 0 < s.bps := Nat.two_pow_pos _
  rw [planeCodes_eq, List.length_cons, deltaCodes_length, dcDeltas_length]
  omega

/-- The code of the first block. -/
theorem planeCodes_first {c : Nat} {rest : List Nat} (h : planeCodes s = c :: rest) : c = (toGolomb (s.coefAt 0)).toNat := by
  rw [planeCodes_eq] at h
  exact (List.cons.inj h).1.symm

/-- The code of a later block. -/
theorem planeCodes_later {c0 c : Nat} {cs rest : List Nat} (h : planeCodes s = c0 :: cs ++ c :: rest) :
    c = deltaCodeOf ((dcDelta s cs.length).slt 0) (dcDelta s (cs.length + 1)) := by
  have len := congrArg List.length h
  rw [planeCodes_length] at len
  simp only [List.length_append, List.length_cons] at len
  have code := congrArg (fun l : List Nat => l[cs.length + 1]?) h
  rw [planeCodes_eq, ← dcDelta_zero_slt s] at code
  simp only [List.cons_append, List.getElem?_cons_succ] at code
  rw [getElem?_deltaCodes_dcDeltas s 0 (by omega), List.getElem?_append_right le_rfl, Nat.sub_self, Nat.zero_add] at code
  exact (Option.some.inj code).symm

end

/-! ### The state after some codes -/

/-- The state after the codes of the first blocks are written, `n` bits in all, with what they leave in BS. -/
def dcWritten (s : State) (codes : List Nat) (n : Nat) (bs : Memory 8) : State := { s with
  bs := bs
  cur := { s.cur with bitpos := BitVec.ofNat 32 (s.cur.bitpos.toNat + n) }
  ctx := writtenDcContext s codes }

/-- The DC half of a context, put into another. -/
def withDcPart (c x : CoderContext) : CoderContext :=
  { c with blk := x.blk, prevcode := x.prevcode, sign := x.sign, prevdc := x.prevdc }

/-- What is left of WRDC in a plane of `bps` blocks after the codes of the first: the first-DC codeword and the loop, or the loop from the
next block. -/
def wrdcFrom (bps : Nat) (codes : List Nat) (s : State) : Res Unit :=
  match codes with
  | [] => (writeCodeword (cbromAt s.cfg.cbrom .firstDC 0) (toGolomb (s.coefAt 0)).toNat s).bind fun _ t =>
      wrdcLoop (bps - 1) 1 (t.withCtx { t.ctx with
        prevcode := dcCtxAfterFirst s.cfg.dcCtxInit (toGolomb (s.coefAt 0))
        sign := false
        prevdc := s.coefAt 0
        blk := 1 })
  | _ :: _ => wrdcLoop (bps - codes.length) codes.length s

theorem wrdcFrom_snoc (bps : Nat) (codes : List Nat) (c : Nat) (s : State) :
    wrdcFrom bps (codes ++ [c]) s = wrdcLoop (bps - (codes.length + 1)) (codes.length + 1) s := by
  have len : (codes ++ [c]).length = codes.length + 1 := List.length_append
  rw [← len]
  cases codes <;> rfl

section
variable {s : State}

theorem wrdcBody_of_legal (hcur : CursorsLegal s) (hb : BpsLegal s) : wrdcBody s = wrdcFrom s.bps [] (dcWritten s [] 0 s.bs) := by
  have start : dcWritten s [] 0 s.bs = s := s.withBitpos_self
  rw [wrdcBody, checkCursors_ok hcur, Res.bind_ok, checkBps_ok hb, Res.bind_ok, start]
  rfl

/-- The context after the first code (R208 step 1). -/
theorem writtenDcContext_first (c : Nat) (hc : c = (toGolomb (s.coefAt 0)).toNat) : writtenDcContext s [c] = { s.ctx with
    prevcode := dcCtxAfterFirst s.cfg.dcCtxInit (toGolomb (s.coefAt 0))
    sign := false
    prevdc := s.coefAt 0
    blk := 1 } := by
  have sign := dcDelta_zero_slt s
  subst hc
  simp only [writtenDcContext, List.length_nil]
  rw [← dcDelta, sign]
  cases s.cfg.dcCtxInit <;> simp [dcFirstContext, dcCtxAfterFirst]

/-- The context after a later code (R208 step 2). -/
theorem writtenDcContext_snoc (c0 c : Nat) (cs : List Nat) : writtenDcContext s (c0 :: cs ++ [c]) = { s.ctx with
    prevcode := BitVec.ofNat 32 c
    sign := (dcDelta s (cs.length + 1)).slt 0
    prevdc := s.coefAt (64 * (cs.length + 1))
    blk := BitVec.ofNat 18 (cs.length + 1 + 1) } := by
  simp [writtenDcContext, dcDelta]

/-- The code the next codebook is selected by, as a number. -/
theorem writtenDcContext_prevcode {c0 : Nat} {cs : List Nat} (hsmall : ∀ c ∈ c0 :: cs, c < 2 ^ 31) :
    (writtenDcContext s (c0 :: cs)).prevcode.toNat = cs.getLast?.getD (dcFirstContext s.cfg.dcCtxInit c0) :=
  dcReached_prevcode hsmall 0 s.coef

/-- WRDC goes on with the next block's codeword, and the context after it. -/
theorem wrdcFrom_eq {codes rest : List Nat} {c : Nat} (hcodes : planeCodes s = codes ++ c :: rest) (hsmall : ∀ c ∈ codes, c < 2 ^ 31)
    (n : Nat) (bs : Memory 8) : wrdcFrom s.bps codes (dcWritten s codes n bs) =
      (writeCodeword (nextDcBook s.cfg codes) c (dcWritten s codes n bs)).bind fun _ t =>
        wrdcFrom s.bps (codes ++ [c]) (t.withCtx (withDcPart t.ctx (writtenDcContext s (codes ++ [c])))) := by
  have hlen := planeCodes_length s
  rw [hcodes, List.length_append, List.length_cons] at hlen
  cases codes with
  | nil =>
    have hc := planeCodes_first s hcodes
    rw [List.nil_append, writtenDcContext_first c hc, hc]
    rfl
  | cons c0 cs =>
    have hc : deltaCode ((dcDelta s cs.length).slt 0) (dcDelta s (cs.length + 1)) = c := by
      rw [deltaCode_eq, ← planeCodes_later s hcodes]
    have hleft : s.bps - (cs.length + 1) = s.bps - (cs.length + 1 + 1) + 1 := by
      rw [List.length_cons] at hlen
      omega
    have book : cbromAt s.cfg.cbrom .dcDelta (writtenDcContext s (c0 :: cs)).prevcode.toNat = nextDcBook s.cfg (c0 :: cs) := by
      rw [writtenDcContext_prevcode hsmall]
      rfl
    rw [← book, ← hc, writtenDcContext_snoc, ← s32_natCast, ← hc]
    simp only [wrdcFrom_snoc, List.length_cons]
    show wrdcLoop (s.bps - (cs.length + 1)) (cs.length + 1) _ = _
    rw [hleft]
    rfl

/-- A codeword written: the state after one more code. -/
theorem wrdcFrom_of_codes {codes rest : List Nat} {c n : Nat} {bs : Memory 8} {l : List Bool}
    (hcodes : planeCodes s = codes ++ c :: rest) (hsmall : ∀ c ∈ codes, c < 2 ^ 31) (hw : Memory.wf bsUnlisted bs)
    (hc : Codes (nextDcBook s.cfg codes) c l) (hroom : s.cur.bitpos.toNat + n + l.length ≤ s.cur.bitend.toNat) :
    ∃ bs', wrdcFrom s.bps codes (dcWritten s codes n bs) =
        wrdcFrom s.bps (codes ++ [c]) (dcWritten s (codes ++ [c]) (n + l.length) bs') ∧
      StoresBits bs bs' (s.cur.bitpos.toNat + n) l ∧ Memory.wf bsUnlisted bs' := by
  have hend := s.cur.bitend.isLt
  have hpos : (dcWritten s codes n bs).cur.bitpos.toNat = s.cur.bitpos.toNat + n := Nat.mod_eq_of_lt (by omega)
  obtain ⟨bs', hwrite, hstores, hw'⟩ := writeCodeword_of_codes (s := dcWritten s codes n bs) hc hw (by rw [hpos]; exact hroom)
  rw [hpos] at hstores
  refine ⟨bs', ?_, hstores, hw'⟩
  rw [wrdcFrom_eq hcodes hsmall, hwrite, Res.bind_ok, State.advance, hpos, Nat.add_assoc]
  cases codes <;> rfl

/-- A codeword refused. -/
theorem wrdcFrom_of_fails {codes rest : List Nat} {c n code sub : Nat} (bs : Memory 8) (hcodes : planeCodes s = codes ++ c :: rest)
    (hsmall : ∀ c ∈ codes, c < 2 ^ 31) (hroom : s.cur.bitpos.toNat + n ≤ s.cur.bitend.toNat)
    (h : WriteFails (nextDcBook s.cfg codes) c (s.cur.bitpos.toNat + n) s.cur.bitend.toNat code sub) :
    Refuses (wrdcFrom s.bps codes (dcWritten s codes n bs)) (dcWritten s codes n bs) code sub := by
  have hend := s.cur.bitend.isLt
  have hpos : (dcWritten s codes n bs).cur.bitpos.toNat = s.cur.bitpos.toNat + n := Nat.mod_eq_of_lt (by omega)
  rw [wrdcFrom_eq hcodes hsmall]
  exact (writeCodeword_of_fails (s := dcWritten s codes n bs) (by rw [hpos]; exact h)).bind _

/-- WRDC passes the codes that have codewords with room for them. -/
theorem wrdcFrom_passes {mid codes rest : List Nat} {n : Nat} {bs : Memory 8} {l : List Bool}
    (hcodes : planeCodes s = codes ++ (mid ++ rest)) (hsmall : ∀ c ∈ codes, c < 2 ^ 31) (hw : Memory.wf bsUnlisted bs)
    (hc : DcCodesAfter s.cfg codes mid l) (hroom : s.cur.bitpos.toNat + n + l.length ≤ s.cur.bitend.toNat) :
    ∃ bs', wrdcFrom s.bps codes (dcWritten s codes n bs) =
        wrdcFrom s.bps (codes ++ mid) (dcWritten s (codes ++ mid) (n + l.length) bs') ∧
      StoresBits bs bs' (s.cur.bitpos.toNat + n) l ∧ ∀ c ∈ codes ++ mid, c < 2 ^ 31 := by
  induction mid generalizing codes n bs l with
  | nil =>
    subst hc
    rw [List.append_nil]
    exact ⟨bs, rfl, storesBits_refl _ _, hsmall⟩
  | cons c mid ih =>
    obtain ⟨l₁, l₂, rfl, hc₁, hc₂⟩ := hc
    rw [List.length_append] at hroom
    obtain ⟨bs₁, step, stores, hw₁⟩ := wrdcFrom_of_codes (n := n) hcodes hsmall hw hc₁ (by omega)
    have small : ∀ x ∈ codes ++ [c], x < 2 ^ 31 := fun x hx =>
      (List.mem_append.1 hx).elim (hsmall x) fun h => List.mem_singleton.1 h ▸ codes_lt hc₁
    obtain ⟨bs₂, later, stores', small'⟩ := ih (codes := codes ++ [c]) (n := n + l₁.length)
      (by rw [List.append_assoc]; exact hcodes) small hw₁ hc₂ (by omega)
    rw [List.append_assoc, List.singleton_append] at later small'
    refine ⟨bs₂, ?_, storesBits_append stores (Nat.add_assoc .. ▸ stores'), small'⟩
    rw [step, later, List.length_append, Nat.add_assoc]

end

/-- Settles O49: the codes of all blocks, or of those before the one that is refused. -/
theorem wrdcWrites : Obligations.WrdcWrites := by
  intro s l hrun hcur hb hcfg hw hroom
  have hbody := wrdcBody_of_legal hcur hb
  refine ⟨fun hc => ?_, fun codes rest c code sub hcodes hc hfails => ?_⟩
  · obtain ⟨bs, passes, stores, -⟩ := wrdcFrom_passes (codes := []) (rest := []) (n := 0) (List.append_nil _).symm (by simp) hw.bs
      (dcCodesAfter_nil hc) hroom
    rw [Nat.zero_add, List.nil_append] at passes
    have last : wrdcFrom s.bps (planeCodes s) (dcWritten s (planeCodes s) l.length bs) =
        .ok () (dcWritten s (planeCodes s) l.length bs) := by
      have len := planeCodes_length s
      cases h : planeCodes s with
      | nil => exact absurd (h ▸ len) (Nat.two_pow_pos _).ne
      | cons c0 cs =>
        show wrdcLoop (s.bps - (c0 :: cs).length) _ _ = _
        rw [← h, len, Nat.sub_self]
        rfl
    exact ⟨_, runCommand_ok hrun (hbody.trans (passes.trans last)), rfl, stores⟩
  · obtain ⟨bs, passes, stores, small⟩ := wrdcFrom_passes (codes := []) (n := 0) hcodes (by simp) hw.bs (dcCodesAfter_nil hc) hroom
    rw [Nat.zero_add, List.nil_append] at passes
    rw [List.nil_append] at small
    have refused := wrdcFrom_of_fails bs hcodes small hroom hfails
    rw [← passes, ← hbody] at refused
    exact ⟨_, runCommand_of_refused (i := .wrdc) rfl hrun refused, rfl, stores⟩

end Sys2Proof.Machine

/-! PROOFS. WRAC (43_coefficient_coder.md R209): writing one triple or part of it, the loop as one triple after another, and the triples
that have codewords with room for them. -/

namespace Sys2Proof.Machine

-- In order and not side by side: pending proofs hold memory, and the joined text is near the limit of check.sh.
set_option Elab.async false

open Sys2Proof.Claims

/-! ### One triple -/

/-- A nonzero coefficient with the zero terms before it, as a triple (R209). -/
def tripleAt (run : Nat) (c : Word) : Triple := ⟨run, c.toInt.natAbs, c.slt 0⟩

theorem one_le_tripleAt_level {c : Word} (hc : c ≠ 0) (run : Nat) : 1 ≤ (tripleAt run c).level :=
  Nat.one_le_iff_ne_zero.2 fun h => hc (BitVec.eq_of_toInt_eq (Int.natAbs_eq_zero.1 h))

/-- The context after a triple at a position (R209). -/
def acContextAt (pos : Nat) (x : Triple) (c : CoderContext) : CoderContext :=
  { c with pos := BitVec.ofNat 32 pos, prevrun := BitVec.ofNat 32 x.run, prevlev := BitVec.ofNat 32 x.level }

section
variable {s : State} {pos run : Nat} {c : Word} {l₁ l₂ : List Bool}

/-- A bit written that fits (20_memory.md R78). -/
theorem writeBits_one {s : State} (hw : Memory.wf bsUnlisted s.bs) (b : Bool) :
    ∃ bs, writeBits 1 b.toNat s = (s.advance 1).withBs bs ∧ StoresBits s.bs bs s.cur.bitpos.toNat [b] ∧ Memory.wf bsUnlisted bs := by
  have stores := bsWriteBits_stores hw 1 s.cur.bitpos.toNat b.toNat
  have bits : msbBits 1 b.toNat = [b] := by cases b <;> rfl
  rw [bits] at stores
  exact ⟨_, rfl, stores, bsWriteBits_wf hw _ _ _⟩

/-- The two codewords of a triple, of which the writer refuses neither: the sign bit is left. -/
theorem writeTriple_of_codes (hw : Memory.wf bsUnlisted s.bs) (hc : c ≠ 0)
    (hrun : Codes (cbromAt s.cfg.cbrom .acRun s.ctx.prevrun.toNat) run l₁)
    (hlevel : Codes (cbromAt s.cfg.cbrom .acLevel s.ctx.prevlev.toNat) ((tripleAt run c).level - 1 : Nat) l₂)
    (hroom : s.cur.bitpos.toNat + (l₁ ++ l₂).length ≤ s.cur.bitend.toNat) :
    ∃ bs, StoresBits s.bs bs s.cur.bitpos.toNat (l₁ ++ l₂) ∧ Memory.wf bsUnlisted bs ∧
      writeTriple pos run c s =
        if s.cur.bitpos.toNat + (l₁ ++ l₂).length + 1 > s.cur.bitend.toNat then
          .raised (.bufferTooSmall .stream) ((s.advance (l₁ ++ l₂).length).withBs bs)
        else .ok () ((writeBits 1 (c.slt 0).toNat ((s.advance (l₁ ++ l₂).length).withBs bs)).withCtx
          (acContextAt pos (tripleAt run c) s.ctx)) := by
  have hend := s.cur.bitend.isLt
  have hlev := one_le_tripleAt_level hc run
  have code : (c.toInt.natAbs : Int) - 1 = ((tripleAt run c).level - 1 : Nat) := (Int.ofNat_sub hlev).symm
  rw [List.length_append] at hroom ⊢
  obtain ⟨bs₁, write₁, stores₁, hw₁⟩ := writeCodeword_of_codes hrun hw (by omega)
  have hpos₁ : ((s.advance l₁.length).withBs bs₁).cur.bitpos.toNat = s.cur.bitpos.toNat + l₁.length := s.advance_bitpos (by omega)
  obtain ⟨bs₂, write₂, stores₂, hw₂⟩ := writeCodeword_of_codes (s := (s.advance l₁.length).withBs bs₁) hlevel hw₁
    (by rw [hpos₁, State.withBs_cur, State.advance_bitend]; omega)
  have moved : (((s.advance l₁.length).withBs bs₁).advance l₂.length).withBs bs₂ = (s.advance (l₁.length + l₂.length)).withBs bs₂ := by
    rw [← State.advance_advance s l₂.length (by omega)]
    rfl
  rw [moved] at write₂
  have hpos₂ : ((s.advance (l₁.length + l₂.length)).withBs bs₂).cur.bitpos.toNat = s.cur.bitpos.toNat + (l₁.length + l₂.length) :=
    s.advance_bitpos (by omega)
  refine ⟨bs₂, storesBits_append stores₁ (hpos₁ ▸ stores₂), hw₂, ?_⟩
  rw [writeTriple, write₁, Res.bind_ok, code]
  refine (congrArg (Res.bind · _) write₂).trans ?_
  rw [Res.bind_ok, hpos₂]
  rfl

/-- A whole triple written. -/
theorem writeTriple_ok (hw : Memory.wf bsUnlisted s.bs) (hc : c ≠ 0)
    (hrun : Codes (cbromAt s.cfg.cbrom .acRun s.ctx.prevrun.toNat) run l₁)
    (hlevel : Codes (cbromAt s.cfg.cbrom .acLevel s.ctx.prevlev.toNat) ((tripleAt run c).level - 1 : Nat) l₂)
    (hroom : s.cur.bitpos.toNat + (l₁ ++ l₂ ++ [c.slt 0]).length ≤ s.cur.bitend.toNat) :
    ∃ bs, writeTriple pos run c s = .ok () (((s.advance (l₁ ++ l₂ ++ [c.slt 0]).length).withBs bs).withCtx
        (acContextAt pos (tripleAt run c) s.ctx)) ∧
      StoresBits s.bs bs s.cur.bitpos.toNat (l₁ ++ l₂ ++ [c.slt 0]) ∧ Memory.wf bsUnlisted bs := by
  have hend := s.cur.bitend.isLt
  rw [List.length_append, List.length_singleton] at hroom ⊢
  obtain ⟨bs₁, stores₁, hw₁, step⟩ := writeTriple_of_codes (pos := pos) hw hc hrun hlevel (by omega)
  have hpos : ((s.advance (l₁ ++ l₂).length).withBs bs₁).cur.bitpos.toNat = s.cur.bitpos.toNat + (l₁ ++ l₂).length :=
    s.advance_bitpos (by omega)
  obtain ⟨bs₂, sign, stores₂, hw₂⟩ := writeBits_one (s := (s.advance (l₁ ++ l₂).length).withBs bs₁) hw₁ (c.slt 0)
  refine ⟨bs₂, ?_, storesBits_append stores₁ (hpos ▸ stores₂), hw₂⟩
  rw [step, if_neg (by omega), sign, ← State.advance_advance s 1 (by omega)]
  rfl

/-- A triple refused after part of it is written. -/
theorem writeTriple_of_fails {part : List Bool} {code sub : Nat} (hw : Memory.wf bsUnlisted s.bs) (hc : c ≠ 0)
    (h : TripleFails s.cfg.cbrom s.ctx.prevrun.toNat s.ctx.prevlev.toNat (tripleAt run c) s.cur.bitpos.toNat s.cur.bitend.toNat
      part code sub) :
    ∃ bs, Refuses (writeTriple pos run c s) ((s.advance part.length).withBs bs) code sub ∧
      StoresBits s.bs bs s.cur.bitpos.toNat part := by
  have hend := s.cur.bitend.isLt
  have hlev := one_le_tripleAt_level hc run
  have level : (c.toInt.natAbs : Int) - 1 = ((tripleAt run c).level - 1 : Nat) := (Int.ofNat_sub hlev).symm
  cases h with
  | run code sub fails =>
    refine ⟨s.bs, ?_, storesBits_refl _ _⟩
    rw [List.length_nil, State.advance_zero]
    exact (writeCodeword_of_fails fails).bind _
  | level l code sub done room fails =>
    obtain ⟨bs, write, stores, -⟩ := writeCodeword_of_codes done hw room
    have hpos : ((s.advance part.length).withBs bs).cur.bitpos.toNat = s.cur.bitpos.toNat + part.length := s.advance_bitpos (by omega)
    refine ⟨bs, ?_, stores⟩
    have refused := writeCodeword_of_fails (s := (s.advance part.length).withBs bs) (by rw [hpos]; exact fails)
    rw [← level] at refused
    have first : writeTriple pos run c s = _ := congrArg (Res.bind · _) write
    rw [first, Res.bind_ok]
    exact refused.bind _
  | sign l₁ l₂ done done' full =>
    obtain ⟨bs, stores, -, step⟩ := writeTriple_of_codes (pos := pos) hw hc done done' full.le
    refine ⟨bs, ⟨.bufferTooSmall .stream, ?_, rfl, rfl, rfl⟩, stores⟩
    exact step.trans (if_pos (by omega))

end

/-! ### The loop, triple by triple -/

/-- The coefficient at a position of the plane (R200). -/
def coefAtPos (s : State) (pos : Nat) : Word := s.coefAt (coefIndexOf s pos)

section
variable {s : State}

theorem planeTriples_eq (s : State) : planeTriples s = triplesOf (coefAtPos s) ((s.plane.maxc.toNat - 1) * s.bps) s.bps 0 := rfl

/-- With no triple left the loop ends as it is. -/
theorem wracLoop_of_none {n pos run : Nat} {t : State} (same : ∀ k, coefAtPos t k = coefAtPos s k)
    (h : triplesOf (coefAtPos s) n pos run = []) : wracLoop n pos run t = .ok () t := by
  induction n generalizing pos run with
  | zero => rfl
  | succ n ih =>
    rw [triplesOf] at h
    by_cases hc : coefAtPos s pos = 0
    · rw [if_pos hc] at h
      exact (if_pos ((same pos).trans hc)).trans (ih h)
    · rw [if_neg hc] at h
      cases h

/-- The next triple stands at a position, and the loop goes on after it. -/
structure NextTriple (s : State) (n pos run : Nat) (x : Triple) (rest : List Triple) (m place : Nat) : Prop where
  nonzero : coefAtPos s place ≠ 0
  triple : x = tripleAt x.run (coefAtPos s place)
  skipped : place + run = pos + x.run
  rest : rest = triplesOf (coefAtPos s) m (place + 1) 0
  loop : ∀ t, (∀ k, coefAtPos t k = coefAtPos s k) →
    wracLoop n pos run t = (writeTriple place x.run (coefAtPos s place) t).bind fun _ u => wracLoop m (place + 1) 0 u

/-- The loop passes zero terms up to the next triple. -/
theorem exists_nextTriple {n pos run : Nat} {x : Triple} {rest : List Triple} (h : triplesOf (coefAtPos s) n pos run = x :: rest) :
    ∃ m place, NextTriple s n pos run x rest m place := by
  induction n generalizing pos run with
  | zero => cases h
  | succ n ih =>
    rw [triplesOf] at h
    by_cases hc : coefAtPos s pos = 0
    · rw [if_pos hc] at h
      obtain ⟨m, place, nonzero, triple, skipped, rest, loop⟩ := ih h
      exact ⟨m, place, nonzero, triple, by omega, rest, fun t same => (if_pos ((same pos).trans hc)).trans (loop t same)⟩
    · rw [if_neg hc] at h
      cases h
      refine ⟨n, pos, hc, rfl, rfl, rfl, fun t same => ?_⟩
      rw [← same pos]
      exact if_neg (by rw [← same pos] at hc; exact hc)

/-! ### The state after some triples -/

/-- The state after some triples are written, `n` bits in all, with what they leave in BS. -/
def acWritten (s : State) (ts : List Triple) (n : Nat) (bs : Memory 8) : State := { s with
  bs := bs
  cur := { s.cur with bitpos := BitVec.ofNat 32 (s.cur.bitpos.toNat + n) }
  ctx := acContext s ts }

theorem acPositions_snoc (pos : Nat) (ts : List Triple) (x : Triple) :
    acPositions pos (ts ++ [x]) = acPositions pos ts ++ [(acPositions pos ts).getLast?.getD pos + x.run + 1] := by
  induction ts generalizing pos with
  | nil => rfl
  | cons t ts ih =>
    rw [List.cons_append, acPositions, ih, acPositions, List.cons_append, List.getLast?_cons, Option.getD_some]

theorem lastPlace_snoc (bps : Nat) (ts : List Triple) (x : Triple) :
    lastPlace bps (ts ++ [x]) = lastPlace bps ts + x.run + 1 := by
  simp [lastPlace, acPositions_snoc]

theorem lastRun_snoc (cfg : Config) (ts : List Triple) (x : Triple) : lastRun cfg (ts ++ [x]) = x.run := by
  simp [lastRun]

theorem lastLevel_snoc (cfg : Config) (ts : List Triple) (x : Triple) : lastLevel cfg (ts ++ [x]) = x.level := by
  simp [lastLevel]

theorem acContext_snoc (s : State) (ts : List Triple) (x : Triple) :
    acContext s (ts ++ [x]) = acContextAt (lastPlace s.bps ts + x.run + 1) x (acContext s ts) := by
  simp only [acContext, lastPlace_snoc, lastRun_snoc, lastLevel_snoc]
  rfl

theorem acWritten_snoc {ts : List Triple} {x : Triple} {place n : Nat} {bs : Memory 8} (hplace : place = lastPlace s.bps ts + x.run + 1) :
    acWritten s (ts ++ [x]) n bs = (acWritten s ts n bs).withCtx (acContextAt place x (acContext s ts)) := by
  rw [acWritten, acContext_snoc, hplace]
  rfl

/-- A triple whose numbers stay in their registers (41_entropy_coder.md R160). -/
abbrev TripleSmall (x : Triple) : Prop := x.run < 2 ^ 32 ∧ x.level < 2 ^ 32

/-- The numbers the next triple's codebooks are selected by. -/
theorem acContext_toNat {ts : List Triple} (hsmall : ∀ x ∈ ts, TripleSmall x) :
    (acContext s ts).prevrun.toNat = lastRun s.cfg ts ∧ (acContext s ts).prevlev.toNat = lastLevel s.cfg ts := by
  suffices h : lastRun s.cfg ts < 2 ^ 32 ∧ lastLevel s.cfg ts < 2 ^ 32 from ⟨Nat.mod_eq_of_lt h.1, Nat.mod_eq_of_lt h.2⟩
  rw [lastRun, lastLevel]
  cases h : ts.getLast? with
  | none =>
    have := s.cfg.runCtxInit.isLt
    have := s.cfg.levCtxInit.isLt
    simp only [Option.map_none, Option.getD_none]
    omega
  | some x => exact hsmall x (List.mem_of_getLast? h)

/-- The loop stands before the triples of the rest of the plane. -/
structure WracAt (s : State) (ts rest : List Triple) (n pos run : Nat) : Prop where
  left : triplesOf (coefAtPos s) n pos run = rest
  place : pos = lastPlace s.bps ts + run + 1
  small : ∀ x ∈ ts, TripleSmall x

section
variable {ts rest : List Triple} {x : Triple} {n pos run k : Nat} {bs : Memory 8} {l₁ l₂ : List Bool}

/-- A triple written: the loop after one more triple. -/
theorem wracLoop_of_triple (h : WracAt s ts (x :: rest) n pos run) (hw : Memory.wf bsUnlisted bs)
    (hrun : Codes (cbromAt s.cfg.cbrom .acRun (lastRun s.cfg ts)) x.run l₁)
    (hlevel : Codes (cbromAt s.cfg.cbrom .acLevel (lastLevel s.cfg ts)) (x.level - 1 : Nat) l₂)
    (hroom : s.cur.bitpos.toNat + k + (l₁ ++ l₂ ++ [x.negative]).length ≤ s.cur.bitend.toNat) :
    ∃ bs' m pos', wracLoop n pos run (acWritten s ts k bs) =
        wracLoop m pos' 0 (acWritten s (ts ++ [x]) (k + (l₁ ++ l₂ ++ [x.negative]).length) bs') ∧
      WracAt s (ts ++ [x]) rest m pos' 0 ∧
      StoresBits bs bs' (s.cur.bitpos.toNat + k) (l₁ ++ l₂ ++ [x.negative]) ∧ Memory.wf bsUnlisted bs' := by
  obtain ⟨left, hplace, small⟩ := h
  obtain ⟨m, place, nonzero, triple, skipped, rest, loop⟩ := exists_nextTriple left
  obtain ⟨prevrun, prevlev⟩ := acContext_toNat small
  have hend := s.cur.bitend.isLt
  have hsmall : TripleSmall x := by
    have := codes_lt hrun
    have := codes_lt hlevel
    exact ⟨by omega, by omega⟩
  have hplace' : place = lastPlace s.bps ts + x.run + 1 := by omega
  have hpos : (acWritten s ts k bs).cur.bitpos.toNat = s.cur.bitpos.toNat + k := Nat.mod_eq_of_lt (by omega)
  have hneg : x.negative = (coefAtPos s place).slt 0 := congrArg Triple.negative triple
  rw [← prevrun] at hrun
  rw [← prevlev, triple] at hlevel
  rw [hneg] at hroom ⊢
  obtain ⟨bs', write, stores, hw'⟩ := writeTriple_ok (s := acWritten s ts k bs) (pos := place) hw nonzero hrun hlevel
    (by rw [hpos]; exact hroom)
  rw [hpos] at stores
  refine ⟨bs', m, place + 1, ?_, ⟨rest.symm, ?_, ?_⟩, stores, hw'⟩
  · rw [loop (acWritten s ts k bs) fun _ => rfl, write, Res.bind_ok, State.advance, hpos, ← triple, Nat.add_assoc, acWritten_snoc hplace']
    rfl
  · rw [lastPlace_snoc]
    omega
  · intro y hy
    rcases List.mem_append.1 hy with hy | hy
    · exact small y hy
    · rwa [List.mem_singleton.1 hy]

/-- A triple refused after part of it is written. -/
theorem wracLoop_of_fails {part : List Bool} {code sub : Nat} (h : WracAt s ts (x :: rest) n pos run)
    (hw : Memory.wf bsUnlisted bs) (hroom : s.cur.bitpos.toNat + k ≤ s.cur.bitend.toNat)
    (hfails : TripleFails s.cfg.cbrom (lastRun s.cfg ts) (lastLevel s.cfg ts) x (s.cur.bitpos.toNat + k) s.cur.bitend.toNat
      part code sub) :
    ∃ bs', Refuses (wracLoop n pos run (acWritten s ts k bs)) (acWritten s ts (k + part.length) bs') code sub ∧
      StoresBits bs bs' (s.cur.bitpos.toNat + k) part := by
  obtain ⟨left, -, small⟩ := h
  obtain ⟨m, place, nonzero, triple, -, -, loop⟩ := exists_nextTriple left
  obtain ⟨prevrun, prevlev⟩ := acContext_toNat small
  have hend := s.cur.bitend.isLt
  have hpos : (acWritten s ts k bs).cur.bitpos.toNat = s.cur.bitpos.toNat + k := Nat.mod_eq_of_lt (by omega)
  rw [← prevrun, ← prevlev, triple, ← hpos] at hfails
  obtain ⟨bs', refused, stores⟩ := writeTriple_of_fails (s := acWritten s ts k bs) (pos := place) hw nonzero hfails
  rw [State.advance, hpos, Nat.add_assoc] at refused
  rw [hpos] at stores
  rw [loop (acWritten s ts k bs) fun _ => rfl]
  exact ⟨bs', refused.bind _, stores⟩

end

/-- WRAC passes the triples that have codewords with room for them. -/
theorem wracLoop_passes {mid ts rest : List Triple} {n pos run k : Nat} {bs : Memory 8} {l : List Bool}
    (h : WracAt s ts (mid ++ rest) n pos run) (hw : Memory.wf bsUnlisted bs)
    (hc : AcStream s.cfg.cbrom (lastRun s.cfg ts) (lastLevel s.cfg ts) mid l)
    (hroom : s.cur.bitpos.toNat + k + l.length ≤ s.cur.bitend.toNat) :
    ∃ bs' m pos' run', wracLoop n pos run (acWritten s ts k bs) = wracLoop m pos' run' (acWritten s (ts ++ mid) (k + l.length) bs') ∧
      WracAt s (ts ++ mid) rest m pos' run' ∧ StoresBits bs bs' (s.cur.bitpos.toNat + k) l ∧ Memory.wf bsUnlisted bs' := by
  induction mid generalizing ts n pos run k bs l with
  | nil =>
    subst hc
    rw [List.append_nil]
    exact ⟨bs, n, pos, run, rfl, h, storesBits_refl _ _, hw⟩
  | cons x mid ih =>
    obtain ⟨l₁, l₂, l₃, rfl, -, hrun, hlevel, hrest⟩ := hc
    have split : l₁ ++ l₂ ++ x.negative :: l₃ = l₁ ++ l₂ ++ [x.negative] ++ l₃ := by simp
    rw [split, List.length_append] at hroom
    obtain ⟨bs₁, m₁, pos₁, step, at₁, stores, hw₁⟩ := wracLoop_of_triple (k := k) h hw hrun hlevel (by omega)
    rw [← lastRun_snoc s.cfg ts x, ← lastLevel_snoc s.cfg ts x] at hrest
    obtain ⟨bs₂, m, pos', run', later, at₂, stores', hw₂⟩ := ih (k := k + (l₁ ++ l₂ ++ [x.negative]).length) at₁ hw₁ hrest (by omega)
    rw [List.append_assoc ts, List.singleton_append] at later at₂
    rw [split, List.length_append]
    refine ⟨bs₂, m, pos', run', ?_, at₂, storesBits_append stores (Nat.add_assoc .. ▸ stores'), hw₂⟩
    rw [step, later, Nat.add_assoc]

/-- The start of WRAC, before all triples of the plane. -/
theorem wracAt_start (hpos : 0 < s.bps) : WracAt s [] (planeTriples s) ((s.plane.maxc.toNat - 1) * s.bps) s.bps 0 := by
  refine ⟨rfl, ?_, by simp⟩
  show s.bps = s.bps - 1 + 0 + 1
  omega

theorem wracBody_of_legal (hcur : CursorsLegal s) (hb : BpsLegal s) (hmaxc : MaxcLegal s) :
    wracBody s = wracLoop ((s.plane.maxc.toNat - 1) * s.bps) s.bps 0 (acWritten s [] 0 s.bs) := by
  have start : acWritten s [] 0 s.bs = acContextAtStart s :=
    congrArg (fun t : State => acContextAtStart t) s.withBitpos_self
  rw [wracBody, checkCursors_ok hcur, Res.bind_ok, checkBps_ok hb, Res.bind_ok, checkMaxc_ok hmaxc, Res.bind_ok, start]

end

/-- Settles O50: the triples of the plane, or those before the one that is refused and the part of it that is written. -/
theorem wracWrites : Obligations.WracWrites := by
  intro s l hrun hcur hb hmaxc hcfg hw hroom
  have hbody := wracBody_of_legal hcur hb hmaxc
  have start := wracAt_start (s := s) (Nat.two_pow_pos _)
  refine ⟨fun hc => ?_, fun ts rest x part code sub htriples hc hfails => ?_⟩
  · rw [← List.append_nil (planeTriples s)] at start
    obtain ⟨bs, m, pos, run, passes, ⟨none, -, -⟩, stores, -⟩ := wracLoop_passes (k := 0) start hw.bs hc hroom
    have last := wracLoop_of_none (t := acWritten s (planeTriples s) (0 + l.length) bs) (fun _ => rfl) none
    rw [Nat.zero_add] at passes last
    exact ⟨_, runCommand_ok hrun (hbody.trans (passes.trans last)), rfl, stores⟩
  · rw [htriples] at start
    obtain ⟨bs, m, pos, run, passes, at', stores, hw'⟩ := wracLoop_passes (k := 0) start hw.bs hc hroom
    obtain ⟨bs', refused, stores'⟩ := wracLoop_of_fails (k := 0 + l.length) at' hw' (by omega) (by rw [Nat.zero_add]; exact hfails)
    rw [← passes, ← hbody, Nat.zero_add, ← List.length_append] at refused
    rw [Nat.zero_add] at stores'
    exact ⟨_, runCommand_of_refused (i := .wrac) rfl hrun refused, rfl, storesBits_append stores stores'⟩

end Sys2Proof.Machine

/-! PROOFS. Two decodes side by side (43_coefficient_coder.md R210 (b)): two states with the same input end every read, every step and
every decode command alike, with the same input left and the same context. -/

namespace Sys2Proof.Machine

-- In order and not side by side: pending proofs hold memory, and the joined text is near the limit of check.sh.
set_option Elab.async false

open Sys2Proof.Claims

/-! ### The same bits at two places -/

section
variable {bs bs' : Memory 8} {a a' e e' : Nat}

/-- A list stands at two places alike when the same bits do. -/
theorem holdsBits_shift {l : List Bool} (h : ∀ k, k < l.length → bsBit bs (a + k) = bsBit bs' (a' + k)) :
    holdsBits bs a l = holdsBits bs' a' l := by
  induction l generalizing a a' with
  | nil => rfl
  | cons b l ih =>
    have first : bsBit bs a = bsBit bs' a' := h 0 (Nat.zero_lt_succ _)
    have later := ih (a := a + 1) (a' := a' + 1) fun k hk => by
      have := h (k + 1) (Nat.succ_lt_succ hk)
      rwa [← Nat.add_assoc, ← Nat.add_assoc, Nat.add_right_comm, Nat.add_right_comm a'] at this
    rw [holdsBits, holdsBits, first, later]

/-- A corruption depends on the bits up to the end and their number only (41_entropy_coder.md R151). -/
theorem corruptAt_shift {cb : Codebook} {sub pos : Nat} (hleft : e - a = e' - a') (hle : a' ≤ e')
    (hbits : ∀ k, k < e - a → bsBit bs (a + k) = bsBit bs' (a' + k)) (h : CorruptAt cb bs a e sub pos) :
    CorruptAt cb bs' a' e' sub (a' + (pos - a)) := by
  have moved {l : List Bool} (hl : l.length ≤ e - a) (hb : holdsBits bs a l = true) : holdsBits bs' a' l = true :=
    (holdsBits_shift fun k hk => hbits k (hk.trans_le hl)) ▸ hb
  cases h with
  | noTerminator room zeros =>
    rw [Nat.sub_self]
    exact .noTerminator (by omega) (moved (by simp; omega) zeros)
  | endsInPrefix room short zeros =>
    rw [Nat.sub_self]
    exact .endsInPrefix hle (by omega) (hleft ▸ moved (by simp) zeros)
  | escOverflow q short room bits escape long =>
    rw [show a' + (a + q + 1 - a) = a' + q + 1 by omega]
    exact .escOverflow q short (by omega) (moved (by rw [codeword_length]; omega) bits) escape long
  | endsInEscape q n short room bits escape size legal past =>
    rw [show a' + (a + q + 1 - a) = a' + q + 1 by omega]
    exact .endsInEscape q n short (by omega) (moved (by rw [codeword_length]; omega) bits) escape size legal (by omega)
  | endsInRice q short room bits rice past =>
    rw [show a' + (a + q + 1 - a) = a' + q + 1 by omega]
    exact .endsInRice q short (by omega) (moved (by rw [codeword_length]; omega) bits) rice (by omega)

end

/-! ### Two states with the same input -/

/-- All that a decode reads but the coder context: the mode, the parameters, the flags, and the bits from `BITPOS` to `BITEND`. -/
structure SameInput (s u : State) : Prop where
  strict : s.strict = u.strict
  l2bps : s.plane.l2bps = u.plane.l2bps
  maxc : s.plane.maxc = u.plane.maxc
  cbrom : s.cfg.cbrom = u.cfg.cbrom
  dcInit : s.cfg.dcCtxInit = u.cfg.dcCtxInit
  runInit : s.cfg.runCtxInit = u.cfg.runCtxInit
  levInit : s.cfg.levCtxInit = u.cfg.levCtxInit
  halt : s.status.halt = u.status.halt
  abandon : s.status.abandon = u.status.abandon
  eop : s.status.eop = u.status.eop
  cursors : CursorsLegal s
  cursors' : CursorsLegal u
  bps : BpsLegal s
  bps' : BpsLegal u
  maxcLegal : MaxcLegal s
  left : s.cur.bitend.toNat - s.cur.bitpos.toNat = u.cur.bitend.toNat - u.cur.bitpos.toNat
  bits : ∀ k, k < s.cur.bitend.toNat - s.cur.bitpos.toNat →
    bsBit s.bs (s.cur.bitpos.toNat + k) = bsBit u.bs (u.cur.bitpos.toNat + k)

/-- The same input, and the same context as far as `part` shows it. -/
structure SameCode (part : CoderContext → CoderContext) (s u : State) : Prop where
  input : SameInput s u
  context : part s.ctx = part u.ctx

/-- Two results that are both a value, the same one, or both a fault, the same one, in related states. -/
inductive SameEnd {α : Type} (R : State → State → Prop) : Res α → Res α → Prop where
  | ok (a : α) {s u : State} (h : R s u) : SameEnd R (.ok a s) (.ok a u)
  | raised (r : Raise) {s u : State} (h : R s u) : SameEnd R (.raised r s) (.raised r u)

theorem SameEnd.bind {α β : Type} {R : State → State → Prop} {x y : Res α} {f g : α → State → Res β} (h : SameEnd R x y)
    (hf : ∀ a s u, R s u → SameEnd R (f a s) (g a u)) : SameEnd R (x.bind f) (y.bind g) := by
  cases h with
  | ok a h => exact hf a _ _ h
  | raised r h => exact .raised r h

section
variable {s u : State} {part : CoderContext → CoderContext}

theorem SameInput.bps_eq (h : SameInput s u) : s.bps = u.bps := by
  rw [State.bps, State.bps, h.l2bps]

/-- Moving both cursors by the same number of the bits that are left. -/
theorem SameInput.advance (h : SameInput s u) {n : Nat} (hn : s.cur.bitpos.toNat + n ≤ s.cur.bitend.toNat) :
    SameInput (s.advance n) (u.advance n) := by
  obtain ⟨hbuf, hlast, hle⟩ := h.cursors
  obtain ⟨hbuf', hlast', hle'⟩ := h.cursors'
  have hleft := h.left
  have hend := s.cur.bitend.isLt
  have hend' := u.cur.bitend.isLt
  have hpos := s.advance_bitpos (n := n) (by omega)
  have hpos' := u.advance_bitpos (n := n) (by omega)
  refine { h with cursors := ⟨hbuf, hlast, ?_⟩, cursors' := ⟨hbuf', hlast', ?_⟩, left := ?_, bits := fun k hk => ?_ }
  · rw [hpos]
    exact hn
  · rw [hpos', State.advance_bitend]
    omega
  · rw [hpos, hpos', State.advance_bitend, State.advance_bitend]
    omega
  · rw [hpos, State.advance_bitend] at hk
    rw [hpos, hpos', Nat.add_assoc, Nat.add_assoc]
    exact h.bits (n + k) (by omega)

theorem SameCode.advance (h : SameCode part s u) {n : Nat} (hn : s.cur.bitpos.toNat + n ≤ s.cur.bitend.toNat) :
    SameCode part (s.advance n) (u.advance n) := ⟨h.input.advance hn, h.context⟩

theorem SameCode.setEop (h : SameCode part s u) : SameCode part s.setEop u.setEop := ⟨{ h.input with eop := rfl }, h.context⟩

/-! ### Reading -/

/-- A list that stands at one cursor stands at the other. -/
theorem SameInput.holdsBits_eq (h : SameInput s u) {l : List Bool} (hl : l.length ≤ s.cur.bitend.toNat - s.cur.bitpos.toNat) :
    holdsBits s.bs s.cur.bitpos.toNat l = holdsBits u.bs u.cur.bitpos.toNat l :=
  holdsBits_shift fun k hk => h.bits k (hk.trans_le hl)

/-- The reader answers the same (41_entropy_coder.md R151). -/
theorem readCodeword_same (h : SameCode part s u) (cb : Codebook) :
    SameEnd (SameCode part) (readCodeword cb s) (readCodeword cb u) := by
  obtain ⟨-, -, hle⟩ := h.input.cursors
  obtain ⟨-, -, hle'⟩ := h.input.cursors'
  have hleft := h.input.left
  rcases readCodeword_cases cb hle with ⟨q, n, x, v, hc, hb, hr, e⟩ | ⟨sub, pos, hc, e⟩
  · rw [h.input.holdsBits_eq (by rw [codeword_length]; omega)] at hb
    rw [e, readCodeword_of_code hc hb (by omega)]
    exact .ok v (h.advance hr)
  · obtain ⟨hlo, hhi⟩ := corruptAt_bounds hc
    have moved : s.withBitpos pos = s.advance (pos - s.cur.bitpos.toNat) := by
      rw [State.advance, Nat.add_sub_cancel' hlo]
    rw [e, readCodeword_of_corrupt (corruptAt_shift hleft hle' h.input.bits hc), moved]
    exact .raised _ (h.advance (by omega))

/-- So does `ReadBits` (20_memory.md R77). -/
theorem readBits_same (h : SameCode part s u) (n : Nat) : SameEnd (SameCode part) (readBits n s) (readBits n u) := by
  have hleft := h.input.left
  obtain ⟨-, -, hle⟩ := h.input.cursors
  obtain ⟨-, -, hle'⟩ := h.input.cursors'
  rcases readBits_cases n s with ⟨hr, e⟩ | ⟨hr, e⟩ <;> rcases readBits_cases n u with ⟨hr', e'⟩ | ⟨hr', e'⟩
  · rw [e, e', bitsValue_congr fun k hk => h.input.bits k (by omega)]
    exact .ok _ (h.advance hr)
  · omega
  · omega
  · rw [e, e']
    exact .raised _ h

theorem SameInput.payloadEnded_eq (h : SameInput s u) : payloadEnded s = payloadEnded u := by
  rw [payloadEnded, payloadEnded, allZero_eq, allZero_eq, h.holdsBits_eq (by simp), h.left]

/-! ### Steps -/

/-- The DC half of a context (10_state.md R38). -/
def dcPart (c : CoderContext) : CoderContext := { c with pos := 0, prevrun := 0, prevlev := 0 }

theorem dcPart_eq_iff {c c' : CoderContext} :
    dcPart c = dcPart c' ↔ c.blk = c'.blk ∧ c.prevcode = c'.prevcode ∧ c.sign = c'.sign ∧ c.prevdc = c'.prevdc := by
  simp [dcPart]

/-- Two contexts with the same DC half, the AC half replaced. -/
theorem withAcPart_eq {c c' : CoderContext} (h : dcPart c = dcPart c') (pos prevrun prevlev : Word) :
    ({ c with pos := pos, prevrun := prevrun, prevlev := prevlev } : CoderContext) =
      { c' with pos := pos, prevrun := prevrun, prevlev := prevlev } := by
  obtain ⟨blk, prevcode, sign, prevdc⟩ := dcPart_eq_iff.1 h
  rw [blk, prevcode, sign, prevdc]

/-- A DC code changes the DC half by the DC half alone (R203). -/
theorem dcPart_dcContextAfter (init : DcCtxInit) (code : Int) (c : CoderContext) :
    dcPart (dcContextAfter init code c) = dcContextAfter init code (dcPart c) := by
  rw [dcContextAfter, dcContextAfter]
  show _ = if c.blk = 0 then _ else _
  split <;> rfl

theorem dcDecoded_same (h : SameCode dcPart s u) (p q : QMatrix) (code : Int) :
    SameCode dcPart (dcDecoded p code s) (dcDecoded q code u) := by
  obtain ⟨hblk, -, -, -⟩ := dcPart_eq_iff.1 h.context
  refine ⟨{ h.input with eop := ?_ }, ?_⟩
  · show (s.status.eop || decide (s.ctx.blk.toNat + 1 = s.bps)) = (u.status.eop || decide (u.ctx.blk.toNat + 1 = u.bps))
    rw [h.input.eop, hblk, h.input.bps_eq]
  · show dcPart (dcContextAfter _ _ _) = dcPart (dcContextAfter _ _ _)
    rw [dcPart_dcContextAfter, dcPart_dcContextAfter, h.context, h.input.dcInit]

/-- DCSYM's step ends alike, whatever the matrices (R203). -/
theorem dcStep_same (h : SameCode dcPart s u) (p q : QMatrix) : SameEnd (SameCode dcPart) (dcStep p s) (dcStep q u) := by
  obtain ⟨hblk, hprev, -, -⟩ := dcPart_eq_iff.1 h.context
  have abandon := h.input.abandon
  have eop := h.input.eop
  have bps := h.input.bps_eq
  by_cases hended : s.status.abandon = true ∨ s.status.eop = true
  · rw [dcStep_of_ended p hended, dcStep_of_ended q (by rwa [← abandon, ← eop])]
    exact .ok () h
  obtain ⟨ha, he⟩ : s.status.abandon = false ∧ s.status.eop = false := by simpa using hended
  by_cases hfull : s.bps ≤ s.ctx.blk.toNat
  · rw [dcStep_of_full p ha he hfull, dcStep_of_full q (abandon ▸ ha) (eop ▸ he) (by rwa [← bps, ← hblk])]
    exact .ok () h.setEop
  have book : dcBookAt s = dcBookAt u := by rw [dcBookAt, dcBookAt, hblk, hprev, h.input.cbrom]
  rw [dcStep_eq p ha he (Nat.not_le.1 hfull), dcStep_eq q (abandon ▸ ha) (eop ▸ he) (by rw [← bps, ← hblk]; omega), book]
  exact (readCodeword_same h _).bind fun code t v ht => .ok () (dcDecoded_same ht p q code)

/-- Level and sign of a triple are read alike, whatever the matrices and the scan (R206). -/
theorem acLevelSign_same (h : SameCode id s u) (p q : QMatrix) (np : Nat) (run : Int) :
    SameEnd (SameCode id) (acLevelSign p np run s) (acLevelSign q np run u) := by
  have context : s.ctx = u.ctx := h.context
  rw [acLevelSign, acLevelSign, context, h.input.cbrom]
  refine (readCodeword_same h _).bind fun code t v ht => (readBits_same ht 1).bind fun sg x y hx => .ok () ⟨{ hx.input with }, ?_⟩
  exact withAcPart_eq (congrArg dcPart hx.context) _ _ _

/-- ACSYM's step ends alike, whatever the matrices and the scan (R206). -/
theorem acStep_same (h : SameCode id s u) (p q : QMatrix) : SameEnd (SameCode id) (acStep p s) (acStep q u) := by
  have context : s.ctx = u.ctx := h.context
  rw [acStep, acStep, h.input.abandon, h.input.eop, h.input.payloadEnded_eq, context, h.input.cbrom]
  split
  · exact .ok () h
  split
  · exact .ok () h.setEop
  refine (readCodeword_same h _).bind fun run t v ht => ?_
  have context : t.ctx = v.ctx := ht.context
  simp only [context, ht.input.bps_eq, ht.input.maxc]
  split
  · exact .raised _ ht
  split
  · exact .ok () ht.setEop
  · exact acLevelSign_same ht p q _ _

/-! ### Commands -/

theorem takeFault_same {i j : Instr} {s₀ u₀ : State} (habandons : Instr.abandons i = Instr.abandons j) (r : Raise)
    (h : SameCode part s u) : SameCode part (takeFault i s₀ r s) (takeFault j u₀ r u) := by
  rw [takeFault, takeFault, ← h.input.strict, habandons]
  split
  · refine ⟨{ h.input with abandon := ?_ }, h.context⟩
    show (s.status.abandon || _) = (u.status.abandon || _)
    rw [h.input.abandon]
  · exact ⟨{ h.input with halt := rfl }, h.context⟩

/-- Two commands whose pseudocode ends alike end alike, or are both rejected (60_exceptions.md R269 to R273). -/
theorem after_same {i j : Instr} {body body' : State → Res Unit} (hi : exec i s = runCommand i s body)
    (hj : exec j u = runCommand j u body') (habandons : Instr.abandons i = Instr.abandons j) (h : SameCode part s u)
    (hbody : SameEnd (SameCode part) (body s) (body' u)) : SameCode part (after i s) (after j u) := by
  cases hhalt : s.status.halt with
  | true =>
    rw [after_eq (hi.trans (runCommand_halted hhalt)), after_eq (hj.trans (runCommand_halted (h.input.halt.symm.trans hhalt)))]
    exact ⟨{ h.input with }, h.context⟩
  | false =>
    generalize hx : body s = x at hbody
    generalize hy : body' u = y at hbody
    cases hbody with
    | ok a ht =>
      rw [after_eq (hi.trans (runCommand_ok hhalt hx)), after_eq (hj.trans (runCommand_ok (h.input.halt.symm.trans hhalt) hy))]
      exact ht
    | raised r ht =>
      rw [after_eq (hi.trans (runCommand_raised hhalt hx)), after_eq (hj.trans (runCommand_raised (h.input.halt.symm.trans hhalt) hy))]
      exact takeFault_same habandons r ht

theorem SameInput.maxcLegal' (h : SameInput s u) : MaxcLegal u := by
  rw [MaxcLegal, ← h.maxc]
  exact h.maxcLegal

theorem after_dcsym_same (h : SameCode dcPart s u) (p q : QMatrix) : SameCode dcPart (after (.dcsym p) s) (after (.dcsym q) u) := by
  refine after_same (body := dcsymBody p) (body' := dcsymBody q) rfl rfl rfl h ?_
  rw [dcsymBody_of_legal p h.input.cursors h.input.bps, dcsymBody_of_legal q h.input.cursors' h.input.bps']
  exact dcStep_same h p q

theorem after_acsym_same (h : SameCode id s u) (p q : QMatrix) : SameCode id (after (.acsym p) s) (after (.acsym q) u) := by
  refine after_same (body := acsymBody p) (body' := acsymBody q) rfl rfl rfl h ?_
  rw [acsymBody_of_legal p h.input.cursors h.input.bps h.input.maxcLegal,
    acsymBody_of_legal q h.input.cursors' h.input.bps' h.input.maxcLegal']
  exact acStep_same h p q

/-- A command issued any number of times. -/
theorem afterTimes_same {i j : Instr} (step : ∀ s u, SameCode part s u → SameCode part (after i s) (after j u)) (n : Nat)
    (h : SameCode part s u) : SameCode part (afterTimes i n s) (afterTimes j n u) := by
  induction n generalizing s u with
  | zero => exact h
  | succ n ih => exact ih (step s u h)

/-- ACINIT makes the AC half of the context the same too (R205). -/
theorem after_acinit_same (h : SameCode dcPart s u) (hrun : Running s) : SameCode id (after .acinit s) (after .acinit u) := by
  obtain ⟨-, -, -, acinit⟩ := planeStarts
  have hrun' : Running u := h.input.halt.symm.trans hrun
  rw [after_eq (acinit s hrun h.input.bps), after_eq (acinit u hrun' h.input.bps')]
  refine ⟨{ h.input with eop := rfl }, ?_⟩
  rw [← h.input.l2bps, ← h.input.runInit, ← h.input.levInit]
  exact withAcPart_eq h.context _ _ _

end

/-- Settles O52: the two decodes side by side, from DCINIT through the DCSYMs and ACINIT through the ACSYMs. -/
theorem contextDeterminism : Obligations.ContextDeterminism := by
  intro s u p q hrun hrun' hcur hcur' hb hb' hmaxc strict l2bps maxc cbrom dcInit runInit levInit left bits n m s₁ u₁
  have start : SameCode dcPart (after .dcinit s) (after .dcinit u) := by
    rw [after_eq (exec_dcinit_of_legal hrun hb), after_eq (exec_dcinit_of_legal hrun' hb')]
    refine ⟨⟨strict, l2bps, maxc, cbrom, dcInit, runInit, levInit, hrun.trans hrun'.symm, rfl, rfl, hcur, hcur', hb, hb', hmaxc,
      left, bits⟩, dcPart_eq_iff.2 ⟨rfl, congrArg dcCtxAtStart dcInit, rfl, rfl⟩⟩
  have dc : SameCode dcPart s₁ u₁ := afterTimes_same (fun _ _ h => after_dcsym_same h p q) n start
  obtain ⟨blk, prevcode, sign, prevdc⟩ := dcPart_eq_iff.1 dc.context
  exact ⟨dc.input.halt, blk, prevcode, sign, prevdc, fun hrun₁ =>
    (afterTimes_same (fun _ _ h => after_acsym_same h p q) m (after_acinit_same dc hrun₁)).context⟩

end Sys2Proof.Machine

/-! PROOFS. The plane round trip (43_coefficient_coder.md R210 (a)): the codes and triples of a plane give back its terms, the three
writers leave them in BS when they end well, and RDDC and RDAC read them. -/

namespace Sys2Proof.Machine

-- In order and not side by side: pending proofs hold memory, and the joined text is near the limit of check.sh.
set_option Elab.async false

open Sys2Proof.Claims

/-! ### Scaling by a matrix of 4 (44_quantizer.md R232) -/

theorem dequant_four {s : State} {p : QMatrix} {i : Nat} {c : Word} (hq : s.qmsAt p i = 4) (hc : c.toInt.natAbs < 2 ^ 29) :
    dequant s p i c = c := by
  have product : c * 4 = s32 (c.toInt * 4) := by
    rw [s32, BitVec.ofInt_mul, BitVec.ofInt_toInt]
    rfl
  have value : (s32 (c.toInt * 4)).toInt = c.toInt * 4 := s32_toInt (by omega) (by omega)
  have quarter : c.toInt * 4 / ((2 ^ 2 : Nat) : Int) = c.toInt := Int.mul_ediv_cancel _ (by decide)
  rw [dequant, hq, product, BitVec.sshiftRight_eq, value, Int.shiftRight_eq_div_pow, quarter, BitVec.ofInt_toInt]

/-! ### The DC terms from their codes (R203, R208) -/

/-- The decoder's running sign follows the difference that was coded. -/
theorem signAfter_deltaCodeOf (sign : Bool) (d : Word) : signAfter sign (deltaCodeOf sign d) = d.slt 0 := by
  rw [signAfter, deltaCodeOf]
  by_cases hd : d = 0
  · rw [if_pos hd, if_pos rfl, hd]
    rfl
  · have hne : d.toInt ≠ 0 := fun h => hd (BitVec.eq_of_toInt_eq h)
    rw [if_neg hd]
    by_cases h : sign = d.slt 0
    · have hsame : ¬ sign ≠ d.slt 0 := not_not_intro h
      rw [if_neg hsame, if_neg (by omega), if_neg (by omega), h]
    · rw [if_pos h, if_neg (by omega), if_pos (by omega)]
      cases sign <;> cases hs : d.slt 0 <;> simp_all

/-- The decoder's running DC moves by the difference that was coded. -/
theorem dcAfter_deltaCodeOf (sign : Bool) (dc d : Word) : dcAfter sign dc (deltaCodeOf sign d) = dc + d := by
  have magnitude : (deltaCodeOf sign d + 1) / 2 = d.toInt.natAbs := by
    rw [deltaCodeOf]
    by_cases hd : d = 0
    · rw [if_pos hd, hd]
      rfl
    · have hne : d.toInt ≠ 0 := fun h => hd (BitVec.eq_of_toInt_eq h)
      rw [if_neg hd]
      split <;> omega
  rw [dcAfter, signAfter_deltaCodeOf, magnitude]
  by_cases hneg : d.toInt < 0
  · have value : BitVec.ofNat 32 d.toInt.natAbs = -d := by
      rw [← BitVec.ofInt_natCast, show ((d.toInt.natAbs : Nat) : Int) = -d.toInt by omega, BitVec.ofInt_neg, BitVec.ofInt_toInt]
    rw [if_pos (by rw [BitVec.slt_eq_decide]; simpa using hneg), value, BitVec.sub_eq_add_neg, BitVec.neg_neg]
  · have value : BitVec.ofNat 32 d.toInt.natAbs = d := by
      rw [← BitVec.ofInt_natCast, show ((d.toInt.natAbs : Nat) : Int) = d.toInt by omega, BitVec.ofInt_toInt]
    rw [if_neg (by rw [BitVec.slt_eq_decide]; simpa using hneg), value]

/-- The running DC over the codes of the differences from a block on: the terms of the blocks that follow. -/
theorem getElem?_dcRun_deltaCodes (s : State) {n i : Nat} (sign : Bool) (blk : Nat) (hi : i < n) :
    (dcRun sign (s.coefAt (64 * blk)) (deltaCodes sign (dcDeltas s n (blk + 1))))[i]?.map Prod.snd =
      some (s.coefAt (64 * (blk + 1 + i))) := by
  induction n generalizing sign blk i with
  | zero => exact absurd hi (Nat.not_lt_zero i)
  | succ n ih =>
    have next : s.coefAt (64 * blk) + dcDelta s (blk + 1) = s.coefAt (64 * (blk + 1)) := by
      rw [dcDelta, Nat.add_sub_cancel, BitVec.add_comm, BitVec.sub_add_cancel]
    rw [dcDeltas_succ, deltaCodes_cons, dcRun, signAfter_deltaCodeOf, dcAfter_deltaCodeOf, next]
    cases i with
    | zero => rfl
    | succ i =>
      rw [List.getElem?_cons_succ, ih _ (blk + 1) (by omega)]
      congr 3
      omega

/-- The first term from its code. -/
theorem signedOf_toGolomb {v : Word} (hv : v.toInt.natAbs < 2 ^ 29) : BitVec.ofInt 32 (signedOf (toGolomb v).toNat) = v := by
  have hrange : GolombRange v := ⟨by omega, by omega⟩
  have hvalue := toInt_toGolomb hrange
  have hcond := BitVec.toInt_eq_toNat_cond (toGolomb v)
  have hsmall : (toGolomb v).toNat < 2 ^ 31 := by
    have := (toGolomb v).isLt
    split at hvalue <;> split at hcond <;> omega
  rw [← toSigned_ofNat hsmall, ofNat_toNat_word, toSigned_toGolomb hrange]

/-- The running DC of every block is its term. -/
theorem dcTermsOf_planeCodes {s : State} (hfirst : (s.coefAt 0).toInt.natAbs < 2 ^ 29) {blk : Nat} (hblk : blk < s.bps) :
    (dcTermsOf (planeCodes s))[blk]?.map Prod.snd = some (s.coefAt (64 * blk)) := by
  rw [planeCodes_eq, dcTermsOf, dcTerms, signedOf_toGolomb hfirst]
  cases blk with
  | zero => rfl
  | succ i =>
    rw [List.getElem?_cons_succ, Nat.add_comm i 1]
    exact getElem?_dcRun_deltaCodes s false 0 (by omega)

/-- A DC word of the plane that RDDC leaves under a matrix of 4. -/
theorem dcWord_planeCodes {s : State} {p : QMatrix} (hq : s.qmsAt p 0 = 4)
    (hdc : ∀ blk, blk < s.bps → (s.coefAt (64 * blk)).toInt.natAbs < 2 ^ 29) {blk : Nat} (hblk : blk < s.bps) :
    dcWord s p (planeCodes s) (64 * blk) = s.coefAt (64 * blk) := by
  have term := dcTermsOf_planeCodes (hdc 0 (Nat.two_pow_pos _)) hblk
  rw [dcWord_eq, if_pos (by omega), Nat.mul_div_cancel_left _ (by decide), term, Option.getD_some, dequant_four hq (hdc blk hblk)]

/-- The other words of the plane. -/
theorem dcWord_of_ac (s : State) (p : QMatrix) (codes : List Nat) {k : Nat} (hk : k % 64 ≠ 0) : dcWord s p codes k = 0 := by
  rw [dcWord_eq, if_neg hk]

/-! ### The AC terms from their triples (R206, R209) -/

/-- A coefficient from its triple. -/
theorem tripleAt_value (run : Nat) (c : Word) : (tripleAt run c).value = c := by
  have value : (if c.slt 0 = true then -((c.toInt.natAbs : Nat) : Int) else (c.toInt.natAbs : Nat)) = c.toInt := by
    rw [BitVec.slt_eq_decide]
    by_cases h : c.toInt < 0
    · rw [if_pos (by simpa using h)]
      omega
    · rw [if_neg (by simpa using h)]
      omega
  rw [Triple.value, tripleAt, value, BitVec.ofInt_toInt]

/-- The triples' positions are those of the nonzero terms. -/
theorem acPositions_triplesOf (c : Nat → Word) {n pos run b : Nat} (hpos : pos = b + run + 1) :
    acPositions b (triplesOf c n pos run) = (List.range' pos n).filter fun k => c k ≠ 0 := by
  induction n generalizing pos run b with
  | zero => rfl
  | succ n ih =>
    rw [triplesOf, List.range'_succ, List.filter_cons]
    by_cases hc : c pos = 0
    · rw [if_pos hc, if_neg (by simpa using hc)]
      exact ih (by omega)
    · rw [if_neg hc, if_pos (by simpa using hc), acPositions, ← hpos]
      exact congrArg _ (ih (by omega))

/-- The triples' values are the nonzero terms. -/
theorem value_triplesOf (c : Nat → Word) (n pos run : Nat) :
    (triplesOf c n pos run).map Triple.value = ((List.range' pos n).filter fun k => c k ≠ 0).map c := by
  induction n generalizing pos run with
  | zero => rfl
  | succ n ih =>
    rw [triplesOf, List.range'_succ, List.filter_cons]
    by_cases hc : c pos = 0
    · rw [if_pos hc, if_neg (by simpa using hc)]
      exact ih _ _
    · rw [if_neg hc, if_pos (by simpa using hc), List.map_cons, List.map_cons, ih]
      exact congrArg (· :: _) (tripleAt_value run (c pos))

section
variable {s : State}

/-- The positions of the plane's triples. -/
abbrev triplePlaces (s : State) : List Nat := acPositions (s.bps - 1) (planeTriples s)

theorem mem_triplePlaces (hmaxc : MaxcLegal s) {np : Nat} :
    np ∈ triplePlaces s ↔ s.bps ≤ np ∧ np < s.plane.maxc.toNat * s.bps ∧ coefAtPos s np ≠ 0 := by
  have hpos : 0 < s.bps := Nat.two_pow_pos _
  obtain ⟨m, hm⟩ : ∃ m, s.plane.maxc.toNat = m + 1 := ⟨s.plane.maxc.toNat - 1, by have := hmaxc.1; omega⟩
  rw [triplePlaces, planeTriples_eq, acPositions_triplesOf (coefAtPos s) (b := s.bps - 1) (by omega), List.mem_filter, List.mem_range'_1,
    hm, Nat.add_sub_cancel, Nat.add_one_mul, decide_eq_true_iff, Nat.add_comm (m * s.bps), and_assoc]

/-- At each of its positions a triple has the coefficient that stands there. -/
theorem exists_triple_of_mem {np : Nat} (h : np ∈ triplePlaces s) :
    ∃ (j : Nat) (x : Triple), (triplePlaces s)[j]? = some np ∧ (planeTriples s)[j]? = some x ∧ x.value = coefAtPos s np := by
  have hpos : 0 < s.bps := Nat.two_pow_pos _
  have values : (planeTriples s).map Triple.value = (triplePlaces s).map (coefAtPos s) := by
    rw [triplePlaces, planeTriples_eq, value_triplesOf, acPositions_triplesOf (coefAtPos s) (by omega)]
  obtain ⟨j, hj⟩ := List.mem_iff_getElem?.1 h
  have value := congrArg (fun l : List Word => l[j]?) values
  simp only [List.getElem?_map, hj, Option.map_some] at value
  obtain ⟨x, hx, hvalue⟩ := Option.map_eq_some_iff.1 value
  exact ⟨j, x, hj, hx, hvalue⟩

/-- A level with a codeword does not wrap when it is scaled by 4 (41_entropy_coder.md R160). -/
theorem level_lt_of_acStream {rom : CodebookRom} {run lev : Nat} {ts : List Triple} {l : List Bool} (h : AcStream rom run lev ts l) :
    ∀ x ∈ ts, x.level < 2 ^ 29 := by
  induction ts generalizing run lev l with
  | nil => simp
  | cons t ts ih =>
    obtain ⟨l₁, l₂, l₃, -, -, -, ⟨q, n, y, hlevel, -⟩, hrest⟩ := h
    have := isCode_bounds hlevel
    intro x hx
    rcases List.mem_cons.1 hx with rfl | hx
    · omega
    · exact ih hrest x hx

theorem value_natAbs_lt {x : Triple} (h : x.level < 2 ^ 29) : x.value.toInt.natAbs < 2 ^ 29 := by
  have value : x.value.toInt = if x.negative then -(x.level : Int) else x.level := s32_toInt (by split <;> omega) (by split <;> omega)
  rw [value]
  split <;> omega

end

/-! ### The plane restored -/

section
variable {s : State} {p : QMatrix}

/-- The DC term stands at raster position 0 (10_state.md R46). -/
theorem scan_zero (hcfg : s.cfg.wf = true) : s.scan 0 = 0 := by
  obtain ⟨-, -, -, -, -, hprog, hinter⟩ := of_decide_eq_true hcfg
  have first {t : Vector (BitVec 6) 64} (h : scanTableLegal t = true) : (t.get (Fin.ofNat 64 0)).toNat = 0 := by
    obtain ⟨h0, -⟩ := of_decide_eq_true h
    exact congrArg BitVec.toNat h0
  rw [State.scan, scanromAt]
  split
  · exact first hprog
  · exact first hinter

/-- A scan position is a position of the plane (R200). -/
theorem coefIndexOf_of_scan {blk : Nat} (j : Nat) (hblk : blk < s.bps) : coefIndexOf s (j * s.bps + blk) = 64 * blk + s.scan j := by
  have hdiv : (j * s.bps + blk) / s.bps = j := by
    rw [Nat.add_comm, Nat.add_mul_div_right blk j (show 0 < s.bps from Nat.two_pow_pos _), Nat.div_eq_of_lt hblk, Nat.zero_add]
  have hmod : (j * s.bps + blk) % s.bps = blk := by rw [Nat.mul_add_mod', Nat.mod_eq_of_lt hblk]
  rw [coefIndexOf, hdiv, hmod]

/-- RDDC and then RDAC leave the terms of the plane: of each scan position below `MAXC` its term, 0 of the others. -/
theorem read_restored {coef coef' : Memory 32} (hcfg : s.cfg.wf = true) (hmaxc : MaxcLegal s) (hq : ∀ i, i < 64 → s.qmsAt p i = 4)
    (hdc : ∀ blk, blk < s.bps → (s.coefAt (64 * blk)).toInt.natAbs < 2 ^ 29) (hlevel : ∀ x ∈ planeTriples s, x.level < 2 ^ 29)
    (dc : ∀ k, k < 64 * s.bps → Memory.read coefUnlisted coef k = dcWord s p (planeCodes s) k)
    (stored : ∀ (j np : Nat) (x : Triple), (triplePlaces s)[j]? = some np → (planeTriples s)[j]? = some x →
      Memory.read coefUnlisted coef' (coefIndexOf s np) = dequant s p (s.scan (np / s.bps)) x.value)
    (kept : ∀ k, (∀ np ∈ triplePlaces s, k ≠ coefIndexOf s np) → Memory.read coefUnlisted coef' k = Memory.read coefUnlisted coef k)
    {blk j : Nat} (hblk : blk < s.bps) (hj : j < 64) :
    Memory.read coefUnlisted coef' (64 * blk + s.scan j) =
      if j < s.plane.maxc.toNat then s.coefAt (64 * blk + s.scan j) else 0 := by
  have hscan := scan_lt s j
  have hplace : j * s.bps + blk < 64 * s.bps := by nlinarith
  have hbelow : j * s.bps + blk < s.plane.maxc.toNat * s.bps ↔ j < s.plane.maxc.toNat := by
    constructor
    · intro h
      by_contra hge
      have := Nat.mul_le_mul_right s.bps (Nat.le_of_not_lt hge)
      omega
    · intro h
      have := Nat.mul_le_mul_right s.bps h
      rw [Nat.succ_mul] at this
      omega
  rw [← coefIndexOf_of_scan j hblk]
  by_cases hmem : j * s.bps + blk ∈ triplePlaces s
  · obtain ⟨-, hnear, -⟩ := (mem_triplePlaces hmaxc).1 hmem
    obtain ⟨i, x, hi, hx, hvalue⟩ := exists_triple_of_mem hmem
    rw [stored i _ x hi hx, dequant_four (hq _ (scan_lt s _)) (value_natAbs_lt (hlevel x (List.mem_of_getElem? hx))), hvalue,
      if_pos (hbelow.1 hnear)]
    rfl
  · have untouched : ∀ np ∈ triplePlaces s, coefIndexOf s (j * s.bps + blk) ≠ coefIndexOf s np := fun np hnp e => by
      obtain ⟨-, hnear, -⟩ := (mem_triplePlaces hmaxc).1 hnp
      have h64 : s.plane.maxc.toNat * s.bps ≤ 64 * s.bps := Nat.mul_le_mul_right _ hmaxc.2
      exact hmem (coefIndexOf_inj hcfg hplace (by omega) e ▸ hnp)
    rw [kept _ untouched, coefIndexOf_of_scan j hblk, dc _ (by omega)]
    by_cases h0 : j = 0
    · rw [h0, scan_zero hcfg, Nat.add_zero, dcWord_planeCodes (hq 0 (by decide)) hdc hblk, if_pos (show 0 < _ from hmaxc.1)]
    · have hne : s.scan j ≠ 0 := fun e =>
        h0 (scanromAt_inj hcfg s.plane.scansel hj (by decide) (e.trans (scan_zero hcfg).symm))
      rw [dcWord_of_ac s p _ (by omega)]
      split
      · rename_i hlt
        have hfar : s.bps ≤ j * s.bps + blk := by
          have := Nat.mul_le_mul_right s.bps (Nat.one_le_iff_ne_zero.2 h0)
          omega
        by_contra hc
        refine hmem ((mem_triplePlaces hmaxc).2 ⟨hfar, hbelow.2 hlt, fun e => hc ?_⟩)
        rw [← e, coefAtPos, coefIndexOf_of_scan j hblk]
      · rfl

end

end Sys2Proof.Machine

/-! PROOFS. The plane round trip (43_coefficient_coder.md R210 (a)), second part: a writer that ends without a fault has written every code
of the plane, and what the three writers leave in BS is what RDDC and RDAC read. -/

namespace Sys2Proof.Machine

-- In order and not side by side: pending proofs hold memory, and the joined text is near the limit of check.sh.
set_option Elab.async false

open Sys2Proof.Claims

/-! ### Without a refusal all is written (R208, R209) -/

theorem deltaStream_of_dcCodesAfter {cfg : Config} {c0 : Nat} {cs rest : List Nat} {l : List Bool}
    (h : DcCodesAfter cfg (c0 :: cs) rest l) :
    DeltaStream cfg.cbrom (cs.getLast?.getD (dcFirstContext cfg.dcCtxInit c0)) rest l := by
  induction rest generalizing cs l with
  | nil => exact h
  | cons c rest ih =>
    obtain ⟨l₁, l₂, hl, hc, hrest⟩ := h
    have later := ih (cs := cs ++ [c]) hrest
    rw [List.getLast?_append, List.getLast?_singleton, Option.some_or, Option.getD_some] at later
    exact ⟨l₁, l₂, hl, hc, later⟩

theorem dcCodes_of_after {cfg : Config} {codes : List Nat} {l : List Bool} (h : DcCodesAfter cfg [] codes l) : DcCodes cfg codes l := by
  cases codes with
  | nil => exact h
  | cons c0 cs =>
    obtain ⟨l₁, l₂, hl, hc, hrest⟩ := h
    exact ⟨l₁, l₂, hl, hc, deltaStream_of_dcCodesAfter (cs := []) hrest⟩

/-- Where no DC code is refused, all of them have codewords with room for them. -/
theorem exists_dcCodes_of_not_fails {cfg : Config} {codes rest : List Nat} {a e : Nat} (hroom : a ≤ e)
    (hok : ∀ pre c post l code sub, rest = pre ++ c :: post → DcCodesAfter cfg codes pre l → a + l.length ≤ e →
      ¬ WriteFails (nextDcBook cfg (codes ++ pre)) (c : Nat) (a + l.length) e code sub) :
    ∃ l, DcCodesAfter cfg codes rest l ∧ a + l.length ≤ e := by
  induction rest generalizing codes a with
  | nil => exact ⟨[], rfl, hroom⟩
  | cons c rest ih =>
    rcases codes_or_fails (nextDcBook cfg codes) (Int.natCast_nonneg c) a e with ⟨l₁, hc, hfit⟩ | ⟨code, sub, fails⟩
    · have later := ih (codes := codes ++ [c]) hfit fun pre c' post l code sub hrest hpre => by
        rw [List.append_assoc, List.singleton_append, Nat.add_assoc, ← List.length_append]
        exact hok (c :: pre) c' post (l₁ ++ l) code sub (congrArg _ hrest) ⟨l₁, l, rfl, hc, hpre⟩
      obtain ⟨l₂, hrest, hfit'⟩ := later
      refine ⟨l₁ ++ l₂, ⟨l₁, l₂, rfl, hc, hrest⟩, ?_⟩
      rw [List.length_append, ← Nat.add_assoc]
      exact hfit'
    · rw [← List.append_nil codes] at fails
      exact absurd fails (hok [] c rest [] code sub rfl rfl hroom)

/-- A triple is written whole or refused part-way. -/
theorem tripleCodes_or_fails (rom : CodebookRom) (run lev : Nat) (x : Triple) (a e : Nat) :
    (∃ l₁ l₂, Codes (cbromAt rom .acRun run) x.run l₁ ∧ Codes (cbromAt rom .acLevel lev) (x.level - 1 : Nat) l₂ ∧
      a + (l₁ ++ l₂ ++ [x.negative]).length ≤ e) ∨ ∃ part code sub, TripleFails rom run lev x a e part code sub := by
  rcases codes_or_fails (cbromAt rom .acRun run) (Int.natCast_nonneg x.run) a e with ⟨l₁, hrun, hfit⟩ | ⟨code, sub, fails⟩
  · rcases codes_or_fails (cbromAt rom .acLevel lev) (Int.natCast_nonneg (x.level - 1)) (a + l₁.length) e with
      ⟨l₂, hlevel, hfit'⟩ | ⟨code, sub, fails⟩
    · rw [Nat.add_assoc, ← List.length_append] at hfit'
      by_cases hfull : a + (l₁ ++ l₂).length = e
      · exact .inr ⟨_, _, _, .sign l₁ l₂ hrun hlevel hfull⟩
      · refine .inl ⟨l₁, l₂, hrun, hlevel, ?_⟩
        rw [List.length_append, List.length_singleton]
        omega
    · exact .inr ⟨_, _, _, .level l₁ code sub hrun hfit fails⟩
  · exact .inr ⟨_, _, _, .run code sub fails⟩

/-- Where no triple is refused, all of them have codewords and a sign bit with room for them. -/
theorem exists_acStream_of_not_fails {rom : CodebookRom} {run lev : Nat} {ts : List Triple} {a e : Nat} (hroom : a ≤ e)
    (hlevel : ∀ x ∈ ts, 1 ≤ x.level)
    (hok : ∀ pre x post l part code sub, ts = pre ++ x :: post → AcStream rom run lev pre l → a + l.length ≤ e →
      ¬ TripleFails rom ((pre.getLast?.map Triple.run).getD run) ((pre.getLast?.map Triple.level).getD lev) x (a + l.length) e
        part code sub) :
    ∃ l, AcStream rom run lev ts l ∧ a + l.length ≤ e := by
  induction ts generalizing run lev a with
  | nil => exact ⟨[], rfl, hroom⟩
  | cons x ts ih =>
    obtain ⟨hx, hlevel⟩ := List.forall_mem_cons.1 hlevel
    rcases tripleCodes_or_fails rom run lev x a e with ⟨l₁, l₂, hc₁, hc₂, hfit⟩ | ⟨part, code, sub, fails⟩
    · have whole (l : List Bool) : l₁ ++ l₂ ++ x.negative :: l = l₁ ++ l₂ ++ [x.negative] ++ l := by simp
      have later := ih (run := x.run) (lev := x.level) hfit hlevel fun pre y post l part code sub hts hpre hroom => by
        rw [Nat.add_assoc, ← List.length_append, ← whole] at hroom ⊢
        have next := hok (x :: pre) y post _ part code sub (congrArg _ hts) ⟨l₁, l₂, l, rfl, hx, hc₁, hc₂, hpre⟩ hroom
        rw [List.getLast?_cons] at next
        cases h : pre.getLast? <;> simpa [h] using next
      obtain ⟨l, hrest, hfit'⟩ := later
      refine ⟨_, ⟨l₁, l₂, l, rfl, hx, hc₁, hc₂, hrest⟩, ?_⟩
      rw [whole, List.length_append, ← Nat.add_assoc]
      exact hfit'
    · exact absurd fails (hok [] x ts [] part code sub rfl rfl hroom)

/-- The level of a nonzero term is at least 1. -/
theorem one_le_level_of_mem_triplesOf {c : Nat → Word} {n pos run : Nat} : ∀ x ∈ triplesOf c n pos run, 1 ≤ x.level := by
  induction n generalizing pos run with
  | zero => simp [triplesOf]
  | succ n ih =>
    rw [triplesOf]
    split
    · exact ih
    · rename_i hc
      exact List.forall_mem_cons.2 ⟨one_le_tripleAt_level hc run, ih⟩

/-! ### The writers that end without a fault -/

/-- Bits stored at BITPOS with room for them, BITPOS past them, and nothing else changed but the coder context. -/
def Encodes (s t : State) (l : List Bool) : Prop :=
  s.cur.bitpos.toNat + l.length ≤ s.cur.bitend.toNat ∧ ∃ bs ctx, StoresBits s.bs bs s.cur.bitpos.toNat l ∧
    t = { s with bs := bs, ctx := ctx, cur := { s.cur with bitpos := BitVec.ofNat 32 (s.cur.bitpos.toNat + l.length) } }

section
variable {s t u : State} {l m : List Bool}

theorem Encodes.bitpos (h : Encodes s t l) : t.cur.bitpos.toNat = s.cur.bitpos.toNat + l.length := by
  obtain ⟨hroom, bs, ctx, -, rfl⟩ := h
  have := s.cur.bitend.isLt
  exact Nat.mod_eq_of_lt (by omega)

theorem Encodes.trans (h : Encodes s t l) (h' : Encodes t u m) : Encodes s u (l ++ m) := by
  have hpos := h.bitpos
  obtain ⟨-, bs, ctx, stores, rfl⟩ := h
  obtain ⟨hroom', bs', ctx', stores', rfl⟩ := h'
  rw [hpos] at hroom' stores'
  refine ⟨?_, bs', ctx', storesBits_append stores stores', ?_⟩
  · rw [List.length_append, ← Nat.add_assoc]
    exact hroom'
  · rw [hpos, List.length_append, Nat.add_assoc]

theorem Encodes.cursorsLegal (h : Encodes s t l) (hcur : CursorsLegal s) : CursorsLegal t := by
  have hpos := h.bitpos
  obtain ⟨hroom, bs, ctx, -, rfl⟩ := h
  obtain ⟨hbuffer, hend, -⟩ := hcur
  exact ⟨hbuffer, hend, hpos.trans_le hroom⟩

/-- WRDC that ends without a fault has written every DC code. -/
theorem encodes_of_wrdc (hrun : Running s) (hcur : CursorsLegal s) (hb : BpsLegal s) (hcfg : s.cfg.wf = true) (hw : s.memoriesWf)
    (h : exec .wrdc s = .next t) (ht : Running t) : ∃ l, Encodes s t l ∧ DcCodes s.cfg (planeCodes s) l := by
  obtain ⟨l, hc, hroom⟩ := exists_dcCodes_of_not_fails (cfg := s.cfg) (codes := []) (rest := planeCodes s) hcur.2.2
    fun pre c post l code sub hcodes hpre hroom hfails => by
      obtain ⟨u, refused, -⟩ := (wrdcWrites s l hrun hcur hb hcfg hw hroom).2 pre post c code sub hcodes (dcCodes_of_after hpre) hfails
      rw [h] at refused
      cases refused
      exact not_running_fatal _ _ _ _ _ ht
  have hcodes := dcCodes_of_after hc
  obtain ⟨u, written, frame, stores⟩ := (wrdcWrites s l hrun hcur hb hcfg hw hroom).1 hcodes
  rw [h] at written
  cases written
  exact ⟨l, ⟨hroom, _, _, stores, frame⟩, hcodes⟩

/-- WRAC that ends without a fault has written every triple. -/
theorem encodes_of_wrac (hrun : Running s) (hcur : CursorsLegal s) (hb : BpsLegal s) (hmaxc : MaxcLegal s) (hcfg : s.cfg.wf = true)
    (hw : s.memoriesWf) (h : exec .wrac s = .next t) (ht : Running t) :
    ∃ l, Encodes s t l ∧ AcStream s.cfg.cbrom s.cfg.runCtxInit.val s.cfg.levCtxInit.val (planeTriples s) l := by
  obtain ⟨l, hc, hroom⟩ := exists_acStream_of_not_fails (rom := s.cfg.cbrom) (run := s.cfg.runCtxInit.val)
    (lev := s.cfg.levCtxInit.val) (ts := planeTriples s) hcur.2.2 one_le_level_of_mem_triplesOf
    fun pre x post l part code sub htriples hpre hroom hfails => by
      obtain ⟨u, refused, -⟩ := (wracWrites s l hrun hcur hb hmaxc hcfg hw hroom).2 pre post x part code sub htriples hpre hfails
      rw [h] at refused
      cases refused
      exact not_running_fatal _ _ _ _ _ ht
  obtain ⟨u, written, frame, stores⟩ := (wracWrites s l hrun hcur hb hmaxc hcfg hw hroom).1 hc
  rw [h] at written
  cases written
  exact ⟨l, ⟨hroom, _, _, stores, frame⟩, hc⟩

/-- ALIGNW that ends without a fault has written zeros. -/
theorem encodes_of_alignw (hrun : Running s) (hcur : CursorsLegal s) (hw : s.memoriesWf) (h : exec .alignw s = .next t)
    (ht : Running t) : ∃ n, Encodes s t (List.replicate n false) := by
  have pads := alignwPads.2.2 s hrun hcur hw
  dsimp only at pads
  split at pads
  · rename_i hroom
    obtain ⟨u, padded, frame, stores, -⟩ := pads
    rw [h] at padded
    cases padded
    refine ⟨_, ?_, _, s.ctx, stores, ?_⟩
    · rw [List.length_replicate]
      exact hroom
    · rw [List.length_replicate]
      exact frame
  · rw [h] at pads
    cases pads
    exact absurd ht (not_running_fatal _ _ _ _ _)

end

/-! ### The payload read -/

section
variable {s t : State}

theorem dcDeltas_congr (same : ∀ k, t.coefAt k = s.coefAt k) (n blk : Nat) : dcDeltas t n blk = dcDeltas s n blk := by
  induction n generalizing blk with
  | zero => rfl
  | succ n ih => rw [dcDeltas_succ, dcDeltas_succ, ih, dcDelta, dcDelta, same, same]

/-- The DC codes depend on COEF and the number of blocks alone. -/
theorem planeCodes_congr (same : ∀ k, t.coefAt k = s.coefAt k) (hbps : t.bps = s.bps) : planeCodes t = planeCodes s := by
  rw [planeCodes_eq, planeCodes_eq, same, hbps, dcDeltas_congr same]

end

/-- The state after a whole DC part of `n` bits is read, with what it leaves in COEF. -/
def dcRead (s : State) (n : Nat) (coef : Memory 32) : State := { s with
  cur := { s.cur with bitpos := BitVec.ofNat 32 (s.cur.bitpos.toNat + n) }
  ctx := dcContext s (planeCodes s)
  status := { s.status with abandon := false, eop := true }
  coef := coef }

/-- RDDC and RDAC on the payload of the very plane that stands in COEF give it back. -/
theorem reads_back {s : State} {p : QMatrix} {l₁ l₂ : List Bool} {n : Nat} (hrun : Running s) (hcur : CursorsLegal s) (hb : BpsLegal s)
    (hmaxc : MaxcLegal s) (hcfg : s.cfg.wf = true) (hw : s.memoriesWf) (hq : ∀ i, i < 64 → s.qmsAt p i = 4)
    (hdc : ∀ blk, blk < s.bps → (s.coefAt (64 * blk)).toInt.natAbs < 2 ^ 29) (hc₁ : DcCodes s.cfg (planeCodes s) l₁)
    (hc₂ : AcStream s.cfg.cbrom s.cfg.runCtxInit.val s.cfg.levCtxInit.val (planeTriples s) l₂)
    (hbits : holdsBits s.bs s.cur.bitpos.toNat (l₁ ++ l₂ ++ List.replicate n false) = true)
    (hend : s.cur.bitend.toNat = s.cur.bitpos.toNat + (l₁ ++ l₂ ++ List.replicate n false).length) :
    ∃ d₁ d₂, exec (.rddc p) s = .next d₁ ∧ exec (.rdac p) d₁ = .next d₂ ∧ Running d₂ ∧ d₂.status.corrupt = s.status.corrupt ∧
      d₂.status.eop = true ∧ ∀ blk j, blk < s.bps → j < 64 →
        d₂.coefAt (64 * blk + s.scan j) = if j < s.plane.maxc.toNat then s.coefAt (64 * blk + s.scan j) else 0 := by
  rw [holdsBits_append, holdsBits_append, Bool.and_eq_true, Bool.and_eq_true, List.length_append, ← Nat.add_assoc] at hbits
  obtain ⟨⟨hbits₁, hbits₂⟩, hzeros⟩ := hbits
  rw [List.length_append, List.length_append, List.length_replicate] at hend
  obtain ⟨d₁, read₁, frame₁, dc⟩ := rddcDecodes s p (planeCodes s) l₁ hrun hcur hb hcfg hw (planeCodes_length s) hc₁ hbits₁ (by omega)
  obtain ⟨coef₁, rfl⟩ : ∃ coef, d₁ = dcRead s l₁.length coef := ⟨_, frame₁⟩
  have hw₁ := (exec_frame read₁).memoriesWf hw
  have hpos : (dcRead s l₁.length coef₁).cur.bitpos.toNat = s.cur.bitpos.toNat + l₁.length := by
    have := s.cur.bitend.isLt
    exact Nat.mod_eq_of_lt (by omega)
  have finish : AcEnd s.cfg.cbrom s.bs s.cur.bitend.toNat s.bps s.plane.maxc.toNat (lastRun s.cfg (planeTriples s))
      (lastLevel s.cfg (planeTriples s)) (lastPlace s.bps (planeTriples s)) (s.cur.bitpos.toNat + l₁.length + l₂.length) none
      (s.cur.bitpos.toNat + l₁.length + l₂.length) := by
    refine .zeros (by omega) ?_
    rw [show s.cur.bitend.toNat - (s.cur.bitpos.toNat + l₁.length + l₂.length) = n by omega]
    exact hzeros
  obtain ⟨t, read₂, frame₂, stored, kept⟩ := rdacDecodes.2 (dcRead s l₁.length coef₁) p (planeTriples s) l₂ none _ hrun
    ⟨hcur.1, hcur.2.1, by rw [hpos]; show _ ≤ s.cur.bitend.toNat; omega⟩ hb hmaxc hcfg hw₁ rfl hc₂
    (fun np hnp => ((mem_triplePlaces hmaxc).1 hnp).2.1) (by rw [hpos]; exact hbits₂)
    (by rw [hpos]; show _ ≤ s.cur.bitend.toNat; omega) (by rw [hpos]; exact finish)
  refine ⟨_, _, read₁, read₂, ?_, ?_, rfl, fun blk j hblk hj => ?_⟩
  · rw [frame₂]
    exact hrun
  · rw [frame₂]
    rfl
  · exact read_restored (coef := coef₁) (coef' := t.coef) hcfg hmaxc hq hdc (level_lt_of_acStream hc₂)
      (fun k hk => (dc k).trans (if_pos hk)) stored kept hblk hj

/-- Settles O51: the three writers leave the payload of the plane in BS, and the two readers give the plane back from it. -/
theorem planeRoundTrip : Obligations.PlaneRoundTrip := by
  intro s s₁ s₂ s₃ p hrun hcur hb hmaxc hcfg hw _ hq hdc wrdc hrun₁ wrac hrun₂ alignw hrun₃
  obtain ⟨l₁, written₁, hc₁⟩ := encodes_of_wrdc hrun hcur hb hcfg hw wrdc hrun₁
  have hcur₁ := written₁.cursorsLegal hcur
  have hw₁ := (exec_frame wrdc).memoriesWf hw
  have same := written₁
  obtain ⟨-, bs₁, ctx₁, -, rfl⟩ := same
  obtain ⟨l₂, written₂, hc₂⟩ := encodes_of_wrac hrun₁ hcur₁ hb hmaxc hcfg hw₁ wrac hrun₂
  have hw₂ := (exec_frame wrac).memoriesWf hw₁
  obtain ⟨n, written₃⟩ := encodes_of_alignw hrun₂ (written₂.cursorsLegal hcur₁) hw₂ alignw hrun₃
  have hw₃ := (exec_frame alignw).memoriesWf hw₂
  have written := (written₁.trans written₂).trans written₃
  have hpos := written.bitpos
  have hcur₃ := written.cursorsLegal hcur
  obtain ⟨-, bs, ctx, stores, rfl⟩ := written
  obtain ⟨hbuffer, hend, hlast⟩ := hcur₃
  refine reads_back hrun ⟨hbuffer, hlast.trans hend, (Nat.le_add_right _ _).trans_eq hpos.symm⟩ hb hmaxc hcfg
    (memoriesWf_congr hw₃ rfl rfl rfl rfl rfl rfl) hq hdc ?_ hc₂ stores.stored hpos
  rw [planeCodes_congr (s := s)]
  · exact hc₁
  · exact fun _ => rfl
  · rfl

end Sys2Proof.Machine

/-! PROOFS. The Quantizer/Scaler (44_quantizer.md R230 to R237): DEQ's scaling and QNT's quotient as integers, what each command leaves
exactly, and the laws of quantizing and dequantizing. -/

namespace Sys2Proof.Machine

-- In order and not side by side: pending proofs hold memory, and the joined text is near the limit of check.sh.
set_option Elab.async false

open Sys2Proof.Claims

/-! ### The fold of the scale (R231) -/

/-- The clip to 1..224 and the fold above 128. -/
theorem foldOf_eq_clip (raw : Nat) :
    foldOf raw = if 128 < min (max raw 1) 224 then (min (max raw 1) 224 - 96) * 2 ^ 2 else min (max raw 1) 224 := by
  unfold foldOf
  split_ifs <;> omega

theorem foldOf_mem_Icc (raw : Nat) : 1 ≤ foldOf raw ∧ foldOf raw ≤ 512 := by
  unfold foldOf
  split_ifs <;> omega

/-- Above the fold a raw step counts four, and the fold starts at `4 * (129 - 96)`, above the 128 before it. -/
theorem foldOf_lt_foldOf {a b : Nat} (ha : 1 ≤ a) (hab : a < b) (hb : b ≤ 224) : foldOf a < foldOf b := by
  unfold foldOf
  split_ifs <;> omega

/-- Settles O53: the command is its pseudocode, and the fold is read off its three ranges. -/
theorem foldqFolds : Obligations.FoldqFolds := by
  refine ⟨by decide, fun s hrun => ?_, fun raw _ => ⟨foldOf_eq_clip raw, foldOf_mem_Icc raw⟩, fun a b => foldOf_lt_foldOf⟩
  rw [← foldScale_eq]
  exact runCommand_ok (i := .foldq) (body := foldqBody) hrun rfl

/-! ### Scaling and dividing one value, as integers (R232, R235) -/

/-- The 32-bit product is that of the values, wrapped (00_scope.md R11). -/
theorem mul_eq_ofInt (a b : Word) : a * b = BitVec.ofInt 32 (a.toInt * b.toInt) := by
  rw [BitVec.ofInt_mul, BitVec.ofInt_toInt, BitVec.ofInt_toInt]

/-- DEQ's product wraps, and its shift is division by 4 toward minus infinity. -/
theorem dequant_eq (s : State) (p : QMatrix) (ci : Nat) (c : Word) :
    dequant s p ci c = BitVec.ofInt 32 ((BitVec.ofInt 32 (c.toInt * (s.qmsAt p ci).toInt)).toInt / 4) := by
  rw [dequant, mul_eq_ofInt, BitVec.sshiftRight_eq, Int.shiftRight_eq_div_pow]
  rfl

/-- Where the product fits, nothing wraps. -/
theorem toInt_dequant {s : State} {p : QMatrix} {ci : Nat} {c : Word} (hlo : -2 ^ 31 ≤ c.toInt * (s.qmsAt p ci).toInt)
    (hhi : c.toInt * (s.qmsAt p ci).toInt < 2 ^ 31) : (dequant s p ci c).toInt = c.toInt * (s.qmsAt p ci).toInt / 4 := by
  have product := s32_toInt hlo hhi
  rw [s32] at product
  rw [dequant_eq, product]
  exact s32_toInt (by omega) (by omega)

/-- Division toward zero by signs and magnitudes (00_scope.md R12). -/
theorem tdiv_eq_sign_mul_natAbs_div (a b : Int) : a.tdiv b = a.sign * b.sign * (a.natAbs / b.natAbs : Nat) := by
  rw [← Int.sign_mul_natAbs (a.tdiv b), Int.sign_tdiv, Int.natAbs_tdiv]
  split
  · rw [Nat.div_eq_of_lt ‹_›, Int.zero_mul, Int.natCast_zero, Int.mul_zero]
  · rfl

theorem quotient_eq (c m : Word) :
    quotient c m = BitVec.ofInt 32 (c.toInt.sign * m.toInt.sign * (c.toInt.natAbs / m.toInt.natAbs : Nat)) := by
  rw [quotient, tdiv_eq_sign_mul_natAbs_div, s32]

/-- By a positive divisor every quotient fits. -/
theorem toInt_quotient {c m : Word} (hm : 1 ≤ m.toInt) : (quotient c m).toInt = c.toInt.tdiv m.toInt := by
  have small := Int.natAbs_tdiv_le_natAbs c.toInt m.toInt
  have lo := BitVec.le_toInt c
  have hi := BitVec.toInt_lt (x := c)
  have monotone := Int.tdiv_le_tdiv (c := m.toInt) (by omega) (show c.toInt ≤ 2 ^ 31 - 1 by omega)
  have bound := Int.tdiv_le_self (a := 2 ^ 31 - 1) m.toInt (by decide)
  exact s32_toInt (by omega) (by omega)

/-! ### DEQ and QNT (R234, R235) -/

/-- A word of format I as a number: the opcode, `idx` from bit 8, `p` in bit 0 (30_encoding.md R101). -/
theorem ofNat_eq_formatI_word (op : BitVec 8) (p : QMatrix) (idx : BitVec 6) :
    BitVec.ofNat 32 (16777216 * op.toNat + 256 * idx.toNat + (if p = .luma then 0 else 1)) =
      op ++ ((0 : BitVec 10) ++ idx ++ (0 : BitVec 7) ++ p.bit) := by
  have bit : p.bit.toNat = if p = .luma then 0 else 1 := by cases p <;> rfl
  have word : (op ++ ((0 : BitVec 10) ++ idx ++ (0 : BitVec 7) ++ p.bit)).toNat =
      op.toNat * 2 ^ 24 + ((((0 : BitVec 10).toNat * 2 ^ 6 + idx.toNat) * 2 ^ 7 + (0 : BitVec 7).toNat) * 2 ^ 1 + p.bit.toNat) := by
    simp only [append_toNat]
  have zero (n : Nat) : (0 : BitVec n).toNat = 0 := rfl
  have bounds : op.toNat < 256 ∧ idx.toNat < 64 ∧ p.bit.toNat < 2 := ⟨op.isLt, idx.isLt, p.bit.isLt⟩
  apply BitVec.eq_of_toNat_eq
  rw [word, BitVec.toNat_ofNat, ← bit, zero, zero]
  omega

/-- The opcodes of the commands that divide: QNT and QNTP. -/
abbrev dividerOpcodes : List Nat := [0x43, 0x44]

/-- A fault of QNT or QNTP records the cursor 0 (60_exceptions.md R270). -/
theorem exec_divider_of_body_raised {i : Instr} {s : State} (r : Raise) (hop : i.opcode.toNat ∈ dividerOpcodes) (hrun : Running s)
    (hbody : Instr.body i s = .raised r s) (hr : r.recoverable = false) :
    exec i s = .next (fatal i.opcode.toNat r.code.toNat r.subcode.toNat 0 s) := by
  have disjoint : ∀ op ∈ dividerOpcodes, op ≠ 0x25 ∧ op ∉ [0x01, 0x02] := by decide
  have cursor : ∀ op ∈ dividerOpcodes, recordCursor op s s = 0 := by simp [recordCursor]
  obtain ⟨hselpl, hsys⟩ := disjoint _ hop
  rw [exec_of_body_raised r (wellFormed_of_opcode_ne hselpl) hsys hrun hbody hr, cursor _ hop]

section
variable {s : State} {p : QMatrix} {idx : BitVec 6}

theorem exec_deq (hrun : Running s) : exec (.deq p idx) s = .next (s.withVal (dequant s p idx.toNat s.val)) :=
  runCommand_ok (i := .deq p idx) (body := deqBody p idx) hrun rfl

theorem exec_qnt (hrun : Running s) (hm : s.qmsAt p idx.toNat ≠ 0) :
    exec (.qnt p idx) s = .next (s.withVal (quotient s.val (s.qmsAt p idx.toNat))) :=
  runCommand_ok (i := .qnt p idx) (body := qntBody p idx) hrun (if_neg hm)

theorem exec_qnt_of_zero (hrun : Running s) (hm : s.qmsAt p idx.toNat = 0) :
    exec (.qnt p idx) s = .next (fatal 0x43 6 1 0 s) :=
  exec_divider_of_body_raised (i := .qnt p idx) .divideByZero (show 0x43 ∈ dividerOpcodes by decide) hrun (if_pos hm) rfl

end

/-- Settles O55: the words are the encodings of the commands, and each command leaves its value as an integer computes it. -/
theorem scalarQuantizer : Obligations.ScalarQuantizer := by
  refine ⟨fun p idx => ⟨?_, ?_⟩, fun s p idx hrun => ?_, fun s p idx hrun hq hc => ?_, fun s p idx hrun => ?_⟩
  · exact ofNat_eq_formatI_word 0x42 p idx ▸ decodeEncode (.deq p idx) rfl
  · exact ofNat_eq_formatI_word 0x43 p idx ▸ decodeEncode (.qnt p idx) rfl
  · rw [← dequant_eq]
    exact exec_deq hrun
  · rw [exec_deq hrun, dequant_four hq hc]
    rfl
  · rw [← quotient_eq]
    split
    · exact exec_qnt_of_zero hrun ‹_›
    · exact exec_qnt hrun ‹_›

/-! ### SCALEQ (R233) -/

theorem matrixIndex_lt (p : QMatrix) {i : Nat} (hi : i < 64) : matrixIndex p i < 128 := by
  cases p <;> simp only [matrixIndex, QMatrix.number] <;> omega

/-- One entry after SCALEQ, as the wrapping product. -/
theorem qmsAt_scaleMatrices {s : State} (hw : Memory.wf qmsUnlisted s.qms) (p : QMatrix) {i : Nat} (hi : i < 64) :
    (scaleMatrices s).qmsAt p i = (s.qmAt p i).setWidth 32 * s.slice.qscale := by
  have scaled := Memory.read_writeRange qmsUnlisted hw 0 128
    (fun k => (Memory.read qmUnlisted s.qm k).setWidth 32 * s.slice.qscale) (matrixIndex p i)
  rwa [if_pos ⟨Nat.zero_le _, (matrixIndex_lt p hi).trans_eq (Nat.zero_add _).symm⟩] at scaled

/-- A byte extended with zeros reads as itself, signed too. -/
theorem toInt_setWidth_byte (b : Byte) : (b.setWidth 32).toInt = b.toNat := by
  have hb := b.isLt
  have value : (b.setWidth 32).toNat = b.toNat := BitVec.toNat_setWidth_of_le (by decide)
  rw [BitVec.toInt_eq_toNat_of_lt (by omega), value]

/-- Settles O54: the one range write of SCALEQ, read at each entry. -/
theorem scaleqScales : Obligations.ScaleqScales := by
  refine fun s hrun hw => ⟨scaleMatrices s, runCommand_ok (i := .scaleq) (body := scaleqBody) hrun rfl, rfl, fun p i hi => ?_⟩
  rw [qmsAt_scaleMatrices hw.qms p hi, mul_eq_ofInt, toInt_setWidth_byte]

/-! ### QNTP (R236) -/

theorem hasZeroDivisor_iff {s : State} {p : QMatrix} : hasZeroDivisor s p = true ↔ ∃ i, i < 64 ∧ s.qmsAt p i = 0 := by
  simp [hasZeroDivisor]

/-- One word after the division in place: only the plane's words are divided. -/
theorem coefAt_quantizePlane {s : State} (hw : Memory.wf coefUnlisted s.coef) (p : QMatrix) (k : Nat) :
    (quantizePlane p s).coefAt k = if k < 64 * s.bps then quotient (s.coefAt k) (s.qmsAt p (k % 64)) else s.coefAt k := by
  have divided := Memory.read_writeRange coefUnlisted hw 0 (64 * s.bps)
    (fun k => quotient (s.coefAt k) (s.qmsAt p (k % 64))) k
  simp only [Nat.zero_le, true_and, Nat.zero_add, Nat.sub_zero] at divided
  exact divided

section
variable {s : State} {p : QMatrix}

theorem exec_qntp_of_raised (r : Raise) (hrun : Running s) (hbody : qntpBody p s = .raised r s) (hr : r.recoverable = false) :
    exec (.qntp p) s = .next (fatal 0x44 r.code.toNat r.subcode.toNat 0 s) :=
  exec_divider_of_body_raised (i := .qntp p) r (show 0x44 ∈ dividerOpcodes by decide) hrun hbody hr

theorem qntpBody_of_legal (hb : BpsLegal s) :
    qntpBody p s = if hasZeroDivisor s p = true then .raised .divideByZero s else .ok () (quantizePlane p s) := by
  rw [qntpBody, checkBps_ok hb, Res.bind_ok]

end

/-- Settles O56: the check of `L2BPS`, then that of the entries, then the division of the plane. -/
theorem qntpDivides : Obligations.QntpDivides := by
  refine ⟨by decide, fun s p hrun hb => ?_, fun s p hrun hb hw => ⟨fun zero => ?_, fun nonzero => ?_⟩⟩
  · exact exec_qntp_of_raised (.badOperand .bps) hrun (by rw [qntpBody, checkBps_raised hb, Res.bind_raised]) rfl
  · exact exec_qntp_of_raised .divideByZero hrun ((qntpBody_of_legal hb).trans (if_pos (hasZeroDivisor_iff.2 zero))) rfl
  · have legal : ¬hasZeroDivisor s p = true := fun h =>
      have ⟨i, hi, zero⟩ := hasZeroDivisor_iff.1 h
      nonzero i hi zero
    exact ⟨quantizePlane p s, runCommand_ok (i := .qntp p) (body := qntpBody p) hrun ((qntpBody_of_legal hb).trans (if_neg legal)),
      rfl, coefAt_quantizePlane hw.coef p⟩

/-! ### The laws (R237) -/

/-- What division toward zero leaves: the value's sign, below the divisor. -/
theorem tmod_bounds (t : Int) {m : Int} (hm : 1 ≤ m) :
    (0 ≤ t → 0 ≤ t.tmod m ∧ t.tmod m ≤ m - 1) ∧ (t < 0 → -(m - 1) ≤ t.tmod m ∧ t.tmod m ≤ 0) := by
  have upper := Int.tmod_lt_of_pos t (show 0 < m by omega)
  have lower := Int.lt_tmod_of_pos t (show 0 < m by omega)
  refine ⟨fun ht => ⟨Int.tmod_nonneg m ht, by omega⟩, fun ht => ⟨by omega, ?_⟩⟩
  have negated := Int.tmod_nonneg m (show 0 ≤ -t by omega)
  rw [Int.neg_tmod] at negated
  omega

/-- Dequantizing the quotient: back to the value less the remainder, then division by 4. -/
theorem toInt_dequant_quotient {s : State} {p : QMatrix} {ci : Nat} {c : Word} (hm : 1 ≤ (s.qmsAt p ci).toInt) :
    (dequant s p ci (quotient c (s.qmsAt p ci))).toInt = (c.toInt - c.toInt.tmod (s.qmsAt p ci).toInt) / 4 := by
  have lo := BitVec.le_toInt c
  have hi := BitVec.toInt_lt (x := c)
  have divisor := BitVec.toInt_lt (x := s.qmsAt p ci)
  obtain ⟨nonneg, neg⟩ := tmod_bounds c.toInt hm
  have product : (quotient c (s.qmsAt p ci)).toInt * (s.qmsAt p ci).toInt = c.toInt - c.toInt.tmod (s.qmsAt p ci).toInt := by
    rw [toInt_quotient hm, Int.tdiv_mul_self]
  have value := toInt_dequant (s := s) (p := p) (ci := ci) (c := quotient c (s.qmsAt p ci))
  rw [product] at value
  by_cases hc : 0 ≤ c.toInt
  · have := nonneg hc
    exact value (by omega) (by omega)
  · have := neg (by omega)
    exact value (by omega) (by omega)

/-- Both ends of the error: the remainder of the division and the 0 to 3 lost by the shift. -/
theorem quantization_error {s : State} {p : QMatrix} {ci : Nat} {c : Word} (hm : 1 ≤ (s.qmsAt p ci).toInt) :
    let e := c.toInt - 4 * (dequant s p ci (quotient c (s.qmsAt p ci))).toInt
    (0 ≤ c.toInt → 0 ≤ e ∧ e ≤ (s.qmsAt p ci).toInt + 2) ∧ (c.toInt < 0 → -((s.qmsAt p ci).toInt - 1) ≤ e ∧ e ≤ 3) := by
  intro e
  have he : e = c.toInt - 4 * ((c.toInt - c.toInt.tmod (s.qmsAt p ci).toInt) / 4) := by rw [← toInt_dequant_quotient hm]
  obtain ⟨nonneg, neg⟩ := tmod_bounds c.toInt hm
  refine ⟨fun hc => ?_, fun hc => ?_⟩
  · have := nonneg hc
    omega
  · have := neg hc
    omega

/-- Less than one step and the 3 lost by the shift. -/
theorem natAbs_quantization_error_lt {s : State} {p : QMatrix} {ci : Nat} {c : Word} (hm : 1 ≤ (s.qmsAt p ci).toInt) :
    (c.toInt - 4 * (dequant s p ci (quotient c (s.qmsAt p ci))).toInt).natAbs < (s.qmsAt p ci).toInt + 3 := by
  obtain ⟨nonneg, neg⟩ := quantization_error (c := c) hm
  by_cases hc : 0 ≤ c.toInt
  · have := nonneg hc
    omega
  · have := neg (by omega)
    omega

theorem quotient_zero (m : Word) : quotient 0 m = 0 := by
  have zero : (0 : Word).toInt = 0 := rfl
  rw [quotient, zero, Int.zero_tdiv]
  rfl

theorem toInt_quotient_le {a b m : Word} (hm : 1 ≤ m.toInt) (hab : a.toInt ≤ b.toInt) :
    (quotient a m).toInt ≤ (quotient b m).toInt := by
  rw [toInt_quotient hm, toInt_quotient hm]
  exact Int.tdiv_le_tdiv (by omega) hab

theorem natAbs_quotient_le {a m n : Word} (hm : 1 ≤ m.toInt) (hmn : m.toInt ≤ n.toInt) :
    (quotient a n).toInt.natAbs ≤ (quotient a m).toInt.natAbs := by
  rw [toInt_quotient hm, toInt_quotient (hm.trans hmn), Int.natAbs_tdiv, Int.natAbs_tdiv]
  exact Nat.div_le_div_left (by omega) (by omega)

/-- Settles O57: QNT then DEQ leave the dequantized quotient, whose error is bounded; the other laws are those of `tdiv`. -/
theorem quantizerLaws : Obligations.QuantizerLaws := by
  refine ⟨fun s p idx hrun hm => ?_, fun s p hq => ?_, fun s p ci => ⟨dequant_zero s p ci, quotient_zero _⟩,
    fun a b m => toInt_quotient_le, fun a m n => natAbs_quotient_le⟩
  · have divisor : s.qmsAt p idx.toNat ≠ 0 := fun zero => by
      rw [zero] at hm
      exact absurd hm (by decide)
    obtain ⟨nonneg, neg⟩ := quantization_error (c := s.val) hm
    exact ⟨_, _, exec_qnt hrun divisor, exec_deq hrun, nonneg, neg, natAbs_quantization_error_lt hm⟩
  · rw [dequant_eq, dequant_eq, hq]
    decide

end Sys2Proof.Machine

/-! PROOFS. The system commands (45_system_ops.md R250 to R252): NOP goes through the port's check of HALT, SRST and CLRF do not. -/

namespace Sys2Proof.Machine

-- In order and not side by side: pending proofs hold memory, and the joined text is near the limit of check.sh.
set_option Elab.async false

open Sys2Proof.Claims

/-- NOP while running changes nothing (R250). -/
theorem exec_nop {s : State} (hrun : Running s) : exec .nop s = .next s :=
  runCommand_ok (i := .nop) (body := nopBody) hrun rfl

/-- NOP while halted is rejected, as any command but SRST and CLRF (R250, R271). -/
theorem exec_nop_of_halted {s : State} (hhalt : s.status.halt = true) : exec .nop s = .next s.setRej :=
  runCommand_halted (i := .nop) (body := nopBody) hhalt

/-- SRST, running or halted (R251). -/
theorem exec_srst (s : State) : exec .srst s = .next (softReset s) := rfl

/-- CLRF, running or halted (R252). -/
theorem exec_clrf (s : State) : exec .clrf s = .next (clearFaults s) := rfl

/-- No register reads the memories that a soft reset keeps. -/
theorem readReg_softReset (s : State) (r : Reg) : (softReset s).readReg r = State.reset.readReg r := by
  cases r <;> rfl

/-- A soft reset makes both matrices those of reset, which are flat 4. -/
theorem matrices_softReset (s : State) (p : QMatrix) {i : Nat} (hi : i < 64) :
    (softReset s).qmAt p i = 4 ∧ (softReset s).qmsAt p i = 4 := by
  obtain ⟨-, flat⟩ := resetRegisters
  exact flat p i hi

/-- Settles O13: each word is its command's encoding; NOP by the check of HALT, then the two commands that pass it. -/
theorem systemCommands : Obligations.SystemCommands := by
  refine ⟨⟨?_, ?_, ?_⟩, fun s hrun => ?_, fun s hhalt => ?_, fun s => ?_, fun s => ?_⟩
  · exact decodeEncode .nop rfl
  · exact decodeEncode .srst rfl
  · exact decodeEncode .clrf rfl
  · exact exec_nop hrun
  · exact exec_nop_of_halted hhalt
  · exact ⟨softReset s, exec_srst s, rfl, readReg_softReset s, fun p _ => matrices_softReset s p⟩
  · exact exec_clrf s

end Sys2Proof.Machine

/-! PROOFS. The two modes side by side, and the port while halted (60_exceptions.md R269 to R273): no pseudocode reads `CTRL.STRICT`, so
each ends alike in both modes with the mode itself the only difference; taking the fault then writes the record and three flags. -/

namespace Sys2Proof.Machine

-- In order and not side by side: pending proofs hold memory, and the joined text is near the limit of check.sh.
set_option Elab.async false

open Sys2Proof.Claims

/-! ### Every word (R271) -/

/-- A command other than SRST and CLRF while halted. -/
theorem exec_of_halted {i : Instr} {s : State} (hhalt : s.status.halt = true) (hsrst : i ≠ .srst) (hclrf : i ≠ .clrf) :
    exec i s = .next s.setRej := by
  obtain ⟨t, ht⟩ := exec_next i s
  rw [ht]
  rcases exec_cases ht with ⟨h, -⟩ | ⟨h, -⟩ | ⟨-, rfl⟩ | ⟨hrun, -⟩ | ⟨hrun, -⟩ | ⟨hrun, -⟩
  · exact absurd h hsrst
  · exact absurd h hclrf
  · rfl
  all_goals exact absurd (hhalt.symm.trans hrun) (by decide)

/-- A word other than SRST's and CLRF's, a command or not, while halted. -/
theorem command_of_halted {w : Word} {s : State} (hhalt : s.status.halt = true) (hsrst : w ≠ encode .srst)
    (hclrf : w ≠ encode .clrf) : command w s = .next s.setRej := by
  unfold Machine.command
  split
  · rename_i i hdec
    have hw := encode_of_decode hdec
    exact exec_of_halted hhalt (fun h => hsrst (by rw [← hw, h])) (fun h => hclrf (by rw [← hw, h]))
  · rw [illegalWord, if_pos hhalt]

/-- Settles O7: the step serves the write of CMD, whose word is rejected whether it decodes or not. -/
theorem haltedRejects : Obligations.HaltedRejects := by
  intro s w rest hhost hhalt hsrst hclrf
  rw [step_serves hhost]
  exact command_of_halted (s := s.withHost rest) hhalt hsrst hclrf

/-- Settles O8: a word is a command, which ends by `exec_next`, or is illegal. -/
theorem everyCommandEnds : Obligations.EveryCommandEnds := by
  intro s w rest hhost
  rw [step_serves hhost]
  show ∃ t, command w (s.withHost rest) = .next t
  unfold Machine.command
  split
  · exact exec_next _ _
  · exact ⟨_, rfl⟩

/-! ### Ending alike in another mode -/

/-- The second state is the first in mode `b`. -/
def InMode (b : Bool) (s u : State) : Prop := u = s.withStrict b

/-- A part of a command that goes on after another. -/
theorem SameEnd.bindMode {α β : Type} {b : Bool} {x y : Res α} {f g : α → State → Res β} (h : SameEnd (InMode b) x y)
    (hf : ∀ a t, SameEnd (InMode b) (f a t) (g a (t.withStrict b))) : SameEnd (InMode b) (x.bind f) (y.bind g) :=
  h.bind fun a t u htu => by
    rw [show u = t.withStrict b from htu]
    exact hf a t

/-- Two parts that branch on one condition. -/
theorem SameEnd.ite {α : Type} {R : State → State → Prop} {c : Prop} [Decidable c] {x x' y y' : Res α} (hx : SameEnd R x x')
    (hy : SameEnd R y y') : SameEnd R (if c then x else y) (if c then x' else y') := by
  split
  · exact hx
  · exact hy

/-- A check that reads a condition of the state and changes nothing. -/
theorem require_inMode (b c : Bool) (r : Raise) (s : State) :
    SameEnd (InMode b) (require c r s) (require c r (s.withStrict b)) := .ite (.ok () rfl) (.raised r rfl)

section
variable (b : Bool) (s : State)

theorem ite_withStrict (c : Prop) [Decidable c] (t u : State) :
    (if c then t.withStrict b else u.withStrict b) = (if c then t else u).withStrict b :=
  (apply_ite (State.withStrict · b) c t u).symm

theorem checkBuffer_inMode : SameEnd (InMode b) (checkBuffer s) (checkBuffer (s.withStrict b)) := require_inMode b _ _ s

theorem checkCursors_inMode : SameEnd (InMode b) (checkCursors s) (checkCursors (s.withStrict b)) := require_inMode b _ _ s

theorem checkBps_inMode : SameEnd (InMode b) (checkBps s) (checkBps (s.withStrict b)) := require_inMode b _ _ s

theorem checkMaxc_inMode : SameEnd (InMode b) (checkMaxc s) (checkMaxc (s.withStrict b)) := require_inMode b _ _ s

/-! ### The entropy coder -/

theorem readBits_inMode (n : Nat) : SameEnd (InMode b) (readBits n s) (readBits n (s.withStrict b)) :=
  .ite (.raised _ rfl) (.ok _ rfl)

theorem readCodeword_inMode (cb : Codebook) :
    SameEnd (InMode b) (readCodeword cb s) (readCodeword cb (s.withStrict b)) := by
  refine .ite (.ite (.raised _ rfl) (.raised _ rfl)) (.ite ?escape (.ite ?rice (.ok _ rfl)))
  case escape => exact .ite (.raised _ rfl) ((readBits_inMode b _ _).bindMode fun _ _ => .ok _ rfl)
  case rice => exact (readBits_inMode b _ _).bindMode fun _ _ => .ok _ rfl

theorem writeCodeword_inMode (cb : Codebook) (v : Int) :
    SameEnd (InMode b) (writeCodeword cb v s) (writeCodeword cb v (s.withStrict b)) := by
  unfold writeCodeword
  cases codewordOf cb v with
  | error e => exact .raised _ rfl
  | ok c => exact .ite (.raised _ rfl) (.ok _ rfl)

theorem rdcwBody_inMode : SameEnd (InMode b) (rdcwBody s) (rdcwBody (s.withStrict b)) :=
  (checkCursors_inMode b s).bindMode fun _ s => (readCodeword_inMode b s _).bindMode fun _ _ => .ok () rfl

theorem wrcwBody_inMode : SameEnd (InMode b) (wrcwBody s) (wrcwBody (s.withStrict b)) :=
  (checkCursors_inMode b s).bindMode fun _ s => writeCodeword_inMode b s _ _

theorem alignwBody_inMode : SameEnd (InMode b) (alignwBody s) (alignwBody (s.withStrict b)) :=
  (checkCursors_inMode b s).bindMode fun _ _ => .ite (.raised _ rfl) (.ok () rfl)

/-! ### The quantizer -/

theorem qntBody_inMode (p : QMatrix) (idx : BitVec 6) :
    SameEnd (InMode b) (qntBody p idx s) (qntBody p idx (s.withStrict b)) := .ite (.raised _ rfl) (.ok () rfl)

theorem qntpBody_inMode (p : QMatrix) : SameEnd (InMode b) (qntpBody p s) (qntpBody p (s.withStrict b)) :=
  (checkBps_inMode b s).bindMode fun _ _ => .ite (.raised _ rfl) (.ok () rfl)

/-! ### The coefficient coder -/

theorem storeDc_withStrict (p : QMatrix) (dc : Word) : storeDc p dc (s.withStrict b) = (storeDc p dc s).withStrict b := by
  rw [storeDc_eq, storeDc_eq]
  rfl

theorem firstDc_inMode (p : QMatrix) : SameEnd (InMode b) (firstDc p s) (firstDc p (s.withStrict b)) := by
  refine (readCodeword_inMode b s _).bindMode fun code t => ?_
  simp only [State.withStrict_cfg]
  cases t.cfg.dcCtxInit with
  | const n => exact .ok () (storeDc_withStrict b t p _)
  | firstCode => exact .ok () (storeDc_withStrict b (t.withCtx { t.ctx with prevcode := s32 code }) p _)

theorem deltaDc_inMode (p : QMatrix) : SameEnd (InMode b) (deltaDc p s) (deltaDc p (s.withStrict b)) :=
  (readCodeword_inMode b s _).bindMode fun code t => .ok () (storeDc_withStrict b
    (t.withCtx { t.ctx with sign := nextSign t.ctx.sign code, prevcode := s32 code }) p _)

theorem dcStep_inMode (p : QMatrix) : SameEnd (InMode b) (dcStep p s) (dcStep p (s.withStrict b)) :=
  .ite (.ok () rfl) (.ite (.ok () rfl) (.ite (firstDc_inMode b s p) (deltaDc_inMode b s p)))

theorem dcsymBody_inMode (p : QMatrix) : SameEnd (InMode b) (dcsymBody p s) (dcsymBody p (s.withStrict b)) :=
  (checkCursors_inMode b s).bindMode fun _ s => (checkBps_inMode b s).bindMode fun _ s => dcStep_inMode b s p

theorem dcLoop_inMode (p : QMatrix) (n : Nat) : SameEnd (InMode b) (dcLoop p n s) (dcLoop p n (s.withStrict b)) := by
  induction n generalizing s with
  | zero => exact .ok () rfl
  | succ n ih => exact (dcStep_inMode b s p).bindMode fun _ t => .ite (.ok () rfl) (ih t)

theorem rddcBody_inMode (p : QMatrix) : SameEnd (InMode b) (rddcBody p s) (rddcBody p (s.withStrict b)) :=
  (checkCursors_inMode b s).bindMode fun _ s => (checkBps_inMode b s).bindMode fun _ s => dcLoop_inMode b (dcInit s) p s.bps

theorem acLevelSign_inMode (p : QMatrix) (np : Nat) (run : Int) :
    SameEnd (InMode b) (acLevelSign p np run s) (acLevelSign p np run (s.withStrict b)) :=
  (readCodeword_inMode b s _).bindMode fun _ s => (readBits_inMode b s 1).bindMode fun _ _ => .ok () rfl

theorem acStep_inMode (p : QMatrix) : SameEnd (InMode b) (acStep p s) (acStep p (s.withStrict b)) :=
  .ite (.ok () rfl) (.ite (.ok () rfl) ((readCodeword_inMode b s _).bindMode fun _ s =>
    .ite (.raised _ rfl) (.ite (.ok () rfl) (acLevelSign_inMode b s p _ _))))

theorem acsymBody_inMode (p : QMatrix) : SameEnd (InMode b) (acsymBody p s) (acsymBody p (s.withStrict b)) :=
  (checkCursors_inMode b s).bindMode fun _ s => (checkBps_inMode b s).bindMode fun _ s =>
    (checkMaxc_inMode b s).bindMode fun _ s => acStep_inMode b s p

theorem acLoop_inMode (p : QMatrix) (n : Nat) : SameEnd (InMode b) (acLoop p n s) (acLoop p n (s.withStrict b)) := by
  induction n generalizing s with
  | zero => exact .ok () rfl
  | succ n ih => exact (acStep_inMode b s p).bindMode fun _ t => .ite (.ok () rfl) (ih t)

theorem rdacBody_inMode (p : QMatrix) : SameEnd (InMode b) (rdacBody p s) (rdacBody p (s.withStrict b)) :=
  (checkCursors_inMode b s).bindMode fun _ s => (checkBps_inMode b s).bindMode fun _ s =>
    (checkMaxc_inMode b s).bindMode fun _ s => acLoop_inMode b (acInit s) p (63 * s.bps + 1)

theorem wrdcLoop_inMode (n blk : Nat) : SameEnd (InMode b) (wrdcLoop n blk s) (wrdcLoop n blk (s.withStrict b)) := by
  induction n generalizing blk s with
  | zero => exact .ok () rfl
  | succ n ih => exact (writeCodeword_inMode b s _ _).bindMode fun _ _ => ih _ _

theorem wrdcBody_inMode : SameEnd (InMode b) (wrdcBody s) (wrdcBody (s.withStrict b)) :=
  (checkCursors_inMode b s).bindMode fun _ s => (checkBps_inMode b s).bindMode fun _ s =>
    (writeCodeword_inMode b s _ _).bindMode fun _ _ => wrdcLoop_inMode b _ _ _

theorem writeTriple_inMode (pos run : Nat) (c : Word) :
    SameEnd (InMode b) (writeTriple pos run c s) (writeTriple pos run c (s.withStrict b)) :=
  (writeCodeword_inMode b s _ _).bindMode fun _ s => (writeCodeword_inMode b s _ _).bindMode fun _ _ =>
    .ite (.raised _ rfl) (.ok () rfl)

theorem wracLoop_inMode (n pos run : Nat) :
    SameEnd (InMode b) (wracLoop n pos run s) (wracLoop n pos run (s.withStrict b)) := by
  induction n generalizing pos run s with
  | zero => exact .ok () rfl
  | succ n ih => exact .ite (ih s _ _) ((writeTriple_inMode b s _ _ _).bindMode fun _ t => ih t _ _)

theorem wracBody_inMode : SameEnd (InMode b) (wracBody s) (wracBody (s.withStrict b)) :=
  (checkCursors_inMode b s).bindMode fun _ s => (checkBps_inMode b s).bindMode fun _ s =>
    (checkMaxc_inMode b s).bindMode fun _ s => wracLoop_inMode b (acContextAtStart s) _ _ _

/-! ### The header codec -/

theorem loadMatrix_withStrict (p : QMatrix) (off : Nat) (sc : BitVec 1) :
    loadMatrix p off sc (s.withStrict b) = (loadMatrix p off sc s).withStrict b := rfl

theorem withBs_withStrict (bs : Memory 8) : (s.withStrict b).withBs bs = (s.withBs bs).withStrict b := rfl

theorem storeMatrix_withStrict (p : QMatrix) (off : Nat) (sc : BitVec 1) :
    storeMatrix p off sc (s.withStrict b) = (storeMatrix p off sc s).withStrict b := by
  simp only [storeMatrix, State.qmAt, State.withStrict_cfg, State.withStrict_bs, State.withStrict_qm, withBs_withStrict]

theorem flatMatrix_withStrict (p : QMatrix) : flatMatrix p (s.withStrict b) = (flatMatrix p s).withStrict b := rfl

theorem loadMatrices_withStrict (flags2 : BitVec 8) (a : Nat) (sc : BitVec 1) :
    loadMatrices (s.withStrict b) flags2 a sc = (loadMatrices s flags2 a sc).withStrict b := by
  simp only [loadMatrices, loadMatrix_withStrict, flatMatrix_withStrict, ite_withStrict]

theorem storeMatrices_withStrict (flags2 : BitVec 8) (a : Nat) (sc : BitVec 1) :
    storeMatrices (s.withStrict b) flags2 a sc = (storeMatrices s flags2 a sc).withStrict b := by
  simp only [storeMatrices, storeMatrix_withStrict, flatMatrix_withStrict, ite_withStrict]

theorem openFrame_withStrict (h : FrameHeader) (bs : Memory 8) :
    openFrame (s.withStrict b) h bs = (openFrame s h bs).withStrict b := rfl

theorem closeFrame_withStrict (a : Nat) (h : FrameHeader) :
    closeFrame (s.withStrict b) a h = (closeFrame s a h).withStrict b := rfl

theorem commitFrame_withStrict (a : Nat) (h : FrameHeader) :
    commitFrame a h (s.withStrict b) = (commitFrame a h s).withStrict b := by
  rw [commitFrame_eq_closeFrame, commitFrame_eq_closeFrame, openFrame_withStrict, loadMatrices_withStrict, closeFrame_withStrict,
    State.withStrict_bs]

theorem commitWriteFrame_withStrict (a : Nat) : commitWriteFrame a (s.withStrict b) = (commitWriteFrame a s).withStrict b := by
  rw [commitWriteFrame_eq_closeFrame, commitWriteFrame_eq_closeFrame, openFrame_withStrict, storeMatrices_withStrict,
    closeFrame_withStrict, State.withStrict_fh, State.withStrict_bs]

theorem probeBody_inMode : SameEnd (InMode b) (probeBody s) (probeBody (s.withStrict b)) :=
  (checkBuffer_inMode b s).bindMode fun _ _ => .ok () rfl

theorem checkFrame_inMode (a : Nat) (h : FrameHeader) :
    SameEnd (InMode b) (checkFrame a h s) (checkFrame a h (s.withStrict b)) :=
  .ite (.raised _ rfl) (.ite (.raised _ rfl) (.ite (.raised _ rfl) (.ite (.raised _ rfl) (.ite (.raised _ rfl)
    (.ite (.raised _ rfl) (.ok () rfl))))))

theorem pfrmBody_inMode : SameEnd (InMode b) (pfrmBody s) (pfrmBody (s.withStrict b)) :=
  (checkBuffer_inMode b s).bindMode fun _ s => (checkFrame_inMode b s _ _).bindMode fun _ t =>
    .ok () (commitFrame_withStrict b t _ _)

theorem checkPicture_inMode (a : Nat) : SameEnd (InMode b) (checkPicture a s) (checkPicture a (s.withStrict b)) :=
  .ite (.raised _ rfl) (.ite (.raised _ rfl) (.ite (.raised _ rfl) (.ite (.raised _ rfl) (.ok () rfl))))

theorem ppicBody_inMode : SameEnd (InMode b) (ppicBody s) (ppicBody (s.withStrict b)) :=
  (checkBuffer_inMode b s).bindMode fun _ s => (checkPicture_inMode b s _).bindMode fun _ _ => .ok () rfl

theorem deliverSlice_withStrict (c : Nat) : deliverSlice c (s.withStrict b) = (deliverSlice c s).withStrict b := rfl

theorem nxslBody_inMode : SameEnd (InMode b) (nxslBody s) (nxslBody (s.withStrict b)) :=
  (checkBuffer_inMode b s).bindMode fun _ s => .ite (.ok () rfl) (.ite (.raised _ rfl) (.ite (.raised _ rfl)
    (.ok () (deliverSlice_withStrict b s _))))

theorem pslcBody_inMode : SameEnd (InMode b) (pslcBody s) (pslcBody (s.withStrict b)) :=
  (checkBuffer_inMode b s).bindMode fun _ _ => .ite (.raised _ rfl) (.ite (.raised _ rfl) (.ok () rfl))

theorem selplBody_inMode (k : BitVec 2) : SameEnd (InMode b) (selplBody k s) (selplBody k (s.withStrict b)) :=
  (checkBuffer_inMode b s).bindMode fun _ _ => .ite (.raised _ rfl) (.ite (.raised _ rfl) (.ok () rfl))

theorem wfrmBody_inMode : SameEnd (InMode b) (wfrmBody s) (wfrmBody (s.withStrict b)) :=
  (checkBuffer_inMode b s).bindMode fun _ s => .ite (.raised _ rfl) (.ite (.raised _ rfl)
    (.ok () (commitWriteFrame_withStrict b s _)))

theorem checkWritePicture_inMode (a : Nat) :
    SameEnd (InMode b) (checkWritePicture a s) (checkWritePicture a (s.withStrict b)) :=
  .ite (.raised _ rfl) (.ite (.raised _ rfl) (.ite (.raised _ rfl) (.ite (.raised _ rfl) (.ok () rfl))))

theorem wpicBody_inMode : SameEnd (InMode b) (wpicBody s) (wpicBody (s.withStrict b)) :=
  (checkBuffer_inMode b s).bindMode fun _ s => (checkWritePicture_inMode b s _).bindMode fun _ _ => .ok () rfl

theorem checkWriteSlice_inMode : SameEnd (InMode b) (checkWriteSlice s) (checkWriteSlice (s.withStrict b)) :=
  .ite (.raised _ rfl) (.ite (.raised _ rfl) (.ite (.raised _ rfl) (.ite (.raised _ rfl) (.ite (.raised _ rfl) (.ok () rfl)))))

theorem wslcBody_inMode : SameEnd (InMode b) (wslcBody s) (wslcBody (s.withStrict b)) :=
  (checkBuffer_inMode b s).bindMode fun _ s => (checkWriteSlice_inMode b s).bindMode fun _ _ => .ok () rfl

/-! ### A whole command -/

/-- No pseudocode reads `CTRL.STRICT`. -/
theorem body_inMode (i : Instr) : SameEnd (InMode b) (Instr.body i s) (Instr.body i (s.withStrict b)) := by
  cases i with
  | nop | srst | clrf => exact .ok () rfl
  | ldcb cls ctx => exact .ok () rfl
  | rdcw => exact rdcwBody_inMode b s
  | wrcw => exact wrcwBody_inMode b s
  | zzdec | zzenc => exact .ok () rfl
  | alignw => exact alignwBody_inMode b s
  | probe => exact probeBody_inMode b s
  | pfrm => exact pfrmBody_inMode b s
  | ppic => exact ppicBody_inMode b s
  | nxsl => exact nxslBody_inMode b s
  | pslc => exact pslcBody_inMode b s
  | selpl k => exact selplBody_inMode b s k
  | wfrm => exact wfrmBody_inMode b s
  | wpic => exact wpicBody_inMode b s
  | wslc => exact wslcBody_inMode b s
  | dcinit | acinit => exact (checkBps_inMode b s).bindMode fun _ _ => .ok () rfl
  | dcsym p => exact dcsymBody_inMode b s p
  | rddc p => exact rddcBody_inMode b s p
  | acsym p => exact acsymBody_inMode b s p
  | rdac p => exact rdacBody_inMode b s p
  | wrdc => exact wrdcBody_inMode b s
  | wrac => exact wracBody_inMode b s
  | foldq | scaleq => exact .ok () rfl
  | deq p idx => exact .ok () rfl
  | qnt p idx => exact qntBody_inMode b s p idx
  | qntp p => exact qntpBody_inMode b s p

end

/-- Two states that differ at most in `CTRL`, the fault record and log, and the flags HALT, CORRUPT and ABANDON (R273). -/
def SameData (t u : State) : Prop :=
  { u with strict := t.strict, record := t.record,
           status := { u.status with halt := t.status.halt, corrupt := t.status.corrupt, abandon := t.status.abandon } } = t

theorem sameData_refl (s : State) : SameData s s := rfl

theorem sameData_withStrict (s : State) (b : Bool) : SameData s (s.withStrict b) := rfl

/-- A fault raised in both modes, concealed in the one and fatal in the other or fatal in both (R270, R272). -/
theorem sameData_takeFault (i : Instr) (s₀ u₀ : State) (r : Raise) (s : State) (b : Bool) :
    SameData (takeFault i s₀ r s) (takeFault i u₀ r (s.withStrict b)) := by
  rcases takeFault_cases i s₀ r s with ⟨-, -, e⟩ | ⟨-, e⟩ <;>
    rcases takeFault_cases i u₀ r (s.withStrict b) with ⟨-, -, e'⟩ | ⟨-, e'⟩ <;> rw [e, e'] <;> rfl

/-- SELPL with the reserved plane is no command (30_encoding.md R104). -/
theorem exec_of_not_wellFormed {i : Instr} (h : ¬WellFormed i = true) (s : State) : exec i s = .next (illegalWord (encode i) s) := by
  cases i
  case selpl k =>
    have hk : planeLegal k = false := (Bool.not_eq_true _).mp h
    show execSelpl k s = _
    rw [execSelpl, if_pos (by simp [hk])]
  all_goals exact absurd rfl h

theorem sameData_illegalWord (w : Word) (s : State) (b : Bool) :
    SameData (illegalWord w s) (illegalWord w (s.withStrict b)) := by
  cases hhalt : s.status.halt <;> simp only [illegalWord, State.withStrict_status, hhalt] <;> rfl

/-- Running a command whose pseudocode ends alike in both modes (R269 to R273). -/
theorem sameData_runCommand {i : Instr} {s t u : State} {b : Bool} {body : State → Res Unit}
    (hbody : SameEnd (InMode b) (body s) (body (s.withStrict b))) (ht : runCommand i s body = .next t)
    (hu : runCommand i (s.withStrict b) body = .next u) : SameData t u := by
  cases hhalt : s.status.halt with
  | true =>
    rw [runCommand_halted hhalt] at ht
    rw [runCommand_halted (s := s.withStrict b) hhalt] at hu
    cases ht
    cases hu
    rfl
  | false =>
    have hhalt' : Running (s.withStrict b) := hhalt
    generalize hx : body s = x at hbody
    generalize hy : body (s.withStrict b) = y at hbody
    cases hbody with
    | ok a h =>
      rw [runCommand_ok hhalt hx] at ht
      rw [runCommand_ok hhalt' hy] at hu
      cases ht
      cases hu
      cases h
      exact sameData_withStrict _ b
    | raised r h =>
      rw [runCommand_raised hhalt hx] at ht
      rw [runCommand_raised hhalt' hy] at hu
      cases ht
      cases hu
      cases h
      exact sameData_takeFault i s (s.withStrict b) r _ b

/-- One command from one state in two modes. -/
theorem sameData_exec {i : Instr} {s t u : State} {b : Bool} (ht : exec i s = .next t)
    (hu : exec i (s.withStrict b) = .next u) : SameData t u := by
  by_cases hsrst : i = .srst
  · subst hsrst
    cases ht
    cases hu
    exact sameData_refl (softReset s)
  by_cases hclrf : i = .clrf
  · subst hclrf
    cases ht
    cases hu
    exact sameData_withStrict (clearFaults s) b
  by_cases hwf : WellFormed i = true
  · rw [exec_eq_runCommand hwf hsrst hclrf] at ht hu
    exact sameData_runCommand (body_inMode b s i) ht hu
  · rw [exec_of_not_wellFormed hwf] at ht hu
    cases ht
    cases hu
    exact sameData_illegalWord (encode i) s b

/-- Settles O10: the pseudocode ends alike in both modes, and taking its fault leaves the same data. -/
theorem strictModeSameData : Obligations.StrictModeSameData :=
  fun _ s _ _ ht hu => sameData_exec (s := s.withStrict false) (b := true) ht hu

end Sys2Proof.Machine

/-! PROOFS. The state after reset, the base case of both invariants (70_reset_and_hazards.md R301, R302). -/

namespace Sys2Proof.Machine

/-- QM and QMS list no entry; BS, COEF and SST are built from whatever pairs they hold at power-on (R302). -/
theorem reset_memoriesWf : State.reset.memoriesWf where
  bs := Memory.ofPairs_wf _ _ _
  coef := Memory.ofPairs_wf _ _ _
  qm := Memory.wf_nil _
  qms := Memory.wf_nil _
  sst := Memory.ofPairs_wf _ _ _
  bsInside := Memory.ofPairs_inside _ _ _
  coefInside := Memory.ofPairs_inside _ _ _
  qmInside := Memory.inside_nil _
  qmsInside := Memory.inside_nil _
  sstInside := Memory.ofPairs_inside _ _ _

/-- No fault stands and none is logged (R301). -/
theorem reset_recordAgrees : State.reset.recordAgrees := recordAgrees_of_clear rfl rfl rfl rfl

/-- Both default scan tables are permutations of 0 to 63 from 0 (R46). -/
theorem defaultScanrom_legal :
    scanTableLegal defaultScanrom.progressive = true ∧ scanTableLegal defaultScanrom.interlaced = true := by
  decide

/-- The default parameters stand in their ranges. -/
theorem reset_cfg_wf : State.reset.cfg.wf = true := by
  obtain ⟨progressive, interlaced⟩ := defaultScanrom_legal
  refine decide_eq_true ⟨?_, ?_, ?_, ?_, ?_, progressive, interlaced⟩ <;> decide

/-- Settles O15: each conjunct by its own lemma; the memories of unknown contents by the laws of `Memory.ofPairs`. -/
theorem resetMeetsInvariants : Obligations.ResetMeetsInvariants :=
  ⟨reset_memoriesWf, reset_recordAgrees, reset_cfg_wf⟩

end Sys2Proof.Machine
